-- ==== Sys2Proof/Word.lean ====
section
/-! DEFINITION. The word types of the machine and the plainest operations on them (00_scope R9, R11). -/

namespace Sys2Proof

/-- A 64-bit register value (10_state R29). -/
abbrev Word := BitVec 64

/-- An instruction word (30_encoding R425). -/
abbrev Word32 := BitVec 32

/-- A byte of memory (20_memory R400). -/
abbrev Byte := BitVec 8

/-- A Boolean as a one-bit value, for concatenations written as R11 writes them. -/
abbrev bit (b : Bool) : BitVec 1 := BitVec.ofBool b

end Sys2Proof
end

