-- ==== Sys2Proof/Config.lean ====
section
/-! DEFINITION. What an implementation fixes (00_scope R6, R7; 93 section 2) and the free values (00_scope R8).
The parameters are plain data that State carries and no step writes, so that a statement about every state is
a statement about every implementation (log 2). The free values are constants without a body (log 4). -/

namespace Sys2Proof

/-- Exception levels, EL0 least privileged (60_exceptions R553). -/
inductive EL where
  | el0 | el1 | el2 | el3
deriving DecidableEq, Repr

/-- Features the syndrome encodings test (00_scope R6; the gates whose name the source lost, 91 N7, are
`pfar`, `wu`, `serrWU`, `serrELS`, `serrVFV`, `serrIESB`, `serrWnRV`, `wpt`, `tagAccess` and `assuredOnly`). The gate of WU is
lost twice, in a Data Abort (13_esr_iss_b R190) and in an SError (R223): that each is a parameter of its own, `wu` and `serrWU`,
is the model's choice (log 32). The instructions that FEAT_FPACCOMBINE gates are lost (R255, 91 N27): that nothing reads
`fpaccombine` is the model's choice (log 20). `fpSimd` is Advanced SIMD and floating-point (12_esr_iss_a R102, R148), and
`ifscImplDefined` is that IFSC has the two IMPLEMENTATION DEFINED fault codes (93 I8; log 20). -/
structure SyndromeFeatures where
  ls64 : Bool
  ls64v : Bool
  ls64accdata : Bool
  bti : Bool
  sysreg128 : Bool
  sysinstr128 : Bool
  fpSimd : Bool
  sve : Bool
  sme : Bool
  sme2 : Bool
  tme : Bool
  fpac : Bool
  fpaccombine : Bool
  mops : Bool
  gcs : Bool
  ebep : Bool
  sebep : Bool
  wfxt : Bool
  s1poe : Bool
  s1pie : Bool
  mte : Bool
  mte2 : Bool
  mteCanonicalTags : Bool
  ras : Bool
  rasv2 : Bool
  lpa2 : Bool
  d128 : Bool
  rme : Bool
  hafdbs : Bool
  pfar : Bool
  wu : Bool
  serrWU : Bool
  serrELS : Bool
  serrVFV : Bool
  serrIESB : Bool
  serrWnRV : Bool
  wpt : Bool
  tagAccess : Bool
  assuredOnly : Bool
  ifscImplDefined : Bool
deriving DecidableEq, Repr

/-- Features that gate a field of SPSR_EL1 and of no syndrome (14_spsr_el1 R290). -/
structure PStateFeatures where
  pauthLR : Bool
  dit : Bool
  uao : Bool
  pan : Bool
  nmi : Bool
  ssbs : Bool
deriving DecidableEq, Repr

/-- Features of the debug registers and of the accessors (00_scope R6; `trf`, `pcsrv8p2` of 15 R341, R351). -/
structure DebugFeatures where
  fgt : Bool
  debugv8p9 : Bool
  debugv8p2 : Bool
  vhe : Bool
  vmid16 : Bool
  lva : Bool
  trf : Bool
  pcsrv8p2 : Bool
  etmv4 : Bool
deriving DecidableEq, Repr

/-- Features of the profiling registers (16_profiling_regs R361, R381, R386). -/
structure ProfilingFeatures where
  spe : Bool
  speEFT : Bool
  speFPF : Bool
  speFDS : Bool
  spev1p2 : Bool
  brbe : Bool
  ecv : Bool
  pmuv3 : Bool
  pmuv3SS : Bool
deriving DecidableEq, Repr

/-- The implementation parameters (00_scope R6, R7; 93 section 2). EL1 and above use AArch64 (92 D7), so there is
no parameter for AArch64; `aarch64View` is the table of AArch64View(r4, mode) at index 16 * mode + r4
(12_esr_iss_a R124). `bigEndEL<n>` and `littleEndEL<n>` are BigEndSupported and LittleEndSupported of each Exception level (R7). -/
structure Config where
  synd : SyndromeFeatures
  pst : PStateFeatures
  dbg : DebugFeatures
  prof : ProfilingFeatures
  haveAArch32 : Bool
  haveEL2 : Bool
  haveEL3 : Bool
  numWatchpoints : Nat
  numBreakpoints : Nat
  bigEndEL0 : Bool
  littleEndEL0 : Bool
  bigEndEL1 : Bool
  littleEndEL1 : Bool
  bigEndEL2 : Bool
  littleEndEL2 : Bool
  bigEndEL3 : Bool
  littleEndEL3 : Bool
  fpTrapSupported : Bool
  el3TrapPriorityWhenSDD : Bool
  ressHardwired : Bool
  wptvAlways : Bool
  tcoWithoutMTE2 : Bool
  speTypeFilterEmptyOr : Bool
  vmidBits : Nat
  aarch64View : Vector (BitVec 5) 256
  debugBase : Word
  nvMemBase : Word
  nvMemBigEndian : Bool
  resetPC : Word
deriving DecidableEq, Repr

/-- Every syndrome feature present. -/
def SyndromeFeatures.all : SyndromeFeatures :=
  { ls64 := true, ls64v := true, ls64accdata := true, bti := true, sysreg128 := true, sysinstr128 := true,
    fpSimd := true, sve := true, sme := true, sme2 := true, tme := true, fpac := true, fpaccombine := true, mops := true,
    gcs := true, ebep := true, sebep := true, wfxt := true, s1poe := true, s1pie := true, mte := true,
    mte2 := true, mteCanonicalTags := true, ras := true, rasv2 := true, lpa2 := true, d128 := true,
    rme := true, hafdbs := true, pfar := true, wu := true, serrWU := true, serrELS := true, serrVFV := true,
    serrIESB := true, serrWnRV := true, wpt := true, tagAccess := true, assuredOnly := true,
    ifscImplDefined := true }

/-- The parameters State.reset carries: every feature, EL2 and EL3 implemented (log 2, DESIGN CHOICE). -/
def Config.reference : Config :=
  { synd := SyndromeFeatures.all
    pst := { pauthLR := true, dit := true, uao := true, pan := true, nmi := true, ssbs := true }
    dbg := { fgt := true, debugv8p9 := true, debugv8p2 := true, vhe := true, vmid16 := true, lva := true,
             trf := true, pcsrv8p2 := true, etmv4 := true }
    prof := { spe := true, speEFT := true, speFPF := true, speFDS := true, spev1p2 := true, brbe := true,
              ecv := true, pmuv3 := true, pmuv3SS := true }
    haveAArch32 := true, haveEL2 := true, haveEL3 := true
    numWatchpoints := 64, numBreakpoints := 16
    bigEndEL0 := true, littleEndEL0 := true, bigEndEL1 := true, littleEndEL1 := true
    bigEndEL2 := true, littleEndEL2 := true, bigEndEL3 := true, littleEndEL3 := true
    fpTrapSupported := true, el3TrapPriorityWhenSDD := false, ressHardwired := false, wptvAlways := true
    tcoWithoutMTE2 := false, speTypeFilterEmptyOr := true, vmidBits := 16
    aarch64View := Vector.ofFn (fun i => BitVec.ofNat 5 (i.val % 16))
    debugBase := 0, nvMemBase := 0x80000, nvMemBigEndian := false, resetPC := 0 }

/-- The highest implemented Exception level, where a reset starts the PE (70_reset R588). -/
def Config.resetEL (c : Config) : EL :=
  if c.haveEL3 then .el3 else if c.haveEL2 then .el2 else .el1

/-- The n-th UNKNOWN value or free choice of a run: no value of it can be proved (00_scope R8, 92 D2; log 4). -/
opaque Config.unknown64 : Nat → Word

/-- The free choices that stay the same throughout a run, one for each point where 93 says 'per run' (P6, V4): no value of them can
be proved (log 4). -/
opaque Config.runChoice : Nat → Word

end Sys2Proof
end

