-- ==== Sys2Proof/Syntax.lean ====
section
/-! DEFINITION. The instructions: one constructor for each row of spec/opcode_table.json (30_encoding R431, R439).
`t` is the number Rt of the general register (R429), `m` the watchpoint index of the encoding (R430). -/

namespace Sys2Proof

/-- The 22 MRS and MSR forms of the spec, in the order of the opcode table. -/
inductive Instr where
  | mrsEsrEl1 (t : Nat)
  | msrEsrEl1 (t : Nat)
  | mrsEsrEl12 (t : Nat)
  | msrEsrEl12 (t : Nat)
  | mrsEsrEl2 (t : Nat)
  | msrEsrEl2 (t : Nat)
  | mrsSpsrEl1 (t : Nat)
  | msrSpsrEl1 (t : Nat)
  | mrsSpsrEl12 (t : Nat)
  | msrSpsrEl12 (t : Nat)
  | mrsSpsrEl2 (t : Nat)
  | msrSpsrEl2 (t : Nat)
  | mrsDbgwcr (m t : Nat)
  | msrDbgwcr (m t : Nat)
  | mrsMdscr (t : Nat)
  | msrMdscr (t : Nat)
  | mrsPmsfcr (t : Nat)
  | msrPmsfcr (t : Nat)
  | mrsBrbcrEl1 (t : Nat)
  | msrBrbcrEl1 (t : Nat)
  | mrsBrbcrEl12 (t : Nat)
  | msrBrbcrEl12 (t : Nat)
deriving DecidableEq, Repr

/-- The fields of an instruction word in the format SYSREG (30_encoding R426, R427). `read` is L: true for MRS. -/
structure SysFields where
  read : Bool
  op0 : BitVec 2
  op1 : BitVec 3
  crn : BitVec 4
  crm : BitVec 4
  op2 : BitVec 3
  rt : BitVec 5
deriving DecidableEq, Repr

/-- Why a word is outside this spec (30_encoding R436): both answers are the outcome OutOfScope. -/
inductive DecodeReject where
  /-- the fixed bits [31:22] or bit 20 are not those of the format SYSREG (R427) -/
  | notSysRegForm
  /-- an MRS or MSR of a System register that is none of the eleven names (R431) -/
  | notOneOfTheNames
deriving DecidableEq, Repr

end Sys2Proof
end

