-- ==== Sys2Proof/WellFormed.lean ====
section
/-! DEFINITION. Which instruction terms and which parameters the spec admits. -/

namespace Sys2Proof

/-- A general register number fits the five bits of Rt; 31 is the zero register (30_encoding R426, R429). -/
def rtInRange (t : Nat) : Bool := decide (t < 32)

/-- A watchpoint index fits the four bits of CRm (30_encoding R430). -/
def wpIndexInRange (m : Nat) : Bool := decide (m < 16)

/-- The operands of an instruction fit their encoding fields. -/
def Instr.wellFormed : Instr → Bool
  | .mrsEsrEl1 t | .msrEsrEl1 t | .mrsEsrEl12 t | .msrEsrEl12 t | .mrsEsrEl2 t | .msrEsrEl2 t
  | .mrsSpsrEl1 t | .msrSpsrEl1 t | .mrsSpsrEl12 t | .msrSpsrEl12 t | .mrsSpsrEl2 t | .msrSpsrEl2 t
  | .mrsMdscr t | .msrMdscr t | .mrsPmsfcr t | .msrPmsfcr t
  | .mrsBrbcrEl1 t | .msrBrbcrEl1 t | .mrsBrbcrEl12 t | .msrBrbcrEl12 t => rtInRange t
  | .mrsDbgwcr m t | .msrDbgwcr m t => wpIndexInRange m && rtInRange t

/-- The number of watchpoints is admitted: 1 to 16, or to 64 with FEAT_Debugv8p9 (92 D19). -/
def Config.watchpointsOk (c : Config) : Bool :=
  decide (1 ≤ c.numWatchpoints ∧ c.numWatchpoints ≤ (if c.dbg.debugv8p9 then 64 else 16))

/-- The number of breakpoints is admitted: 1 to 16 (92 D19, 15_debug_regs R317). -/
def Config.breakpointsOk (c : Config) : Bool :=
  decide (1 ≤ c.numBreakpoints ∧ c.numBreakpoints ≤ 16)

/-- Byte order support: not both absent at one Exception level that exists (93 section 2). -/
def Config.endianOk (c : Config) : Bool :=
  (c.bigEndEL0 || c.littleEndEL0) && (c.bigEndEL1 || c.littleEndEL1)
    && (!c.haveEL2 || c.bigEndEL2 || c.littleEndEL2) && (!c.haveEL3 || c.bigEndEL3 || c.littleEndEL3)

/-- VMIDBits is 8 or 16, and 16 only with FEAT_VMID16 (93 section 2). -/
def Config.vmidOk (c : Config) : Bool :=
  decide (c.vmidBits = 8) || (decide (c.vmidBits = 16) && c.dbg.vmid16)

/-- NVMemBase is a multiple of 8 (20_memory R402). -/
def Config.nvMemAligned (c : Config) : Bool := decide (c.nvMemBase.toNat % 8 = 0)

/-- The constraints the spec puts on the parameters (00_scope R7; 93 section 2). -/
def Config.wellFormed (c : Config) : Bool :=
  c.watchpointsOk && c.breakpointsOk && c.endianOk && c.vmidOk && c.nvMemAligned

end Sys2Proof
end

