-- ==== Sys2Proof/Decode.lean ====
section
/-! DEFINITION. Decoding of instruction words, and after it the encoder (30_encoding R425 to R436). -/

namespace Sys2Proof

/-- The fields at their places in the word (R427); op0 is 1 followed by o0. -/
def fieldsOfWord (w : Word32) : SysFields :=
  { read := w.getLsbD 21
    op0 := 1#1 ++ w.extractLsb' 19 1
    op1 := w.extractLsb' 16 3
    crn := w.extractLsb' 12 4
    crm := w.extractLsb' 8 4
    op2 := w.extractLsb' 5 3
    rt := w.extractLsb' 0 5 }

/-- The fixed bits of the format: [31:22] are 0b1101010100 and bit 20 is 1 (R427). -/
def isSysRegForm (w : Word32) : Bool :=
  w.extractLsb' 22 10 == 0b1101010100#10 && w.getLsbD 20

/-- MRS when L is 1 and MSR when it is 0 (R427). -/
def pick (f : SysFields) (mrs msr : Instr) : Instr := if f.read then mrs else msr

/-- Whether the five encoding fields are those of a row of R431. -/
def named (f : SysFields) (op0 : BitVec 2) (op1 : BitVec 3) (crn crm : BitVec 4) (op2 : BitVec 3) : Bool :=
  f.op0 == op0 && f.op1 == op1 && f.crn == crn && f.crm == crm && f.op2 == op2

/-- The name the fields select, by the table of R431. -/
def instrOfFields (f : SysFields) : Except DecodeReject Instr :=
  let t := f.rt.toNat
  if named f 0b11 0b000 0b0101 0b0010 0b000 then .ok (pick f (.mrsEsrEl1 t) (.msrEsrEl1 t))
  else if named f 0b11 0b101 0b0101 0b0010 0b000 then .ok (pick f (.mrsEsrEl12 t) (.msrEsrEl12 t))
  else if named f 0b11 0b100 0b0101 0b0010 0b000 then .ok (pick f (.mrsEsrEl2 t) (.msrEsrEl2 t))
  else if named f 0b11 0b000 0b0100 0b0000 0b000 then .ok (pick f (.mrsSpsrEl1 t) (.msrSpsrEl1 t))
  else if named f 0b11 0b101 0b0100 0b0000 0b000 then .ok (pick f (.mrsSpsrEl12 t) (.msrSpsrEl12 t))
  else if named f 0b11 0b100 0b0100 0b0000 0b000 then .ok (pick f (.mrsSpsrEl2 t) (.msrSpsrEl2 t))
  else if named f 0b10 0b000 0b0000 f.crm 0b111 then
    .ok (pick f (.mrsDbgwcr f.crm.toNat t) (.msrDbgwcr f.crm.toNat t))
  else if named f 0b10 0b000 0b0000 0b0010 0b010 then .ok (pick f (.mrsMdscr t) (.msrMdscr t))
  else if named f 0b11 0b000 0b1001 0b1001 0b100 then .ok (pick f (.mrsPmsfcr t) (.msrPmsfcr t))
  else if named f 0b10 0b001 0b1001 0b0000 0b000 then .ok (pick f (.mrsBrbcrEl1 t) (.msrBrbcrEl1 t))
  else if named f 0b10 0b101 0b1001 0b0000 0b000 then .ok (pick f (.mrsBrbcrEl12 t) (.msrBrbcrEl12 t))
  else .error .notOneOfTheNames

/-- The fields are those of an MRS or MSR of one of the eleven names, at any Rt (R431). -/
def isAccessor (f : SysFields) : Bool :=
  match instrOfFields f with
  | .ok _ => true
  | .error _ => false

/-- Decoding is total: every word is an instruction of the spec or is rejected by name (R427, R436). -/
def decode (w : Word32) : Except DecodeReject Instr :=
  if isSysRegForm w then instrOfFields (fieldsOfWord w) else .error .notSysRegForm

/-- A row of R431 for a direction and a register number. -/
def sysFields (read : Bool) (op0 : BitVec 2) (op1 : BitVec 3) (crn crm : BitVec 4) (op2 : BitVec 3)
    (t : Nat) : SysFields :=
  { read := read, op0 := op0, op1 := op1, crn := crn, crm := crm, op2 := op2, rt := BitVec.ofNat 5 t }

/-- The encoding fields of each instruction (R431). -/
def Instr.fields : Instr → SysFields
  | .mrsEsrEl1 t => sysFields true 0b11 0b000 0b0101 0b0010 0b000 t
  | .msrEsrEl1 t => sysFields false 0b11 0b000 0b0101 0b0010 0b000 t
  | .mrsEsrEl12 t => sysFields true 0b11 0b101 0b0101 0b0010 0b000 t
  | .msrEsrEl12 t => sysFields false 0b11 0b101 0b0101 0b0010 0b000 t
  | .mrsEsrEl2 t => sysFields true 0b11 0b100 0b0101 0b0010 0b000 t
  | .msrEsrEl2 t => sysFields false 0b11 0b100 0b0101 0b0010 0b000 t
  | .mrsSpsrEl1 t => sysFields true 0b11 0b000 0b0100 0b0000 0b000 t
  | .msrSpsrEl1 t => sysFields false 0b11 0b000 0b0100 0b0000 0b000 t
  | .mrsSpsrEl12 t => sysFields true 0b11 0b101 0b0100 0b0000 0b000 t
  | .msrSpsrEl12 t => sysFields false 0b11 0b101 0b0100 0b0000 0b000 t
  | .mrsSpsrEl2 t => sysFields true 0b11 0b100 0b0100 0b0000 0b000 t
  | .msrSpsrEl2 t => sysFields false 0b11 0b100 0b0100 0b0000 0b000 t
  | .mrsDbgwcr m t => sysFields true 0b10 0b000 0b0000 (BitVec.ofNat 4 m) 0b111 t
  | .msrDbgwcr m t => sysFields false 0b10 0b000 0b0000 (BitVec.ofNat 4 m) 0b111 t
  | .mrsMdscr t => sysFields true 0b10 0b000 0b0000 0b0010 0b010 t
  | .msrMdscr t => sysFields false 0b10 0b000 0b0000 0b0010 0b010 t
  | .mrsPmsfcr t => sysFields true 0b11 0b000 0b1001 0b1001 0b100 t
  | .msrPmsfcr t => sysFields false 0b11 0b000 0b1001 0b1001 0b100 t
  | .mrsBrbcrEl1 t => sysFields true 0b10 0b001 0b1001 0b0000 0b000 t
  | .msrBrbcrEl1 t => sysFields false 0b10 0b001 0b1001 0b0000 0b000 t
  | .mrsBrbcrEl12 t => sysFields true 0b10 0b101 0b1001 0b0000 0b000 t
  | .msrBrbcrEl12 t => sysFields false 0b10 0b101 0b1001 0b0000 0b000 t

/-- The word of the fields: 0b1101010100 : L : 1 : o0 : op1 : CRn : CRm : op2 : Rt (R427). -/
def wordOfFields (f : SysFields) : Word32 :=
  0b1101010100#10 ++ bit f.read ++ 1#1 ++ f.op0.extractLsb' 0 1 ++ f.op1 ++ f.crn ++ f.crm ++ f.op2 ++ f.rt

/-- The word of an instruction (R427, R431). -/
def encode (i : Instr) : Word32 := wordOfFields i.fields

/-- The host's reading of an opcode-table word: `nbits` bits of the number `w`, every bit above them 0. An instruction
is one 32-bit word (R425) and the program is a list of words (20_memory R418), so there is no byte order to settle. -/
def decodeTableWord (nbits w : Nat) : Option Instr :=
  match decode (BitVec.ofNat 32 (w % 2 ^ nbits)) with
  | .ok i => some i
  | .error _ => none

end Sys2Proof
end

