-- ==== Sys2Proof/Machine/Types.lean ====
section
/-! DEFINITION. The plain data the machine's state is made of: PSTATE, the environment record, exception causes,
the environment's inputs, and the answers of an accessor chain. -/

namespace Sys2Proof.Machine

open Sys2Proof

/-- PSTATE, field by field as 10_state R28 lists it. `EL` and `SP` are saved together as M[3:0] in the AArch64 view;
`M` is the AArch32 mode. -/
structure PState where
  N : Bool
  Z : Bool
  C : Bool
  V : Bool
  Q : Bool
  GE : BitVec 4
  IT : BitVec 8
  DIT : Bool
  SSBS : Bool
  PAN : Bool
  UAO : Bool
  TCO : Bool
  SS : Bool
  IL : Bool
  E : Bool
  D : Bool
  A : Bool
  I : Bool
  F : Bool
  ALLINT : Bool
  PM : Bool
  PPEND : Bool
  T : Bool
  BTYPE : BitVec 2
  PACM : Bool
  EXLOCK : Bool
  nRW : Bool
  EL : EL
  SP : Bool
  M : BitVec 4
  SM : Bool
  ZA : Bool
deriving DecidableEq, Repr

/-- Hypervisor controls the accessors read (10_state R40, 00_scope R16); `nvx` is EffectiveHCR_EL2_NVx(), NV2 : NV1 : NV. -/
structure HypControls where
  el2Enabled : Bool
  elIsInHost : Bool
  e2h : Bool
  tge : Bool
  nvx : BitVec 3
  trvm : Bool
  tvm : Bool
  el2AArch32 : Bool
deriving DecidableEq, Repr

/-- Fine-grained trap controls (10_state R40): `rd` bits of HFGRTR_EL2 and HDFGRTR_EL2, `wr` bits of HFGWTR_EL2 and
HDFGWTR_EL2; the two NBRBCTL bits trap when 0. -/
structure FineGrained where
  fgtEn : Bool
  rdESR : Bool
  wrESR : Bool
  rdDBGWCR : Bool
  wrDBGWCR : Bool
  rdMDSCR : Bool
  wrMDSCR : Bool
  rdPMSFCR : Bool
  wrPMSFCR : Bool
  rdNBRBCTL : Bool
  wrNBRBCTL : Bool
deriving DecidableEq, Repr

/-- MDCR_EL2, MDCR_EL3 and SCR_EL3 fields the accessors read (10_state R40). -/
structure MonControls where
  ns : Bool
  nse : Bool
  mdcr2TDE : Bool
  mdcr2TDA : Bool
  mdcr2TPMS : Bool
  mdcr3TDA : Bool
  nspb : BitVec 2
  nspbe : Bool
  sbrbe : BitVec 2
deriving DecidableEq, Repr

/-- The EDSCR fields the spec names (10_state R41): ten behind windows of MDSCR_EL1, and SDD. -/
structure EDSCR where
  TFO : Bool
  RXfull : Bool
  TXfull : Bool
  RXO : Bool
  TXU : Bool
  INTdis : BitVec 2
  TDA : Bool
  SC2 : Bool
  HDE : Bool
  ERR : Bool
  SDD : Bool
deriving DecidableEq, Repr

/-- Debug inputs (10_state R41; 15_debug_regs R301, R308 to R315, R332, R335). `wpStateMatch` bit n is
WatchpointStateMatch(n) but for the linked breakpoint, `wpLinkMatch` bit k is that breakpoint k, linked to, matches
(log 21), `vmid` is the current VMID that a VMID view is compared with: R310 and R41 name no register that holds it, and that it is an
input of 16 bits is the model's choice (log 28); `halted` is Halted(), `haltOnBpWp` is HaltOnBreakpointOrWatchpoint(). -/
structure DebugInputs where
  oslk : Bool
  bank : BitVec 2
  ebwe : Bool
  edscr2EBWE : Bool
  halted : Bool
  haltingAllowed : Bool
  haltOnBpWp : Bool
  bt : Vector (BitVec 4) 16
  dbgwvr : Vector Word 64
  wpStateMatch : BitVec 64
  wpLinkMatch : BitVec 64
  contextidr1 : BitVec 32
  contextidr2 : BitVec 32
  contextidr32 : BitVec 32
  vmid : BitVec 16
  vtcrVS : Bool
deriving DecidableEq, Repr

/-- The five predicates of the external debug interface (20_memory R410). -/
structure ExtStatus where
  corePowered : Bool
  doubleLock : Bool
  osLockStatus : Bool
  allowExternal : Bool
  softwareLock : Bool
deriving DecidableEq, Repr

/-- Profiling inputs (10_state R43; 16_profiling_regs R371, R384 to R390). `scrECVEn` and `cnthctlECV` are SCR_EL3.ECVEn
and CNTHCTL_EL2.ECV, of the list R386 supplies. `brbNonProhibited` is the Non-prohibited region of R385 (log 23). The width of the counter and its offsets is in
no source (log 23), nor are the widths of the three PMS registers and of PMSLATFR_EL1.MINLAT (log 40). -/
structure ProfilingInputs where
  pmsevfr : Word
  pmsnevfr : Word
  pmsdsfr : Word
  minlat : Nat
  brbfcrPaused : Bool
  brbNonProhibited : Bool
  brbcr2FZPSS : Bool
  brbcr2TS : BitVec 2
  e0hbre : Bool
  cntvoff : Word
  cntpoff : Word
  physCount : Word
  scrECVEn : Bool
  cnthctlECV : Bool
deriving DecidableEq, Repr

/-- Inputs of a step: Env.UndefTarget (40 R453), Env.VectorTarget (60 R542), Env.ReturnTarget (R545), Env.CopySS and
Env.CopyPPEND (R546), the cases of IllegalReturn beyond the listed ones (R547, log 14), GetCurrentEXLOCKEN() (00 R16),
and NVMemFaults as the pairs (address, is a write) that fault (20 R406). -/
structure StepInputs where
  undefTarget : EL
  vectorTarget : Word
  returnTarget : Word
  copySS : Bool
  copyPPEND : Bool
  illegalReturnOther : Bool
  exlockEn : Bool
  nvMemFaults : List (Word × Bool)
deriving DecidableEq, Repr

/-- The registers and fields 10_state R42 names without a layout: registers as words, fields by themselves (their widths:
log 40). HCR_EL2.TGE is in HypControls. The rules read SCTLR_EL1.{TME0, TME} (11 R80) and HFGITR_EL2.{SVC_EL1, SVC_EL0}
(12 R160). -/
structure NamedRegs where
  farEL1 : Word
  pfarEL1 : Word
  elrEL1 : Word
  elrEL2 : Word
  elrEL3 : Word
  esrEL3 : Word
  cpacr1FPEN : BitVec 2
  cpacr1ZEN : BitVec 2
  cpacr1SMEN : BitVec 2
  cptr2FPEN : BitVec 2
  cptr2TFP : Bool
  cptr2ZEN : BitVec 2
  cptr2TZ : Bool
  cptr2SMEN : BitVec 2
  cptr2TSM : Bool
  cptr3TFP : Bool
  cptr3EZ : Bool
  cptr3ESM : Bool
  smcr1EZT0 : Bool
  smcr2EZT0 : Bool
  smcr3EZT0 : Bool
  sctlr1TME0 : Bool
  sctlr1TME : Bool
  sctlr2TME0 : Bool
  sctlr2TME : Bool
  sctlr3TME : Bool
  hfgitrSVCEL1 : Bool
  hfgitrSVCEL0 : Bool
deriving DecidableEq, Repr

/-- The environment record Env (10_state R44): no law relates its fields. -/
structure Env where
  hyp : HypControls
  fgt : FineGrained
  mon : MonControls
  edscr : EDSCR
  dbg : DebugInputs
  ext : ExtStatus
  prof : ProfilingInputs
  step : StepInputs
  named : NamedRegs
deriving DecidableEq, Repr

/-- A register number as an exception taken from AArch32 reports it (12_esr_iss_a R124, R140). -/
inductive A32Specifier where
  /-- AArch32 register r4, reported by its AArch64 view, or 0b11111 for 0b1111 -/
  | reg (r4 : BitVec 4)
  /-- 0b1111 in an UNPREDICTABLE instruction: a view of a usable register, or 0b11111 -/
  | pcUnpredictable (v : BitVec 5)
  /-- a field the text calls UNKNOWN: any value -/
  | unknown (v : BitVec 5)
deriving DecidableEq, Repr

/-- ISS of an LD64B or ST64B* trap (12_esr_iss_a R128). -/
inductive LS64Kind where
  | st64bv | st64bv0 | ld64bSt64b
deriving DecidableEq, Repr

/-- Instruction Abort fields (13_esr_iss_b R170; ISS2 of 11_esr_el1 R74). -/
structure InstrAbort where
  pfv : Bool
  set : BitVec 2
  fnv : Bool
  ea : Bool
  s1ptw : Bool
  ifsc : BitVec 6
  assuredOnly : Bool
  overlay : Bool
deriving DecidableEq, Repr

/-- ISS[23:14] of a Data Abort, selected by ISV (13_esr_iss_b R185). -/
inductive DataAbortGroup where
  | isv1 (sas : BitVec 2) (sse : Bool) (srt : BitVec 5) (sf ar : Bool)
  | isv0 (wu : BitVec 2) (fnp pfv : Bool)
deriving DecidableEq, Repr

/-- Data Abort fields (13_esr_iss_b R185; ISS2 of 11_esr_el1 R66). `lstSet` is LST or SET at ISS[12:11]. -/
structure DataAbort where
  group : DataAbortGroup
  lstSet : BitVec 2
  fnv : Bool
  ea : Bool
  cm : Bool
  s1ptw : Bool
  wnr : Bool
  dfsc : BitVec 6
  tnd : Bool
  tagAccess : Bool
  gcs : Bool
  assuredOnly : Bool
  overlay : Bool
  dirtyBit : Bool
  xs : BitVec 5
deriving DecidableEq, Repr

/-- GCS exception fields by ExType (13_esr_iss_b R212 to R218). -/
inductive GCSInfo where
  | dataCheck (rn it : BitVec 5)
  | exlock
  | strTrap (raddr rvalue : BitVec 5)
deriving DecidableEq, Repr

/-- SError fields (13_esr_iss_b R220); IDS = 1 carries an IMPLEMENTATION DEFINED payload (R221). -/
inductive SErrorInfo where
  | implDefined (payload : BitVec 24)
  | fields (els : Bool) (wu : BitVec 2) (vfv pfv iesb : Bool) (aet : BitVec 3) (ea wnrv wnr : Bool)
      (dfsc : BitVec 6)
deriving DecidableEq, Repr

/-- The fields an SError reports that was held pending: IESB is 0, as it is not taken immediately (R226), and the rest as they were. -/
def SErrorInfo.delayed : SErrorInfo → SErrorInfo
  | .implDefined payload => .implDefined payload
  | .fields els wu vfv pfv _ aet ea wnrv wnr dfsc => .fields els wu vfv pfv false aet ea wnrv wnr dfsc

/-- Watchpoint fields (13_esr_iss_b R238; ISS2.GCS of 11_esr_el1 R77). -/
structure WatchpointInfo where
  wpt : BitVec 6
  wptv : Bool
  wpf : Bool
  fnp : Bool
  fnv : Bool
  cm : Bool
  wnr : Bool
  gcs : Bool
deriving DecidableEq, Repr

/-- The 27 ISS encodings and their fields (11_esr_el1 R86), in the order of the source. A `read` field is Direction. -/
inductive ExcInfo where
  | unknownReason
  | wfx (cv : Bool) (cond : BitVec 4) (rn : BitVec 5) (rv : Bool) (ti : BitVec 2)
  | mcr (coproc15 cv : Bool) (cond : BitVec 4) (opc2 opc1 : BitVec 3) (crn : BitVec 4) (rt : A32Specifier)
      (crm : BitVec 4) (read : Bool)
  | ls64 (kind : LS64Kind)
  | mcrr (coproc15 toTraceRegister cv : Bool) (cond opc1 : BitVec 4) (rt2 rt : A32Specifier)
      (crm : BitVec 4) (read : Bool)
  | ldcStc (cv : Bool) (cond : BitVec 4) (imm8 : BitVec 8) (rn : A32Specifier) (offset : Bool) (am : BitVec 3)
      (read : Bool)
  | fpAccess (cv : Bool) (cond : BitVec 4)
  | sveAccess
  | pmu (sync : Bool)
  | illegalState
  | pcAlignment
  | spAlignment
  | memoryOperation (memInst isSETG : Bool) (options : BitVec 4) (fromEpilogue wrongOption optionA : Bool)
      (destreg srcreg sizereg : BitVec 5)
  | svc (imm16 : BitVec 16)
  | sysAccess (f : SysFields)
  | sysAccess128 (op0 : BitVec 2) (op2 op1 : BitVec 3) (crn rt crm : BitVec 4) (read : Bool)
  | instrAbort (a : InstrAbort)
  | smeAccess (smtc : BitVec 3)
  | dataAbort (a : DataAbort)
  | fpTrap (tfv : Bool) (vecitr : BitVec 3) (idf ixf uff off dzf iof : Bool)
  | gcs (g : GCSInfo)
  | serror (e : SErrorInfo)
  | breakpoint
  | softwareStep (isv ex : Bool)
  | watchpoint (w : WatchpointInfo)
  | breakpointInstr (comment : BitVec 16)
  | tstart (rd : BitVec 5)
  | branchTarget (btype : BitVec 2)
  | pacFail (dataKey bKey : Bool)
deriving DecidableEq, Repr

/-- The cause descriptor ExcCause (60_exceptions R521). -/
structure ExcCause where
  info : ExcInfo
  fromEL1 : Bool
  fromAArch32 : Bool
  il : Bool
deriving DecidableEq, Repr

/-- A data access by an instruction outside this spec, as 60_exceptions R555 describes it; the last four fields are what
the environment says of the report (R241, R242, 11 R78). -/
structure DataAccess where
  addr : Word
  size : Nat
  isWrite : Bool
  isCM : Bool
  isAtomic : Bool
  gcs : Bool
  wpf : Bool
  fnp : Bool
  fnv : Bool
deriving DecidableEq, Repr

/-- The Data Source of a sampled load (16_profiling_regs R370). -/
inductive DataSource where
  | absent | selected | notSelected
deriving DecidableEq, Repr

/-- A sampled operation, the descriptor of 16_profiling_regs R375. -/
structure Sample where
  latency : Nat
  simd : Bool
  fp : Bool
  st : Bool
  ld : Bool
  br : Bool
  hasSelectedEvents : Bool
  hasInvertedEvents : Bool
  dataSource : DataSource
deriving DecidableEq, Repr

/-- What a Branch record is for (16_profiling_regs R394; 60_exceptions R541, R550). -/
inductive BranchKind where
  | branch | exceptionEntry | exceptionReturn
deriving DecidableEq, Repr

/-- Uninterpreted events of the Branch Record Buffer: BRBERecord(kind) with what BRBCR_EL1 enables in it (R386, R387,
R394), and a BRBE freeze event (R384, R385). -/
inductive BRBEEvent where
  | record (kind : BranchKind) (timestamp : Word) (mispredicts cycleCounts : Bool)
  | freeze
deriving DecidableEq, Repr

/-- What kind of step an instruction outside this spec, or software at another level, takes: an exception is entered from a lower or
the same level, and returned from to a lower or the same one (60_exceptions R553). -/
inductive OutsideEvent where
  /-- none of the three below -/
  | plain
  /-- a Context synchronization event (20_memory R417) -/
  | contextSync
  /-- an exception is taken to EL2 or EL3 -/
  | entry
  /-- an exception return is executed at EL2 or EL3 -/
  | exceptionReturn
deriving DecidableEq, Repr

/-- One instruction outside this spec, or a step of software at another level: what kind of step it is and all it leaves (log 27). -/
structure OutsideStep where
  x : List (Nat × Word)
  mem : List (Word × Byte)
  pc : Word
  pstate : PState
  event : OutsideEvent
deriving DecidableEq, Repr

/-- The asynchronous exceptions, which PSTATE.{I, F, ALLINT}, A and PM mask (60_exceptions R525 to R528). -/
inductive AsyncException where
  | irq
  | fiq
  | serror (e : SErrorInfo)
  | pmu
deriving DecidableEq, Repr

/-- What the environment may do between two instructions (10_state R25, R44; 60_exceptions R520; 70_reset R580). -/
inductive Input where
  /-- nothing: the next instruction runs, and what follows in the list comes after it (log 29) -/
  | instruction
  /-- the environment record changes (10_state R44); when it turns the Core power domain on, that is a Cold reset
  (20_memory R414, 70_reset R580) -/
  | env (e : Env)
  /-- a program is loaded from outside the machine (20_memory R418; log 1) -/
  | program (start : Word) (words : List Word32)
  /-- an exception with this cause is taken to EL1 (60_exceptions R520 (b)) -/
  | exception (c : ExcCause)
  /-- an UNPREDICTABLE instruction is treated as UNDEFINED and taken to EL1; ESR_EL1 becomes an UNKNOWN value, which must
  be one that the descriptor `c` could create at the same Exception level, in a process state `p` and an environment
  `e` (11_esr_el1 R62) -/
  | unpredictable (c : ExcCause) (p : PState) (e : Env)
  /-- an asynchronous exception arrives: it is taken, or stays pending while it is masked (R525 to R528; log 39) -/
  | arrives (k : AsyncException)
  /-- an exception return operation is executed in EL1 (R545) -/
  | exceptionReturn
  /-- a Context synchronization event (20_memory R417) -/
  | contextSync
  /-- the debugger reads an address of the Debug component (20_memory R410) -/
  | extRead (addr : Word)
  /-- the debugger writes an address of the Debug component (R410) -/
  | extWrite (addr v : Word)
  /-- the debugger reads DBGWCR<n>_EL1 (R412, 10_state R25 (c)) -/
  | extReadWCR (n : Nat)
  /-- the debugger writes DBGWCR<n>_EL1 (R412) -/
  | extWriteWCR (n : Nat) (v : Word)
  | coldReset
  | warmReset
  /-- a data access by an instruction outside this spec, for the watchpoints (60_exceptions R555) -/
  | access (a : DataAccess)
  /-- breakpoint n matches the instruction at this address (R556) -/
  | breakpoint (n : Nat) (addr : Word)
  /-- a Vector Catch debug event (R556) -/
  | vectorCatch
  /-- a stepped instruction has completed (R557) -/
  | stepped (isv ex : Bool)
  /-- an EL0 access to a DCC register, with the descriptor of the trap (15_debug_regs R349) -/
  | dccAccess (c : ExcCause)
  /-- a branch is executed (16_profiling_regs R394) -/
  | branch
  /-- a successful PMU snapshot Capture event (R384) -/
  | pmuCapture
  /-- PMUOverflowForBRBE (R385) -/
  | pmuOverflow
  /-- the Statistical Profiling Extension samples an operation (R375) -/
  | sample (s : Sample)
  /-- an instruction outside this spec, or software at another level, takes a step (log 27) -/
  | outside (o : OutsideStep)
deriving DecidableEq, Repr

/-- The answer of the external debug interface (20_memory R410). -/
inductive ExtResponse where
  | data (v : Word)
  | written
  | ignored
  | error
deriving DecidableEq, Repr

/-- The two names of a pair that reach one EL1 register from EL3 (70_reset R590). -/
inductive PairName where
  | el1Name | el12Name
deriving DecidableEq, Repr

/-- The pairs: ESR_EL1 / ESR_EL12, SPSR_EL1 / SPSR_EL12, BRBCR_EL1 / BRBCR_EL12 (R590). -/
inductive RegPair where
  | esr | spsr | brbcr
deriving DecidableEq, Repr

/-- The pending record of a pair: the name last written through, the value before, and the value written (R590, log 16). -/
structure PairRecord where
  name : PairName
  old : Word
  written : Word
deriving DecidableEq, Repr

/-- The storage a completing accessor reaches (40_sysreg_access_common R465). -/
inductive Storage where
  | esrEL1 | esrEL2 | spsrEL1 | spsrEL2 | brbcrEL1 | brbcrEL2 | mdscr | pmsfcr
  | dbgwcr (i : Nat)
deriving DecidableEq, Repr

/-- The answer of an accessor chain (40_sysreg_access_common R450). The last three complete: on a register, on a register
reached from EL3 by one name of a pair (R590), on an NVMem cell. -/
inductive Access where
  | undefined
  | trap (el : EL)
  | halt
  | exlock
  | storage (r : Storage)
  | paired (p : RegPair) (n : PairName)
  | nvMem (offset : Word)
deriving DecidableEq, Repr

/-- An exception taken to EL2 or EL3: the level, and the syndrome where the spec gives one (40 R453 to R457, 20 R406). -/
structure HigherEntry where
  target : EL
  syndrome : Option Word
deriving DecidableEq, Repr

end Sys2Proof.Machine
end

