-- ==== Sys2Proof/Machine/State.lean ====
section
/-! DEFINITION. The machine's state, the reasons a step can stop, and the state after reset. -/

namespace Sys2Proof.Machine

open Sys2Proof

/-- Byte memory over 64-bit addresses (20_memory R400): pairs with strictly rising addresses; an unlisted byte reads 0
(log 7), and no listed byte is 0. -/
abbrev Memory := List Host.Cell

/-- The state: every piece of state of INVENTORY.md, section State. -/
structure State where
  /-- the implementation parameters, which no step writes (00_scope R6, R7) -/
  cfg : Config
  /-- the environment record (10_state R44) -/
  env : Env
  /-- what the environment does before the next instruction, in order (log 3) -/
  inputs : List Input
  /-- the address of the program's first word (20_memory R418) -/
  progStart : Word
  /-- the loaded program (R418) -/
  program : List Word32
  /-- general registers 0 to 30 (10_state R26) -/
  x : Vector Word 31
  /-- the program counter (R27) -/
  pc : Word
  /-- the process state (R28) -/
  pstate : PState
  /-- ESR_EL1 (R30) and whether it is wholly UNKNOWN (11_esr_el1 R61) -/
  esrEL1 : Word
  esrUnknown : Bool
  /-- SPSR_EL1 (R31) and whether it is wholly UNKNOWN (14_spsr_el1 R264) -/
  spsrEL1 : Word
  spsrUnknown : Bool
  /-- DBGBVR<n>_EL1 (R32) -/
  dbgbvr : Vector Word 16
  /-- DBGWCR<n>_EL1 (R33) -/
  dbgwcr : Vector Word 64
  /-- the stored bits of MDSCR_EL1 (R34) -/
  mdscr : Word
  /-- PMSFCR_EL1 (R35) -/
  pmsfcr : Word
  /-- BRBCR_EL1 (R36) -/
  brbcrEL1 : Word
  /-- the opaque cells of EL2 (R37) -/
  esrEL2 : Word
  spsrEL2 : Word
  brbcrEL2 : Word
  /-- pending records of the EL3 name pairs (70_reset R590) -/
  esrPair : Option PairRecord
  spsrPair : Option PairRecord
  brbcrPair : Option PairRecord
  /-- memory, used by the NVMem cells (20_memory R400, R404) -/
  mem : Memory
  /-- how many free values the run has read (log 4) -/
  draws : Nat
  /-- an exception on its way to EL2 or EL3 (log 11) -/
  pendingEntry : Option HigherEntry
  /-- asynchronous exceptions that have arrived and are masked (60_exceptions R525; log 39): an IRQ, an FIQ, the SErrors,
  oldest first, and without FEAT_SEBEP a PMU exception (with it PSTATE.PPEND holds that, R528) -/
  pendingIRQ : Bool
  pendingFIQ : Bool
  pendingSErrors : List SErrorInfo
  pendingPMU : Bool
  /-- Branch Record Buffer events, newest first (16_profiling_regs R394) -/
  brbeLog : List BRBEEvent
  /-- recorded samples, newest first (R375) -/
  speLog : List Sample
  /-- the last answer of the external debug interface (20_memory R410) -/
  extResponse : Option ExtResponse
deriving DecidableEq, Repr

/-- Why the machine is stuck. -/
inductive Fault where
  /-- Raised by `step`: the word at the program counter is no instruction of this spec, the outcome OutOfScope(w) of
  30_encoding R436, for which 93 V11 says stuck. Safe: the model stops where the hardware may go on. -/
  | outOfScope (why : DecodeReject) (w : Word32)
deriving DecidableEq, Repr

/-- Why the model gives a step no meaning. -/
inductive Refusal where
  /-- Raised by an arm of `exec` whose instruction has no meaning yet; no arm raises it. Safe. -/
  | notModelled (mnemonic : String)
  /-- Raised by `step`: no word of the program stands at the program counter (20_memory R418 gives the program as a list
  of words and no more; log 1). Safe. -/
  | outsideProgram (pc : Word)
  /-- Raised by `step`: PSTATE.nRW is 1, so an A32 or T32 instruction would run, and AArch32 execution is out of scope
  (00_scope R5; log 17). Safe. -/
  | aarch32Execution
  /-- Raised by `handleInput`: the environment offers what the spec says cannot occur, such as a cause descriptor that
  breaks a constraint of the ISS rules (60_exceptions R521; log 20). Safe. -/
  | inputOutsideSpec
  /-- Raised by `handleInput`: an address of the Debug component that the spec does not describe (20_memory R411; log 25).
  Safe. -/
  | extAddressNotDescribed (addr : Word)
deriving DecidableEq, Repr

/-- PSTATE after reset (70_reset R588): D, A, I, F and SP are 1, IL and SS are 0, the level is the highest implemented;
the fields the spec draws are 0 (log 6). -/
def PState.reset (c : Config) : PState :=
  { N := false, Z := false, C := false, V := false, Q := false, GE := 0, IT := 0
    DIT := false, SSBS := false, PAN := false, UAO := false, TCO := false, SS := false, IL := false
    E := false, D := true, A := true, I := true, F := true, ALLINT := false, PM := false, PPEND := false
    T := false, BTYPE := 0, PACM := false, EXLOCK := false, nRW := false, EL := c.resetEL, SP := true
    M := 0, SM := false, ZA := false }

/-- The environment record with every input 0 but the power of the Core power domain: a machine after reset is powered
(log 3). -/
def Env.zero : Env :=
  { hyp := { el2Enabled := false, elIsInHost := false, e2h := false, tge := false, nvx := 0, trvm := false,
             tvm := false, el2AArch32 := false }
    fgt := { fgtEn := false, rdESR := false, wrESR := false, rdDBGWCR := false, wrDBGWCR := false,
             rdMDSCR := false, wrMDSCR := false, rdPMSFCR := false, wrPMSFCR := false, rdNBRBCTL := false,
             wrNBRBCTL := false }
    mon := { ns := false, nse := false, mdcr2TDE := false, mdcr2TDA := false, mdcr2TPMS := false,
             mdcr3TDA := false, nspb := 0, nspbe := false, sbrbe := 0 }
    edscr := { TFO := false, RXfull := false, TXfull := false, RXO := false, TXU := false, INTdis := 0,
               TDA := false, SC2 := false, HDE := false, ERR := false, SDD := false }
    dbg := { oslk := false, bank := 0, ebwe := false, edscr2EBWE := false, halted := false,
             haltingAllowed := false, haltOnBpWp := false, bt := Vector.replicate 16 0,
             dbgwvr := Vector.replicate 64 0, wpStateMatch := 0, wpLinkMatch := 0, contextidr1 := 0, contextidr2 := 0,
             contextidr32 := 0, vmid := 0, vtcrVS := false }
    ext := { corePowered := true, doubleLock := false, osLockStatus := false, allowExternal := false,
             softwareLock := false }
    prof := { pmsevfr := 0, pmsnevfr := 0, pmsdsfr := 0, minlat := 0, brbfcrPaused := false,
              brbNonProhibited := false, brbcr2FZPSS := false, brbcr2TS := 0,
              e0hbre := false, cntvoff := 0, cntpoff := 0, physCount := 0, scrECVEn := false,
              cnthctlECV := false }
    step := { undefTarget := .el0, vectorTarget := 0, returnTarget := 0, copySS := false, copyPPEND := false,
              illegalReturnOther := false, exlockEn := false, nvMemFaults := [] }
    named := { farEL1 := 0, pfarEL1 := 0, elrEL1 := 0, elrEL2 := 0, elrEL3 := 0, esrEL3 := 0, cpacr1FPEN := 0,
               cpacr1ZEN := 0, cpacr1SMEN := 0, cptr2FPEN := 0, cptr2TFP := false, cptr2ZEN := 0, cptr2TZ := false,
               cptr2SMEN := 0, cptr2TSM := false, cptr3TFP := false, cptr3EZ := false, cptr3ESM := false,
               smcr1EZT0 := false, smcr2EZT0 := false, smcr3EZT0 := false, sctlr1TME0 := false, sctlr1TME := false,
               sctlr2TME0 := false, sctlr2TME := false, sctlr3TME := false, hfgitrSVCEL1 := false,
               hfgitrSVCEL0 := false } }

/-- The state after reset of an implementation with parameters `c` in an environment `e` (70_reset R581 to R588): pc at
ResetPC, PSTATE by R588, nothing pending, no program, no memory written; a register whose value the spec draws is 0
(log 5, DESIGN CHOICE). -/
def State.resetOf (c : Config) (e : Env) : State :=
  { cfg := c, env := e, inputs := [], progStart := 0, program := []
    x := Vector.replicate 31 0, pc := c.resetPC, pstate := PState.reset c
    esrEL1 := 0, esrUnknown := false, spsrEL1 := 0, spsrUnknown := false
    dbgbvr := Vector.replicate 16 0, dbgwcr := Vector.replicate 64 0, mdscr := 0, pmsfcr := 0
    brbcrEL1 := 0, esrEL2 := 0, spsrEL2 := 0, brbcrEL2 := 0
    esrPair := none, spsrPair := none, brbcrPair := none, mem := [], draws := 0, pendingEntry := none
    pendingIRQ := false, pendingFIQ := false, pendingSErrors := [], pendingPMU := false
    brbeLog := [], speLog := [], extResponse := none }

/-- The machine right after reset, with the reference parameters and the zero environment (logs 2, 3, 5). -/
def State.reset : State := State.resetOf Config.reference Env.zero

end Sys2Proof.Machine
end

