-- ==== Sys2Proof/Machine/Operands.lean ====
section
/-! DEFINITION. Operands: general registers, free values, and what a register with reserved or UNKNOWN bits reads as
(10_state R26; 00_scope R8, R14; 40_sysreg_access_common R465, R466). -/

namespace Sys2Proof.Machine

open Sys2Proof

/-- X[t, 64]: number 31 reads 0 (R26). -/
def State.readX (s : State) (t : Nat) : Word := if h : t < 31 then s.x[t] else 0

/-- A write of X[t, 64]: number 31 discards it (R26). -/
def State.writeX (s : State) (t : Nat) (v : Word) : State :=
  if h : t < 31 then { s with x := s.x.set t v } else s

/-- pc <- pc + 4 (R27). -/
def State.advance (s : State) : State := { s with pc := s.pc + 4 }

/-- The next free value of the run (00_scope R8; log 4). -/
def State.freeValue (s : State) : Word := Config.unknown64 s.draws

/-- `n` free values have been read. -/
def State.skip (s : State) (n : Nat) : State := { s with draws := s.draws + n }

/-- draw of two alternatives: a free choice of one of them (92 D4). -/
def State.choose {α : Type} (s : State) (a b : α) : α := if s.freeValue.getLsbD 0 then a else b

/-- A free choice among a nonempty list, `a` its first element (92 D4, 13_esr_iss_b R259). -/
def State.chooseFrom {α : Type} (s : State) (a : α) (rest : List α) : α :=
  match rest with
  | [] => a
  | b :: more => ((a :: b :: more)[s.freeValue.toNat % (more.length + 2)]?).getD a

/-- What a 64-bit register reads as: the bits held, the bits that are UNKNOWN on every read, and the RES0 and RES1
positions (00_scope R14: a RES0 bit written 1, a RES1 bit written 0, reads as a free value). -/
structure Reading where
  held : Word
  unknown : Word
  res0 : Word
  res1 : Word
deriving DecidableEq, Repr

/-- A register every bit of which reads as held. -/
def Reading.plain (v : Word) : Reading := { held := v, unknown := 0, res0 := 0, res1 := 0 }

/-- A register that is wholly UNKNOWN. -/
def Reading.allUnknown : Reading := { held := 0, unknown := BitVec.allOnes 64, res0 := 0, res1 := 0 }

/-- Whether the value read depends on a free value. -/
def Reading.isOpen (r : Reading) : Bool :=
  r.unknown != 0 || (r.held &&& r.res0) != 0 || (~~~r.held &&& r.res1) != 0

/-- The value read when the free value is `d` (40_sysreg_access_common R466). -/
def Reading.value (r : Reading) (d : Word) : Word :=
  if r.isOpen then
    (r.held &&& ~~~(r.unknown ||| r.res0 ||| r.res1)) ||| (d &&& r.unknown)
      ||| (r.held &&& d &&& r.res0) ||| ((r.held ||| d) &&& r.res1)
  else r.held

/-- The value a reading gives in a state. -/
def State.valueOf (s : State) (r : Reading) : Word := r.value s.freeValue

/-- The free values a reading uses up. -/
def State.afterRead (s : State) (r : Reading) : State := if r.isOpen then s.skip 1 else s

end Sys2Proof.Machine
end

