-- ==== Sys2Proof/Machine/Flags.lean ====
section
/-! DEFINITION. PSTATE and its saved form: the two views of SPSR_EL1, what an entry saves and what a return copies
back (14_spsr_el1; 60_exceptions R540, R542, R545 to R548). -/

namespace Sys2Proof.Machine

open Sys2Proof

/-- M[3:0] of the AArch64 view: Exception level, 0, stack pointer; EL0 has no stack pointer bit (R274). -/
def modeBits (el : EL) (sp : Bool) : BitVec 4 :=
  match el with
  | .el0 => 0b0000#4
  | .el1 => 0b010#3 ++ bit sp
  | .el2 => 0b100#3 ++ bit sp
  | .el3 => 0b110#3 ++ bit sp

/-- SPSR_EL1.TCO is a field: FEAT_MTE2, or the choice TCOWithoutMTE2 (R276). -/
def tcoPresent (c : Config) : Bool := c.synd.mte2 || c.tcoWithoutMTE2

/-- The E bit where big-endian or little-endian operation may be unsupported (R270, R548). -/
def endianBit (big little e : Bool) : Bool := if !big then false else if !little then true else e

/-- SPSR_EL1 for an exception from AArch64 state (R262); a field whose feature is absent is written 0 (R265, R290). -/
def savedAArch64 (c : Config) (p : PState) : Word :=
  0#28 ++ bit (c.pst.pauthLR && p.PACM) ++ bit (c.synd.gcs && p.EXLOCK) ++ bit (c.synd.sebep && p.PPEND)
    ++ bit (c.synd.ebep && p.PM)
    ++ bit p.N ++ bit p.Z ++ bit p.C ++ bit p.V ++ 0#2
    ++ bit (tcoPresent c && p.TCO) ++ bit (c.pst.dit && p.DIT) ++ bit (c.pst.uao && p.UAO)
    ++ bit (c.pst.pan && p.PAN) ++ bit p.SS ++ bit p.IL ++ 0#6
    ++ bit (c.pst.nmi && p.ALLINT) ++ bit (c.pst.ssbs && p.SSBS)
    ++ (if c.synd.bti then p.BTYPE else 0#2)
    ++ bit p.D ++ bit p.A ++ bit p.I ++ bit p.F ++ 0#1 ++ 0#1 ++ modeBits p.EL p.SP

/-- SPSR_EL1 for an exception from AArch32 state (R261, R273). That the byte orders EL0 supports decide E is the model's
choice: R270 names no level, and AArch32 state is at EL0 only (92 D7; log 41). -/
def savedAArch32 (c : Config) (p : PState) : Word :=
  0#30 ++ bit (c.synd.sebep && p.PPEND) ++ 0#1
    ++ bit p.N ++ bit p.Z ++ bit p.C ++ bit p.V ++ bit p.Q ++ p.IT.extractLsb' 0 2
    ++ bit (c.pst.dit && p.DIT) ++ bit (c.pst.ssbs && p.SSBS) ++ bit (c.pst.pan && p.PAN)
    ++ bit p.SS ++ bit p.IL ++ p.GE ++ p.IT.extractLsb' 2 6
    ++ bit (endianBit c.bigEndEL0 c.littleEndEL0 p.E)
    ++ bit p.A ++ bit p.I ++ bit p.F ++ bit p.T ++ 1#1 ++ p.M

/-- The saved process state: PSTATE.nRW selects the view (60_exceptions R540). -/
def savedPState (c : Config) (p : PState) : Word := if p.nRW then savedAArch32 c p else savedAArch64 c p

/-- The RES0 bits of the AArch64 view (R265, R290). -/
def spsrRes0AArch64 (c : Config) : Word :=
  0xFFFFFFF#28 ++ bit (!c.pst.pauthLR) ++ bit (!c.synd.gcs) ++ bit (!c.synd.sebep) ++ bit (!c.synd.ebep)
    ++ 0#4 ++ 3#2
    ++ bit (!tcoPresent c) ++ bit (!c.pst.dit) ++ bit (!c.pst.uao) ++ bit (!c.pst.pan) ++ 0#2 ++ 0x3F#6
    ++ bit (!c.pst.nmi) ++ bit (!c.pst.ssbs) ++ (if c.synd.bti then 0#2 else 3#2) ++ 0#4 ++ 1#1 ++ 0#5

/-- The RES0 bits of the AArch32 view (R265, R270, R290); that EL0's support decides E is the model's choice (log 41). -/
def spsrRes0AArch32 (c : Config) : Word :=
  0x3FFFFFFF#30 ++ bit (!c.synd.sebep) ++ 1#1
    ++ 0#7 ++ bit (!c.pst.dit) ++ bit (!c.pst.ssbs) ++ bit (!c.pst.pan) ++ 0#12
    ++ bit (!c.bigEndEL0) ++ 0#9

/-- The RES1 bits of the AArch32 view: E without little-endian support (R270), at EL0 by the model's choice (log 41). -/
def spsrRes1AArch32 (c : Config) : Word := 0#54 ++ bit (c.bigEndEL0 && !c.littleEndEL0) ++ 0#9

/-- What SPSR_EL1 reads as, its bit 4 selecting the view (R260). -/
def spsrReading (c : Config) (v : Word) : Reading :=
  if v.getLsbD 4 then { held := v, unknown := 0, res0 := spsrRes0AArch32 c, res1 := spsrRes1AArch32 c }
  else { held := v, unknown := 0, res0 := spsrRes0AArch64 c, res1 := 0 }

/-- PSTATE after an exception is taken to the level `el` (60_exceptions R542 (d), PRESUMED for the spec; log 13). `lock`
is the exception-lock enable; `d` decides the fields their own controls govern. -/
def PState.atEntry (p : PState) (el : Sys2Proof.EL) (lock : Bool) (d : Word) : PState :=
  { p with
    EL := el, nRW := false, SP := true, D := true, A := true, I := true, F := true
    SS := false, IL := false, BTYPE := 0, EXLOCK := lock
    PAN := d.getLsbD 0, SSBS := d.getLsbD 1, TCO := d.getLsbD 2, ALLINT := d.getLsbD 3
    PM := d.getLsbD 4, PPEND := d.getLsbD 5, PACM := d.getLsbD 6 }

/-- Whether M[3:0] is one of the three values of the AArch64 view (R274). -/
def aarch64ModeListed (m : BitVec 4) : Bool := m == 0b0000 || m == 0b0100 || m == 0b0101

/-- Whether M[3:0] of the AArch32 view can be returned to: of the seven listed modes (R273) only User, at EL0, since EL1
uses AArch64 (92 D7; log 14). -/
def aarch32ModeAvailable (c : Config) (m : BitVec 4) : Bool := c.haveAArch32 && m == 0b0000

/-- IllegalReturn(s): the cases 60_exceptions R547 lists, the listed AArch32 modes but User, and the cases the environment
adds (log 14). -/
def illegalReturn (c : Config) (other : Bool) (s : Word) : Bool :=
  other || !(if s.getLsbD 4 then aarch32ModeAvailable c (s.extractLsb' 0 4) else aarch64ModeListed (s.extractLsb' 0 4))

/-- The saved fields of the AArch64 view copied back, but for EL, SP and nRW; a field whose feature is absent copies
nothing (60_exceptions R545). -/
def copyBackAArch64 (c : Config) (s : Word) (p : PState) : PState :=
  { p with
    N := s.getLsbD 31, Z := s.getLsbD 30, C := s.getLsbD 29, V := s.getLsbD 28
    TCO := if tcoPresent c then s.getLsbD 25 else p.TCO
    DIT := if c.pst.dit then s.getLsbD 24 else p.DIT
    UAO := if c.pst.uao then s.getLsbD 23 else p.UAO
    PAN := if c.pst.pan then s.getLsbD 22 else p.PAN
    IL := s.getLsbD 20
    ALLINT := if c.pst.nmi then s.getLsbD 13 else p.ALLINT
    SSBS := if c.pst.ssbs then s.getLsbD 12 else p.SSBS
    BTYPE := if c.synd.bti then s.extractLsb' 10 2 else p.BTYPE
    D := s.getLsbD 9, A := s.getLsbD 8, I := s.getLsbD 7, F := s.getLsbD 6
    PACM := if c.pst.pauthLR then s.getLsbD 35 else p.PACM
    EXLOCK := if c.synd.gcs then s.getLsbD 34 else p.EXLOCK
    PM := if c.synd.ebep then s.getLsbD 32 else p.PM }

/-- The saved fields of the AArch32 view copied back, but for nRW and M (60_exceptions R545, R548): `big` and `little`
are the byte orders supported at the Exception level returned to. -/
def copyBackAArch32 (c : Config) (big little : Bool) (s : Word) (p : PState) : PState :=
  { p with
    N := s.getLsbD 31, Z := s.getLsbD 30, C := s.getLsbD 29, V := s.getLsbD 28, Q := s.getLsbD 27
    IT := s.extractLsb' 10 6 ++ s.extractLsb' 25 2
    DIT := if c.pst.dit then s.getLsbD 24 else p.DIT
    SSBS := if c.pst.ssbs then s.getLsbD 23 else p.SSBS
    PAN := if c.pst.pan then s.getLsbD 22 else p.PAN
    IL := s.getLsbD 20
    GE := s.extractLsb' 16 4
    E := endianBit big little (s.getLsbD 9)
    A := s.getLsbD 8, I := s.getLsbD 7, F := s.getLsbD 6, T := s.getLsbD 5 }

/-- The conditional copies of SS and PPEND (60_exceptions R546). Without FEAT_SEBEP there is no PPEND to copy. -/
def copyConditional (c : Config) (copySS copyPPEND : Bool) (s : Word) (p : PState) : PState :=
  { p with
    SS := copySS && s.getLsbD 21
    PPEND := if c.synd.sebep then copyPPEND && s.getLsbD 33 else p.PPEND }

/-- The Exception level of M[3:2] in a legal AArch64 value (R274). -/
def levelOfBits (s : Word) : EL := if s.extractLsb' 2 2 == 0 then .el0 else .el1

/-- PSTATE after a legal return to AArch64 state (60_exceptions R545). -/
def returnAArch64 (c : Config) (s : Word) (p : PState) : PState :=
  { copyBackAArch64 c s p with nRW := false, EL := levelOfBits s, SP := s.getLsbD 0 }

/-- PSTATE after a legal return to AArch32 state, which is at EL0 (60_exceptions R545, R548). -/
def returnAArch32 (c : Config) (s : Word) (p : PState) : PState :=
  { copyBackAArch32 c c.bigEndEL0 c.littleEndEL0 s p with nRW := true, M := s.extractLsb' 0 4, EL := .el0 }

/-- PSTATE after an illegal return: IL set; EL, SP, nRW and the mode kept; the other saved bits copied (R547; log 14). -/
def returnIllegal (c : Config) (s : Word) (p : PState) : PState :=
  { (if s.getLsbD 4 then copyBackAArch32 c c.bigEndEL1 c.littleEndEL1 s p else copyBackAArch64 c s p)
    with IL := true }

/-- PSTATE after an exception return from EL1 that finds `s` in SPSR_EL1 (R545 to R548). -/
def returnPState (c : Config) (i : StepInputs) (s : Word) (p : PState) : PState :=
  copyConditional c i.copySS i.copyPPEND s
    (if illegalReturn c i.illegalReturnOther s then returnIllegal c s p
     else if s.getLsbD 4 then returnAArch32 c s p
     else returnAArch64 c s p)

end Sys2Proof.Machine
end

