-- ==== Sys2Proof/Machine/Syndrome.lean ====
section
/-! DEFINITION. The value of ESR_EL1: its layout, the ISS and ISS2 of the 27 encodings, and the constraints on the
causes of an exception (11_esr_el1, 12_esr_iss_a, 13_esr_iss_b; 60_exceptions R521, R522). -/

namespace Sys2Proof.Machine

open Sys2Proof

/-- zext_64(ISS2 : EC : IL : ISS) (11_esr_el1 R60, R88). -/
def esrValue (iss2 : BitVec 24) (ec : BitVec 6) (il : Bool) (iss : BitVec 25) : Word :=
  0#8 ++ iss2 ++ ec ++ bit il ++ iss

/-- ESR_EL1.EC (R60). -/
def esrEC (v : Word) : BitVec 6 := v.extractLsb' 26 6

/-- ESR_EL1.IL (R60). -/
def esrIL (v : Word) : Bool := v.getLsbD 25

/-- ESR_EL1.ISS (R60). -/
def esrISS (v : Word) : BitVec 25 := v.extractLsb' 0 25

/-- ESR_EL1.ISS2 (R60). -/
def esrISS2 (v : Word) : BitVec 24 := v.extractLsb' 32 24

/-- The Exception classes allocated in an implementation (R80); every other value is reserved (R81). -/
def ecAllocated (c : Config) (ec : BitVec 6) : Bool :=
  match ec.toNat with
  | 0x00 | 0x01 | 0x07 | 0x0E | 0x15 | 0x18 | 0x20 | 0x21 | 0x22 | 0x24 | 0x25 | 0x26 | 0x2F
  | 0x30 | 0x31 | 0x32 | 0x33 | 0x34 | 0x35 | 0x3C => true
  | 0x03 | 0x04 | 0x05 | 0x06 | 0x0C | 0x11 | 0x38 => c.haveAArch32
  | 0x0A => c.synd.ls64
  | 0x0D => c.synd.bti
  | 0x14 => c.synd.sysreg128 || c.synd.sysinstr128
  | 0x19 => c.synd.sve
  | 0x1B => c.synd.tme
  | 0x1C => c.synd.fpac
  | 0x1D => c.synd.sme
  | 0x27 => c.synd.mops
  | 0x28 => c.haveAArch32 && c.fpTrapSupported
  | 0x2C => c.fpTrapSupported
  | 0x2D => c.synd.gcs
  | 0x3D => c.synd.ebep
  | _ => false

/-- The register number reported for an AArch32 register in the mode `mode` (12_esr_iss_a R124). -/
def A32Specifier.value (c : Config) (mode : BitVec 4) : A32Specifier → BitVec 5
  | .reg r4 => if r4 == 0b1111 then 0b11111 else (c.aarch64View.toArray[16 * mode.toNat + r4.toNat]?).getD 0
  | .pcUnpredictable v => v
  | .unknown v => v

/-- Fault status 0b100010, Debug exception (13_esr_iss_b R233, R237, R258). -/
def debugStatus : BitVec 6 := 0b100010

/-- ISS[24:14] of a Data Abort, ISV first (13_esr_iss_b R185; with ISV 0 only ISS[23:18] are always 0, 90 C9). -/
def DataAbortGroup.bits : DataAbortGroup → BitVec 11
  | .isv1 sas sse srt sf ar => 1#1 ++ sas ++ bit sse ++ srt ++ bit sf ++ bit ar
  | .isv0 wu fnp pfv => 0#1 ++ 0#6 ++ wu ++ bit fnp ++ bit pfv

/-- ISS of a trapped MSR, MRS or System instruction (12_esr_iss_a R161, R164). -/
def sysAccessISS (f : SysFields) : BitVec 25 :=
  0#3 ++ f.op0 ++ f.op2 ++ f.op1 ++ f.crn ++ f.rt ++ f.crm ++ bit f.read

/-- The ISS of each encoding, in the order of 11_esr_el1 R86; `mode` is the AArch32 mode. -/
def ExcInfo.iss (c : Config) (mode : BitVec 4) : ExcInfo → BitVec 25
  | .unknownReason => 0                                                                     -- R100
  | .wfx cv cond rn rv ti => bit cv ++ cond ++ 0#10 ++ rn ++ 0#2 ++ bit rv ++ ti             -- R103
  | .mcr _ cv cond opc2 opc1 crn rt crm read =>                                              -- R115
    bit cv ++ cond ++ opc2 ++ opc1 ++ crn ++ rt.value c mode ++ crm ++ bit read
  | .ls64 .st64bv => 0                                                                       -- R128
  | .ls64 .st64bv0 => 1
  | .ls64 .ld64bSt64b => 2
  | .mcrr _ _ cv cond opc1 rt2 rt crm read =>                                                -- R130
    bit cv ++ cond ++ opc1 ++ 0#1 ++ rt2.value c mode ++ rt.value c mode ++ crm ++ bit read
  | .ldcStc cv cond imm8 rn offset am read =>                                                -- R138
    bit cv ++ cond ++ imm8 ++ 0#2 ++ rn.value c mode ++ bit offset ++ am ++ bit read
  | .fpAccess cv cond => bit cv ++ cond ++ 0#20                                              -- R147
  | .sveAccess => 0                                                                          -- R149
  | .pmu sync => 0#24 ++ bit sync                                                            -- R150
  | .illegalState => 0                                                                       -- R152
  | .pcAlignment => 0
  | .spAlignment => 0
  | .memoryOperation memInst isSETG options fromEpilogue wrongOption optionA dest src size =>  -- R153
    bit memInst ++ bit isSETG ++ options ++ bit fromEpilogue ++ bit wrongOption ++ bit optionA ++ 0#1
      ++ dest ++ src ++ size
  | .svc imm16 => 0#9 ++ imm16                                                               -- R158
  | .sysAccess f => sysAccessISS f                                                           -- R161
  | .sysAccess128 op0 op2 op1 crn rt crm read =>                                             -- R165
    0#3 ++ op0 ++ op2 ++ op1 ++ crn ++ rt ++ 0#1 ++ crm ++ bit read
  | .instrAbort a =>                                                                         -- R170
    0#10 ++ bit a.pfv ++ 0#1 ++ a.set ++ bit a.fnv ++ bit a.ea ++ 0#1 ++ bit a.s1ptw ++ 0#1 ++ a.ifsc
  | .smeAccess smtc => 0#22 ++ smtc                                                          -- R182
  | .dataAbort a =>                                                                          -- R185
    a.group.bits ++ 0#1 ++ a.lstSet ++ bit a.fnv ++ bit a.ea ++ bit a.cm ++ bit a.s1ptw ++ bit a.wnr ++ a.dfsc
  | .fpTrap tfv vecitr idf ixf uff off dzf iof =>                                            -- R205
    0#1 ++ bit tfv ++ 0#12 ++ vecitr ++ bit idf ++ 0#2 ++ bit ixf ++ bit uff ++ bit off ++ bit dzf ++ bit iof
  | .gcs (.dataCheck rn it) => 0#1 ++ 0b0000#4 ++ 0#5 ++ 0#5 ++ rn ++ it                     -- R212
  | .gcs .exlock => 0#1 ++ 0b0001#4 ++ 0#20
  | .gcs (.strTrap raddr rvalue) => 0#1 ++ 0b0010#4 ++ 0#5 ++ raddr ++ rvalue ++ 0#5
  | .serror (.implDefined payload) => 1#1 ++ payload                                         -- R220
  | .serror (.fields els wu vfv pfv iesb aet ea wnrv wnr dfsc) =>
    0#6 ++ bit els ++ wu ++ bit vfv ++ bit pfv ++ bit iesb ++ aet ++ bit ea ++ 0#1 ++ bit wnrv ++ bit wnr ++ dfsc
  | .breakpoint => 0#19 ++ debugStatus                                                       -- R233
  | .softwareStep isv ex => bit isv ++ 0#17 ++ bit ex ++ debugStatus                         -- R235
  | .watchpoint w =>                                                                         -- R238
    0#1 ++ w.wpt ++ bit w.wptv ++ bit w.wpf ++ bit w.fnp ++ 0#4 ++ bit w.fnv ++ 0#1 ++ bit w.cm ++ 0#1
      ++ bit w.wnr ++ debugStatus
  | .breakpointInstr comment => 0#9 ++ comment                                               -- R245
  | .tstart rd => 0#15 ++ rd ++ 0#5                                                          -- R247
  | .branchTarget btype => 0#23 ++ btype                                                     -- R250
  | .pacFail dataKey bKey => 0#23 ++ bit dataKey ++ bit bKey                                 -- R253

/-- ISS2: Data Abort, Instruction Abort, Watchpoint, and RES0 for the rest (11_esr_el1 R65, R66, R74, R77, R79). -/
def ExcInfo.iss2 : ExcInfo → BitVec 24
  | .dataAbort a =>
    0#13 ++ bit a.tnd ++ bit a.tagAccess ++ bit a.gcs ++ bit a.assuredOnly ++ bit a.overlay ++ bit a.dirtyBit ++ a.xs
  | .instrAbort a => 0#16 ++ bit a.assuredOnly ++ bit a.overlay ++ 0#6
  | .watchpoint w => 0#15 ++ bit w.gcs ++ 0#8
  | _ => 0

/-- EC of each encoding (11_esr_el1 R80, R86): from EL1 the odd value of a lower/same pair. R80 words EC 0x0C for MRRC alone and the text of
the ISS for MCRR and MRRC (12_esr_iss_a R136): that both directions are reported so is the model's choice (log 20). -/
def ExcInfo.ec (fromEL1 fromAArch32 : Bool) : ExcInfo → BitVec 6
  | .unknownReason => 0x00
  | .wfx .. => 0x01
  | .mcr coproc15 .. => if coproc15 then 0x03 else 0x05
  | .mcrr coproc15 .. => if coproc15 then 0x04 else 0x0C
  | .ldcStc .. => 0x06
  | .fpAccess .. => 0x07
  | .ls64 _ => 0x0A
  | .branchTarget _ => 0x0D
  | .illegalState => 0x0E
  | .svc _ => if fromAArch32 then 0x11 else 0x15
  | .sysAccess128 .. => 0x14
  | .sysAccess _ => 0x18
  | .sveAccess => 0x19
  | .tstart _ => 0x1B
  | .pacFail .. => 0x1C
  | .smeAccess _ => 0x1D
  | .instrAbort _ => if fromEL1 then 0x21 else 0x20
  | .pcAlignment => 0x22
  | .dataAbort _ => if fromEL1 then 0x25 else 0x24
  | .spAlignment => 0x26
  | .memoryOperation .. => 0x27
  | .fpTrap .. => if fromAArch32 then 0x28 else 0x2C
  | .gcs _ => 0x2D
  | .serror _ => 0x2F
  | .breakpoint => if fromEL1 then 0x31 else 0x30
  | .softwareStep .. => if fromEL1 then 0x33 else 0x32
  | .watchpoint _ => if fromEL1 then 0x35 else 0x34
  | .breakpointInstr _ => if fromAArch32 then 0x38 else 0x3C
  | .pmu _ => 0x3D

/-- ESR_EL1 of a cause (11_esr_el1 R88; 60_exceptions R521). -/
def ExcCause.syndrome (c : Config) (mode : BitVec 4) (x : ExcCause) : Word :=
  esrValue x.info.iss2 (x.info.ec x.fromEL1 x.fromAArch32) x.il (x.info.iss c mode)

/-- Undefined Instruction: EC 0x00, IL 1 (12_esr_iss_a R101; 40_sysreg_access_common R453). -/
def undefinedSyndrome : Word := esrValue 0 0x00 true 0

/-- The EXLOCK exception: EC 0x2D, ExType 0b0001 (13_esr_iss_b R214; 40_sysreg_access_common R457). -/
def exlockSyndrome : Word := esrValue 0 0x2D true 0x0100000

/-- Illegal Execution state: EC 0x0E (12_esr_iss_a R152). -/
def illegalStateSyndrome : Word := esrValue 0 0x0E true 0

/-- The syndrome of a trapped MRS or MSR: EC 0x18, IL 1 (40_sysreg_access_common R455). -/
def trapSyndrome (f : SysFields) : Word := esrValue 0 0x18 true (sysAccessISS f)

/-! ### The constraints the entry step checks (60_exceptions R521) -/

/-- Translation fault codes (13_esr_iss_b R176). -/
def isTranslationFault (fsc : BitVec 6) : Bool :=
  fsc.extractLsb' 2 4 == 0b0001 || fsc == 0b101010 || fsc == 0b101011

/-- Access flag fault codes (R176). -/
def isAccessFlagFault (fsc : BitVec 6) : Bool := fsc.extractLsb' 2 4 == 0b0010

/-- Permission fault codes (R176). -/
def isPermissionFault (fsc : BitVec 6) : Bool := fsc.extractLsb' 2 4 == 0b0011

/-- A Translation, Access flag or Permission fault: the faults that use LST (R195). -/
def usesLST (fsc : BitVec 6) : Bool := isTranslationFault fsc || isAccessFlagFault fsc || isPermissionFault fsc

/-- External aborts, parity and ECC errors included (11_esr_el1 R80; 13_esr_iss_b R176): codes 0b01xxxx but for the
Tag Check Fault. -/
def isExternalAbort (fsc : BitVec 6) : Bool := fsc.extractLsb' 4 2 == 0b01 && fsc != 0b010001

/-- The fault status codes of the table that IFSC and DFSC share (R176, R202). -/
def fscAllowed (y : SyndromeFeatures) (fsc : BitVec 6) : Bool :=
  match fsc.toNat with
  | 0x00 | 0x01 | 0x02 | 0x03 | 0x04 | 0x05 | 0x06 | 0x07 | 0x09 | 0x0A | 0x0B | 0x0D | 0x0E | 0x0F
  | 0x10 | 0x14 | 0x15 | 0x16 | 0x17 | 0x30 => true
  | 0x08 | 0x0C | 0x13 | 0x29 | 0x2B => y.lpa2
  | 0x12 | 0x2A | 0x2C => y.d128
  | 0x18 | 0x1C | 0x1D | 0x1E | 0x1F => !y.ras
  | 0x1B => y.lpa2 && !y.ras
  | 0x22 => y.d128 && y.rme
  | 0x23 => y.rme && y.lpa2
  | 0x24 | 0x25 | 0x26 | 0x27 | 0x28 => y.rme
  | 0x31 => y.hafdbs
  | _ => false

/-- The IMPLEMENTATION DEFINED fault codes: Lockdown, and Unsupported Exclusive or Atomic access (R202, 93 I8). -/
def isImplDefinedFault (fsc : BitVec 6) : Bool := fsc == 0b110100 || fsc == 0b110101

/-- The Instruction Fault Status Codes of an implementation (R176). 20_memory R419 and 93 I8 name the IMPLEMENTATION DEFINED codes as
IFSC values too, where R176 says that they are DFSC-only: that an implementation decides it is the model's choice (log 20). -/
def ifscAllowed (y : SyndromeFeatures) (fsc : BitVec 6) : Bool :=
  fscAllowed y fsc || (y.ifscImplDefined && isImplDefinedFault fsc)

/-- The Data Fault Status Codes: those of the shared table and four more (R202). -/
def dfscAllowed (y : SyndromeFeatures) (fsc : BitVec 6) : Bool :=
  fscAllowed y fsc || (fsc == 0b010001 && y.mte2) || fsc == 0b100001 || isImplDefinedFault fsc

/-- SET values (R172, R196): 0b00, 0b11, and 0b10 without FEAT_RASv2; 0 where the field is RES0. -/
def setAllowed (y : SyndromeFeatures) (fsc : BitVec 6) (set : BitVec 2) : Bool :=
  set == 0b00 || (y.ras && fsc == 0b010000 && (set == 0b11 || (set == 0b10 && !y.rasv2)))

/-- CV and COND (12_esr_iss_a R110, R111): set to 1 and 0b1110 from AArch64; from A32 CV is 1; from T32 either. 91 N15 would let CV be
0 from A32 too: that the model follows R110 and 93 I9 is its choice (log 20). Which COND a T32 instruction reports with CV 1, the
condition of its IT block or 0b1110, no rule derives from PSTATE.IT; whether 0b1111 can be a COND from A32, where R111 gives 0b1110 for an
unconditional instruction, and which COND the flags PSTATE.N, Z, C and V let pass (R107, 60_exceptions R531 (c)), no rule says: that every
COND is admitted from A32 and T32, whatever PSTATE.IT and the flags hold, is the model's choice (log 20). -/
def condAllowed (fromAArch32 t32 cv : Bool) (cond : BitVec 4) : Bool :=
  if fromAArch32 then cv || t32 else cv && cond == 0b1110

/-- `v` reports an AArch32 register in a mode: the AArch64 view of one, or 0b11111 for the descriptor 0b1111 (11_esr_el1 R85, R124). -/
def isA32View (c : Config) (mode : BitVec 4) (v : BitVec 5) : Bool :=
  (List.range 16).any (fun r => A32Specifier.value c mode (.reg (BitVec.ofNat 4 r)) == v)

/-- A specifier a trapped AArch32 instruction can report (R124); `literal` is the one case of a field called UNKNOWN
(R140). -/
def A32Specifier.allowed (c : Config) (mode : BitVec 4) (literal : Bool) : A32Specifier → Bool
  | .reg _ => !literal
  | .pcUnpredictable v => !literal && isA32View c mode v
  | .unknown _ => literal

/-- AM of a trapped LDC or STC (R142). -/
def amAllowed (t32 read : Bool) (am : BitVec 3) : Bool :=
  am.extractLsb' 2 1 == 0#1 || (am == 0b100 && read && !t32) || (am == 0b110 && read)

/-- The constraints on an Instruction Abort (R170 to R177; 11_esr_el1 R75, R76). -/
def InstrAbort.allowed (y : SyndromeFeatures) (a : InstrAbort) : Bool :=
  ifscAllowed y a.ifsc && (!a.pfv || y.pfar) && setAllowed y a.ifsc a.set && (!a.fnv || a.ifsc == 0b010000)
    && (!a.ea || isExternalAbort a.ifsc) && !a.s1ptw && !a.assuredOnly
    && (!a.overlay || (y.s1poe && isPermissionFault a.ifsc))

/-- LST (R195). -/
def lstAllowed (y : SyndromeFeatures) (lst : BitVec 2) : Bool :=
  lst == 0b00 || (lst == 0b01 && y.ls64v) || (lst == 0b10 && y.ls64) || (lst == 0b11 && y.ls64accdata)

/-- ISV is 0: no access LST names (R186). -/
def DataAbortGroup.isvClear : DataAbortGroup → Bool
  | .isv0 .. => true
  | .isv1 .. => false

/-- The constraints on a Data Abort (R185 to R203; 11_esr_el1 R66 to R73). ISV is 1 exactly for the accesses of R186 (a) to
(c), and that those report them in LST, so never 0b00 ('not specified', R195) with ISV 1, is the model's choice (log 20). TnD is 1
only for a write, of an Allocation Tag (11 R67). No rule relates the fields that follow, and what the model admits of them is its choice
(log 20): WnR 1 counts as a write also with CM 1, where it always reads 1 (R201), so DirtyBit (11 R72) and TnD (11 R67) may be 1 beside
CM 1; CM 1 may stand beside ISV 1 and an LST that names an LS64 instruction (R199); WnR may be 0 beside every LST (R201); and FnP may be
1 in an abort from AArch32 state (R192). -/
def DataAbort.allowed (y : SyndromeFeatures) (a : DataAbort) : Bool :=
  dfscAllowed y a.dfsc
    && (if usesLST a.dfsc then lstAllowed y a.lstSet else setAllowed y a.dfsc a.lstSet)
    && (match a.group with
        | .isv1 sas sse _ sf ar =>
          usesLST a.dfsc && a.lstSet != 0b00 && sas == 0b11 && !sse && sf && !ar
        | .isv0 wu fnp pfv =>
          !(usesLST a.dfsc && a.lstSet != 0b00) && wu != 0b01
            && (wu == 0b00 || (y.wu && isExternalAbort a.dfsc)) && (!fnp || y.sve || y.sme) && (!pfv || y.pfar))
    && (!a.fnv || a.dfsc == 0b010000) && (!a.ea || isExternalAbort a.dfsc) && (!a.cm || a.wnr) && !a.s1ptw
    && (!a.tnd || (y.mteCanonicalTags && isPermissionFault a.dfsc && a.wnr && a.group.isvClear)) && !a.tagAccess && (!a.gcs || y.gcs)
    && !a.assuredOnly && (!a.overlay || (y.s1poe && isPermissionFault a.dfsc))
    && (!a.dirtyBit || (y.s1pie && isPermissionFault a.dfsc && a.wnr))
    && (a.xs == 0 || (usesLST a.dfsc && ((a.lstSet == 0b01 && y.ls64v) || (a.lstSet == 0b11 && y.ls64accdata))))

/-- IT of a GCS Data Check, and Rn where IT fixes it (R216, R218). -/
def GCSInfo.allowed : GCSInfo → Bool
  | .dataCheck rn it =>
    (it == 0 || it == 1 || it == 2 || it == 3 || it == 4 || it == 5 || it == 8 || it == 9)
      && (it != 0b01001 || rn == 0b11111)
  | .exlock => true
  | .strTrap _ _ => true

/-- The constraints on an SError (R220 to R231). R227 has AET 'valid only' with DFSC 0b010001 and does not say what it holds otherwise: that
an SError reports 0 there is the model's choice (log 20). -/
def SErrorInfo.allowed (y : SyndromeFeatures) : SErrorInfo → Bool
  | .implDefined _ => true
  | .fields els wu vfv pfv iesb aet ea wnrv wnr dfsc =>
    (y.ras || (!els && wu == 0 && !vfv && !pfv && !iesb && aet == 0 && !ea && !wnrv && !wnr && dfsc == 0))
      && (!els || y.serrELS) && wu != 0b01 && (wu == 0 || y.serrWU) && (!vfv || y.serrVFV) && (!pfv || y.pfar)
      && (!iesb || y.serrIESB)
      && (aet == 0 || ((aet == 1 || aet == 2 || aet == 3 || aet == 6) && dfsc == 0b010001))
      && (!wnrv || y.serrWnRV) && (!wnr || wnrv) && (dfsc == 0 || dfsc == 0b010001)

/-- WPT is a field whatever WPTV says: where it is not, it is 0 unless it is valid (R239; log 21). -/
def wptPresent (c : Config) : Bool := c.synd.wpt || c.dbg.debugv8p9

/-- WPTV: 1 with FEAT_Debugv8p9, WPTVAlways, or `reported`, that WPF, FnP or FnV is 1 (R240; 60_exceptions R555). -/
def wptValid (c : Config) (reported : Bool) : Bool := c.dbg.debugv8p9 || c.wptvAlways || reported

/-- The constraints on a Watchpoint exception (R238 to R244; 11_esr_el1 R78). -/
def WatchpointInfo.allowed (c : Config) (w : WatchpointInfo) : Bool :=
  w.wptv == wptValid c (w.wpf || w.fnp || w.fnv)
    && (if w.wptv then decide (w.wpt.toNat < c.numWatchpoints) else wptPresent c || w.wpt == 0)
    && (!(w.wpf || w.fnp || w.fnv) || c.synd.sve || c.synd.sme) && !(w.fnp && w.fnv) && (!w.cm || w.wnr)
    && (!w.gcs || c.synd.gcs)

/-- The kinds that report IL 1 whatever the instruction (11_esr_el1 R83). -/
def ExcInfo.alwaysIL : ExcInfo → Bool
  | .unknownReason | .serror _ | .instrAbort _ | .pcAlignment | .spAlignment | .illegalState
  | .breakpoint | .softwareStep .. | .watchpoint _ | .pmu _ => true
  | .dataAbort a => a.group.isvClear
  | _ => false

/-- The constraints of each encoding on its fields, the state the exception comes from and the controls that raise it
(12_esr_iss_a, 13_esr_iss_b; log 20). Where the rules are silent the model admits more, by its choice (log 20): a WF* whose condition
the flags would fail (12 R107), a WFIT or WFET from AArch32 state (R106), TFV 0 from an instruction that works on one lane (13 R206), any
16-bit Comment and either IL of a T32 BKPT (R245), and every PAC Fail with FEAT_FPAC, with and without FEAT_FPACCOMBINE (R255). RN of a
WFIT or WFET from AArch32 state is the AArch64 view of its register (11_esr_el1 R85). An MRS or MSR of one of the eleven names never traps
to EL1 (60_exceptions R551, 40_sysreg_access_common R463). -/
def ExcInfo.allowed (c : Config) (e : Env) (p : PState) (fromEL1 a32 : Bool) : ExcInfo → Bool
  | .unknownReason => true
  | .wfx cv cond rn rv ti =>
    condAllowed a32 p.T cv cond
      && (if c.synd.wfxt then rv == ti.getLsbD 1 && (if rv then !a32 || isA32View c p.M rn else rn == 0) else rn == 0 && !rv && !ti.getLsbD 1)
  | .mcr _ cv cond _ _ _ rt _ _ => a32 && condAllowed a32 p.T cv cond && rt.allowed c p.M false
  | .ls64 kind =>
    !a32 && c.synd.ls64 && (match kind with
      | .st64bv => c.synd.ls64v
      | .st64bv0 => c.synd.ls64accdata
      | .ld64bSt64b => true)
  | .mcrr _ trace cv cond _ rt2 rt _ _ =>
    a32 && condAllowed a32 p.T cv cond && rt2.allowed c p.M false && rt.allowed c p.M false
      && !(trace && c.dbg.etmv4)
  | .ldcStc cv cond _ rn _ am read =>
    a32 && condAllowed a32 p.T cv cond && amAllowed p.T read am && rn.allowed c p.M (am.getLsbD 2)
  | .fpAccess cv cond => condAllowed a32 p.T cv cond && !e.hyp.tge && (c.synd.sve || c.synd.fpSimd)
  | .sveAccess => !a32 && c.synd.sve
  | .pmu sync => c.synd.ebep && !p.PM && (!sync || (c.synd.sebep && p.PPEND))
  | .illegalState => p.IL
  | .pcAlignment => true
  | .spAlignment => true
  | .memoryOperation memInst isSETG options _ _ optionA _ _ _ =>
    !a32 && c.synd.mops && optionA == p.C && (!isSETG || memInst) && (!memInst || options.extractLsb' 2 2 == 0)
  | .svc imm16 => !(a32 && p.T) || imm16.extractLsb' 8 8 == 0
  | .sysAccess f => !a32 && !isAccessor f
  | .sysAccess128 .. => !a32 && (c.synd.sysreg128 || c.synd.sysinstr128)
  | .instrAbort a => a.allowed c.synd
  | .smeAccess smtc =>
    !a32 && c.synd.sme && (smtc == 0 || (smtc == 1 && p.SM) || (smtc == 2 && !p.SM) || (smtc == 3 && !p.ZA)
      || (smtc == 4 && c.synd.sme2))
  | .dataAbort a => a.allowed c.synd && (match a.group with
    | .isv1 .. => !a32
    | .isv0 .. => true)
  | .fpTrap tfv vecitr idf ixf uff off dzf iof =>
    c.fpTrapSupported && (!a32 || vecitr == 0b111) && (!tfv || idf || ixf || uff || off || dzf || iof)
  | .gcs g => !a32 && c.synd.gcs && g.allowed
  | .serror e => !p.A && e.allowed c.synd
  | .breakpoint => true
  | .softwareStep isv ex => isv || !ex
  | .watchpoint w => w.allowed c
  | .breakpointInstr _ => true
  | .tstart _ => !a32 && c.synd.tme && !(if fromEL1 then e.named.sctlr1TME else e.named.sctlr1TME0)
  | .branchTarget btype => !a32 && c.synd.bti && btype == p.BTYPE && btype != 0
  | .pacFail .. => !a32 && c.synd.fpac

/-- The exceptions the environment reports through inputs of their own: the debug exceptions and the asynchronous ones
(60_exceptions R527, R528, R555 to R557). -/
def ExcInfo.hasOwnInput : ExcInfo → Bool
  | .breakpoint | .softwareStep .. | .watchpoint _ | .serror _ => true
  | .pmu sync => !sync
  | _ => false

/-- The exceptions no executing instruction raises: a fetch that fails, Illegal Execution state itself, and those of
events (60_exceptions R522). -/
def ExcInfo.beforeInstruction : ExcInfo → Bool
  | .instrAbort _ | .pcAlignment | .illegalState | .breakpoint | .softwareStep .. | .serror _ | .pmu _ => true
  | _ => false

/-- AArch32 state is User mode at EL0, where the implementation has it (92 D7; 14_spsr_el1 R260, R273). No rule says that a level which
HaveEL calls absent is never entered (60_exceptions R553): that EL2 and EL3 are admitted whatever `haveEL2` and `haveEL3` say is the
model's choice (log 10). -/
def PState.stateOk (c : Config) (p : PState) : Bool := !p.nRW || (c.haveAArch32 && p.EL == .el0 && p.M == 0)

/-- The exception comes from where PSTATE says, and AArch32 only from EL0 with HaveAArch32 (60_exceptions R521). -/
def ExcCause.originOk (c : Config) (p : PState) (x : ExcCause) : Bool :=
  p.EL == (if x.fromEL1 then .el1 else .el0) && x.fromAArch32 == p.nRW
    && (!x.fromAArch32 || (!x.fromEL1 && c.haveAArch32))

/-- What the entry step checks of a cause descriptor (60_exceptions R521, R524; log 20). IL is 0 only of a 16-bit T32 instruction
(11_esr_el1 R83); no rule says whether a T32 SVC, with its 8-bit immediate, is one (12_esr_iss_a R159): that either IL is admitted of it is
the model's choice (log 20). -/
def ExcCause.check (c : Config) (e : Env) (p : PState) (x : ExcCause) : Bool :=
  x.originOk c p && (x.il || (x.fromAArch32 && p.T && !x.info.alwaysIL))
    && x.info.allowed c e p x.fromEL1 x.fromAArch32

/-! ### The reserved bits of ESR_EL1 (11_esr_el1 R63 to R66, R74, R77, R79, R84; log 36) -/

/-- A field of `n` bits is RES0 unless `present`. -/
def res0Unless (n : Nat) (present : Bool) : BitVec n := if present then 0 else BitVec.allOnes n

/-- The RES0 bits of ISS when it holds `v`, by the layout of the Exception class (11_esr_el1 R80, R86), the features and the
fields on which a field depends. The access list of WnR of an SError is lost (13_esr_iss_b R230, 91 N24): that ISS[6] reads as held
also with WnRV 0 or without the feature of WnRV, and is not RES0 then, is the model's choice (log 36), and so is that AET of an SError
reads as held also when DFSC is not 0b010001 (R227). -/
def issRes0 (c : Config) (ec : BitVec 6) (v : BitVec 25) : BitVec 25 :=
  let y := c.synd
  let fsc := v.extractLsb' 0 6
  match ec.toNat with
  | 0x00 | 0x0E | 0x19 | 0x22 | 0x26 => 0x1FFFFFF                                            -- R100, R149, R152
  | 0x01 =>                                                                                  -- R103 to R106
    0#5 ++ 0x3FF#10 ++ res0Unless 5 y.wfxt ++ 3#2 ++ res0Unless 1 (y.wfxt && v.getLsbD 1) ++ res0Unless 1 y.wfxt ++ 0#1
  | 0x04 | 0x0C => 0x0008000                                                                 -- R130
  | 0x06 => 0x0000C00                                                                        -- R138
  | 0x07 => 0x00FFFFF                                                                        -- R147
  | 0x0D | 0x1C => 0x1FFFFFC                                                                 -- R250, R253
  | 0x11 | 0x15 | 0x38 | 0x3C => 0x1FF0000                                                   -- R158, R245
  | 0x14 => 0x1C00020                                                                        -- R165
  | 0x18 => 0x1C00000                                                                        -- R161
  | 0x1B => 0x1FFFC1F                                                                        -- R247
  | 0x1D => 0x1FFFFF8                                                                        -- R182
  | 0x20 | 0x21 =>                                                                           -- R170 to R173
    0x3FF#10 ++ res0Unless 1 y.pfar ++ 1#1 ++ res0Unless 2 (y.ras && fsc == 0b010000) ++ res0Unless 1 (fsc == 0b010000)
      ++ 0#1 ++ 1#1 ++ 0#1 ++ 1#1 ++ 0#6
  | 0x24 | 0x25 =>                                                                           -- R185 to R197
    0#1 ++ res0Unless 6 (v.getLsbD 24)
      ++ (if v.getLsbD 24 then 0#4 else res0Unless 2 y.wu ++ res0Unless 1 (y.sve || y.sme) ++ res0Unless 1 y.pfar)
      ++ 1#1 ++ res0Unless 2 (usesLST fsc || (y.ras && fsc == 0b010000)) ++ res0Unless 1 (fsc == 0b010000) ++ 0#10
  | 0x27 => 0#2 ++ res0Unless 2 (!v.getLsbD 24) ++ 0#5 ++ 1#1 ++ 0#15                        -- R153, R155
  | 0x28 | 0x2C => 1#1 ++ 0#1 ++ 0xFFF#12 ++ 0#4 ++ 3#2 ++ 0#5                               -- R205
  | 0x2D =>                                                                                  -- R212
    let exType := v.extractLsb' 20 4
    1#1 ++ 0#4 ++ 0x1F#5 ++ res0Unless 5 (exType == 2) ++ res0Unless 5 (exType == 0 || exType == 2)
      ++ res0Unless 5 (exType == 0)
  | 0x2F =>                                                                                  -- R220 to R231
    if v.getLsbD 24 then 0
    else if y.ras then
      0#1 ++ 0x1F#5 ++ res0Unless 1 y.serrELS ++ res0Unless 2 y.serrWU ++ res0Unless 1 y.serrVFV ++ res0Unless 1 y.pfar
        ++ res0Unless 1 y.serrIESB ++ 0#4 ++ 1#1 ++ res0Unless 1 y.serrWnRV ++ 0#7
    else 0x0FFFFFF
  | 0x30 | 0x31 => 0x1FFFFC0                                                                 -- R233
  | 0x32 | 0x33 => 0#1 ++ 0x1FFFF#17 ++ res0Unless 1 (v.getLsbD 24) ++ 0#6                   -- R235 to R237
  | 0x34 | 0x35 =>                                                                           -- R238, R239
    1#1 ++ res0Unless 6 (wptPresent c || v.getLsbD 17) ++ 0#3 ++ 0xF#4 ++ 0#1 ++ 1#1 ++ 0#1 ++ 1#1 ++ 0#7
  | 0x3D => 0x1FFFFFE                                                                        -- R150
  | _ => 0                                                                                   -- R115, R128

/-- The RES0 bits of ISS2 when ISS holds `v` (11_esr_el1 R65 to R79). -/
def iss2Res0 (c : Config) (ec : BitVec 6) (v : BitVec 25) : BitVec 24 :=
  let y := c.synd
  let fsc := v.extractLsb' 0 6
  let lst := v.extractLsb' 11 2
  match ec.toNat with
  | 0x20 | 0x21 => 0xFFFF#16 ++ res0Unless 1 y.assuredOnly ++ res0Unless 1 (y.s1poe && isPermissionFault fsc) ++ 0x3F#6      -- R74, R76
  | 0x24 | 0x25 =>                                                                                    -- R66 to R73
    0x1FFF#13 ++ res0Unless 1 (y.mteCanonicalTags && isPermissionFault fsc) ++ res0Unless 1 y.tagAccess
      ++ res0Unless 1 y.gcs ++ res0Unless 1 y.assuredOnly
      ++ res0Unless 1 (y.s1poe && isPermissionFault fsc)
      ++ res0Unless 1 (y.s1pie && isPermissionFault fsc && v.getLsbD 6)
      ++ res0Unless 5 (usesLST fsc && ((lst == 0b01 && y.ls64v) || (lst == 0b11 && y.ls64accdata)))
  | 0x34 | 0x35 => 0x7FFF#15 ++ res0Unless 1 y.gcs ++ 0xFF#8                                          -- R77, R78
  | _ => 0xFFFFFF                                                                                     -- R79

/-- The RES0 bits of ESR_EL1 when it holds `v`: [63:56], those of ISS2 and those of ISS, where a reserved Exception class gives
ISS no layout (R63, R64, R81; log 36). -/
def esrRes0 (c : Config) (v : Word) : Word :=
  0xFF#8 ++ iss2Res0 c (esrEC v) (esrISS v) ++ 0#7 ++ (if ecAllocated c (esrEC v) then issRes0 c (esrEC v) (esrISS v) else 0)

/-- The RES1 bits of ESR_EL1 when it holds `v`: VECITR of a floating-point exception from AArch32 state (13_esr_iss_b R207). -/
def esrRes1 (c : Config) (v : Word) : Word := if esrEC v == 0x28 && ecAllocated c 0x28 then 0x700 else 0

end Sys2Proof.Machine
end

