-- ==== Sys2Proof/Machine/Storage.lean ====
section
/-! DEFINITION. What each register reads as and what a write to it stores (40_sysreg_access_common R465, R466;
15_debug_regs R321, R326, R339, R355; 16_profiling_regs R361, R381). -/

namespace Sys2Proof.Machine

open Sys2Proof

/-! ### MDSCR_EL1 -/

/-- The window positions, those of TFO and SC2 only with their features (15_debug_regs R339, R341, R351). -/
def mdscrWindowMask (c : Config) : Word :=
  0#32 ++ bit c.dbg.trf ++ 3#2 ++ 0#1 ++ 3#2 ++ 0#2 ++ 3#2 ++ 1#1 ++ 0#1 ++ bit c.dbg.pcsrv8p2 ++ 0#3 ++ 0#1 ++ 1#1
    ++ 0#7 ++ 1#1 ++ 0#6

/-- Bits [18:16], RAZ/WI (R351). -/
def mdscrRaz : Word := 0x70000

/-- MDE, KDE, TDCC and SS, bits 15, 13, 12 and 0 (10_state R34). -/
def mdscrOwn : Word := 0xB001

/-- The window bits as EDSCR holds them (R340). -/
def mdscrWindows (c : Config) (e : EDSCR) : Word :=
  0#32 ++ bit (c.dbg.trf && e.TFO) ++ bit e.RXfull ++ bit e.TXfull ++ 0#1 ++ bit e.RXO ++ bit e.TXU ++ 0#2
    ++ e.INTdis ++ bit e.TDA ++ 0#1 ++ bit (c.dbg.pcsrv8p2 && e.SC2) ++ 0#3 ++ 0#1 ++ bit e.HDE
    ++ 0#7 ++ bit e.ERR ++ 0#6

/-- A write of the windows into EDSCR (R340, R355). -/
def EDSCR.ofWindows (c : Config) (v : Word) (e : EDSCR) : EDSCR :=
  { e with
    TFO := if c.dbg.trf then v.getLsbD 31 else e.TFO
    RXfull := v.getLsbD 30, TXfull := v.getLsbD 29, RXO := v.getLsbD 27, TXU := v.getLsbD 26
    INTdis := v.extractLsb' 22 2, TDA := v.getLsbD 21
    SC2 := if c.dbg.pcsrv8p2 then v.getLsbD 19 else e.SC2
    HDE := v.getLsbD 14, ERR := v.getLsbD 6 }

/-- The bits of MDSCR_EL1 that are storage: all but the windows and the RAZ/WI bits (R353, R355). -/
def mdscrKept (c : Config) : Word := ~~~(mdscrWindowMask c ||| mdscrRaz)

/-- MDSCR_EL1 as read: own bits, windows from EDSCR when OSLK is 1 and UNKNOWN when it is 0 (R340, R355). -/
def mdscrReading (c : Config) (oslk : Bool) (e : EDSCR) (v : Word) : Reading :=
  { held := (v &&& mdscrKept c) ||| (if oslk then mdscrWindows c e else 0)
    unknown := if oslk then 0 else mdscrWindowMask c
    res0 := mdscrKept c &&& ~~~mdscrOwn
    res1 := 0 }

/-! ### DBGWCR<n>_EL1 -/

/-- The RES0 bits: [63:32], [23:21], LBNX without FEAT_Debugv8p9, SSCE without FEAT_RME (R321 to R323). -/
def wcrRes0 (c : Config) : Word :=
  0xFFFFFFFF#32 ++ (if c.dbg.debugv8p9 then 0#2 else 3#2) ++ bit (!c.synd.rme) ++ 0#5 ++ 7#3 ++ 0#21

/-- LBN, and LBNX with FEAT_Debugv8p9 (R322, R326). -/
def wcrLinkMask (c : Config) : Word := 0#32 ++ (if c.dbg.debugv8p9 then 3#2 else 0#2) ++ 0#10 ++ 0xF#4 ++ 0#16

/-- DBGWCR<n>_EL1 as read: LBN and LBNX are UNKNOWN unless WT is 1 (R322, R326). -/
def wcrReading (c : Config) (v : Word) : Reading :=
  { held := v, unknown := if v.getLsbD 20 then 0 else wcrLinkMask c, res0 := wcrRes0 c, res1 := 0 }

/-! ### PMSFCR_EL1 and BRBCR_EL1 -/

/-- SIMD and FP of PMSFCR_EL1 are fields (16_profiling_regs R361). -/
def simdFpPresent (c : Config) : Bool := c.prof.speFPF || c.prof.speEFT

/-- The RES0 bits of PMSFCR_EL1 (R361, R376). -/
def pmsfcrRes0 (c : Config) : Word :=
  0x7FF#11 ++ (if c.prof.speEFT then 0#5 else 0x1F#5) ++ 0x7FFFFFF#27 ++ bit (!simdFpPresent c)
    ++ bit (!simdFpPresent c) ++ 0#3 ++ 0x7FF#11 ++ bit (!c.prof.speFDS) ++ bit (!c.prof.spev1p2) ++ 0#3

/-- The RES0 bits of BRBCR_EL1 (R381, R391). -/
def brbcrRes0 (c : Config) : Word :=
  0xFFFFFFFFFF#40 ++ 0#2 ++ 0xFFF#12 ++ bit (!c.prof.pmuv3SS) ++ bit (!c.prof.pmuv3) ++ 1#1 ++ 0#4 ++ 1#1 ++ 0#2

/-! ### Every storage -/

/-- What a register of the pairs of 70_reset R590 reads as when it holds `v`. -/
def pairReading (c : Config) (p : RegPair) (v : Word) : Reading :=
  match p with
  | .esr => { held := v, unknown := 0, res0 := esrRes0 c v, res1 := esrRes1 c v }
  | .spsr => spsrReading c v
  | .brbcr => { held := v, unknown := 0, res0 := brbcrRes0 c, res1 := 0 }

/-- The register of a pair (R590). -/
def pairStorage : RegPair → Storage
  | .esr => .esrEL1
  | .spsr => .spsrEL1
  | .brbcr => .brbcrEL1

/-- DBGWCR_EL1[i]; the accessors and the inputs reach an index below 64 only. -/
def State.wcr (s : State) (i : Nat) : Word := if h : i < 64 then s.dbgwcr[i] else 0

/-- What each storage reads as (40_sysreg_access_common R466); the EL2 cells are opaque (10_state R37). -/
def State.reading (s : State) : Storage → Reading
  | .esrEL1 => if s.esrUnknown then .allUnknown else pairReading s.cfg .esr s.esrEL1
  | .esrEL2 => .plain s.esrEL2
  | .spsrEL1 => if s.spsrUnknown then .allUnknown else pairReading s.cfg .spsr s.spsrEL1
  | .spsrEL2 => .plain s.spsrEL2
  | .brbcrEL1 => pairReading s.cfg .brbcr s.brbcrEL1
  | .brbcrEL2 => .plain s.brbcrEL2
  | .mdscr => mdscrReading s.cfg s.env.dbg.oslk s.env.edscr s.mdscr
  | .pmsfcr => { held := s.pmsfcr, unknown := 0, res0 := pmsfcrRes0 s.cfg, res1 := 0 }
  | .dbgwcr i => wcrReading s.cfg (s.wcr i)

/-- The write of MDSCR_EL1, field by field (15_debug_regs R355). -/
def State.writeMdscr (s : State) (v : Word) : State :=
  { s with
    mdscr := v &&& mdscrKept s.cfg
    env := { s.env with edscr := if s.env.dbg.oslk then EDSCR.ofWindows s.cfg v s.env.edscr else s.env.edscr } }

/-- The write of DBGWCR_EL1[i]. -/
def State.writeWcr (s : State) (i : Nat) (v : Word) : State :=
  if h : i < 64 then { s with dbgwcr := s.dbgwcr.set i v } else s

/-- The write rule of each storage (40_sysreg_access_common R465). -/
def State.writeStorage (s : State) (v : Word) : Storage → State
  | .esrEL1 => { s with esrEL1 := v, esrUnknown := false }
  | .esrEL2 => { s with esrEL2 := v }
  | .spsrEL1 => { s with spsrEL1 := v, spsrUnknown := false }
  | .spsrEL2 => { s with spsrEL2 := v }
  | .brbcrEL1 => { s with brbcrEL1 := v }
  | .brbcrEL2 => { s with brbcrEL2 := v }
  | .mdscr => s.writeMdscr v
  | .pmsfcr => { s with pmsfcr := v }
  | .dbgwcr i => s.writeWcr i v

/-! ### The name pairs at EL3 (70_reset R590; log 16) -/

/-- The pending record of a pair. -/
def State.pairRecord (s : State) : RegPair → Option PairRecord
  | .esr => s.esrPair
  | .spsr => s.spsrPair
  | .brbcr => s.brbcrPair

/-- Sets the pending record of a pair. -/
def State.setPairRecord (s : State) (r : Option PairRecord) : RegPair → State
  | .esr => { s with esrPair := r }
  | .spsr => { s with spsrPair := r }
  | .brbcr => { s with brbcrPair := r }

/-- The record that makes an access through `n` a hazard: one left by the other name. -/
def State.hazard (s : State) (p : RegPair) (n : PairName) : Option PairRecord :=
  (s.pairRecord p).filter (fun r => r.name != n)

/-- What an MRS at EL3 through the name `n` reads: with a hazard, the old value or the current one. -/
def State.pairedReading (s : State) (p : RegPair) (n : PairName) : Reading :=
  match s.hazard p n with
  | some r => s.choose (pairReading s.cfg p r.old) (s.reading (pairStorage p))
  | none => s.reading (pairStorage p)

/-- The choice of `pairedReading` uses one free value. -/
def State.afterPairedChoice (s : State) (p : RegPair) (n : PairName) : State :=
  match s.hazard p n with
  | some _ => s.skip 1
  | none => s

/-- The value a register of a pair has before a write: an UNKNOWN one is a free value. -/
def State.pairBefore (s : State) (p : RegPair) : Word := s.valueOf (s.reading (pairStorage p))

/-- An MSR at EL3 through the name `n`: with a hazard the register holds one of the two values written; without one it
holds `v`, and while the Effective value of HCR_EL2.E2H is 1 the write is recorded with the value before it. -/
def State.writePaired (s : State) (p : RegPair) (n : PairName) (v : Word) : State :=
  match s.hazard p n with
  | some r =>
    (((s.skip 1).writeStorage (s.choose r.written v) (pairStorage p)).setPairRecord (some { name := n, old := r.old, written := v }) p)
  | none =>
    if s.env.hyp.elIsInHost then
      (((s.afterRead (s.reading (pairStorage p))).writeStorage v (pairStorage p)).setPairRecord
        (some { name := n, old := s.pairBefore p, written := v }) p)
    else (s.writeStorage v (pairStorage p)).setPairRecord ((s.pairRecord p).map (fun r => { r with written := v })) p

/-- A Context synchronization event, an exception entry, an exception return and a step not at EL3 clear the records. -/
def State.clearPairs (s : State) : State := { s with esrPair := none, spsrPair := none, brbcrPair := none }

/-- What a step does before anything else: at another level than EL3 the records are cleared (R590). -/
def State.settle (s : State) : State := if s.pstate.EL = .el3 then s else s.clearPairs

end Sys2Proof.Machine
end

