-- ==== Sys2Proof/Machine/Ops.lean ====
section
/-! DEFINITION. The named operations: memory and the NVMem cells (20_memory), Branch records (16_profiling_regs),
taking an exception and returning from one (60_exceptions), and the outcomes of an MRS or MSR (40). -/

namespace Sys2Proof.Machine

open Sys2Proof

/-! ### Memory (20_memory R400, R401, R404) -/

/-- The byte at an address; an unlisted byte reads 0 (log 7). -/
def Memory.read : Memory → Nat → Byte
  | [], _ => 0
  | (b, v) :: m, a => if b = a then v else Memory.read m a

/-- Lists the byte `v` at its place in the rising order. -/
def Memory.insert : Memory → Nat → Byte → Memory
  | [], a, v => [(a, v)]
  | (b, w) :: m, a, v =>
    if b = a then (a, v) :: m else if a < b then (a, v) :: (b, w) :: m else (b, w) :: Memory.insert m a v

/-- Writes a byte; a byte written 0 is unlisted. -/
def Memory.write (m : Memory) (a : Nat) (v : Byte) : Memory :=
  if v = 0 then m.filter (fun e => e.1 != a) else Memory.insert m a v

/-- Every listed address is at least `lo` and in the 64-bit space, addresses rise and no listed byte is 0. -/
def Memory.wfFrom : Nat → Memory → Bool
  | _, [] => true
  | lo, (a, v) :: m => decide (lo ≤ a) && decide (a < 2 ^ 64) && v != 0 && Memory.wfFrom (a + 1) m

/-- The canonical form: equal memories are equal lists. -/
def Memory.wf (m : Memory) : Bool := Memory.wfFrom 0 m

/-- The byte at `a + i`; an address wraps at 64 bits. -/
def Memory.byteAt (m : Memory) (a : Word) (i : Nat) : Byte := m.read (a + BitVec.ofNat 64 i).toNat

/-- MemRead(a, 8): little-endian, or reversed when NVMemBigEndian (R401). -/
def Memory.read8 (m : Memory) (big : Bool) (a : Word) : Word :=
  if big then
    m.byteAt a 0 ++ m.byteAt a 1 ++ m.byteAt a 2 ++ m.byteAt a 3 ++ m.byteAt a 4 ++ m.byteAt a 5 ++ m.byteAt a 6
      ++ m.byteAt a 7
  else
    m.byteAt a 7 ++ m.byteAt a 6 ++ m.byteAt a 5 ++ m.byteAt a 4 ++ m.byteAt a 3 ++ m.byteAt a 2 ++ m.byteAt a 1
      ++ m.byteAt a 0

/-- Byte `i` of a value, byte 0 its bits [7:0]. -/
def byteOf (v : Word) (i : Nat) : Byte := v.extractLsb' (8 * i) 8

/-- MemWrite(a, 8, v) (R401). -/
def Memory.write8 (m : Memory) (big : Bool) (a : Word) (v : Word) : Memory :=
  [0, 1, 2, 3, 4, 5, 6, 7].foldl
    (fun m i => m.write (a + BitVec.ofNat 64 i).toNat (byteOf v (if big then 7 - i else i))) m

/-- The address of NVMem[offset] (R404). -/
def State.nvMemAddr (s : State) (off : Word) : Word := s.cfg.nvMemBase + off

/-- NVMem[offset] (R404). -/
def State.nvMemRead (s : State) (off : Word) : Word := s.mem.read8 s.cfg.nvMemBigEndian (s.nvMemAddr off)

/-- NVMem[offset] = v (R404). -/
def State.nvMemWrite (s : State) (off v : Word) : State :=
  { s with mem := s.mem.write8 s.cfg.nvMemBigEndian (s.nvMemAddr off) v }

/-- NVMemFaults(addr, iswrite) (R406). -/
def State.nvMemFaults (s : State) (off : Word) (isWrite : Bool) : Bool :=
  s.env.step.nvMemFaults.contains (s.nvMemAddr off, isWrite)

/-! ### Routing (60_exceptions R552) -/

/-- Exceptions that would go to EL1 go to EL2: EL2 is enabled and HCR_EL2.TGE is 1 (R552; 15_debug_regs R349). -/
def State.tgeToEL2 (s : State) : Bool := s.env.hyp.el2Enabled && s.env.hyp.tge

/-! ### Branch records (16_profiling_regs R380 to R394; 60_exceptions R541, R550; log 23) -/

/-- Branch recording is enabled at EL0 by E0BRE, or where E0BRE is ignored by BRBCR_EL2.E0HBRE (R390), and at EL1 by E1BRE
(R389). No rule says whether a branch at EL2 or EL3 is recorded: the model records none (log 23). -/
def State.branchEnabled (s : State) : EL → Bool
  | .el0 => if s.tgeToEL2 then s.env.prof.e0hbre else s.brbcrEL1.getLsbD 0
  | .el1 => s.brbcrEL1.getLsbD 1
  | _ => false

/-- The physical offset of a guest timestamp is zero: SCR_EL3.ECVEn or CNTHCTL_EL2.ECV is 0 (R386). -/
def State.physOffsetZero (s : State) : Bool :=
  (s.cfg.haveEL3 && !s.env.prof.scrECVEn) || (s.cfg.haveEL2 && !s.env.prof.cnthctlECV)

/-- The timestamps TS allows (R386): one for a defined value, any of the defined ones for a reserved value (93 V8), and
none listed, so any value, where EL2's own TS is in use. That the counter and the offsets are 64 bits and the difference
is modulo 2^64 is the model's choice (60_exceptions R564; log 23). -/
def State.branchTimestamps (s : State) : List Word :=
  let p := s.env.prof
  let virtual := p.physCount - p.cntvoff
  let guest := p.physCount - (if s.physOffsetZero then 0 else p.cntpoff)
  if s.cfg.haveEL2 && p.brbcr2TS != 0b00 then []
  else if s.brbcrEL1.extractLsb' 5 2 = 0b01 then [virtual]
  else if s.brbcrEL1.extractLsb' 5 2 = 0b10 && s.cfg.prof.ecv then [guest]
  else if s.brbcrEL1.extractLsb' 5 2 = 0b11 then [p.physCount]
  else if s.cfg.prof.ecv then [virtual, guest, p.physCount]
  else [virtual, p.physCount]

/-- BRBERecord(kind), with what MPRED and CC allow in it (R387, R394). -/
def State.emitRecord (s : State) (k : BranchKind) : State :=
  let t := match s.branchTimestamps with
    | [] => s.freeValue
    | a :: rest => s.chooseFrom a rest
  { s.skip 1 with brbeLog := .record k t (s.brbcrEL1.getLsbD 4) (s.brbcrEL1.getLsbD 3) :: s.brbeLog }

/-- The record of an exception taken to EL1 from the current level (R541). -/
def State.entryRecord (s : State) : State :=
  if s.cfg.prof.brbe && s.brbcrEL1.getLsbD 23 && s.branchEnabled s.pstate.EL then s.emitRecord .exceptionEntry else s

/-- The record of an exception return from EL1 (R550). -/
def State.returnRecord (s : State) : State :=
  if s.cfg.prof.brbe && s.brbcrEL1.getLsbD 22 && s.brbcrEL1.getLsbD 1 then s.emitRecord .exceptionReturn else s

/-! ### Exceptions -/

/-- The exception-lock enable PSTATE.EXLOCK receives at an entry (60_exceptions R542 (d)). R542 does not say of which level:
that the input GetCurrentEXLOCKEN() stands for the level entered too is the model's choice (log 13). -/
def State.entryLock (s : State) : Bool := s.cfg.synd.gcs && s.env.step.exlockEn

/-- The syndrome of an exception that has one; an IRQ or FIQ leaves ESR_EL1 (60_exceptions R526, R540). -/
def State.setSyndrome (s : State) : Option Word → State
  | some v => { s with esrEL1 := v, esrUnknown := false }
  | none => s

/-- TakeExceptionToEL1 (60_exceptions R540 to R542): SPSR_EL1 receives PSTATE as it was, ESR_EL1 the syndrome, a Branch
record may be emitted, PSTATE is set for the handler and pc goes to the vector. -/
def State.takeExceptionToEL1 (s : State) (syndrome : Option Word) : State :=
  let r := s.entryRecord.setSyndrome syndrome
  { r.clearPairs.skip 1 with
    spsrEL1 := savedPState s.cfg s.pstate
    spsrUnknown := false
    pstate := s.pstate.atEntry .el1 s.entryLock r.freeValue
    pc := s.env.step.vectorTarget }

/-- What an exception taken to the level `el` writes there: at EL2 the opaque cells ESR_EL2, SPSR_EL2 and BRBCR_EL2 become free
values (10_state R37, 40_sysreg_access_common R458, 92 D22). -/
def State.drawCells (s : State) (el : EL) : State :=
  if el = .el2 then
    { s.skip 3 with esrEL2 := s.freeValue, spsrEL2 := (s.skip 1).freeValue, brbcrEL2 := (s.skip 2).freeValue }
  else s

/-- An exception taken to EL2 or EL3: final for this step (10_state R37, 40_sysreg_access_common R458). -/
def State.takeExceptionHigher (s : State) (el : EL) (syndrome : Option Word) : State :=
  { s.clearPairs.drawCells el with pendingEntry := some { target := el, syndrome := syndrome } }

/-- An exception that would go to EL1: it is taken there, or to EL2 without a syndrome the spec gives (60_exceptions
R552). -/
def State.takeRouted (s : State) (toEL2 : Bool) (syndrome : Option Word) : State :=
  if toEL2 then s.takeExceptionHigher .el2 none else s.takeExceptionToEL1 syndrome

/-- The entry that was final for the step before it is made: the level is entered and pc goes to the vector (log 11). -/
def State.completeHigherEntry (s : State) (h : HigherEntry) : State :=
  { s.clearPairs.skip 1 with
    pendingEntry := none
    pstate := s.pstate.atEntry h.target s.entryLock s.freeValue
    pc := s.env.step.vectorTarget }

/-- The higher of two Exception levels. -/
def EL.highest : EL → EL → EL
  | .el3, _ => .el3
  | _, .el3 => .el3
  | .el2, _ => .el2
  | _, .el2 => .el2
  | .el1, _ => .el1
  | _, .el1 => .el1
  | .el0, .el0 => .el0

/-- UndefTarget, EL1 or higher and not below PSTATE.EL (40_sysreg_access_common R453; log 10). That it may be a level which HaveEL calls
absent is the model's choice (60_exceptions R553; log 10). -/
def State.undefTarget (s : State) : EL := EL.highest s.env.step.undefTarget (EL.highest .el1 s.pstate.EL)

/-- An exception with a fixed syndrome, to the level `el`: by R540 when that is EL1, final otherwise (R453). -/
def State.takeSynchronous (s : State) (el : EL) (syndrome : Word) : State :=
  if el = .el1 then s.takeExceptionToEL1 (some syndrome) else s.takeExceptionHigher el (some syndrome)

/-- The outcome Undefined (R453). -/
def State.takeUndefined (s : State) : State := s.takeSynchronous s.undefTarget undefinedSyndrome

/-- The outcome Trap(el, 0x18) (R455). -/
def State.takeTrap (s : State) (el : EL) (f : SysFields) : State := s.takeExceptionHigher el (some (trapSyndrome f))

/-- The outcome EXLOCK: an entry to EL1 at EL1, Trap(EL2, 0xB6100000) at EL2 (R457). -/
def State.takeExlock (s : State) : State :=
  if s.pstate.EL = .el1 then s.takeExceptionToEL1 (some exlockSyndrome)
  else s.takeExceptionHigher .el2 (some exlockSyndrome)

/-- The outcome NVMemAbort: an exception taken to EL2 whose syndrome no source gives (20_memory R406). -/
def State.takeNVMemAbort (s : State) : State := s.takeExceptionHigher .el2 none

/-- The outcome Halt: the PE enters Debug state (R456; log 22). -/
def State.enterDebugState (s : State) : State :=
  { s with env := { s.env with dbg := { s.env.dbg with halted := true } } }

/-- The level the Illegal Execution state exception goes to: the one of Undefined (log 12), and EL2 where that is EL1 and
HCR_EL2.TGE sends the exceptions of EL1 to EL2 (60_exceptions R552). -/
def State.illegalTarget (s : State) : EL := if s.undefTarget = .el1 && s.tgeToEL2 then .el2 else s.undefTarget

/-- Illegal Execution state: an instruction executed with PSTATE.IL 1 (14_spsr_el1 R280, 12_esr_iss_a R152). -/
def State.takeIllegalState (s : State) : State := s.takeSynchronous s.illegalTarget illegalStateSyndrome

/-- SPSR_EL1 as an exception return finds it: a free value while it is UNKNOWN (14_spsr_el1 R264). -/
def State.returnSource (s : State) : Word := if s.spsrUnknown then s.freeValue else s.spsrEL1

/-- ExceptionReturnFromEL1 (60_exceptions R545 to R548, R550): PSTATE from SPSR_EL1, SPSR_EL1 and ESR_EL1 UNKNOWN, pc at
the return target. -/
def State.exceptionReturnFromEL1 (s : State) : State :=
  let r := (s.skip 1).returnRecord.clearPairs
  { r.skip 2 with
    pstate := returnPState s.cfg s.env.step s.returnSource s.pstate
    spsrEL1 := r.freeValue
    spsrUnknown := true
    esrEL1 := (r.skip 1).freeValue
    esrUnknown := true
    pc := s.env.step.returnTarget }

/-! ### The end of an MRS or MSR (40_sysreg_access_common R450 to R458) -/

/-- Complete for MRS (R452). -/
def State.completeRead (s : State) (t : Nat) (r : Reading) : State :=
  ((s.afterRead r).writeX t (s.valueOf r)).advance

/-- The end of an MRS: the transfer where the chain completes, else the outcome (R450, R452). -/
def State.finishRead (s : State) (f : SysFields) (t : Nat) : Access → State
  | .undefined => s.takeUndefined
  | .trap el => s.takeTrap el f
  | .halt => s.enterDebugState
  | .exlock => s.takeExlock
  | .storage r => s.completeRead t (s.reading r)
  | .paired p n => (s.afterPairedChoice p n).completeRead t (s.pairedReading p n)
  | .nvMem off => if s.nvMemFaults off false then s.takeNVMemAbort else s.completeRead t (.plain (s.nvMemRead off))

/-- The end of an MSR (R450, R452). -/
def State.finishWrite (s : State) (f : SysFields) (t : Nat) : Access → State
  | .undefined => s.takeUndefined
  | .trap el => s.takeTrap el f
  | .halt => s.enterDebugState
  | .exlock => s.takeExlock
  | .storage r => (s.writeStorage (s.readX t) r).advance
  | .paired p n => (s.writePaired p n (s.readX t)).advance
  | .nvMem off => if s.nvMemFaults off true then s.takeNVMemAbort else (s.nvMemWrite off (s.readX t)).advance

end Sys2Proof.Machine
end

