-- ==== Sys2Proof/Machine/EsrAccess.lean ====
section
/-! DEFINITION. The recurring tests of the accessors (40_sysreg_access_common, section 3) and MRS and MSR of ESR_EL1,
ESR_EL12 and ESR_EL2 (41_esr_access R470 to R475). -/

namespace Sys2Proof.Machine

open Sys2Proof

/-- The outcome of one step. -/
abbrev Result := Host.Outcome State Fault Refusal

/-- The fine-grained trap test with the control bit `b` (R461). -/
def State.fgTrap (s : State) (b : Bool) : Bool :=
  s.env.hyp.el2Enabled && s.cfg.dbg.fgt && (!s.cfg.haveEL3 || s.env.fgt.fgtEn) && b

/-- EL3SDDUndef() (R462). -/
def State.sddUndef (s : State) : Bool := s.env.dbg.halted && s.env.edscr.SDD

/-- HaveEL(EL3) && EL3SDDUndefPriority() && C3 (R462). -/
def State.sddPriority (s : State) (c3 : Bool) : Bool :=
  s.cfg.haveEL3 && s.sddUndef && s.cfg.el3TrapPriorityWhenSDD && c3

/-- HaveEL(EL3) && C3 (R462). -/
def State.el3Test (s : State) (c3 : Bool) : Bool := s.cfg.haveEL3 && c3

/-- The outcome of the EL3 test: UNDEFINED in Debug state with SDD, else the trap (R462). -/
def State.el3Outcome (s : State) : Access := if s.sddUndef then .undefined else .trap .el3

/-- EffectiveHCR_EL2_NVx() == p (R459). -/
def State.nvxIs (s : State) (p : BitVec 3) : Bool := s.env.hyp.nvx == p

/-- EffectiveHCR_EL2_NVx() IN 'xx1' (R459). -/
def State.nv (s : State) : Bool := s.env.hyp.nvx.getLsbD 0

/-- EffectiveHCR_EL2_NVx() IN '1x1' (R459). -/
def State.nv2 (s : State) : Bool := s.env.hyp.nvx.getLsbD 2 && s.env.hyp.nvx.getLsbD 0

/-- EffectiveHCR_EL2_NVx() IN 'x11' (R459). -/
def State.nv1 (s : State) : Bool := s.env.hyp.nvx.getLsbD 1 && s.env.hyp.nvx.getLsbD 0

/-- The tests of MRS ESR_EL1 in order (R470). -/
def chainMrsEsrEl1 (s : State) : Access :=
  match s.pstate.EL with
  | .el0 => .undefined
  | .el1 =>
    if s.env.hyp.el2Enabled && s.env.hyp.trvm then .trap .el2
    else if s.fgTrap s.env.fgt.rdESR then .trap .el2
    else if s.nvxIs 0b111 then .nvMem 0x138
    else .storage .esrEL1
  | .el2 => if s.env.hyp.elIsInHost then .storage .esrEL2 else .storage .esrEL1
  | .el3 => .paired .esr .el1Name

/-- MRS <Xt>, ESR_EL1 (R470). -/
def execMrsEsrEl1 (t : Nat) (s : State) : Result :=
  .next (s.finishRead (Instr.mrsEsrEl1 t).fields t (chainMrsEsrEl1 s))

/-- The tests of MSR ESR_EL1 in order (R471). -/
def chainMsrEsrEl1 (s : State) : Access :=
  match s.pstate.EL with
  | .el0 => .undefined
  | .el1 =>
    if s.env.hyp.el2Enabled && s.env.hyp.tvm then .trap .el2
    else if s.fgTrap s.env.fgt.wrESR then .trap .el2
    else if s.nvxIs 0b111 then .nvMem 0x138
    else .storage .esrEL1
  | .el2 => if s.env.hyp.elIsInHost then .storage .esrEL2 else .storage .esrEL1
  | .el3 => .paired .esr .el1Name

/-- MSR ESR_EL1, <Xt> (R471). -/
def execMsrEsrEl1 (t : Nat) (s : State) : Result :=
  .next (s.finishWrite (Instr.msrEsrEl1 t).fields t (chainMsrEsrEl1 s))

/-- The tests of MRS ESR_EL12 in order (R472). -/
def chainMrsEsrEl12 (s : State) : Access :=
  match s.pstate.EL with
  | .el0 => .undefined
  | .el1 =>
    if s.nvxIs 0b101 then .nvMem 0x138
    else if s.nv then .trap .el2
    else .undefined
  | .el2 => if s.env.hyp.elIsInHost then .storage .esrEL1 else .undefined
  | .el3 => if s.env.hyp.elIsInHost then .paired .esr .el12Name else .undefined

/-- MRS <Xt>, ESR_EL12 (R472). -/
def execMrsEsrEl12 (t : Nat) (s : State) : Result :=
  .next (s.finishRead (Instr.mrsEsrEl12 t).fields t (chainMrsEsrEl12 s))

/-- The tests of MSR ESR_EL12 in order (R473). -/
def chainMsrEsrEl12 (s : State) : Access :=
  match s.pstate.EL with
  | .el0 => .undefined
  | .el1 =>
    if s.nvxIs 0b101 then .nvMem 0x138
    else if s.nv then .trap .el2
    else .undefined
  | .el2 => if s.env.hyp.elIsInHost then .storage .esrEL1 else .undefined
  | .el3 => if s.env.hyp.elIsInHost then .paired .esr .el12Name else .undefined

/-- MSR ESR_EL12, <Xt> (R473). -/
def execMsrEsrEl12 (t : Nat) (s : State) : Result :=
  .next (s.finishWrite (Instr.msrEsrEl12 t).fields t (chainMsrEsrEl12 s))

/-- The tests of MRS ESR_EL2 in order (R474): under NV2 the name reaches ESR_EL1, the register. -/
def chainMrsEsrEl2 (s : State) : Access :=
  match s.pstate.EL with
  | .el0 => .undefined
  | .el1 => if s.nv2 then .storage .esrEL1 else if s.nv then .trap .el2 else .undefined
  | .el2 => .storage .esrEL2
  | .el3 => .storage .esrEL2

/-- MRS <Xt>, ESR_EL2 (R474). -/
def execMrsEsrEl2 (t : Nat) (s : State) : Result :=
  .next (s.finishRead (Instr.mrsEsrEl2 t).fields t (chainMrsEsrEl2 s))

/-- The tests of MSR ESR_EL2 in order (R475). -/
def chainMsrEsrEl2 (s : State) : Access :=
  match s.pstate.EL with
  | .el0 => .undefined
  | .el1 => if s.nv2 then .storage .esrEL1 else if s.nv then .trap .el2 else .undefined
  | .el2 => .storage .esrEL2
  | .el3 => .storage .esrEL2

/-- MSR ESR_EL2, <Xt> (R475). -/
def execMsrEsrEl2 (t : Nat) (s : State) : Result :=
  .next (s.finishWrite (Instr.msrEsrEl2 t).fields t (chainMsrEsrEl2 s))

end Sys2Proof.Machine
end

