-- ==== Sys2Proof/Machine/SpsrAccess.lean ====
section
/-! DEFINITION. MRS and MSR of SPSR_EL1, SPSR_EL12 and SPSR_EL2 (42_spsr_access R480 to R485). -/

namespace Sys2Proof.Machine

open Sys2Proof

/-- GCSLock: FEAT_GCS, GetCurrentEXLOCKEN(), not in Debug state and PSTATE.EXLOCK (42_spsr_access). -/
def State.gcsLock (s : State) : Bool :=
  s.cfg.synd.gcs && s.env.step.exlockEn && !s.env.dbg.halted && s.pstate.EXLOCK

/-- The tests of MRS SPSR_EL1 in order (R480). -/
def chainMrsSpsrEl1 (s : State) : Access :=
  match s.pstate.EL with
  | .el0 => .undefined
  | .el1 =>
    if s.nvxIs 0b011 then .trap .el2
    else if s.nvxIs 0b111 then .nvMem 0x160
    else .storage .spsrEL1
  | .el2 => if s.env.hyp.elIsInHost then .storage .spsrEL2 else .storage .spsrEL1
  | .el3 => .paired .spsr .el1Name

/-- MRS <Xt>, SPSR_EL1 (R480). -/
def execMrsSpsrEl1 (t : Nat) (s : State) : Result :=
  .next (s.finishRead (Instr.mrsSpsrEl1 t).fields t (chainMrsSpsrEl1 s))

/-- The tests of MSR SPSR_EL1 in order (R481). -/
def chainMsrSpsrEl1 (s : State) : Access :=
  match s.pstate.EL with
  | .el0 => .undefined
  | .el1 =>
    if s.gcsLock && !s.nv1 then .exlock
    else if s.nvxIs 0b011 then .trap .el2
    else if s.nvxIs 0b111 then .nvMem 0x160
    else .storage .spsrEL1
  | .el2 =>
    if s.gcsLock && s.env.hyp.elIsInHost then .exlock
    else if s.env.hyp.elIsInHost then .storage .spsrEL2
    else .storage .spsrEL1
  | .el3 => .paired .spsr .el1Name

/-- MSR SPSR_EL1, <Xt> (R481). -/
def execMsrSpsrEl1 (t : Nat) (s : State) : Result :=
  .next (s.finishWrite (Instr.msrSpsrEl1 t).fields t (chainMsrSpsrEl1 s))

/-- The tests of MRS SPSR_EL12 in order (R482). -/
def chainMrsSpsrEl12 (s : State) : Access :=
  match s.pstate.EL with
  | .el0 => .undefined
  | .el1 =>
    if s.nvxIs 0b101 then .nvMem 0x160
    else if s.nv then .trap .el2
    else .undefined
  | .el2 => if s.env.hyp.elIsInHost then .storage .spsrEL1 else .undefined
  | .el3 => if s.env.hyp.elIsInHost then .paired .spsr .el12Name else .undefined

/-- MRS <Xt>, SPSR_EL12 (R482). -/
def execMrsSpsrEl12 (t : Nat) (s : State) : Result :=
  .next (s.finishRead (Instr.mrsSpsrEl12 t).fields t (chainMrsSpsrEl12 s))

/-- The tests of MSR SPSR_EL12 in order (R483): there is no GCS lock test. -/
def chainMsrSpsrEl12 (s : State) : Access :=
  match s.pstate.EL with
  | .el0 => .undefined
  | .el1 =>
    if s.nvxIs 0b101 then .nvMem 0x160
    else if s.nv then .trap .el2
    else .undefined
  | .el2 => if s.env.hyp.elIsInHost then .storage .spsrEL1 else .undefined
  | .el3 => if s.env.hyp.elIsInHost then .paired .spsr .el12Name else .undefined

/-- MSR SPSR_EL12, <Xt> (R483). -/
def execMsrSpsrEl12 (t : Nat) (s : State) : Result :=
  .next (s.finishWrite (Instr.msrSpsrEl12 t).fields t (chainMsrSpsrEl12 s))

/-- The tests of MRS SPSR_EL2 in order (R484); the redirection at EL1 needs FEAT_VHE (90_conflicts C19; log 15). C19 says only that
the name is decoded whenever EL2 is implemented: that it is without EL2 too is the model's choice (log 15). -/
def chainMrsSpsrEl2 (s : State) : Access :=
  match s.pstate.EL with
  | .el0 => .undefined
  | .el1 =>
    if s.cfg.dbg.vhe && s.nv2 then .storage .spsrEL1
    else if s.nv then .trap .el2
    else .undefined
  | .el2 => .storage .spsrEL2
  | .el3 => .storage .spsrEL2

/-- MRS <Xt>, SPSR_EL2 (R484). -/
def execMrsSpsrEl2 (t : Nat) (s : State) : Result :=
  .next (s.finishRead (Instr.mrsSpsrEl2 t).fields t (chainMrsSpsrEl2 s))

/-- The tests of MSR SPSR_EL2 in order (R485): the lock comes before the redirection and the trap. Without EL2 as for MRS
(log 15). -/
def chainMsrSpsrEl2 (s : State) : Access :=
  match s.pstate.EL with
  | .el0 => .undefined
  | .el1 =>
    if s.gcsLock && s.nv then .exlock
    else if s.cfg.dbg.vhe && s.nv2 then .storage .spsrEL1
    else if s.nv then .trap .el2
    else .undefined
  | .el2 => if s.gcsLock then .exlock else .storage .spsrEL2
  | .el3 => .storage .spsrEL2

/-- MSR SPSR_EL2, <Xt> (R485). -/
def execMsrSpsrEl2 (t : Nat) (s : State) : Result :=
  .next (s.finishWrite (Instr.msrSpsrEl2 t).fields t (chainMsrSpsrEl2 s))

end Sys2Proof.Machine
end

