-- ==== Sys2Proof/Machine/DebugAccess.lean ====
section
/-! DEFINITION. MRS and MSR of DBGWCR<m>_EL1 and MDSCR_EL1 (43_debug_access R490 to R497). -/

namespace Sys2Proof.Machine

open Sys2Proof

/-- The watchpoint the encoding's index reaches: m + 16 * BANK with FEAT_Debugv8p9, else m (R490). -/
def State.watchpointIndex (s : State) (m : Nat) : Nat :=
  if s.cfg.dbg.debugv8p9 then m + s.env.dbg.bank.toNat * 16 else m

/-- The bound check, before every other test (R490). -/
def State.watchpointAbsent (s : State) (m : Nat) : Bool := decide (s.cfg.numWatchpoints ≤ s.watchpointIndex m)

/-- The Halt check: OS Lock clear, halting allowed and EDSCR.TDA (R491). -/
def State.haltCheck (s : State) : Bool := !s.env.dbg.oslk && s.env.dbg.haltingAllowed && s.env.edscr.TDA

/-- MDCR_EL2.<TDE,TDA> != '00' with EL2 enabled (R492). -/
def State.debugTrapEL2 (s : State) : Bool := s.env.hyp.el2Enabled && (s.env.mon.mdcr2TDE || s.env.mon.mdcr2TDA)

/-- The tests of MRS DBGWCR<m>_EL1 in order (R492). -/
def chainMrsDbgwcr (m : Nat) (s : State) : Access :=
  if s.watchpointAbsent m then .undefined
  else match s.pstate.EL with
  | .el0 => .undefined
  | .el1 =>
    if s.sddPriority s.env.mon.mdcr3TDA then .undefined
    else if s.fgTrap s.env.fgt.rdDBGWCR then .trap .el2
    else if s.debugTrapEL2 then .trap .el2
    else if s.el3Test s.env.mon.mdcr3TDA then s.el3Outcome
    else if s.haltCheck then .halt
    else .storage (.dbgwcr (s.watchpointIndex m))
  | .el2 =>
    if s.sddPriority s.env.mon.mdcr3TDA then .undefined
    else if s.el3Test s.env.mon.mdcr3TDA then s.el3Outcome
    else if s.haltCheck then .halt
    else .storage (.dbgwcr (s.watchpointIndex m))
  | .el3 => if s.haltCheck then .halt else .storage (.dbgwcr (s.watchpointIndex m))

/-- MRS <Xt>, DBGWCR<m>_EL1 (R492). -/
def execMrsDbgwcr (m t : Nat) (s : State) : Result :=
  .next (s.finishRead (Instr.mrsDbgwcr m t).fields t (chainMrsDbgwcr m s))

/-- The tests of MSR DBGWCR<m>_EL1 in order (R493). -/
def chainMsrDbgwcr (m : Nat) (s : State) : Access :=
  if s.watchpointAbsent m then .undefined
  else match s.pstate.EL with
  | .el0 => .undefined
  | .el1 =>
    if s.sddPriority s.env.mon.mdcr3TDA then .undefined
    else if s.fgTrap s.env.fgt.wrDBGWCR then .trap .el2
    else if s.debugTrapEL2 then .trap .el2
    else if s.el3Test s.env.mon.mdcr3TDA then s.el3Outcome
    else if s.haltCheck then .halt
    else .storage (.dbgwcr (s.watchpointIndex m))
  | .el2 =>
    if s.sddPriority s.env.mon.mdcr3TDA then .undefined
    else if s.el3Test s.env.mon.mdcr3TDA then s.el3Outcome
    else if s.haltCheck then .halt
    else .storage (.dbgwcr (s.watchpointIndex m))
  | .el3 => if s.haltCheck then .halt else .storage (.dbgwcr (s.watchpointIndex m))

/-- MSR DBGWCR<m>_EL1, <Xt> (R493). -/
def execMsrDbgwcr (m t : Nat) (s : State) : Result :=
  .next (s.finishWrite (Instr.msrDbgwcr m t).fields t (chainMsrDbgwcr m s))

/-- The tests of MRS MDSCR_EL1 in order (R496); the fine-grained test needs FEAT_FGT (90_conflicts C21). -/
def chainMrsMdscr (s : State) : Access :=
  match s.pstate.EL with
  | .el0 => .undefined
  | .el1 =>
    if s.sddPriority s.env.mon.mdcr3TDA then .undefined
    else if s.fgTrap s.env.fgt.rdMDSCR then .trap .el2
    else if s.debugTrapEL2 then .trap .el2
    else if s.el3Test s.env.mon.mdcr3TDA then s.el3Outcome
    else if s.env.hyp.el2Enabled && s.nv2 then .nvMem 0x158
    else .storage .mdscr
  | .el2 =>
    if s.sddPriority s.env.mon.mdcr3TDA then .undefined
    else if s.el3Test s.env.mon.mdcr3TDA then s.el3Outcome
    else .storage .mdscr
  | .el3 => .storage .mdscr

/-- MRS <Xt>, MDSCR_EL1 (R496). -/
def execMrsMdscr (t : Nat) (s : State) : Result :=
  .next (s.finishRead (Instr.mrsMdscr t).fields t (chainMrsMdscr s))

/-- The tests of MSR MDSCR_EL1 in order (R497). -/
def chainMsrMdscr (s : State) : Access :=
  match s.pstate.EL with
  | .el0 => .undefined
  | .el1 =>
    if s.sddPriority s.env.mon.mdcr3TDA then .undefined
    else if s.fgTrap s.env.fgt.wrMDSCR then .trap .el2
    else if s.debugTrapEL2 then .trap .el2
    else if s.el3Test s.env.mon.mdcr3TDA then s.el3Outcome
    else if s.env.hyp.el2Enabled && s.nv2 then .nvMem 0x158
    else .storage .mdscr
  | .el2 =>
    if s.sddPriority s.env.mon.mdcr3TDA then .undefined
    else if s.el3Test s.env.mon.mdcr3TDA then s.el3Outcome
    else .storage .mdscr
  | .el3 => .storage .mdscr

/-- MSR MDSCR_EL1, <Xt> (R497). -/
def execMsrMdscr (t : Nat) (s : State) : Result :=
  .next (s.finishWrite (Instr.msrMdscr t).fields t (chainMsrMdscr s))

end Sys2Proof.Machine
end

