-- ==== Sys2Proof/Machine/ProfilingAccess.lean ====
section
/-! DEFINITION. MRS and MSR of PMSFCR_EL1, BRBCR_EL1 and BRBCR_EL12 (44_profiling_access R505 to R511). -/

namespace Sys2Proof.Machine

open Sys2Proof

/-- NSPBmis: MDCR_EL3.NSPB and NSPBE do not give the buffer to the current Security state (R505). -/
def State.nspbMismatch (s : State) : Bool :=
  !s.env.mon.nspb.getLsbD 0 || s.env.mon.nspb.getLsbD 1 != s.env.mon.ns
    || (s.cfg.synd.rme && s.env.mon.nspbe != s.env.mon.nse)

/-- The tests of MRS PMSFCR_EL1 in order (R505), FEAT_SPE first (40_sysreg_access_common R468). -/
def chainMrsPmsfcr (s : State) : Access :=
  if !s.cfg.prof.spe then .undefined
  else match s.pstate.EL with
  | .el0 => .undefined
  | .el1 =>
    if s.sddPriority s.nspbMismatch then .undefined
    else if s.fgTrap s.env.fgt.rdPMSFCR then .trap .el2
    else if s.env.hyp.el2Enabled && s.env.mon.mdcr2TPMS then .trap .el2
    else if s.el3Test s.nspbMismatch then s.el3Outcome
    else .storage .pmsfcr
  | .el2 =>
    if s.sddPriority s.nspbMismatch then .undefined
    else if s.el3Test s.nspbMismatch then s.el3Outcome
    else .storage .pmsfcr
  | .el3 => .storage .pmsfcr

/-- MRS <Xt>, PMSFCR_EL1 (R505). -/
def execMrsPmsfcr (t : Nat) (s : State) : Result :=
  .next (s.finishRead (Instr.mrsPmsfcr t).fields t (chainMrsPmsfcr s))

/-- The tests of MSR PMSFCR_EL1 in order (R506). -/
def chainMsrPmsfcr (s : State) : Access :=
  if !s.cfg.prof.spe then .undefined
  else match s.pstate.EL with
  | .el0 => .undefined
  | .el1 =>
    if s.sddPriority s.nspbMismatch then .undefined
    else if s.fgTrap s.env.fgt.wrPMSFCR then .trap .el2
    else if s.env.hyp.el2Enabled && s.env.mon.mdcr2TPMS then .trap .el2
    else if s.el3Test s.nspbMismatch then s.el3Outcome
    else .storage .pmsfcr
  | .el2 =>
    if s.sddPriority s.nspbMismatch then .undefined
    else if s.el3Test s.nspbMismatch then s.el3Outcome
    else .storage .pmsfcr
  | .el3 => .storage .pmsfcr

/-- MSR PMSFCR_EL1, <Xt> (R506). -/
def execMsrPmsfcr (t : Nat) (s : State) : Result :=
  .next (s.finishWrite (Instr.msrPmsfcr t).fields t (chainMsrPmsfcr s))

/-- S1: Secure state and SBRBE is not 0b11 (R508). -/
def State.sbrbeSecure (s : State) : Bool := s.env.mon.sbrbe != 0b11 && !s.env.mon.ns

/-- S2: Non-secure state and SBRBE is 0b00 or 0b10 (R508). -/
def State.sbrbeNonSecure (s : State) : Bool := !s.env.mon.sbrbe.getLsbD 0 && s.env.mon.ns

/-- The tests of MRS BRBCR_EL1 in order (R508); nBRBCTL traps when it is 0. -/
def chainMrsBrbcrEl1 (s : State) : Access :=
  if !s.cfg.prof.brbe then .undefined
  else match s.pstate.EL with
  | .el0 => .undefined
  | .el1 =>
    if s.sddPriority s.sbrbeSecure then .undefined
    else if s.sddPriority s.sbrbeNonSecure then .undefined
    else if s.fgTrap (!s.env.fgt.rdNBRBCTL) then .trap .el2
    else if s.el3Test s.sbrbeSecure then s.el3Outcome
    else if s.el3Test s.sbrbeNonSecure then s.el3Outcome
    else if s.nvxIs 0b111 then .nvMem 0x8E0
    else .storage .brbcrEL1
  | .el2 =>
    if s.sddPriority s.sbrbeSecure then .undefined
    else if s.sddPriority s.sbrbeNonSecure then .undefined
    else if s.el3Test s.sbrbeSecure then s.el3Outcome
    else if s.el3Test s.sbrbeNonSecure then s.el3Outcome
    else if s.env.hyp.elIsInHost then .storage .brbcrEL2
    else .storage .brbcrEL1
  | .el3 => .paired .brbcr .el1Name

/-- MRS <Xt>, BRBCR_EL1 (R508). -/
def execMrsBrbcrEl1 (t : Nat) (s : State) : Result :=
  .next (s.finishRead (Instr.mrsBrbcrEl1 t).fields t (chainMrsBrbcrEl1 s))

/-- The tests of MSR BRBCR_EL1 in order (R509). -/
def chainMsrBrbcrEl1 (s : State) : Access :=
  if !s.cfg.prof.brbe then .undefined
  else match s.pstate.EL with
  | .el0 => .undefined
  | .el1 =>
    if s.sddPriority s.sbrbeSecure then .undefined
    else if s.sddPriority s.sbrbeNonSecure then .undefined
    else if s.fgTrap (!s.env.fgt.wrNBRBCTL) then .trap .el2
    else if s.el3Test s.sbrbeSecure then s.el3Outcome
    else if s.el3Test s.sbrbeNonSecure then s.el3Outcome
    else if s.nvxIs 0b111 then .nvMem 0x8E0
    else .storage .brbcrEL1
  | .el2 =>
    if s.sddPriority s.sbrbeSecure then .undefined
    else if s.sddPriority s.sbrbeNonSecure then .undefined
    else if s.el3Test s.sbrbeSecure then s.el3Outcome
    else if s.el3Test s.sbrbeNonSecure then s.el3Outcome
    else if s.env.hyp.elIsInHost then .storage .brbcrEL2
    else .storage .brbcrEL1
  | .el3 => .paired .brbcr .el1Name

/-- MSR BRBCR_EL1, <Xt> (R509). -/
def execMsrBrbcrEl1 (t : Nat) (s : State) : Result :=
  .next (s.finishWrite (Instr.msrBrbcrEl1 t).fields t (chainMsrBrbcrEl1 s))

/-- The tests of MRS BRBCR_EL12 in order (R510). -/
def chainMrsBrbcrEl12 (s : State) : Access :=
  if !s.cfg.prof.brbe then .undefined
  else match s.pstate.EL with
  | .el0 => .undefined
  | .el1 =>
    if s.nvxIs 0b101 then .nvMem 0x8E0
    else if s.nv then .trap .el2
    else .undefined
  | .el2 =>
    if !s.env.hyp.elIsInHost then .undefined
    else if s.sddPriority s.sbrbeSecure then .undefined
    else if s.sddPriority s.sbrbeNonSecure then .undefined
    else if s.el3Test s.sbrbeSecure then s.el3Outcome
    else if s.el3Test s.sbrbeNonSecure then s.el3Outcome
    else .storage .brbcrEL1
  | .el3 => if s.env.hyp.elIsInHost then .paired .brbcr .el12Name else .undefined

/-- MRS <Xt>, BRBCR_EL12 (R510). -/
def execMrsBrbcrEl12 (t : Nat) (s : State) : Result :=
  .next (s.finishRead (Instr.mrsBrbcrEl12 t).fields t (chainMrsBrbcrEl12 s))

/-- The tests of MSR BRBCR_EL12 in order (R511). -/
def chainMsrBrbcrEl12 (s : State) : Access :=
  if !s.cfg.prof.brbe then .undefined
  else match s.pstate.EL with
  | .el0 => .undefined
  | .el1 =>
    if s.nvxIs 0b101 then .nvMem 0x8E0
    else if s.nv then .trap .el2
    else .undefined
  | .el2 =>
    if !s.env.hyp.elIsInHost then .undefined
    else if s.sddPriority s.sbrbeSecure then .undefined
    else if s.sddPriority s.sbrbeNonSecure then .undefined
    else if s.el3Test s.sbrbeSecure then s.el3Outcome
    else if s.el3Test s.sbrbeNonSecure then s.el3Outcome
    else .storage .brbcrEL1
  | .el3 => if s.env.hyp.elIsInHost then .paired .brbcr .el12Name else .undefined

/-- MSR BRBCR_EL12, <Xt> (R511). -/
def execMsrBrbcrEl12 (t : Nat) (s : State) : Result :=
  .next (s.finishWrite (Instr.msrBrbcrEl12 t).fields t (chainMsrBrbcrEl12 s))

end Sys2Proof.Machine
end

