-- ==== Sys2Proof/Machine/Dispatch.lean ====
section
/-! DEFINITION. One arm per instruction (30_encoding R439). -/

namespace Sys2Proof.Machine

open Sys2Proof

/-- The meaning of each instruction. -/
def exec (i : Instr) (s : State) : Host.Outcome State Fault Refusal :=
  match i with
  | .mrsEsrEl1 t => Sys2Proof.Machine.execMrsEsrEl1 t s
  | .msrEsrEl1 t => Sys2Proof.Machine.execMsrEsrEl1 t s
  | .mrsEsrEl12 t => Sys2Proof.Machine.execMrsEsrEl12 t s
  | .msrEsrEl12 t => Sys2Proof.Machine.execMsrEsrEl12 t s
  | .mrsEsrEl2 t => Sys2Proof.Machine.execMrsEsrEl2 t s
  | .msrEsrEl2 t => Sys2Proof.Machine.execMsrEsrEl2 t s
  | .mrsSpsrEl1 t => Sys2Proof.Machine.execMrsSpsrEl1 t s
  | .msrSpsrEl1 t => Sys2Proof.Machine.execMsrSpsrEl1 t s
  | .mrsSpsrEl12 t => Sys2Proof.Machine.execMrsSpsrEl12 t s
  | .msrSpsrEl12 t => Sys2Proof.Machine.execMsrSpsrEl12 t s
  | .mrsSpsrEl2 t => Sys2Proof.Machine.execMrsSpsrEl2 t s
  | .msrSpsrEl2 t => Sys2Proof.Machine.execMsrSpsrEl2 t s
  | .mrsDbgwcr m t => Sys2Proof.Machine.execMrsDbgwcr m t s
  | .msrDbgwcr m t => Sys2Proof.Machine.execMsrDbgwcr m t s
  | .mrsMdscr t => Sys2Proof.Machine.execMrsMdscr t s
  | .msrMdscr t => Sys2Proof.Machine.execMsrMdscr t s
  | .mrsPmsfcr t => Sys2Proof.Machine.execMrsPmsfcr t s
  | .msrPmsfcr t => Sys2Proof.Machine.execMsrPmsfcr t s
  | .mrsBrbcrEl1 t => Sys2Proof.Machine.execMrsBrbcrEl1 t s
  | .msrBrbcrEl1 t => Sys2Proof.Machine.execMsrBrbcrEl1 t s
  | .mrsBrbcrEl12 t => Sys2Proof.Machine.execMrsBrbcrEl12 t s
  | .msrBrbcrEl12 t => Sys2Proof.Machine.execMsrBrbcrEl12 t s

end Sys2Proof.Machine
end

