-- ==== Sys2Proof/Machine/Events.lean ====
section
/-! DEFINITION. What the environment does between instructions: exceptions it supplies, debug events, the external
debug interface, profiling, and resets (10_state R25, R44; 60_exceptions; 70_reset; 20_memory, section 2). -/

namespace Sys2Proof.Machine

open Sys2Proof

/-- The PE is at EL0 or EL1, from where an exception is taken to EL1. -/
def State.belowEL2 (s : State) : Bool := s.pstate.EL == .el0 || s.pstate.EL == .el1

/-! ### Exceptions the environment supplies (60_exceptions R520 (b), R521, R552) -/

/-- Debug exceptions are routed to EL2: MDCR_EL2.TDE, or HCR_EL2.TGE (R552, R559). -/
def State.debugToEL2 (s : State) : Bool := s.env.hyp.el2Enabled && (s.env.mon.mdcr2TDE || s.env.hyp.tge)

/-- The fine-grained trap on SVC at the current level (12_esr_iss_a R160, R552). -/
def State.svcTrapped (s : State) : Bool :=
  s.fgTrap (if s.pstate.EL == .el1 then s.env.named.hfgitrSVCEL1 else s.env.named.hfgitrSVCEL0)

/-- An exception that would go to EL1 goes to EL2: by TGE, an SVC by its trap, a Breakpoint Instruction exception as the
debug exceptions (R552, R559). -/
def State.routedToEL2 (s : State) : ExcInfo → Bool
  | .svc _ => s.tgeToEL2 || s.svcTrapped
  | .breakpointInstr _ => s.debugToEL2
  | _ => s.tgeToEL2

/-- What an instruction outside this spec does, unless PSTATE.IL 1 makes it take the Illegal Execution state exception
(14_spsr_el1 R280). -/
def State.unlessIllegal (s : State) (r : Result) : Result := if s.pstate.IL then .next s.takeIllegalState else r

/-- An exception with the cause `x` is taken, if the descriptor keeps every constraint (R521; log 20). -/
def takeCause (x : ExcCause) (s : State) : Result :=
  if x.check s.cfg s.env s.pstate && !x.info.hasOwnInput then
    .next (s.takeRouted (s.routedToEL2 x.info) (some (x.syndrome s.cfg s.pstate.M)))
  else .refused .inputOutsideSpec

/-- The same; a cause that an executing instruction raises does not arise with PSTATE.IL 1 (R522, 14_spsr_el1 R280). -/
def handleException (x : ExcCause) (s : State) : Result :=
  if x.info.beforeInstruction then takeCause x s else s.unlessIllegal (takeCause x s)

/-- An UNPREDICTABLE instruction treated as UNDEFINED: ESR_EL1 is an UNKNOWN value that some exception from the same
Exception level could create, from a process state the machine can be in (11_esr_el1 R62). -/
def handleUnpredictable (x : ExcCause) (p : PState) (e : Env) (s : State) : Result :=
  if s.belowEL2 && p.EL == s.pstate.EL && p.stateOk s.cfg && x.check s.cfg e p then
    .next (s.takeRouted s.tgeToEL2 (some (x.syndrome s.cfg p.M)))
  else .refused .inputOutsideSpec

/-! ### Asynchronous exceptions (60_exceptions R525 to R528; log 39) -/

/-- The mask of an asynchronous exception is set (R525): I or F, or ALLINT for both with FEAT_NMI; A; PM. ALLINT and PM are fields of
AArch64 state (10_state R28), and no rule says whether they mask in AArch32 state: that the values they keep mask there too is the model's
choice (log 39). -/
def State.asyncMasked (s : State) : AsyncException → Bool
  | .irq => s.pstate.I || (s.cfg.pst.nmi && s.pstate.ALLINT)
  | .fiq => s.pstate.F || (s.cfg.pst.nmi && s.pstate.ALLINT)
  | .serror _ => s.pstate.A
  | .pmu => s.pstate.PM

/-- It can be taken now: from EL0 or EL1, with its mask clear. -/
def State.asyncTakeable (s : State) (k : AsyncException) : Bool := s.belowEL2 && !s.asyncMasked k

/-- The syndrome: none for an IRQ or FIQ (R526), SYNC 0 for a PMU exception (12_esr_iss_a R151). -/
def State.asyncSyndrome (s : State) (k : AsyncException) : Option Word :=
  let cause (i : ExcInfo) : Word :=
    ExcCause.syndrome s.cfg s.pstate.M
      { info := i, fromEL1 := s.pstate.EL == .el1, fromAArch32 := s.pstate.nRW, il := true }
  match k with
  | .irq | .fiq => none
  | .serror e => some (cause (.serror e))
  | .pmu => some (cause (.pmu false))

/-- An asynchronous exception is taken. -/
def State.takeAsync (s : State) (k : AsyncException) : State := s.takeRouted s.tgeToEL2 (s.asyncSyndrome k)

/-- It cannot be taken now: it stays pending, a PMU exception with FEAT_SEBEP in PSTATE.PPEND (R525, R528). An SError keeps the fields it
arrived with until it is taken. -/
def State.holdAsync (s : State) : AsyncException → State
  | .irq => { s with pendingIRQ := true }
  | .fiq => { s with pendingFIQ := true }
  | .serror e => { s with pendingSErrors := s.pendingSErrors ++ [e] }
  | .pmu => if s.cfg.synd.sebep then { s with pstate := { s.pstate with PPEND := true } } else { s with pendingPMU := true }

/-- It is pending no longer: of the SErrors the oldest. -/
def State.releaseAsync (s : State) : AsyncException → State
  | .irq => { s with pendingIRQ := false }
  | .fiq => { s with pendingFIQ := false }
  | .serror _ => { s with pendingSErrors := s.pendingSErrors.drop 1 }
  | .pmu => { s with pendingPMU := false }

/-- What is pending: of the SErrors the oldest, with IESB 0 since it has not been taken immediately (13_esr_iss_b R226); that the wait
leaves every other field, ELS among them, is the model's choice (log 39). A PMU exception exists with FEAT_EBEP only. -/
def State.pendingAsync (s : State) : List AsyncException :=
  (if s.pendingIRQ then [.irq] else []) ++ (if s.pendingFIQ then [.fiq] else [])
    ++ (s.pendingSErrors.take 1).map (fun e => .serror e.delayed) ++ (if s.pendingPMU && s.cfg.synd.ebep then [.pmu] else [])

/-- What is pending and can be taken: it is taken before anything else happens (R525). -/
def State.dueAsync (s : State) : List AsyncException := s.pendingAsync.filter s.asyncTakeable

/-- One of the due exceptions is taken, any of them since no source gives their priority (R526). -/
def State.takeDue (s : State) (k : AsyncException) (rest : List AsyncException) : State :=
  ((s.skip 1).releaseAsync (s.chooseFrom k rest)).takeAsync (s.chooseFrom k rest)

/-- The implementation has the asynchronous exception, and its fields keep their constraints (R527, R528). -/
def AsyncException.allowed (y : SyndromeFeatures) : AsyncException → Bool
  | .irq | .fiq => true
  | .serror e => e.allowed y
  | .pmu => y.ebep

/-- An asynchronous exception arrives: taken now, or pending (R525 to R528). -/
def handleArrival (k : AsyncException) (s : State) : Result :=
  if k.allowed s.cfg.synd then .next (if s.asyncTakeable k then s.takeAsync k else s.holdAsync k)
  else .refused .inputOutsideSpec

/-- An exception return operation is executed in EL1 (R545). -/
def handleReturn (s : State) : Result :=
  if s.pstate.EL == .el1 && !s.pstate.nRW then .next s.exceptionReturnFromEL1 else .refused .inputOutsideSpec

/-! ### Debug exceptions (60_exceptions R555 to R559; log 28) -/

/-- Debug exceptions are enabled within the current level: at EL0 always, at EL1 with KDE and PSTATE.D clear or because they
go to EL2 (R559), and by the model's choice at EL2 only where they go to EL2 with KDE and PSTATE.D clear, never at EL3
(log 28). -/
def State.debugLocal (s : State) : Bool :=
  match s.pstate.EL with
  | .el0 => true
  | .el1 => s.debugToEL2 || (s.mdscr.getLsbD 13 && !s.pstate.D)
  | .el2 => s.debugToEL2 && s.mdscr.getLsbD 13 && !s.pstate.D
  | .el3 => false

/-- DebugExcEnabled(k, PSTATE.EL) for a breakpoint, watchpoint or vector catch (R559). -/
def State.debugEnabled (s : State) : Bool := !s.env.dbg.haltOnBpWp && s.mdscr.getLsbD 15 && s.debugLocal

/-- A debug exception with these fields, from the current level. -/
def State.debugSyndrome (s : State) (i : ExcInfo) : Word :=
  ExcCause.syndrome s.cfg s.pstate.M
    { info := i, fromEL1 := s.pstate.EL == .el1, fromAArch32 := s.pstate.nRW, il := true }

/-- A debug exception is taken: to EL1, or to EL2 where it is routed there and ESR_EL1 is not written (R559). -/
def State.takeDebugException (s : State) (i : ExcInfo) : State :=
  s.takeRouted s.debugToEL2 (some (s.debugSyndrome i))

/-- A breakpoint or watchpoint match: Debug state, a debug exception, or nothing (R559). -/
def State.debugMatch (s : State) (i : ExcInfo) : State :=
  if s.env.dbg.haltOnBpWp then s.enterDebugState
  else if s.debugEnabled then s.takeDebugException i
  else s

/-! ### Watchpoints (60_exceptions R555; 15_debug_regs R321 to R335; log 21) -/

/-- EffE(n) (15_debug_regs R332). -/
def State.watchpointEnabled (s : State) (n : Nat) : Bool :=
  (s.wcr n).getLsbD 0
    && !(s.cfg.dbg.debugv8p9 && decide (16 ≤ n)
      && ((!s.env.dbg.haltOnBpWp && !s.env.dbg.ebwe) || (s.env.dbg.haltOnBpWp && !s.env.dbg.edscr2EBWE)))

/-- LSC admits the access: bit 0 a load, bit 1 a store, either an atomic (R330, R555 (2)). No rule says which bit admits a cache
maintenance access: that it is a store or a load as the environment's `isWrite` says, although it reports WnR 1, is the model's choice
(log 21). -/
def lscAdmits (lsc : BitVec 2) (a : DataAccess) : Bool :=
  if a.isAtomic then lsc != 0 else if a.isWrite then lsc.getLsbD 1 else lsc.getLsbD 0

/-- BAS is one contiguous run of set bits (R329). -/
def basValid (bas : BitVec 8) : Bool :=
  (List.range 8).any (fun l => (List.range (8 - l)).any (fun k =>
    bas == BitVec.ofNat 8 (((2 ^ (l + 1)) - 1) * 2 ^ k)))

/-- Some accessed byte is one BAS selects from DBGWVR (R329); with DBGWVR[2] set only BAS[3:0] are used. No rule says whether an access
or the watched bytes that run past the top of the 64-bit address space go on at address 0 (60_exceptions R555): that they do is the
model's choice (log 21). -/
def bytesWatched (wvr : Word) (bas : BitVec 8) (a : DataAccess) : Bool :=
  (List.range 8).any (fun i =>
    bas.getLsbD i && (decide (i < 4) || !wvr.getLsbD 2)
      && decide ((wvr + BitVec.ofNat 64 i - a.addr).toNat < a.size))

/-- (1 << MASK) - 1 (R324). -/
def addressMask (mask : Nat) : Word := BitVec.ofNat 64 (2 ^ mask - 1)

/-- Some accessed byte has the address of DBGWVR but for the masked low bits (R324); that an access past the top of the address space goes
on at address 0 is the model's choice (60_exceptions R555; log 21). -/
def regionWatched (wvr : Word) (mask : Nat) (a : DataAccess) : Bool :=
  let start := wvr &&& ~~~addressMask mask
  decide (0 < a.size)
    && (decide ((a.addr - start).toNat < 2 ^ mask) || decide ((start - a.addr).toNat < a.size))

/-- The MASK the watchpoint behaves as if programmed with: a reserved value, and one with a BAS that is not all ones (91
N4), is disabled (none) or any defined value (R324): the reserved value by the choice `c`, the other by the free value `d`. -/
def effectiveMask (mask : BitVec 5) (bas : BitVec 8) (c d : Word) : Option Nat :=
  if mask = 1 || mask = 2 || (mask != 0 && bas != 0xFF) then
    let k := (if mask = 1 || mask = 2 then c else d).toNat % 31
    if k = 0 then none else if k = 1 then some 0 else some (k + 1)
  else some mask.toNat

/-- The watched byte set meets the access (R555 (3)). Without a mask a BAS the text reserves matches by the free value `d`,
since no source gives its matching (91 N3). No rule says whether the bits BAS[7:4] that DBGWVR[2] makes ignored count in the test that the
set bits are contiguous (R329): that all eight bits are tested is the model's choice (log 21). -/
def addressMatch (wvr wcr : Word) (a : DataAccess) (c d : Word) : Bool :=
  let bas := wcr.extractLsb' 5 8
  match effectiveMask (wcr.extractLsb' 24 5) bas c d with
  | none => false
  | some 0 => if basValid bas then bytesWatched wvr bas a else d.getLsbD 63
  | some k => regionWatched wvr k a

/-- UInt(LBNX : LBN), the breakpoint a watchpoint links to; LBNX is 0 without FEAT_Debugv8p9 (R322, R326). -/
def State.linkedBreakpoint (s : State) (n : Nat) : Nat :=
  ((if s.cfg.dbg.debugv8p9 then (s.wcr n).extractLsb' 30 2 else 0#2) ++ (s.wcr n).extractLsb' 16 4).toNat

/-- WatchpointStateMatch(n), with the linked breakpoint when WT is 1 (R335, R555 (4)). -/
def State.watchpointStateMatch (s : State) (n : Nat) : Bool :=
  s.env.dbg.wpStateMatch.getLsbD n
    && (!(s.wcr n).getLsbD 20 || s.env.dbg.wpLinkMatch.getLsbD (s.linkedBreakpoint n))

/-- What watchpoint `n` does with a reserved MASK: one choice for each value of MASK, the same throughout a run (93 V4). That 93 V4 is
followed, where 92 D4 has such a choice made afresh each time, is the model's choice (log 21). -/
def State.maskChoice (s : State) (n : Nat) : Word := Config.runChoice (1 + 32 * n + ((s.wcr n).extractLsb' 24 5).toNat)

/-- The free value watchpoint `n` uses for this access. -/
def State.watchpointFree (s : State) (n : Nat) : Word := (s.skip n).freeValue

/-- Watchpoint n matches the access (R555 (1) to (4)). -/
def State.watchpointMatch (s : State) (a : DataAccess) (n : Nat) : Bool :=
  decide (n < s.cfg.numWatchpoints) && s.watchpointEnabled n && lscAdmits ((s.wcr n).extractLsb' 3 2) a
    && addressMatch (s.env.dbg.dbgwvr.toArray[n]?.getD 0) (s.wcr n) a (s.maskChoice n) (s.watchpointFree n)
    && s.watchpointStateMatch n

/-- The watchpoints that match. -/
def State.watchpointsMatching (s : State) (a : DataAccess) : List Nat :=
  (List.range 64).filter (s.watchpointMatch a)

/-- The fields WPF, FnP and FnV need FEAT_SVE or FEAT_SME (R241, R242). -/
def vectorFault (c : Config) : Bool := c.synd.sve || c.synd.sme

/-- The report of an access sets WPF, FnP or FnV. -/
def DataAccess.reported (c : Config) (a : DataAccess) : Bool := vectorFault c && (a.wpf || a.fnp || a.fnv)

/-- The syndrome fields of a watchpoint exception; the watchpoint that generates it is any that matches (R244, R259). -/
def State.watchpointInfo (s : State) (a : DataAccess) (n : Nat) (rest : List Nat) : WatchpointInfo :=
  let r := s.skip 64
  { wpt := if wptValid s.cfg (a.reported s.cfg) then BitVec.ofNat 6 (r.chooseFrom n rest)
           else if wptPresent s.cfg then r.freeValue.extractLsb' 0 6 else 0
    wptv := wptValid s.cfg (a.reported s.cfg)
    wpf := vectorFault s.cfg && a.wpf
    fnp := vectorFault s.cfg && a.fnp && !a.fnv
    fnv := vectorFault s.cfg && a.fnv
    cm := a.isCM
    wnr := a.isCM || (if a.isAtomic then !(n :: rest).any (fun k => (s.wcr k).getLsbD 3) else a.isWrite)
    gcs := s.cfg.synd.gcs && a.gcs }

/-- A data access by an instruction outside this spec (R555). -/
def handleAccess (a : DataAccess) (s : State) : Result :=
  match s.watchpointsMatching a with
  | [] => .next (s.skip 65)
  | n :: rest => .next ((s.skip 65).debugMatch (.watchpoint (s.watchpointInfo a n rest)))

/-! ### Breakpoints, Vector Catch, Software step, the DCC (60_exceptions R556, R557; 15_debug_regs R301 to R315, R349) -/

/-- The condition on the headings of the views 0b011x, 0b110x and 0b111x (R301). -/
def contextID2Views (c : Config) : Bool := c.haveEL2 && (c.dbg.vhe || c.dbg.debugv8p2)

/-- The VMID is 16 bits (R315). -/
def State.vmid16 (s : State) : Bool :=
  s.cfg.dbg.vmid16 && s.cfg.vmidBits == 16 && s.env.dbg.vtcrVS && !s.env.hyp.el2AArch32

/-- The address comparand (R303 to R306). R306 does not say when an address is matched in an AArch32 regime: that it is while
PSTATE.nRW is 1 is the model's choice (log 28). -/
def State.addressComparand (s : State) (bvr addr : Word) : Bool :=
  if s.pstate.nRW then bvr.extractLsb' 2 30 == addr.extractLsb' 2 30
  else bvr.extractLsb' 2 47 == addr.extractLsb' 2 47
    && (!s.cfg.dbg.lva || bvr.extractLsb' 49 4 == addr.extractLsb' 49 4)

/-- The Context ID of the view 0b001x is compared against (R308). -/
def State.currentContextID (s : State) : BitVec 32 :=
  if (s.cfg.dbg.vhe || s.cfg.dbg.debugv8p2) && !s.env.hyp.el2AArch32 && s.env.hyp.e2h
      && (s.pstate.EL == .el2 || (s.env.hyp.tge && s.pstate.EL == .el0 && s.env.hyp.el2Enabled)) then
    s.env.dbg.contextidr2
  else if s.pstate.nRW then s.env.dbg.contextidr32
  else s.env.dbg.contextidr1

/-- The VMID comparand (R310, R311, R315). No rule names what the VMID is compared with: the input `vmid` is the model's choice
(log 28). -/
def State.vmidComparand (s : State) (bvr : Word) : Bool :=
  bvr.extractLsb' 32 8 == s.env.dbg.vmid.extractLsb' 0 8
    && (!s.vmid16 || bvr.extractLsb' 40 8 == s.env.dbg.vmid.extractLsb' 8 8)

/-- DBGBVR<n>_EL1; the inputs reach an index below 16 only. -/
def State.bvr (s : State) (n : Nat) : Word := if h : n < 16 then s.dbgbvr[n] else 0

/-- DBGBCR<n>_EL1.BT, an input (10_state R41). -/
def State.bt (s : State) (n : Nat) : BitVec 4 := s.env.dbg.bt.toArray[n]?.getD 0

/-- What can be checked of a match: the value register against its comparand in the view BT selects (R318). Nothing is
compared where BT[2] of an address view leaves the sense of the match to DBGBCR, or where the view's condition fails. -/
def State.comparandMatches (s : State) (n : Nat) (addr : Word) : Bool :=
  let v := s.bvr n
  let bt := s.bt n
  if !bt.getLsbD 3 && !bt.getLsbD 1 then bt.getLsbD 2 || s.addressComparand v addr
  else if bt.extractLsb' 1 3 == 0b001 then v.extractLsb' 0 32 == s.currentContextID
  else if bt.extractLsb' 1 3 == 0b011 then !contextID2Views s.cfg || v.extractLsb' 0 32 == s.env.dbg.contextidr1
  else if bt.extractLsb' 1 3 == 0b100 then !s.cfg.haveEL2 || s.vmidComparand v
  else if bt.extractLsb' 1 3 == 0b101 then
    !s.cfg.haveEL2 || (s.vmidComparand v && v.extractLsb' 0 32 == s.env.dbg.contextidr1)
  else if bt.extractLsb' 1 3 == 0b110 then !contextID2Views s.cfg || v.extractLsb' 32 32 == s.env.dbg.contextidr2
  else !contextID2Views s.cfg
    || (v.extractLsb' 32 32 == s.env.dbg.contextidr2 && v.extractLsb' 0 32 == s.env.dbg.contextidr1)

/-- Breakpoint n matches the instruction at `addr`, the environment says (R556). -/
def handleBreakpoint (n : Nat) (addr : Word) (s : State) : Result :=
  if decide (n < s.cfg.numBreakpoints) && s.comparandMatches n addr then
    .next (s.debugMatch .breakpoint)
  else .refused .inputOutsideSpec

/-- A Vector Catch debug event, in AArch32 state only: the syndrome of a breakpoint (R556). -/
def handleVectorCatch (s : State) : Result :=
  if s.pstate.EL == .el0 && s.pstate.nRW then
    .next (if s.debugEnabled then s.takeDebugException .breakpoint else s)
  else .refused .inputOutsideSpec

/-- Software step is active at the current level (R557, R559). -/
def State.stepActive (s : State) : Bool := s.mdscr.getLsbD 0 && s.debugLocal

/-- PSTATE.SS is cleared (R557). -/
def State.clearSS (s : State) : State := { s with pstate := { s.pstate with SS := false } }

/-- A stepped instruction has completed: it has cleared PSTATE.SS, and while software step is active the Software Step
exception is taken (R557, R559). -/
def handleStepped (isv ex : Bool) (s : State) : Result :=
  if isv || !ex then
    .next (if s.stepActive then s.clearSS.takeDebugException (.softwareStep isv ex) else s)
  else .refused .inputOutsideSpec

/-- The classes that report a trapped DCC access (15_debug_regs R349). -/
def ExcInfo.isDCC : ExcInfo → Bool
  | .sysAccess _ => true
  | .mcr coproc15 .. => !coproc15
  | .ldcStc .. => true
  | _ => false

/-- An EL0 access to a DCC register: MDSCR_EL1.TDCC traps it to EL1, or to EL2 (R349; log 37). -/
def handleDCC (x : ExcCause) (s : State) : Result :=
  if s.pstate.EL == .el0 && x.info.isDCC && x.check s.cfg s.env s.pstate then
    .next (if s.mdscr.getLsbD 12 then s.takeRouted s.tgeToEL2 (some (x.syndrome s.cfg s.pstate.M)) else s)
  else .refused .inputOutsideSpec

/-! ### The external debug interface (20_memory R410 to R413; log 25) -/

/-- The offset of an address in the Debug component (R411). No rule gives the width of the debugger's addresses and of DebugBase: that both
are 64 bits, and the difference modulo 2^64, is the model's choice (log 25). -/
def State.debugOffset (s : State) (addr : Word) : Nat := (addr - s.cfg.debugBase).toNat

/-- The breakpoint whose value register is at an address, 0x400 + 16 n (R410, R411). -/
def State.breakpointAt (s : State) (addr : Word) : Option Nat :=
  let o := s.debugOffset addr
  if 0x400 ≤ o && o < 0x500 && o % 16 = 0 then some ((o - 0x400) / 16) else none

/-- The accesses succeed (R410). -/
def State.extOk (s : State) : Bool :=
  s.env.ext.corePowered && !s.env.ext.doubleLock && !s.env.ext.osLockStatus && s.env.ext.allowExternal

/-- Bits [63:lo], for 0 < lo < 64. -/
def highBits (lo : Nat) : Word := BitVec.ofNat 64 (2 ^ 64 - 2 ^ lo)

/-- The number of the top bit of VA: 52 with FEAT_LVA, else 48 (R305). -/
def topOfVA (c : Config) : Nat := if c.dbg.lva then 52 else 48

/-- The address view as held: with RESSHardwired the bits above VA copy its top bit (R305). -/
def bvrAddress (c : Config) (v : Word) : Word :=
  if c.ressHardwired then
    if v.getLsbD (topOfVA c) then v ||| highBits (topOfVA c + 1) else v &&& ~~~highBits (topOfVA c + 1)
  else v

/-- VMID[15:8] is RES0 unless the VMID is 16 bits (R310, R311, R315; 90_conflicts C15). -/
def State.bvrVmidHigh (s : State) : Word := if s.vmid16 then 0 else 0x0000FF0000000000

/-- The RES0 bits of an address view: [1:0] (R303), and everything above bit 31 while an address is matched in an AArch32 regime
(R306, 90 C14), which `addressComparand` takes to be while PSTATE.nRW is 1 (log 28). -/
def State.bvrAddressRes0 (s : State) : Word := if s.pstate.nRW then highBits 32 ||| 3 else 3

/-- DBGBVR<n>_EL1 as read, in the view BT selects (R301 to R313). -/
def State.bvrReading (s : State) (n : Nat) : Reading :=
  let v := s.bvr n
  let bt := s.bt n
  let view (r : Word) : Reading := { held := v, unknown := 0, res0 := r, res1 := 0 }
  let all := BitVec.allOnes 64
  if !bt.getLsbD 3 && !bt.getLsbD 1 then
    { held := bvrAddress s.cfg v, unknown := 0, res0 := s.bvrAddressRes0, res1 := 0 }
  else if bt.extractLsb' 1 3 == 0b001 then view (highBits 32)
  else if bt.extractLsb' 1 3 == 0b011 then view (if contextID2Views s.cfg then highBits 32 else all)
  else if bt.extractLsb' 1 3 == 0b100 then
    view (if s.cfg.haveEL2 then highBits 48 ||| s.bvrVmidHigh ||| 0xFFFFFFFF else all)
  else if bt.extractLsb' 1 3 == 0b101 then view (if s.cfg.haveEL2 then highBits 48 ||| s.bvrVmidHigh else all)
  else if bt.extractLsb' 1 3 == 0b110 then view (if contextID2Views s.cfg then 0xFFFFFFFF else all)
  else view (if contextID2Views s.cfg then 0 else all)

/-- The interface answers. -/
def State.answer (s : State) (r : ExtResponse) : State := { s with extResponse := some r }

/-- DBGBVR<n>_EL1 <- v. -/
def State.writeBvr (s : State) (n : Nat) (v : Word) : State :=
  if h : n < 16 then { s with dbgbvr := s.dbgbvr.set n v } else s

/-- ExtRead(n) (R410); an unimplemented breakpoint is RES0, or RES0 or an error where the access would fail (R302). -/
def State.extRead (s : State) (n : Nat) : State :=
  if n < s.cfg.numBreakpoints then
    if s.extOk then (s.afterRead (s.bvrReading n)).answer (.data (s.valueOf (s.bvrReading n))) else s.answer .error
  else if s.extOk then s.answer (.data 0)
  else (s.skip 1).answer (s.choose (.data 0) .error)

/-- ExtWrite(n, v) (R410). -/
def State.extWrite (s : State) (n : Nat) (v : Word) : State :=
  if n < s.cfg.numBreakpoints then
    if s.extOk && !s.env.ext.softwareLock then (s.writeBvr n v).answer .written
    else if s.extOk then s.answer .ignored
    else s.answer .error
  else if s.extOk then s.answer .ignored
  else (s.skip 1).answer (s.choose .ignored .error)

/-- The debugger reads an address. -/
def handleExtRead (addr : Word) (s : State) : Result :=
  match s.breakpointAt addr with
  | some n => .next (s.extRead n)
  | none => .refused (.extAddressNotDescribed addr)

/-- The debugger writes an address. -/
def handleExtWrite (addr v : Word) (s : State) : Result :=
  match s.breakpointAt addr with
  | some n => .next (s.extWrite n v)
  | none => .refused (.extAddressNotDescribed addr)

/-- Watchpoint n is implemented. -/
def State.watchpointExists (s : State) (n : Nat) : Bool := decide (n < s.cfg.numWatchpoints) && decide (n < 64)

/-- The debugger reads DBGWCR<n>_EL1, under no condition (R412). Of an unimplemented watchpoint it reads 0 or gets an error,
as R302 says of a breakpoint: the model's choice (log 25). -/
def State.extReadWcr (s : State) (n : Nat) : State :=
  if s.watchpointExists n then
    (s.afterRead (s.reading (.dbgwcr n))).answer (.data (s.valueOf (s.reading (.dbgwcr n))))
  else (s.skip 1).answer (s.choose (.data 0) .error)

/-- The debugger writes DBGWCR<n>_EL1, under no condition (R412); of an unimplemented watchpoint the write is ignored or gets
an error, the model's choice (log 25). -/
def State.extWriteWcr (s : State) (n : Nat) (v : Word) : State :=
  if s.watchpointExists n then (s.writeWcr n v).answer .written
  else (s.skip 1).answer (s.choose .ignored .error)

/-! ### Profiling (16_profiling_regs; logs 23, 24) -/

/-- A branch is executed (R389, R390, R394). -/
def State.takeBranch (s : State) : State :=
  if s.cfg.prof.brbe && s.branchEnabled s.pstate.EL then s.emitRecord .branch else s

/-- A BRBE freeze event (R384, R385). -/
def State.freeze (s : State) : State := { s with brbeLog := .freeze :: s.brbeLog }

/-- A successful PMU snapshot Capture event, under FZPSS (R384). -/
def State.pmuCapture (s : State) : State :=
  if s.cfg.prof.brbe && s.cfg.prof.pmuv3SS && s.brbcrEL1.getLsbD 9
      && (!s.cfg.haveEL2 || s.env.prof.brbcr2FZPSS) then s.freeze else s

/-- PMUOverflowForBRBE, under FZP (R385). What a Non-prohibited region is stands in no source (R394): that it is an input of its own,
unrelated to E0BRE and E1BRE, is the model's choice (log 23). -/
def State.pmuOverflow (s : State) : State :=
  if s.cfg.prof.brbe && s.cfg.prof.pmuv3 && s.brbcrEL1.getLsbD 8 && s.env.prof.brbNonProhibited
      && !s.env.prof.brbfcrPaused then s.freeze else s

/-- Whether the operation is of a type, and its control and mask bits in `v` (R362, R364 to R368). -/
def typeControls (v : Word) (o : Sample) : List (Bool × Bool × Bool) :=
  [(o.simd, v.getLsbD 20, v.getLsbD 52), (o.fp, v.getLsbD 19, v.getLsbD 51), (o.st, v.getLsbD 18, v.getLsbD 50),
   (o.ld, v.getLsbD 17, v.getLsbD 49), (o.br, v.getLsbD 16, v.getLsbD 48)]

/-- TypeMatch(s) (R369, R375): the masked controls are terms of an AND, the unmasked ones of an OR; an OR without a
selected type counts as SPETypeFilterEmptyOr beside an AND. -/
def typeMatch (c : Config) (v : Word) (o : Sample) : Bool :=
  let ts := typeControls v o
  let masked := ts.filter (fun t => t.2.2)
  let selected := ts.filter (fun t => !t.2.2 && t.2.1)
  masked.all (fun t => t.1 == t.2.1)
    && (if selected.isEmpty then !masked.isEmpty && c.speTypeFilterEmptyOr else selected.any (fun t => t.1))

/-- No type bit is 1, whatever the mask bits: the CONSTRAINED UNPREDICTABLE case of FT (R373; 90_conflicts C18, 93 P6). -/
def noTypeSelected (v : Word) (o : Sample) : Bool := (typeControls v o).all (fun t => !t.2.1)

/-- PassFL (R372, R375); `d` decides the CONSTRAINED UNPREDICTABLE case between no samples and FL = 0. -/
def passFL (e : ProfilingInputs) (v : Word) (o : Sample) (d : Bool) : Bool :=
  !v.getLsbD 2 || (if e.minlat = 0 then d else decide (e.minlat ≤ o.latency))

/-- PassFT (R373, R375); `d` decides the case without a type bit between no samples and FT = 0. -/
def passFT (c : Config) (v : Word) (o : Sample) (d : Bool) : Bool :=
  !v.getLsbD 1 || (if noTypeSelected v o then d else typeMatch c v o)

/-- PassFE (R374, R375). -/
def passFE (e : ProfilingInputs) (v : Word) (o : Sample) (d : Bool) : Bool :=
  !v.getLsbD 0 || (if e.pmsevfr = 0 then d else o.hasSelectedEvents)

/-- PassFnE (R371, R375). -/
def passFnE (e : ProfilingInputs) (v : Word) (o : Sample) (d : Bool) : Bool :=
  !v.getLsbD 3 || (if e.pmsnevfr = 0 then d else !o.hasInvertedEvents)

/-- PassFDS (R370, R375); with PMSDSFR_EL1 zero no Data Source is selected. -/
def passFDS (e : ProfilingInputs) (v : Word) (o : Sample) : Bool :=
  !v.getLsbD 4 || !o.ld || (match o.dataSource with
    | .absent => true
    | .selected => e.pmsdsfr != 0
    | .notSelected => false)

/-- Record(s) (R360, R375); bits of `d` decide the CONSTRAINED UNPREDICTABLE cases: 1 acts as the control bit 0, 0 records nothing. -/
def recordSample (c : Config) (e : ProfilingInputs) (pmsfcr : Word) (o : Sample) (d : Word) : Bool :=
  let v := pmsfcr &&& ~~~pmsfcrRes0 c
  passFL e v o (d.getLsbD 0) && passFT c v o (d.getLsbD 1) && passFE e v o (d.getLsbD 2)
    && passFnE e v o (d.getLsbD 3) && passFDS e v o

/-- The choices of the CONSTRAINED UNPREDICTABLE cases of PMSFCR_EL1: for all samples of a run the same (R375, 93 P6). That 93 P6 is
followed, where 92 D4 has such a choice made afresh each time, is the model's choice (log 24). -/
def samplingChoice : Word := Config.runChoice 0

/-- The Statistical Profiling Extension samples an operation (R375). -/
def handleSample (o : Sample) (s : State) : Result :=
  if s.cfg.prof.spe then
    .next { s with
      speLog := if recordSample s.cfg s.env.prof s.pmsfcr o samplingChoice then o :: s.speLog else s.speLog }
  else .refused .inputOutsideSpec

/-! ### Resets (70_reset R580 to R588; log 26) -/

/-- PSTATE after a reset: the fields R588 names as it names them, the others from the free value `d`. -/
def PState.drawn (c : Config) (d : Word) : PState :=
  { PState.reset c with
    N := d.getLsbD 0, Z := d.getLsbD 1, C := d.getLsbD 2, V := d.getLsbD 3, Q := d.getLsbD 4
    GE := d.extractLsb' 5 4, IT := d.extractLsb' 9 8, DIT := d.getLsbD 17, SSBS := d.getLsbD 18
    PAN := d.getLsbD 19, UAO := d.getLsbD 20, TCO := d.getLsbD 21, E := d.getLsbD 22, ALLINT := d.getLsbD 23
    PM := d.getLsbD 24, PPEND := d.getLsbD 25, T := d.getLsbD 26, BTYPE := d.extractLsb' 27 2
    PACM := d.getLsbD 29, EXLOCK := d.getLsbD 30, M := d.extractLsb' 31 4, SM := d.getLsbD 35
    ZA := d.getLsbD 36 }

/-- A drawn pending record of a name pair (R580, R590): none, or either name with any two values. -/
def State.drawnPair (s : State) : Option PairRecord :=
  if s.freeValue.getLsbD 0 then
    some { name := if s.freeValue.getLsbD 1 then .el1Name else .el12Name, old := (s.skip 1).freeValue
           written := (s.skip 2).freeValue }
  else none

/-- A drawn SError: any fields that keep their constraints, `d` giving them at their places in ISS (R580, 13_esr_iss_b R220). -/
def SErrorInfo.drawn (y : SyndromeFeatures) (d : Word) : SErrorInfo :=
  let e : SErrorInfo :=
    if d.getLsbD 24 then .implDefined (d.extractLsb' 0 24)
    else .fields (d.getLsbD 18) (d.extractLsb' 16 2) (d.getLsbD 15) (d.getLsbD 14) (d.getLsbD 13) (d.extractLsb' 10 3)
      (d.getLsbD 9) (d.getLsbD 7) (d.getLsbD 6) (d.extractLsb' 0 6)
  if e.allowed y then e else .fields false 0 false false false 0 false false false 0

/-- `n` drawn SErrors (R580). -/
def State.drawnSErrors (s : State) (n : Nat) : List SErrorInfo :=
  (List.range n).map (fun k => SErrorInfo.drawn s.cfg.synd (s.skip k).freeValue)

/-- A drawn answer of the external debug interface (R580, 20_memory R410). -/
def State.drawnResponse (s : State) : Option ExtResponse :=
  (s.skip 1).chooseFrom none [some (.data s.freeValue), some .written, some .ignored, some .error]

/-- How many SErrors are pending after a reset: any number. -/
def State.drawnSErrorCount (s : State) : Nat := (s.skip 52).freeValue.toNat

/-- The Warm reset: ESR_EL1, SPSR_EL1, the EL2 cells, the own bits of MDSCR_EL1, PMSFCR_EL1, BRBCR_EL1, PSTATE, the general
registers, the pending records of the name pairs, the asynchronous exceptions that are pending and the last answer of the external
debug interface become free values; pc is ResetPC; DBGBVR, DBGWCR and memory are kept (R580 to R588; log 26). -/
def State.warmReset (s : State) : State :=
  { s.skip (53 + s.drawnSErrorCount) with
    esrEL1 := (s.skip 0).freeValue, esrUnknown := false
    spsrEL1 := (s.skip 1).freeValue, spsrUnknown := false
    esrEL2 := (s.skip 2).freeValue
    spsrEL2 := (s.skip 3).freeValue
    brbcrEL2 := (s.skip 4).freeValue
    mdscr := (s.skip 5).freeValue &&& mdscrOwn
    pmsfcr := (s.skip 6).freeValue &&& ~~~pmsfcrRes0 s.cfg
    brbcrEL1 := (s.skip 7).freeValue &&& ~~~brbcrRes0 s.cfg
    pstate := PState.drawn s.cfg (s.skip 8).freeValue
    pc := s.cfg.resetPC
    x := Vector.ofFn (fun i : Fin 31 => (s.skip (9 + i.val)).freeValue)
    pendingEntry := none
    pendingIRQ := (s.skip 40).freeValue.getLsbD 0
    pendingFIQ := (s.skip 40).freeValue.getLsbD 1
    pendingPMU := (s.skip 40).freeValue.getLsbD 2
    esrPair := (s.skip 41).drawnPair
    spsrPair := (s.skip 44).drawnPair
    brbcrPair := (s.skip 47).drawnPair
    extResponse := (s.skip 50).drawnResponse
    pendingSErrors := (s.skip 53).drawnSErrors s.drawnSErrorCount }

/-- The Cold reset: a Warm reset that also draws DBGBVR<n>_EL1, all 64 bits of it since DBGBCR<n>_EL1.BT may select another
view later (log 26), and the fields of DBGWCR<n>_EL1 (R581). -/
def State.coldReset (s : State) : State :=
  let r := s.warmReset
  { r.skip 80 with
    dbgbvr := Vector.ofFn (fun i : Fin 16 => (r.skip i.val).freeValue)
    dbgwcr := Vector.ofFn (fun i : Fin 64 => (r.skip (16 + i.val)).freeValue &&& ~~~wcrRes0 s.cfg) }

/-- The environment record changes. Turning the Core power domain off changes nothing else, by the model's choice (log 26). When
it turns the Core power domain on, that is a Cold reset (20_memory R414, 60_exceptions
R567, R580). -/
def State.changeEnv (s : State) (e : Env) : State :=
  let r := { s with env := e }
  if e.ext.corePowered && !s.env.ext.corePowered then r.coldReset else r

/-! ### Instructions outside this spec (00_scope R5; log 27) -/

/-- The level keeps 60_exceptions R553: a step enters a level by taking an exception to it and leaves one by an exception return from it.
EL1 is entered and left in no such step, but by the inputs that write the registers of this spec (R540, R545), unless an exception is
taken from it to EL2 or EL3 or a return from there goes back to it. That a `plain` step at EL0 may change the Execution state is the
model's choice (log 27). -/
def OutsideStep.levelOk (p : PState) (o : OutsideStep) : Bool :=
  match o.event with
  | .plain | .contextSync => o.pstate.EL == p.EL
  | .entry => (o.pstate.EL == .el2 || o.pstate.EL == .el3) && EL.highest o.pstate.EL p.EL == o.pstate.EL
  | .exceptionReturn => (p.EL == .el2 || p.EL == .el3) && EL.highest o.pstate.EL p.EL == p.EL

/-- What the kind of the step does besides what the environment gives: a Context synchronization event, an exception entry or an
exception return clears the pending records of the name pairs (70_reset R590), and an entry to EL2 draws its cells
(40_sysreg_access_common R458). -/
def State.outsideEvent (s : State) (o : OutsideStep) : State :=
  match o.event with
  | .plain => s
  | .contextSync | .exceptionReturn => s.clearPairs
  | .entry => s.clearPairs.drawCells o.pstate.EL

/-- One instruction outside this spec, or a step of software at another level: what it leaves. -/
def State.outsideStep (s : State) (o : OutsideStep) : State :=
  let r := o.x.foldl (fun r e => r.writeX e.1 e.2) (s.outsideEvent o)
  { r with
    mem := o.mem.foldl (fun m e => m.write e.1.toNat e.2) s.mem
    pc := o.pc
    pstate := o.pstate }

/-- The instruction leaves a state the machine can be in, at a level it can go to. -/
def handleOutside (o : OutsideStep) (s : State) : Result :=
  if o.pstate.stateOk s.cfg && o.levelOk s.pstate then .next (s.outsideStep o) else .refused .inputOutsideSpec

end Sys2Proof.Machine
end

