-- ==== Sys2Proof/Machine/Cycle.lean ====
section
/-! DEFINITION. One step: fetching, and what comes first (20_memory R418; 40_sysreg_access_common R450; logs 3, 11, 29, 39). -/

namespace Sys2Proof.Machine

open Sys2Proof

/-- The word at pc: the program is indexed by pc / 4 relative to its start (20_memory R418). Instructions are aligned to 4 bytes
(30_encoding R425), and no rule says whether a program may start at another address: that it may, so that only the difference counts, is
the model's choice (log 38). -/
def State.fetch (s : State) : Option Word32 := s.program[(s.pc - s.progStart).toNat / 4]?

/-- An instruction has been executed, `s` before it and `t` after it: one that completes while software step is active
clears PSTATE.SS (60_exceptions R557; log 28). -/
def State.afterInstruction (s t : State) : State := if s.stepActive && t.pc == s.pc + 4 then t.clearSS else t

/-- The instruction at pc. PSTATE.IL 1 takes the Illegal Execution state exception whatever the word; a word outside the
spec is the outcome OutOfScope (30_encoding R436). -/
def State.runInstruction (s : State) : Result :=
  if s.pstate.IL then .next s.takeIllegalState
  else if s.pstate.nRW then .refused .aarch32Execution
  else match s.fetch with
    | none => .refused (.outsideProgram s.pc)
    | some w => match decode w with
      | .error why => .fault (.outOfScope why w)
      | .ok i => match exec i s with
        | .next t => .next (s.afterInstruction t)
        | .fault f => .fault f
        | .refused r => .refused r

/-- What an input of the environment does (10_state R25, R44; log 3). A program may start at any address (log 38). An entry to EL2 or EL3
outside this spec need not come from an instruction, so it is taken whatever PSTATE.IL says (log 12). -/
def handleInput (i : Input) (s : State) : Result :=
  match i with
  | .instruction => s.runInstruction
  | .env e => .next (s.changeEnv e)
  | .program start words => .next { s with progStart := start, program := words }
  | .exception x => handleException x s
  | .unpredictable x p e => s.unlessIllegal (handleUnpredictable x p e s)
  | .arrives k => handleArrival k s
  | .exceptionReturn => s.unlessIllegal (handleReturn s)
  | .contextSync => .next s.clearPairs
  | .extRead addr => handleExtRead addr s
  | .extWrite addr v => handleExtWrite addr v s
  | .extReadWCR n => .next (s.extReadWcr n)
  | .extWriteWCR n v => .next (s.extWriteWcr n v)
  | .coldReset => .next s.coldReset
  | .warmReset => .next s.warmReset
  | .access a => s.unlessIllegal (handleAccess a s)
  | .breakpoint n addr => handleBreakpoint n addr s
  | .vectorCatch => handleVectorCatch s
  | .stepped isv ex => handleStepped isv ex s
  | .dccAccess x => s.unlessIllegal (handleDCC x s)
  | .branch => s.unlessIllegal (.next s.takeBranch)
  | .pmuCapture => .next s.pmuCapture
  | .pmuOverflow => .next s.pmuOverflow
  | .sample o => handleSample o s
  | .outside o => if o.event = .entry then handleOutside o s else s.unlessIllegal (handleOutside o s)

/-- What one step does to a settled state: an entry to EL2 or EL3 that an outcome left final is made, else an asynchronous
exception that is pending and unmasked is taken, else the environment's next input, else an instruction runs. No rule says whether
the PE executes while the Core power domain is off (20_memory R414): that it goes on is the model's choice (log 26). -/
def State.cycle (s : State) : Result :=
  match s.pendingEntry, s.dueAsync, s.inputs with
  | some h, _, _ => .next (s.completeHigherEntry h)
  | none, k :: rest, _ => .next (s.takeDue k rest)
  | none, [], i :: rest => handleInput i { s with inputs := rest }
  | none, [], [] => s.runInstruction

end Sys2Proof.Machine
end

