-- ==== Sys2Proof/Machine/Step.lean ====
section
/-! DEFINITION. The step of the machine, and how the host places an instruction where the step fetches. -/

namespace Sys2Proof.Machine

open Sys2Proof

/-- One step; a step not at EL3 first clears the pending records (70_reset R590). -/
def step (s : State) : Host.Outcome State Fault Refusal := s.settle.cycle

/-- `s` with the instruction word `w` as the program, its start at pc, and nothing that comes before an instruction
(log 1), whether or not that is a multiple of 4 (log 38): every bit above `nbits` is 0. -/
def State.withFetchWord (s : State) (nbits w : Nat) : State :=
  { s with
    program := [BitVec.ofNat 32 (w % 2 ^ nbits)]
    progStart := s.pc
    inputs := []
    pendingEntry := none
    pendingIRQ := false, pendingFIQ := false, pendingSErrors := [], pendingPMU := false }

end Sys2Proof.Machine
end

