-- ==== Sys2Proof/Safety.lean ====
section
/-! DEFINITION. What counts as a safe state, and the ends a step can have, in the terms the statements use. -/

namespace Sys2Proof.Machine

open Sys2Proof

/-! ### Invariants -/

/-- What every step keeps: the memory's canonical form (log 7), no storage behind the windows and the RAZ/WI bits of
MDSCR_EL1 (15_debug_regs R355), an exception on its way upward goes to EL2 or EL3 (log 11), and AArch32 state is User mode
at EL0 of an implementation that has it (14_spsr_el1 R260, R273). -/
structure State.Inv (s : State) : Prop where
  mem : s.mem.wf = true
  mdscr : s.mdscr &&& (mdscrWindowMask s.cfg ||| mdscrRaz) = 0
  entry : ∀ h, s.pendingEntry = some h → h.target = .el2 ∨ h.target = .el3
  aarch32 : s.pstate.nRW = true → s.cfg.haveAArch32 = true ∧ s.pstate.EL = .el0 ∧ s.pstate.M = 0

/-- The mask of interrupts with superpriority is set (60_exceptions R525). -/
def AllMasked (s : State) : Prop := s.cfg.pst.nmi = true ∧ s.pstate.ALLINT = true

/-- No asynchronous exception that has arrived is taken before anything else: the level is above EL1, or each that is
pending is masked (60_exceptions R525; log 39). -/
def NothingDue (s : State) : Prop :=
  s.pstate.EL = .el0 ∨ s.pstate.EL = .el1 →
    (s.pendingIRQ = true → s.pstate.I = true ∨ AllMasked s) ∧ (s.pendingFIQ = true → s.pstate.F = true ∨ AllMasked s) ∧
    (s.pendingSErrors ≠ [] → s.pstate.A = true) ∧ (s.pendingPMU = true → s.cfg.synd.ebep = true → s.pstate.PM = true)

/-- Nothing comes before an instruction: no entry or asynchronous exception, and no input but that it runs. -/
def State.instructionNext (s : State) : Prop :=
  s.pendingEntry = none ∧ NothingDue s ∧ (s.inputs = [] ∨ ∃ rest, s.inputs = .instruction :: rest)

/-- An instruction of the program runs next: nothing comes before it, and the step is in AArch64 state and not in the
Illegal Execution state. -/
def State.ready (s : State) : Prop := s.instructionNext ∧ s.pstate.IL = false ∧ s.pstate.nRW = false

/-! ### How an MRS or MSR ends -/

/-- `v` agrees with the held value `h` in every bit outside the reserved positions, in a RES0 position (`r0`) where `h`
is 0, and in a RES1 position (`r1`) where `h` is 1 (00_scope R14, 40_sysreg_access_common R466). -/
def ReadsAs (v h r0 r1 : Word) : Prop :=
  ∀ i, r0.getLsbD i = false ∨ h.getLsbD i = false → r1.getLsbD i = false ∨ h.getLsbD i = true →
    v.getLsbD i = h.getLsbD i

/-- An MRS has completed: `v` is in register `n` (31 discards it and reads 0), pc has moved on, and nothing else but the
count of free values has changed (R26, R27, R452). -/
structure MrsDone (s t : State) (n : Nat) (v : Word) : Prop where
  value : t.readX n = if n < 31 then v else 0
  others : ∀ k, k ≠ n → t.readX k = s.readX k
  pc : t.pc = s.pc + 4
  frame : t = { s with x := t.x, pc := t.pc, draws := t.draws }

/-- The instruction `i`, an MRS to register `n`, completes, and where `known` holds the value it transfers is that of a
register that holds `h`, with the reserved positions `r0` (RES0) and `r1` (RES1) (R452, R466). -/
def MrsReads (s : State) (i : Instr) (n : Nat) (known : Prop) (h r0 r1 : Word) : Prop :=
  ∃ v t, exec i s = .next t ∧ MrsDone s t n v ∧ (known → ReadsAs v h r0 r1)

/-- The instruction `i`, an MRS to register `n`, completes and transfers exactly `v` (R452). -/
def MrsGives (s : State) (i : Instr) (n : Nat) (v : Word) : Prop := ∃ t, exec i s = .next t ∧ MrsDone s t n v

/-- An instruction has completed: pc has moved on, and PSTATE, the parameters, the environment but for the windows of
EDSCR, the program, the inputs, DBGBVR and the logs are as they were (R452). -/
structure Completed (s t : State) : Prop where
  pc : t.pc = s.pc + 4
  frame : t = { s with
    x := t.x, pc := t.pc, env := { s.env with edscr := t.env.edscr }, esrEL1 := t.esrEL1, esrUnknown := t.esrUnknown
    spsrEL1 := t.spsrEL1, spsrUnknown := t.spsrUnknown, dbgwcr := t.dbgwcr, mdscr := t.mdscr, pmsfcr := t.pmsfcr
    brbcrEL1 := t.brbcrEL1, esrEL2 := t.esrEL2, spsrEL2 := t.spsrEL2, brbcrEL2 := t.brbcrEL2, esrPair := t.esrPair
    spsrPair := t.spsrPair, brbcrPair := t.brbcrPair, mem := t.mem, draws := t.draws }

/-- An exception has been taken to EL1 from `s` (60_exceptions R540, R542): SPSR_EL1 holds PSTATE as it was, ESR_EL1 the
syndrome if there is one, PSTATE is the handler's, pc is the vector, and nothing else but the record of branches, the
count of free values and the pending records of the name pairs has changed. -/
structure EntryEL1 (s t : State) (syndrome : Option Word) : Prop where
  saved : t.spsrEL1 = savedPState s.cfg s.pstate ∧ t.spsrUnknown = false
  esr : ∀ v, syndrome = some v → t.esrEL1 = v ∧ t.esrUnknown = false
  esrKept : syndrome = none → t.esrEL1 = s.esrEL1 ∧ t.esrUnknown = s.esrUnknown
  level : t.pstate.EL = .el1 ∧ t.pstate.nRW = false ∧ t.pstate.SP = true
  masks : t.pstate.D = true ∧ t.pstate.A = true ∧ t.pstate.I = true ∧ t.pstate.F = true
  cleared : t.pstate.SS = false ∧ t.pstate.IL = false ∧ t.pstate.BTYPE = 0
  flags : t.pstate.N = s.pstate.N ∧ t.pstate.Z = s.pstate.Z ∧ t.pstate.C = s.pstate.C ∧ t.pstate.V = s.pstate.V
  vector : t.pc = s.env.step.vectorTarget
  pairs : t.esrPair = none ∧ t.spsrPair = none ∧ t.brbcrPair = none
  frame : t = { s with
    pc := t.pc, pstate := t.pstate, esrEL1 := t.esrEL1, esrUnknown := t.esrUnknown
    spsrEL1 := t.spsrEL1, spsrUnknown := t.spsrUnknown, esrPair := t.esrPair, spsrPair := t.spsrPair
    brbcrPair := t.brbcrPair, draws := t.draws, brbeLog := t.brbeLog }

/-- An exception is on its way to EL2 or EL3 with this syndrome (40_sysreg_access_common R455, R458): at EL2 the opaque
cells ESR_EL2, SPSR_EL2 and BRBCR_EL2 may have changed (92 D22); no general register, no register of EL1, no memory, no flag and not pc. -/
structure HigherTaken (s t : State) (el : EL) (syndrome : Option Word) : Prop where
  entry : t.pendingEntry = some { target := el, syndrome := syndrome }
  pairs : t.esrPair = none ∧ t.spsrPair = none ∧ t.brbcrPair = none
  cells : el ≠ .el2 → t.esrEL2 = s.esrEL2 ∧ t.spsrEL2 = s.spsrEL2 ∧ t.brbcrEL2 = s.brbcrEL2
  frame : t = { s with
    pendingEntry := t.pendingEntry, esrEL2 := t.esrEL2, spsrEL2 := t.spsrEL2, brbcrEL2 := t.brbcrEL2
    esrPair := t.esrPair, spsrPair := t.spsrPair, brbcrPair := t.brbcrPair, draws := t.draws }

/-- A synchronous exception with a fixed syndrome has been taken to the level `el`. -/
def TakenTo (s t : State) (el : EL) (syndrome : Word) : Prop :=
  if el = .el1 then EntryEL1 s t (some syndrome) else HigherTaken s t el (some syndrome)

/-- A synchronous exception with a fixed syndrome has been taken to the level UndefTarget gives, at least EL1 and at
least the current level (40_sysreg_access_common R453; log 10). -/
def SynchronousTaken (s t : State) (syndrome : Word) : Prop := TakenTo s t s.undefTarget syndrome

/-- An exception that would go to EL1 has been taken: by the spec's routing to EL2 where `toEL2` holds, and to EL1 with this
syndrome otherwise (60_exceptions R552). -/
def RoutedTaken (s t : State) (toEL2 : Prop) (syndrome : Option Word) : Prop :=
  (toEL2 → HigherTaken s t .el2 none) ∧ (¬ toEL2 → EntryEL1 s t syndrome)

/-- HCR_EL2.TGE sends the exceptions of EL1 to EL2 (R552). -/
def TGERoutes (s : State) : Prop := s.env.hyp.el2Enabled = true ∧ s.env.hyp.tge = true

/-- The Illegal Execution state exception has been taken: to EL2 where it would go to EL1 and HCR_EL2.TGE routes it away, and
otherwise to the level of Undefined (12_esr_iss_a R152, 60_exceptions R552; logs 10, 12). -/
def IllegalStateTaken (s t : State) : Prop :=
  (s.undefTarget = .el1 ∧ TGERoutes s → HigherTaken s t .el2 (some 0x3A000000)) ∧
  (¬ (s.undefTarget = .el1 ∧ TGERoutes s) → SynchronousTaken s t 0x3A000000)

/-- An SVC at the current level traps to EL2 (12_esr_iss_a R160, R552). -/
def SvcTrapped (s : State) : Prop :=
  s.env.hyp.el2Enabled = true ∧ s.cfg.dbg.fgt = true ∧ (s.cfg.haveEL3 = false ∨ s.env.fgt.fgtEn = true) ∧
    (if s.pstate.EL = .el1 then s.env.named.hfgitrSVCEL1 = true else s.env.named.hfgitrSVCEL0 = true)

/-- Debug exceptions go to EL2 (R552, R559). -/
def DebugRoutes (s : State) : Prop :=
  s.env.hyp.el2Enabled = true ∧ (s.env.mon.mdcr2TDE = true ∨ s.env.hyp.tge = true)

/-- A cause goes to EL2 instead of EL1 (R552, R559). -/
def CauseRoutes (s : State) : ExcInfo → Prop
  | .svc _ => TGERoutes s ∨ SvcTrapped s
  | .breakpointInstr _ => DebugRoutes s
  | _ => TGERoutes s

/-- The mask of an asynchronous exception is set (R525 to R528). -/
def Masked (s : State) : AsyncException → Prop
  | .irq => s.pstate.I = true ∨ AllMasked s
  | .fiq => s.pstate.F = true ∨ AllMasked s
  | .serror _ => s.pstate.A = true
  | .pmu => s.pstate.PM = true

/-- Debug exceptions are enabled within EL0, or within EL1 by KDE with PSTATE.D clear (R559). -/
def DebugWithin (s : State) : Prop :=
  s.pstate.EL = .el0 ∨ (s.pstate.EL = .el1 ∧ s.mdscr.getLsbD 13 = true ∧ s.pstate.D = false)

/-- Software step is active (R557, R559; log 28). -/
def StepActive (s : State) : Prop :=
  s.mdscr.getLsbD 0 = true ∧
    (DebugWithin s ∨ (s.pstate.EL = .el1 ∧ DebugRoutes s) ∨
      (s.pstate.EL = .el2 ∧ DebugRoutes s ∧ s.mdscr.getLsbD 13 = true ∧ s.pstate.D = false))

/-! ### The conditions of the recurring tests, as the spec words them -/

/-- The fine-grained trap test with the control `b` holds (40_sysreg_access_common R461). -/
def FineGrainedTrap (s : State) (b : Bool) : Prop :=
  s.env.hyp.el2Enabled = true ∧ s.cfg.dbg.fgt = true ∧ (s.cfg.haveEL3 = false ∨ s.env.fgt.fgtEn = true) ∧ b = true

/-- MDCR_EL2.<TDE,TDA> traps the debug registers (43_debug_access R492). -/
def DebugTrapEL2 (s : State) : Prop :=
  s.env.hyp.el2Enabled = true ∧ (s.env.mon.mdcr2TDE = true ∨ s.env.mon.mdcr2TDA = true)

/-- MDCR_EL3.TDA traps the debug registers (R492). -/
def DebugTrapEL3 (s : State) : Prop := s.cfg.haveEL3 = true ∧ s.env.mon.mdcr3TDA = true

/-- The Halt check (R491). -/
def SoftwareAccessHalts (s : State) : Prop :=
  s.env.dbg.oslk = false ∧ s.env.dbg.haltingAllowed = true ∧ s.env.edscr.TDA = true

/-- NSPBmis with EL3 (44_profiling_access R505). -/
def ProfilingTrapEL3 (s : State) : Prop :=
  s.cfg.haveEL3 = true ∧ (s.env.mon.nspb.getLsbD 0 = false ∨ s.env.mon.nspb.getLsbD 1 ≠ s.env.mon.ns
    ∨ (s.cfg.synd.rme = true ∧ s.env.mon.nspbe ≠ s.env.mon.nse))

/-- S1 or S2 with EL3 (44_profiling_access R508). -/
def BranchTrapEL3 (s : State) : Prop :=
  s.cfg.haveEL3 = true ∧ ((s.env.mon.sbrbe ≠ 0b11 ∧ s.env.mon.ns = false)
    ∨ (s.env.mon.sbrbe.getLsbD 0 = false ∧ s.env.mon.ns = true))

/-- Debug state with Secure debug disabled (R462). -/
def SecureDebugDisabled (s : State) : Prop := s.env.dbg.halted = true ∧ s.env.edscr.SDD = true

/-- The GCS lock (42_spsr_access). -/
def LockHeld (s : State) : Prop :=
  s.cfg.synd.gcs = true ∧ s.env.step.exlockEn = true ∧ s.env.dbg.halted = false ∧ s.pstate.EXLOCK = true

/-- The watchpoint the index `m` reaches (43_debug_access R490). -/
def watchpointOf (s : State) (m : Nat) : Nat :=
  if s.cfg.dbg.debugv8p9 = true then m + 16 * s.env.dbg.bank.toNat else m

/-- An access to DBGWCR<m>_EL1 passes every test (43_debug_access R490 to R492); `fgt` is the fine-grained control. -/
def WatchpointAccess (s : State) (m : Nat) (fgt : Bool) : Prop :=
  watchpointOf s m < s.cfg.numWatchpoints ∧ ¬ SoftwareAccessHalts s ∧
  ((s.pstate.EL = .el1 ∧ ¬ FineGrainedTrap s fgt ∧ ¬ DebugTrapEL2 s ∧ ¬ DebugTrapEL3 s)
    ∨ (s.pstate.EL = .el2 ∧ ¬ DebugTrapEL3 s) ∨ s.pstate.EL = .el3)

/-- An access to MDSCR_EL1 passes every test and reaches the register (43_debug_access R496). -/
def MdscrAccess (s : State) (fgt : Bool) : Prop :=
  (s.pstate.EL = .el1 ∧ ¬ FineGrainedTrap s fgt ∧ ¬ DebugTrapEL2 s ∧ ¬ DebugTrapEL3 s
      ∧ ¬ (s.env.hyp.el2Enabled = true ∧ s.env.hyp.nvx.getLsbD 2 = true ∧ s.env.hyp.nvx.getLsbD 0 = true))
    ∨ (s.pstate.EL = .el2 ∧ ¬ DebugTrapEL3 s) ∨ s.pstate.EL = .el3

/-- An access to PMSFCR_EL1 passes every test (44_profiling_access R505). -/
def ProfilingAccess (s : State) (fgt : Bool) : Prop :=
  s.cfg.prof.spe = true ∧
  ((s.pstate.EL = .el1 ∧ ¬ FineGrainedTrap s fgt ∧ ¬ (s.env.hyp.el2Enabled = true ∧ s.env.mon.mdcr2TPMS = true)
      ∧ ¬ ProfilingTrapEL3 s)
    ∨ (s.pstate.EL = .el2 ∧ ¬ ProfilingTrapEL3 s) ∨ s.pstate.EL = .el3)

/-- The test for EL3 that the instruction makes holds (43_debug_access R492, R496; 44_profiling_access R505, R508, R510), the
tests of 40_sysreg_access_common R468 and 43_debug_access R490 having passed; BRBCR_EL12 makes it at EL2 in host mode. -/
def El3TestHolds (s : State) : Instr → Prop
  | .mrsDbgwcr m _ | .msrDbgwcr m _ => DebugTrapEL3 s ∧ watchpointOf s m < s.cfg.numWatchpoints
  | .mrsMdscr _ | .msrMdscr _ => DebugTrapEL3 s
  | .mrsPmsfcr _ | .msrPmsfcr _ => ProfilingTrapEL3 s ∧ s.cfg.prof.spe = true
  | .mrsBrbcrEl1 _ | .msrBrbcrEl1 _ => BranchTrapEL3 s ∧ s.cfg.prof.brbe = true
  | .mrsBrbcrEl12 _ | .msrBrbcrEl12 _ =>
    BranchTrapEL3 s ∧ s.cfg.prof.brbe = true ∧ s.pstate.EL = .el2 ∧ s.env.hyp.elIsInHost = true
  | _ => False

/-- The tests for EL2 that the instruction makes at EL1 before the one for EL3 (43_debug_access R492, R496;
44_profiling_access R505, R508). -/
def El2TestHolds (s : State) : Instr → Prop
  | .mrsDbgwcr _ _ => FineGrainedTrap s s.env.fgt.rdDBGWCR ∨ DebugTrapEL2 s
  | .msrDbgwcr _ _ => FineGrainedTrap s s.env.fgt.wrDBGWCR ∨ DebugTrapEL2 s
  | .mrsMdscr _ => FineGrainedTrap s s.env.fgt.rdMDSCR ∨ DebugTrapEL2 s
  | .msrMdscr _ => FineGrainedTrap s s.env.fgt.wrMDSCR ∨ DebugTrapEL2 s
  | .mrsPmsfcr _ => FineGrainedTrap s s.env.fgt.rdPMSFCR ∨ (s.env.hyp.el2Enabled = true ∧ s.env.mon.mdcr2TPMS = true)
  | .msrPmsfcr _ => FineGrainedTrap s s.env.fgt.wrPMSFCR ∨ (s.env.hyp.el2Enabled = true ∧ s.env.mon.mdcr2TPMS = true)
  | .mrsBrbcrEl1 _ => FineGrainedTrap s (!s.env.fgt.rdNBRBCTL)
  | .msrBrbcrEl1 _ => FineGrainedTrap s (!s.env.fgt.wrNBRBCTL)
  | _ => False

/-- The tests for EL3 come before those for EL2 (40_sysreg_access_common R462). -/
def El3TestsFirst (s : State) : Prop := SecureDebugDisabled s ∧ s.cfg.el3TrapPriorityWhenSDD = true

/-- Branch recording is enabled at the current level (16_profiling_regs R389, R390; log 23): at EL0 by E0BRE, or by
BRBCR_EL2.E0HBRE where TGE with EL2 enabled makes it ignored, at EL1 by E1BRE. -/
def RecordingEnabled (s : State) : Prop :=
  (s.pstate.EL = .el0 ∧ ¬ TGERoutes s ∧ s.brbcrEL1.getLsbD 0 = true) ∨
    (s.pstate.EL = .el0 ∧ TGERoutes s ∧ s.env.prof.e0hbre = true) ∨ (s.pstate.EL = .el1 ∧ s.brbcrEL1.getLsbD 1 = true)

/-- The two names of each pair, as instructions (70_reset R590). -/
def pairMrs : RegPair → PairName → Nat → Instr
  | .esr, .el1Name => .mrsEsrEl1
  | .esr, .el12Name => .mrsEsrEl12
  | .spsr, .el1Name => .mrsSpsrEl1
  | .spsr, .el12Name => .mrsSpsrEl12
  | .brbcr, .el1Name => .mrsBrbcrEl1
  | .brbcr, .el12Name => .mrsBrbcrEl12

/-- The writes of the same names. -/
def pairMsr : RegPair → PairName → Nat → Instr
  | .esr, .el1Name => .msrEsrEl1
  | .esr, .el12Name => .msrEsrEl12
  | .spsr, .el1Name => .msrSpsrEl1
  | .spsr, .el12Name => .msrSpsrEl12
  | .brbcr, .el1Name => .msrBrbcrEl1
  | .brbcr, .el12Name => .msrBrbcrEl12

/-- At EL3 in host mode both names of the pair reach its EL1 register (41_esr_access R476, 42_spsr_access R486,
44_profiling_access R512). -/
def PairAtEL3 (s : State) (p : RegPair) : Prop :=
  s.pstate.EL = .el3 ∧ s.env.hyp.elIsInHost = true ∧ (p = .brbcr → s.cfg.prof.brbe = true)

/-- An access to BRBCR_EL1 (or BRBCR_EL12 at EL2) passes the tests of the Branch Record Buffer (44_profiling_access
R508, R510). -/
def BranchAccess (s : State) : Prop := s.cfg.prof.brbe = true ∧ ¬ BranchTrapEL3 s

/-- The RES0 and RES1 positions of a register of a pair that holds `v`. -/
def pairRes0 (c : Config) (p : RegPair) (v : Word) : Word := (pairReading c p v).res0

@[inherit_doc pairRes0]
def pairRes1 (c : Config) (p : RegPair) (v : Word) : Word := (pairReading c p v).res1

/-- The write of a register of a pair. -/
def State.withPair (s : State) (v : Word) : RegPair → State
  | .esr => { s with esrEL1 := v, esrUnknown := false }
  | .spsr => { s with spsrEL1 := v, spsrUnknown := false }
  | .brbcr => { s with brbcrEL1 := v }

/-- The register of a pair holds `v` and is not UNKNOWN. -/
def PairHolds (s : State) : RegPair → Word → Prop
  | .esr, v => s.esrUnknown = false ∧ s.esrEL1 = v
  | .spsr, v => s.spsrUnknown = false ∧ s.spsrEL1 = v
  | .brbcr, v => s.brbcrEL1 = v

/-! ### The places of the syndrome fields (11_esr_el1 R60 to R80; 12_esr_iss_a; 13_esr_iss_b) -/

/-- CV and COND of a trapped instruction (12_esr_iss_a R110, R111). -/
def CondAt (v : Word) (cv : Bool) (cond : BitVec 4) : Prop := v.getLsbD 24 = cv ∧ v.extractLsb' 20 4 = cond

/-- ESR_EL1[24:14] of a Data Abort, which ISV selects (13_esr_iss_b R185; 90_conflicts C9). -/
def DataAbortGroupAt (v : Word) : DataAbortGroup → Prop
  | .isv1 sas sse srt sf ar =>
    v.getLsbD 24 = true ∧ v.extractLsb' 22 2 = sas ∧ v.getLsbD 21 = sse ∧ v.extractLsb' 16 5 = srt ∧ v.getLsbD 15 = sf ∧ v.getLsbD 14 = ar
  | .isv0 wu fnp pfv =>
    v.getLsbD 24 = false ∧ v.extractLsb' 18 6 = 0 ∧ v.extractLsb' 16 2 = wu ∧ v.getLsbD 15 = fnp ∧ v.getLsbD 14 = pfv

/-- The Exception class of each encoding and the places of its ISS fields, RES0 cells among them (11_esr_el1 R80). -/
def FieldsAt (c : Config) (mode : BitVec 4) (el1 a32 : Bool) (v : Word) : ExcInfo → Prop
  | .unknownReason => esrEC v = 0x00 ∧ v.extractLsb' 0 25 = 0                                  -- R100
  | .wfx cv cond rn rv ti =>                                                                   -- R103
    esrEC v = 0x01 ∧ CondAt v cv cond ∧ v.extractLsb' 10 10 = 0 ∧ v.extractLsb' 5 5 = rn ∧ v.extractLsb' 3 2 = 0 ∧
      v.getLsbD 2 = rv ∧ v.extractLsb' 0 2 = ti
  | .mcr coproc15 cv cond opc2 opc1 crn rt crm read =>                                         -- R115
    esrEC v = (if coproc15 then 0x03 else 0x05) ∧ CondAt v cv cond ∧ v.extractLsb' 17 3 = opc2 ∧ v.extractLsb' 14 3 = opc1 ∧
      v.extractLsb' 10 4 = crn ∧ v.extractLsb' 5 5 = rt.value c mode ∧ v.extractLsb' 1 4 = crm ∧ v.getLsbD 0 = read
  | .ls64 k =>                                                                                 -- R128
    esrEC v = 0x0A ∧ v.extractLsb' 0 25 = (match k with | .st64bv => 0 | .st64bv0 => 1 | .ld64bSt64b => 2)
  | .mcrr coproc15 _ cv cond opc1 rt2 rt crm read =>                                           -- R130
    esrEC v = (if coproc15 then 0x04 else 0x0C) ∧ CondAt v cv cond ∧ v.extractLsb' 16 4 = opc1 ∧ v.getLsbD 15 = false ∧
      v.extractLsb' 10 5 = rt2.value c mode ∧ v.extractLsb' 5 5 = rt.value c mode ∧ v.extractLsb' 1 4 = crm ∧ v.getLsbD 0 = read
  | .ldcStc cv cond imm8 rn offset am read =>                                                  -- R138
    esrEC v = 0x06 ∧ CondAt v cv cond ∧ v.extractLsb' 12 8 = imm8 ∧ v.extractLsb' 10 2 = 0 ∧
      v.extractLsb' 5 5 = rn.value c mode ∧ v.getLsbD 4 = offset ∧ v.extractLsb' 1 3 = am ∧ v.getLsbD 0 = read
  | .fpAccess cv cond => esrEC v = 0x07 ∧ CondAt v cv cond ∧ v.extractLsb' 0 20 = 0            -- R147
  | .sveAccess => esrEC v = 0x19 ∧ v.extractLsb' 0 25 = 0                                      -- R149
  | .pmu sync => esrEC v = 0x3D ∧ v.extractLsb' 1 24 = 0 ∧ v.getLsbD 0 = sync                  -- R150
  | .illegalState => esrEC v = 0x0E ∧ v.extractLsb' 0 25 = 0                                   -- R152
  | .pcAlignment => esrEC v = 0x22 ∧ v.extractLsb' 0 25 = 0
  | .spAlignment => esrEC v = 0x26 ∧ v.extractLsb' 0 25 = 0
  | .memoryOperation memInst isSETG options fromEpilogue wrongOption optionA dest src size =>  -- R153
    esrEC v = 0x27 ∧ v.getLsbD 24 = memInst ∧ v.getLsbD 23 = isSETG ∧ v.extractLsb' 19 4 = options ∧ v.getLsbD 18 = fromEpilogue ∧
      v.getLsbD 17 = wrongOption ∧ v.getLsbD 16 = optionA ∧ v.getLsbD 15 = false ∧ v.extractLsb' 10 5 = dest ∧
      v.extractLsb' 5 5 = src ∧ v.extractLsb' 0 5 = size
  | .svc imm16 => esrEC v = (if a32 then 0x11 else 0x15) ∧ v.extractLsb' 16 9 = 0 ∧ v.extractLsb' 0 16 = imm16    -- R158
  | .sysAccess f =>                                                                            -- R161
    esrEC v = 0x18 ∧ v.extractLsb' 22 3 = 0 ∧ v.extractLsb' 20 2 = f.op0 ∧ v.extractLsb' 17 3 = f.op2 ∧ v.extractLsb' 14 3 = f.op1 ∧
      v.extractLsb' 10 4 = f.crn ∧ v.extractLsb' 5 5 = f.rt ∧ v.extractLsb' 1 4 = f.crm ∧ v.getLsbD 0 = f.read
  | .sysAccess128 op0 op2 op1 crn rt crm read =>                                               -- R165
    esrEC v = 0x14 ∧ v.extractLsb' 22 3 = 0 ∧ v.extractLsb' 20 2 = op0 ∧ v.extractLsb' 17 3 = op2 ∧ v.extractLsb' 14 3 = op1 ∧
      v.extractLsb' 10 4 = crn ∧ v.extractLsb' 6 4 = rt ∧ v.getLsbD 5 = false ∧ v.extractLsb' 1 4 = crm ∧ v.getLsbD 0 = read
  | .instrAbort a =>                                                                           -- R170
    esrEC v = (if el1 then 0x21 else 0x20) ∧ v.extractLsb' 15 10 = 0 ∧ v.getLsbD 14 = a.pfv ∧ v.getLsbD 13 = false ∧
      v.extractLsb' 11 2 = a.set ∧ v.getLsbD 10 = a.fnv ∧ v.getLsbD 9 = a.ea ∧ v.getLsbD 8 = false ∧ v.getLsbD 7 = a.s1ptw ∧
      v.getLsbD 6 = false ∧ v.extractLsb' 0 6 = a.ifsc
  | .smeAccess smtc => esrEC v = 0x1D ∧ v.extractLsb' 3 22 = 0 ∧ v.extractLsb' 0 3 = smtc      -- R182
  | .dataAbort a =>                                                                            -- R185
    esrEC v = (if el1 then 0x25 else 0x24) ∧ DataAbortGroupAt v a.group ∧ v.getLsbD 13 = false ∧ v.extractLsb' 11 2 = a.lstSet ∧
      v.getLsbD 10 = a.fnv ∧ v.getLsbD 9 = a.ea ∧ v.getLsbD 8 = a.cm ∧ v.getLsbD 7 = a.s1ptw ∧ v.getLsbD 6 = a.wnr ∧
      v.extractLsb' 0 6 = a.dfsc
  | .fpTrap tfv vecitr idf ixf uff off dzf iof =>                                              -- R205
    esrEC v = (if a32 then 0x28 else 0x2C) ∧ v.getLsbD 24 = false ∧ v.getLsbD 23 = tfv ∧ v.extractLsb' 11 12 = 0 ∧
      v.extractLsb' 8 3 = vecitr ∧ v.getLsbD 7 = idf ∧ v.extractLsb' 5 2 = 0 ∧ v.getLsbD 4 = ixf ∧ v.getLsbD 3 = uff ∧
      v.getLsbD 2 = off ∧ v.getLsbD 1 = dzf ∧ v.getLsbD 0 = iof
  | .gcs g =>                                                                                  -- R212
    esrEC v = 0x2D ∧ v.getLsbD 24 = false ∧ v.extractLsb' 15 5 = 0 ∧ (match g with
      | .dataCheck rn it =>
        v.extractLsb' 20 4 = 0b0000 ∧ v.extractLsb' 10 5 = 0 ∧ v.extractLsb' 5 5 = rn ∧ v.extractLsb' 0 5 = it
      | .exlock => v.extractLsb' 20 4 = 0b0001 ∧ v.extractLsb' 0 15 = 0
      | .strTrap raddr rvalue =>
        v.extractLsb' 20 4 = 0b0010 ∧ v.extractLsb' 10 5 = raddr ∧ v.extractLsb' 5 5 = rvalue ∧ v.extractLsb' 0 5 = 0)
  | .serror e =>                                                                               -- R220
    esrEC v = 0x2F ∧ (match e with
      | .implDefined payload => v.getLsbD 24 = true ∧ v.extractLsb' 0 24 = payload
      | .fields els wu vfv pfv iesb aet ea wnrv wnr dfsc =>
        v.getLsbD 24 = false ∧ v.extractLsb' 19 5 = 0 ∧ v.getLsbD 18 = els ∧ v.extractLsb' 16 2 = wu ∧ v.getLsbD 15 = vfv ∧
          v.getLsbD 14 = pfv ∧ v.getLsbD 13 = iesb ∧ v.extractLsb' 10 3 = aet ∧ v.getLsbD 9 = ea ∧ v.getLsbD 8 = false ∧
          v.getLsbD 7 = wnrv ∧ v.getLsbD 6 = wnr ∧ v.extractLsb' 0 6 = dfsc)
  | .breakpoint => esrEC v = (if el1 then 0x31 else 0x30) ∧ v.extractLsb' 0 25 = 0b100010      -- R233
  | .softwareStep isv ex =>                                                                    -- R235
    esrEC v = (if el1 then 0x33 else 0x32) ∧ v.getLsbD 24 = isv ∧ v.extractLsb' 7 17 = 0 ∧ v.getLsbD 6 = ex ∧
      v.extractLsb' 0 6 = 0b100010
  | .watchpoint w =>                                                                           -- R238
    esrEC v = (if el1 then 0x35 else 0x34) ∧ v.getLsbD 24 = false ∧ v.extractLsb' 18 6 = w.wpt ∧ v.getLsbD 17 = w.wptv ∧
      v.getLsbD 16 = w.wpf ∧ v.getLsbD 15 = w.fnp ∧ v.extractLsb' 11 4 = 0 ∧ v.getLsbD 10 = w.fnv ∧ v.getLsbD 9 = false ∧
      v.getLsbD 8 = w.cm ∧ v.getLsbD 7 = false ∧ v.getLsbD 6 = w.wnr ∧ v.extractLsb' 0 6 = 0b100010
  | .breakpointInstr comment =>                                                                -- R245
    esrEC v = (if a32 then 0x38 else 0x3C) ∧ v.extractLsb' 16 9 = 0 ∧ v.extractLsb' 0 16 = comment
  | .tstart rd => esrEC v = 0x1B ∧ v.extractLsb' 10 15 = 0 ∧ v.extractLsb' 5 5 = rd ∧ v.extractLsb' 0 5 = 0      -- R247
  | .branchTarget btype => esrEC v = 0x0D ∧ v.extractLsb' 2 23 = 0 ∧ v.extractLsb' 0 2 = btype                     -- R250
  | .pacFail dataKey bKey =>                                                                   -- R253
    esrEC v = 0x1C ∧ v.extractLsb' 2 23 = 0 ∧ v.getLsbD 1 = dataKey ∧ v.getLsbD 0 = bKey

/-- The places of the ISS2 fields, and ISS2 0 in every encoding that has none (11_esr_el1 R65, R66, R74, R77, R79). -/
def Iss2FieldsAt (v : Word) : ExcInfo → Prop
  | .dataAbort a =>
    v.extractLsb' 43 13 = 0 ∧ v.getLsbD 42 = a.tnd ∧ v.getLsbD 41 = a.tagAccess ∧ v.getLsbD 40 = a.gcs ∧ v.getLsbD 39 = a.assuredOnly ∧
      v.getLsbD 38 = a.overlay ∧ v.getLsbD 37 = a.dirtyBit ∧ v.extractLsb' 32 5 = a.xs
  | .instrAbort a => v.extractLsb' 40 16 = 0 ∧ v.getLsbD 39 = a.assuredOnly ∧ v.getLsbD 38 = a.overlay ∧ v.extractLsb' 32 6 = 0
  | .watchpoint w => v.extractLsb' 41 15 = 0 ∧ v.getLsbD 40 = w.gcs ∧ v.extractLsb' 32 8 = 0
  | _ => v.extractLsb' 32 24 = 0

/-! ### NVMem (20_memory R404, R405) -/

/-- At EL1 the instruction is redirected to the NVMem cell at an offset (20_memory R405), every earlier test having
failed. -/
def Redirected (s : State) (i : Instr) (off : Word) : Prop :=
  s.pstate.EL = .el1 ∧
  match i with
  | .mrsEsrEl1 _ => off = 0x138 ∧ s.env.hyp.nvx = 0b111#3 ∧ ¬ (s.env.hyp.el2Enabled = true ∧ s.env.hyp.trvm = true)
      ∧ ¬ FineGrainedTrap s s.env.fgt.rdESR
  | .msrEsrEl1 _ => off = 0x138 ∧ s.env.hyp.nvx = 0b111#3 ∧ ¬ (s.env.hyp.el2Enabled = true ∧ s.env.hyp.tvm = true)
      ∧ ¬ FineGrainedTrap s s.env.fgt.wrESR
  | .mrsEsrEl12 _ => off = 0x138 ∧ s.env.hyp.nvx = 0b101#3
  | .msrEsrEl12 _ => off = 0x138 ∧ s.env.hyp.nvx = 0b101#3
  | .mrsSpsrEl1 _ => off = 0x160 ∧ s.env.hyp.nvx = 0b111#3
  | .msrSpsrEl1 _ => off = 0x160 ∧ s.env.hyp.nvx = 0b111#3
  | .mrsSpsrEl12 _ => off = 0x160 ∧ s.env.hyp.nvx = 0b101#3
  | .msrSpsrEl12 _ => off = 0x160 ∧ s.env.hyp.nvx = 0b101#3
  | .mrsMdscr _ => off = 0x158 ∧ s.env.hyp.el2Enabled = true ∧ s.env.hyp.nvx.getLsbD 2 = true
      ∧ s.env.hyp.nvx.getLsbD 0 = true ∧ ¬ FineGrainedTrap s s.env.fgt.rdMDSCR ∧ ¬ DebugTrapEL2 s ∧ ¬ DebugTrapEL3 s
  | .msrMdscr _ => off = 0x158 ∧ s.env.hyp.el2Enabled = true ∧ s.env.hyp.nvx.getLsbD 2 = true
      ∧ s.env.hyp.nvx.getLsbD 0 = true ∧ ¬ FineGrainedTrap s s.env.fgt.wrMDSCR ∧ ¬ DebugTrapEL2 s ∧ ¬ DebugTrapEL3 s
  | .mrsBrbcrEl1 _ => off = 0x8E0 ∧ s.env.hyp.nvx = 0b111#3 ∧ s.cfg.prof.brbe = true
      ∧ ¬ FineGrainedTrap s (!s.env.fgt.rdNBRBCTL) ∧ ¬ BranchTrapEL3 s
  | .msrBrbcrEl1 _ => off = 0x8E0 ∧ s.env.hyp.nvx = 0b111#3 ∧ s.cfg.prof.brbe = true
      ∧ ¬ FineGrainedTrap s (!s.env.fgt.wrNBRBCTL) ∧ ¬ BranchTrapEL3 s
  | .mrsBrbcrEl12 _ => off = 0x8E0 ∧ s.env.hyp.nvx = 0b101#3 ∧ s.cfg.prof.brbe = true
  | .msrBrbcrEl12 _ => off = 0x8E0 ∧ s.env.hyp.nvx = 0b101#3 ∧ s.cfg.prof.brbe = true
  | .mrsEsrEl2 _ | .msrEsrEl2 _ | .mrsSpsrEl2 _ | .msrSpsrEl2 _ | .mrsDbgwcr _ _ | .msrDbgwcr _ _
  | .mrsPmsfcr _ | .msrPmsfcr _ => False

/-- The address `a` is one of the eight bytes of the NVMem cell at an offset (20_memory R402, R404). -/
def State.inNVMemCell (s : State) (off : Word) (a : Nat) : Prop :=
  ∃ k < 8, a = (s.cfg.nvMemBase + off + BitVec.ofNat 64 k).toNat

/-- NVMemFaults(addr, iswrite) for the cell at an offset (20_memory R406). -/
def CellFaults (s : State) (off : Word) (isWrite : Bool) : Prop :=
  (s.cfg.nvMemBase + off, isWrite) ∈ s.env.step.nvMemFaults

/-! ### The debug registers as the debugger reads them (15_debug_regs R301 to R315, R321 to R326) -/

/-- FEAT_VMID16 and a 16-bit VMID in use (15_debug_regs R315). -/
def Vmid16InUse (s : State) : Prop :=
  s.cfg.dbg.vmid16 = true ∧ s.cfg.vmidBits = 16 ∧ s.env.dbg.vtcrVS = true ∧ s.env.hyp.el2AArch32 = false

/-- The condition on the views 0b011x, 0b110x and 0b111x (R301). -/
def ContextID2 (c : Config) : Prop := c.haveEL2 = true ∧ (c.dbg.vhe = true ∨ c.dbg.debugv8p2 = true)

/-- `r` is what DBGBVR<n>_EL1 reads as in the view that BT selects, bits [3:1] of BT (R301 to R313): the address with bits
[1:0] RES0 (R303), in an AArch32 regime everything above bit 31 RES0 too (R306, 90 C14; log 28) and, with RESSHardwired, its top copied upward (R305); a Context ID (R307, R308); CONTEXTIDR_EL1 (R309); a VMID
(R310); a VMID and a Context ID (R311); CONTEXTIDR_EL2 (R312); both (R313). -/
def BvrReads (s : State) (n : Nat) (r : Word) : Prop :=
  match (s.bt n).extractLsb' 1 3 with
  | 0b000#3 | 0b010#3 =>
    ReadsAs r (if s.cfg.ressHardwired = false then s.bvr n
      else if s.cfg.dbg.lva = true then ((s.bvr n).extractLsb' 0 53).signExtend 64
      else ((s.bvr n).extractLsb' 0 49).signExtend 64) (if s.pstate.nRW = true then 0xFFFFFFFF00000003 else 0x3) 0
  | 0b001#3 => ReadsAs r (s.bvr n) 0xFFFFFFFF00000000 0
  | 0b011#3 => ContextID2 s.cfg → ReadsAs r (s.bvr n) 0xFFFFFFFF00000000 0
  | 0b100#3 => s.cfg.haveEL2 = true →
    (Vmid16InUse s → ReadsAs r (s.bvr n) 0xFFFF0000FFFFFFFF 0) ∧ (¬ Vmid16InUse s → ReadsAs r (s.bvr n) 0xFFFFFF00FFFFFFFF 0)
  | 0b101#3 => s.cfg.haveEL2 = true →
    (Vmid16InUse s → ReadsAs r (s.bvr n) 0xFFFF000000000000 0) ∧ (¬ Vmid16InUse s → ReadsAs r (s.bvr n) 0xFFFFFF0000000000 0)
  | 0b110#3 => ContextID2 s.cfg → ReadsAs r (s.bvr n) 0x00000000FFFFFFFF 0
  | _ => ContextID2 s.cfg → r = s.bvr n

/-- `v` is what DBGWCR<k>_EL1 reads as: every bit held, but a reserved bit that holds 1 and, while WT is 0, LBN and LBNX (R321 to
R326). -/
def WcrReads (s : State) (k : Nat) (v : Word) : Prop :=
  ∀ b, ((s.wcr k).getLsbD 20 = true ∨ (wcrLinkMask s.cfg).getLsbD b = false) →
    ((wcrRes0 s.cfg).getLsbD b = false ∨ (s.wcr k).getLsbD b = false) → v.getLsbD b = (s.wcr k).getLsbD b

/-- The case of control bit `k` of PMSFCR_EL1 is CONSTRAINED UNPREDICTABLE: FE is bit 0, FT 1, FL 2 and FnE 3 (16_profiling_regs R371 to
R374; 93 P6). -/
def SamplingUnpredictable (s : State) (k : Nat) : Prop :=
  let v := s.pmsfcr &&& ~~~pmsfcrRes0 s.cfg
  v.getLsbD k = true ∧
  match k with
  | 0 => s.env.prof.pmsevfr = 0
  | 1 => v.extractLsb' 16 5 = 0
  | 2 => s.env.prof.minlat = 0
  | 3 => s.env.prof.pmsnevfr = 0
  | _ => False

/-- The general register of an instruction. -/
def registerOf (i : Instr) : Nat := i.fields.rt.toNat

/-- The environment's next input is `i`, and nothing comes before it: the step takes it, and the state it takes it in is
`after`, the settled state without the input. -/
def State.offers (s : State) (i : Input) (after : State) : Prop :=
  s.pendingEntry = none ∧ NothingDue s ∧ ∃ rest, s.inputs = i :: rest ∧ after = { s.settle with inputs := rest }

end Sys2Proof.Machine
end

