-- ==== Sys2Proof/Certificates/Slice0/Obligations.lean ====
section
/-! DEFINITION. The statements for the provers, from the numbered rules of the spec. A condition on a state is written with
the predicates of Sys2Proof/Safety.lean, which word the tests of the spec; (log n) is notes/assumptions/n.md. Wherever
EntryEL1 stands, PSTATE after the entry is the list of R542 (d), which the spec marks as general knowledge (log 13); wherever
SynchronousTaken or IllegalStateTaken stands, the level is the Env input of R453 as log 10 bounds it (log 12); wherever HigherTaken stands, the exception is
final for the step and the level is entered by the next (log 11); wherever RoutedTaken stands, an exception routed to EL2 is
entered so, without a syndrome, since no rule gives one (logs 11, 37). -/

open Sys2Proof Sys2Proof.Machine

/-! ### Encoding (30_encoding) -/

/-- R427, R431: decoding the word of a well-formed instruction gives the instruction. The places of the fields are what the spec marks as
general knowledge (log 31). -/
def Obligations.DecodeOfEncode : Prop :=
  ∀ i : Instr, i.wellFormed = true → decode (encode i) = .ok i

/-- R427, R431: a word that decodes to an instruction is that instruction's word, and the instruction is well-formed (log 31). -/
def Obligations.EncodeOfDecode : Prop :=
  ∀ (w : Word32) (i : Instr), decode w = .ok i → i.wellFormed = true ∧ encode i = w

/-- R440: the worked encodings, and for one of them its fields, the ISS and the syndrome of a trap. That the words are laid out so
is R427, which the spec marks as general knowledge (log 31). -/
def Obligations.DecodesListedWords : Prop :=
  decode 0xD5385203 = .ok (.mrsEsrEl1 3) ∧ decode 0xD5184001 = .ok (.msrSpsrEl1 1) ∧
  decode 0xD51005E2 = .ok (.msrDbgwcr 5 2) ∧ decode 0xD5300249 = .ok (.mrsMdscr 9) ∧
  decode 0xD518521F = .ok (.msrEsrEl1 31) ∧ decode 0xD5359000 = .ok (.mrsBrbcrEl12 0) ∧
  fieldsOfWord 0xD5385203 = { read := true, op0 := 0b11, op1 := 0b000, crn := 0b0101, crm := 0b0010, op2 := 0b000, rt := 3 } ∧
  sysAccessISS (Instr.mrsEsrEl1 3).fields = 0x301465 ∧ trapSyndrome (Instr.mrsEsrEl1 3).fields = 0x62301465

/-! ### The step (20_memory R418, 30_encoding R436, 40_sysreg_access_common R450) -/

/-- R436: a word that is no MRS or MSR of one of the names ends in OutOfScope; that a run stops there is 93 V11, which log 18 reads as a
fault. -/
def Obligations.OutOfScopeStops : Prop :=
  ∀ (s : State) (w : Word32), s.ready → s.program[(s.pc - s.progStart).toNat / 4]? = some w →
    (∀ i : Instr, i.wellFormed = true → encode i ≠ w) → ∃ why, step s = .fault (.outOfScope why w)

/-- R418, R450: with nothing pending, the step runs the instruction the word at pc decodes to, in the settled state without the
input that said so (log 29): at EL3 the state itself, elsewhere the state without the pending records of the name pairs (R590).
While software step is active an instruction that completes also clears PSTATE.SS (R557, general knowledge of the spec; log 28). -/
def Obligations.StepRunsDecoded : Prop :=
  ∀ (s : State) (w : Word32) (i : Instr), s.ready → s.program[(s.pc - s.progStart).toNat / 4]? = some w →
    decode w = .ok i →
    (s.pstate.EL = .el3 → s.settle = s) ∧
    (s.pstate.EL ≠ .el3 → s.settle = { s with esrPair := none, spsrPair := none, brbcrPair := none }) ∧
    ∃ t, exec i { s.settle with inputs := s.inputs.tail } = .next t ∧
      (¬ StepActive s → step s = .next t) ∧
      (StepActive s → step s = .next (if t.pc = s.pc + 4 then { t with pstate := { t.pstate with SS := false } } else t))

/-- R280, R522: with PSTATE.IL 1 the step takes the Illegal Execution state exception, EC 0x0E, whatever the program holds, and so
does an instruction outside this spec that would raise another exception. HCR_EL2.TGE routes it from EL1 to EL2 (R552); the level it
otherwise goes to is the model's choice (log 12). -/
def Obligations.IllegalStateException : Prop :=
  (∀ s : State, s.instructionNext → s.pstate.IL = true →
    ∃ t, step s = .next t ∧ IllegalStateTaken { s.settle with inputs := s.inputs.tail } t) ∧
  ∀ (s u : State) (x : ExcCause), s.offers (.exception x) u → s.pstate.IL = true → x.info.beforeInstruction = false →
    ∃ t, step s = .next t ∧ IllegalStateTaken u t

/-- R26: number 31 reads 0 and discards a write, which the spec marks as general knowledge (log 30); another number holds what was
written, and no other changes. -/
def Obligations.ZeroRegister : Prop :=
  ∀ (s : State) (v : Word), s.readX 31 = 0 ∧ s.writeX 31 v = s ∧
    ∀ t < 31, (s.writeX t v).readX t = v ∧ ∀ k, k ≠ t → (s.writeX t v).readX k = s.readX k

/-! ### MRS and MSR of ESR and SPSR (41_esr_access, 42_spsr_access) -/

/-- R470: MRS ESR_EL1 completes at EL1 past the TRVM and fine-grained traps and the redirection, and at EL2 not in host
mode, with the value of ESR_EL1 unless that is UNKNOWN. The reserved positions are those of the encodings its class selects (R64). -/
def Obligations.EsrEl1Read : Prop :=
  ∀ (s : State) (n : Nat),
    ((s.pstate.EL = .el1 ∧ ¬ (s.env.hyp.el2Enabled = true ∧ s.env.hyp.trvm = true)
        ∧ ¬ FineGrainedTrap s s.env.fgt.rdESR ∧ s.env.hyp.nvx ≠ 0b111#3)
      ∨ (s.pstate.EL = .el2 ∧ s.env.hyp.elIsInHost = false)) →
    MrsReads s (.mrsEsrEl1 n) n (s.esrUnknown = false) s.esrEL1 (esrRes0 s.cfg s.esrEL1) (esrRes1 s.cfg s.esrEL1)

/-- R471: MSR ESR_EL1 completes at EL1 past the TVM and fine-grained traps and the redirection, and at EL2 not in host mode: it
stores all 64 bits and changes nothing else. -/
def Obligations.EsrEl1Write : Prop :=
  ∀ (s : State) (n : Nat),
    ((s.pstate.EL = .el1 ∧ ¬ (s.env.hyp.el2Enabled = true ∧ s.env.hyp.tvm = true)
        ∧ ¬ FineGrainedTrap s s.env.fgt.wrESR ∧ s.env.hyp.nvx ≠ 0b111#3)
      ∨ (s.pstate.EL = .el2 ∧ s.env.hyp.elIsInHost = false)) →
    exec (.msrEsrEl1 n) s = .next { s with esrEL1 := s.readX n, esrUnknown := false, pc := s.pc + 4 }

/-- R480: MRS SPSR_EL1 completes at EL1 unless NVx is 011 or 111, and at EL2 not in host mode, with the value of SPSR_EL1
unless that is UNKNOWN. The reserved positions are those of the view bit 4 selects. -/
def Obligations.SpsrEl1Read : Prop :=
  ∀ (s : State) (n : Nat),
    ((s.pstate.EL = .el1 ∧ s.env.hyp.nvx ≠ 0b011#3 ∧ s.env.hyp.nvx ≠ 0b111#3)
      ∨ (s.pstate.EL = .el2 ∧ s.env.hyp.elIsInHost = false)) →
    MrsReads s (.mrsSpsrEl1 n) n (s.spsrUnknown = false) s.spsrEL1
      (if s.spsrEL1.getLsbD 4 then spsrRes0AArch32 s.cfg else spsrRes0AArch64 s.cfg)
      (if s.spsrEL1.getLsbD 4 then spsrRes1AArch32 s.cfg else 0)

/-- R481: MSR SPSR_EL1 completes at EL1 unless the lock is held or NVx is 011 or 111, and at EL2 not in host mode, where there
is no lock test: it stores all 64 bits and changes nothing else. -/
def Obligations.SpsrEl1Write : Prop :=
  ∀ (s : State) (n : Nat),
    ((s.pstate.EL = .el1 ∧ ¬ LockHeld s ∧ s.env.hyp.nvx ≠ 0b011#3 ∧ s.env.hyp.nvx ≠ 0b111#3)
      ∨ (s.pstate.EL = .el2 ∧ s.env.hyp.elIsInHost = false)) →
    exec (.msrSpsrEl1 n) s = .next { s with spsrEL1 := s.readX n, spsrUnknown := false, pc := s.pc + 4 }

/-- R474, R484: MRS of the _EL2 names. At EL1 with NV2 and NV they read the EL1 register (SPSR_EL2 with FEAT_VHE, 90 C19;
log 15); at EL2 and EL3 they read the opaque cell exactly. -/
def Obligations.El2NamesRead : Prop :=
  ∀ (s : State) (n : Nat),
    (s.pstate.EL = .el1 → s.env.hyp.nvx.getLsbD 2 = true → s.env.hyp.nvx.getLsbD 0 = true →
      MrsReads s (.mrsEsrEl2 n) n (PairHolds s .esr s.esrEL1) s.esrEL1 (pairRes0 s.cfg .esr s.esrEL1)
        (pairRes1 s.cfg .esr s.esrEL1) ∧
      (s.cfg.dbg.vhe = true →
        MrsReads s (.mrsSpsrEl2 n) n (PairHolds s .spsr s.spsrEL1) s.spsrEL1 (pairRes0 s.cfg .spsr s.spsrEL1)
          (pairRes1 s.cfg .spsr s.spsrEL1))) ∧
    (s.pstate.EL = .el2 ∨ s.pstate.EL = .el3 →
      MrsGives s (.mrsEsrEl2 n) n s.esrEL2 ∧ MrsGives s (.mrsSpsrEl2 n) n s.spsrEL2)

/-- R475, R485: MSR of the _EL2 names: the EL1 register at EL1 with NV2 and NV (SPSR_EL2 with FEAT_VHE, 90 C19; log 15), and the
opaque cell at EL2 and EL3, with and without FEAT_VHE (90 C19; log 15); for SPSR_EL2 the lock must not be held at EL1 and EL2. -/
def Obligations.El2NamesWrite : Prop :=
  ∀ (s : State) (n : Nat),
    (s.pstate.EL = .el1 → s.env.hyp.nvx.getLsbD 2 = true → s.env.hyp.nvx.getLsbD 0 = true →
      exec (.msrEsrEl2 n) s = .next { s with esrEL1 := s.readX n, esrUnknown := false, pc := s.pc + 4 } ∧
      (s.cfg.dbg.vhe = true → ¬ LockHeld s →
        exec (.msrSpsrEl2 n) s = .next { s with spsrEL1 := s.readX n, spsrUnknown := false, pc := s.pc + 4 })) ∧
    (s.pstate.EL = .el2 ∨ s.pstate.EL = .el3 →
      exec (.msrEsrEl2 n) s = .next { s with esrEL2 := s.readX n, pc := s.pc + 4 }) ∧
    ((s.pstate.EL = .el2 ∧ ¬ LockHeld s) ∨ s.pstate.EL = .el3 →
      exec (.msrSpsrEl2 n) s = .next { s with spsrEL2 := s.readX n, pc := s.pc + 4 })

/-- R472, R482, R510: at EL2 in host mode MRS of an _EL12 name reads the EL1 register of the pair. -/
def Obligations.El12NamesRead : Prop :=
  ∀ (s : State) (p : RegPair) (n : Nat) (h : Word),
    s.pstate.EL = .el2 → s.env.hyp.elIsInHost = true → (p = .brbcr → BranchAccess s) →
    MrsReads s (pairMrs p .el12Name n) n (PairHolds s p h) h (pairRes0 s.cfg p h) (pairRes1 s.cfg p h)

/-- R473, R483, R511: at EL2 in host mode MSR of an _EL12 name writes the EL1 register of the pair; there is no lock test. -/
def Obligations.El12NamesWrite : Prop :=
  ∀ (s : State) (p : RegPair) (n : Nat),
    s.pstate.EL = .el2 → s.env.hyp.elIsInHost = true → (p = .brbcr → BranchAccess s) →
    exec (pairMsr p .el12Name n) s = .next { s.withPair (s.readX n) p with pc := s.pc + 4 }

/-- R460: at EL2 in host mode the EL1 names reach the opaque EL2 cells: MRS reads the cell exactly, and MSR writes it and leaves
the EL1 register as it was. -/
def Obligations.HostModeNames : Prop :=
  ∀ (s : State) (n : Nat), s.pstate.EL = .el2 → s.env.hyp.elIsInHost = true →
    MrsGives s (.mrsEsrEl1 n) n s.esrEL2 ∧ MrsGives s (.mrsSpsrEl1 n) n s.spsrEL2 ∧
    (BranchAccess s → MrsGives s (.mrsBrbcrEl1 n) n s.brbcrEL2) ∧
    exec (.msrEsrEl1 n) s = .next { s with esrEL2 := s.readX n, pc := s.pc + 4 } ∧
    (¬ LockHeld s → exec (.msrSpsrEl1 n) s = .next { s with spsrEL2 := s.readX n, pc := s.pc + 4 }) ∧
    (BranchAccess s → exec (.msrBrbcrEl1 n) s = .next { s with brbcrEL2 := s.readX n, pc := s.pc + 4 })

/-! ### MRS and MSR of the debug registers (43_debug_access) -/

/-- R490, R492: MRS DBGWCR<m>_EL1 that passes every test reads the watchpoint the banked index reaches, in every bit but a
reserved one that holds 1 and, while WT is 0, LBN and LBNX (R322, R326). -/
def Obligations.WatchpointControlRead : Prop :=
  ∀ (s : State) (m n : Nat), WatchpointAccess s m s.env.fgt.rdDBGWCR →
    ∃ v t, exec (.mrsDbgwcr m n) s = .next t ∧ MrsDone s t n v ∧
      WcrReads s (watchpointOf s m) v

/-- R490, R493: MSR DBGWCR<m>_EL1 that passes every test writes that watchpoint and no other. -/
def Obligations.WatchpointControlWrite : Prop :=
  ∀ (s : State) (m n : Nat), s.cfg.numWatchpoints ≤ 64 → WatchpointAccess s m s.env.fgt.wrDBGWCR →
    ∃ t, exec (.msrDbgwcr m n) s = .next t ∧ t = { s with dbgwcr := t.dbgwcr, pc := s.pc + 4 } ∧
      ∀ k, t.wcr k = if k = watchpointOf s m then s.readX n else s.wcr k

/-- R496, R355, R340: MRS MDSCR_EL1 that passes every test reads MDE, KDE, TDCC and SS as stored, bits [18:16] as 0, and with
the OS Lock set the windows as EDSCR holds them. -/
def Obligations.MdscrRead : Prop :=
  ∀ (s : State) (n : Nat), MdscrAccess s s.env.fgt.rdMDSCR →
    ∃ v t, exec (.mrsMdscr n) s = .next t ∧ MrsDone s t n v ∧
      v.getLsbD 15 = s.mdscr.getLsbD 15 ∧ v.getLsbD 13 = s.mdscr.getLsbD 13 ∧
      v.getLsbD 12 = s.mdscr.getLsbD 12 ∧ v.getLsbD 0 = s.mdscr.getLsbD 0 ∧
      v.extractLsb' 16 3 = 0 ∧
      (s.env.dbg.oslk = true →
        v.getLsbD 30 = s.env.edscr.RXfull ∧ v.getLsbD 29 = s.env.edscr.TXfull ∧ v.getLsbD 27 = s.env.edscr.RXO ∧
        v.getLsbD 26 = s.env.edscr.TXU ∧ v.extractLsb' 22 2 = s.env.edscr.INTdis ∧
        v.getLsbD 21 = s.env.edscr.TDA ∧ v.getLsbD 14 = s.env.edscr.HDE ∧ v.getLsbD 6 = s.env.edscr.ERR ∧
        (s.cfg.dbg.trf = true → v.getLsbD 31 = s.env.edscr.TFO) ∧
        (s.cfg.dbg.pcsrv8p2 = true → v.getLsbD 19 = s.env.edscr.SC2))

/-- R497, R355: MSR MDSCR_EL1 that passes every test stores MDE, KDE, TDCC and SS, drops bits [18:16], and writes the windows
into EDSCR only with the OS Lock set. -/
def Obligations.MdscrWrite : Prop :=
  ∀ (s : State) (n : Nat), MdscrAccess s s.env.fgt.wrMDSCR →
    ∃ t, exec (.msrMdscr n) s = .next t ∧
      t = { s with mdscr := t.mdscr, env := { s.env with edscr := t.env.edscr }, pc := s.pc + 4 } ∧
      t.mdscr.getLsbD 15 = (s.readX n).getLsbD 15 ∧ t.mdscr.getLsbD 13 = (s.readX n).getLsbD 13 ∧
      t.mdscr.getLsbD 12 = (s.readX n).getLsbD 12 ∧ t.mdscr.getLsbD 0 = (s.readX n).getLsbD 0 ∧
      t.mdscr.extractLsb' 16 3 = 0 ∧
      (s.env.dbg.oslk = false → t.env.edscr = s.env.edscr) ∧
      (s.env.dbg.oslk = true →
        t.env.edscr = { s.env.edscr with
          TFO := if s.cfg.dbg.trf then (s.readX n).getLsbD 31 else s.env.edscr.TFO
          RXfull := (s.readX n).getLsbD 30, TXfull := (s.readX n).getLsbD 29
          RXO := (s.readX n).getLsbD 27, TXU := (s.readX n).getLsbD 26
          INTdis := (s.readX n).extractLsb' 22 2, TDA := (s.readX n).getLsbD 21
          SC2 := if s.cfg.dbg.pcsrv8p2 then (s.readX n).getLsbD 19 else s.env.edscr.SC2
          HDE := (s.readX n).getLsbD 14, ERR := (s.readX n).getLsbD 6 })

/-! ### MRS and MSR of the profiling registers (44_profiling_access) -/

/-- R505, R508: MRS PMSFCR_EL1 that passes every test, and MRS BRBCR_EL1 past the fine-grained and EL3 tests at EL1 unless
NVx is 111, and at EL2 not in host mode, complete with the value of the register. -/
def Obligations.ProfilingRead : Prop :=
  ∀ (s : State) (n : Nat),
    (ProfilingAccess s s.env.fgt.rdPMSFCR →
      MrsReads s (.mrsPmsfcr n) n True s.pmsfcr (pmsfcrRes0 s.cfg) 0) ∧
    (BranchAccess s →
      (s.pstate.EL = .el1 ∧ ¬ FineGrainedTrap s (!s.env.fgt.rdNBRBCTL) ∧ s.env.hyp.nvx ≠ 0b111#3)
        ∨ (s.pstate.EL = .el2 ∧ s.env.hyp.elIsInHost = false) →
      MrsReads s (.mrsBrbcrEl1 n) n True s.brbcrEL1 (brbcrRes0 s.cfg) 0)

/-- R506, R509: MSR PMSFCR_EL1 that passes every test, and MSR BRBCR_EL1 past the fine-grained and EL3 tests at EL1 unless NVx
is 111, and at EL2 not in host mode, store all 64 bits and change nothing else. -/
def Obligations.ProfilingWrite : Prop :=
  ∀ (s : State) (n : Nat),
    (ProfilingAccess s s.env.fgt.wrPMSFCR →
      exec (.msrPmsfcr n) s = .next { s with pmsfcr := s.readX n, pc := s.pc + 4 }) ∧
    (BranchAccess s →
      (s.pstate.EL = .el1 ∧ ¬ FineGrainedTrap s (!s.env.fgt.wrNBRBCTL) ∧ s.env.hyp.nvx ≠ 0b111#3)
        ∨ (s.pstate.EL = .el2 ∧ s.env.hyp.elIsInHost = false) →
      exec (.msrBrbcrEl1 n) s = .next { s with brbcrEL1 := s.readX n, pc := s.pc + 4 })

/-! ### The name pairs at EL3 (70_reset R590) -/

/-- R476, R486, R512, R590: at EL3 an MRS through a name of a pair reads the EL1 register when the other name has left no
pending record; the _EL12 name needs host mode. -/
def Obligations.PairRead : Prop :=
  ∀ (s : State) (p : RegPair) (nm : PairName) (n : Nat) (h : Word),
    s.pstate.EL = .el3 → (p = .brbcr → s.cfg.prof.brbe = true) → (nm = .el12Name → s.env.hyp.elIsInHost = true) →
    (∀ r, s.pairRecord p = some r → r.name = nm) →
    MrsReads s (pairMrs p nm n) n (PairHolds s p h) h (pairRes0 s.cfg p h) (pairRes1 s.cfg p h)

/-- R590: an MRS at EL3 through the other name while the record is pending reads the old value or the current one. -/
def Obligations.PairHazardRead : Prop :=
  ∀ (s : State) (p : RegPair) (nm : PairName) (n : Nat) (r : PairRecord) (h : Word),
    PairAtEL3 s p → s.pairRecord p = some r → r.name ≠ nm →
    ∃ v t, exec (pairMrs p nm n) s = .next t ∧ MrsDone s t n v ∧
      (PairHolds s p h →
        ReadsAs v h (pairRes0 s.cfg p h) (pairRes1 s.cfg p h) ∨
        ReadsAs v r.old (pairRes0 s.cfg p r.old) (pairRes1 s.cfg p r.old))

/-- R590: at EL3 an MSR through a name of a pair, when the other name has left no pending record, writes the register; in host
mode it also records the name, the value before this write, whether or not this name has left a record, and the value written
(log 16); outside host mode no record appears, and one that this name has left keeps its old value and takes the value now
written (log 16). -/
def Obligations.PairWrite : Prop :=
  ∀ (s : State) (p : RegPair) (nm : PairName) (n : Nat),
    s.pstate.EL = .el3 → (p = .brbcr → s.cfg.prof.brbe = true) →
    (∀ r, s.pairRecord p = some r → r.name = nm) →
    (s.env.hyp.elIsInHost = true →
      ∃ r d, exec (pairMsr p nm n) s =
          .next { (s.withPair (s.readX n) p).setPairRecord (some r) p with pc := s.pc + 4, draws := d } ∧
        r.name = nm ∧ r.written = s.readX n ∧
        ∀ h, PairHolds s p h → ReadsAs r.old h (pairRes0 s.cfg p h) (pairRes1 s.cfg p h)) ∧
    (s.env.hyp.elIsInHost = false → nm = .el1Name → s.pairRecord p = none →
      exec (pairMsr p nm n) s = .next { s.withPair (s.readX n) p with pc := s.pc + 4 }) ∧
    (s.env.hyp.elIsInHost = false → nm = .el1Name → ∀ r, s.pairRecord p = some r →
      exec (pairMsr p nm n) s = .next { (s.withPair (s.readX n) p).setPairRecord (some { r with written := s.readX n }) p with
        pc := s.pc + 4 })

/-- R590: an MSR at EL3 through the other name while the record is pending leaves one of the two values written, and the record
names this access and keeps the old value. The value last written is a third field of the record (log 16). -/
def Obligations.PairHazardWrite : Prop :=
  ∀ (s : State) (p : RegPair) (nm : PairName) (n : Nat) (r : PairRecord),
    PairAtEL3 s p → s.pairRecord p = some r → r.name ≠ nm →
    ∃ v d, (v = r.written ∨ v = s.readX n) ∧
      exec (pairMsr p nm n) s = .next { (s.withPair v p).setPairRecord
        (some { name := nm, old := r.old, written := s.readX n }) p with pc := s.pc + 4, draws := d }

/-! ### NVMem (20_memory R401 to R406) -/

/-- R404, R405: a redirected MRS that does not fault gives the 8 bytes of the cell in the parameter's byte order (R401, the spec's choice,
log 34), and nothing but the register and pc changes. -/
def Obligations.NVMemRead : Prop :=
  ∀ (s : State) (i : Instr) (off : Word), i.wellFormed = true → i.fields.read = true → Redirected s i off →
    ¬ CellFaults s off false →
    ∃ v, MrsGives s i (registerOf i) v ∧ ∀ k < 8,
      byteOf v k = s.mem.read
        (s.cfg.nvMemBase + off + BitVec.ofNat 64 (if s.cfg.nvMemBigEndian then 7 - k else k)).toNat

/-- R404, R405: a redirected MSR that does not fault stores x[t] in the 8 bytes at NVMemBase + offset, and every byte outside
the cell, every register and PSTATE are as before. -/
def Obligations.NVMemWrite : Prop :=
  ∀ (s : State) (i : Instr) (off : Word), i.wellFormed = true → i.fields.read = false → Redirected s i off →
    ¬ CellFaults s off true →
    ∃ t, exec i s = .next t ∧ t = { s with mem := t.mem, pc := s.pc + 4 } ∧
      (∀ k < 8, t.mem.read
          (s.cfg.nvMemBase + off + BitVec.ofNat 64 (if s.cfg.nvMemBigEndian then 7 - k else k)).toNat
        = byteOf (s.readX (registerOf i)) k) ∧
      ∀ a, ¬ s.inNVMemCell off a → t.mem.read a = s.mem.read a

/-- R406: an NVMem access that faults ends in an exception taken to EL2, with no register of EL1, x[t] or memory changed; that the exception
is pending after the step is the model's choice (log 11). -/
def Obligations.NVMemAbort : Prop :=
  ∀ (s : State) (i : Instr) (off : Word), Redirected s i off → CellFaults s off (!i.fields.read) →
    ∃ t, exec i s = .next t ∧ HigherTaken s t .el2 none

/-! ### Undefined (40_sysreg_access_common R453, R463, R468) -/

/-- R463: every accessor ends in the outcome Undefined at EL0, whatever any control says. -/
def Obligations.UndefinedAtEL0 : Prop :=
  ∀ (s : State) (i : Instr), s.pstate.EL = .el0 → exec i s = .next s.takeUndefined

/-- R468: accesses to PMSFCR_EL1 without FEAT_SPE, and to BRBCR_EL1 and BRBCR_EL12 without FEAT_BRBE, end in the outcome Undefined at
every level. -/
def Obligations.FeatureAbsentUndefined : Prop :=
  ∀ (s : State) (i : Instr) (n : Nat),
    (s.cfg.prof.spe = false ∧ (i = .mrsPmsfcr n ∨ i = .msrPmsfcr n)) ∨
    (s.cfg.prof.brbe = false ∧
      (i = .mrsBrbcrEl1 n ∨ i = .msrBrbcrEl1 n ∨ i = .mrsBrbcrEl12 n ∨ i = .msrBrbcrEl12 n)) →
    exec i s = .next s.takeUndefined

/-- R437, R453: the outcome Undefined reports 0x02000000 (its level: log 10); the _EL12 names end in it at EL2 and EL3 not in host mode,
and the _EL12 and _EL2 names at EL1 with NV 0. -/
def Obligations.UndefinedNames : Prop :=
  ∀ (s : State) (n : Nat), SynchronousTaken s s.takeUndefined 0x02000000 ∧
    (∀ (p : RegPair) (i : Instr), i = pairMrs p .el12Name n ∨ i = pairMsr p .el12Name n →
      ((s.pstate.EL = .el2 ∨ s.pstate.EL = .el3) ∧ s.env.hyp.elIsInHost = false) ∨
        (s.pstate.EL = .el1 ∧ s.env.hyp.nvx.getLsbD 0 = false) →
      ∃ t, exec i s = .next t ∧ SynchronousTaken s t 0x02000000) ∧
    (∀ i : Instr, i = .mrsEsrEl2 n ∨ i = .msrEsrEl2 n ∨ i = .mrsSpsrEl2 n ∨ i = .msrSpsrEl2 n →
      s.pstate.EL = .el1 → s.env.hyp.nvx.getLsbD 0 = false →
      ∃ t, exec i s = .next t ∧ SynchronousTaken s t 0x02000000)

/-- R490: an index that is not below NUM_WATCHPOINTS is UNDEFINED at every level, before every trap. -/
def Obligations.WatchpointBound : Prop :=
  ∀ (s : State) (m n : Nat), s.cfg.numWatchpoints ≤ watchpointOf s m →
    (∃ t, exec (.mrsDbgwcr m n) s = .next t ∧ SynchronousTaken s t 0x02000000) ∧
    (∃ t, exec (.msrDbgwcr m n) s = .next t ∧ SynchronousTaken s t 0x02000000)

/-! ### Traps (40_sysreg_access_common R455 to R462) -/

/-- R455: a trap of an instruction reports the syndrome 0x62000000 | ISS with the encoding fields at their places, and changes
no register of EL1, no general register, no memory and not pc; and no instruction sends an exception to another level than EL2 or EL3
by a trap. That the exception is pending after the step is the model's choice (log 11). No cause that the entry step admits (log 20) is
the trapped access of an instruction of this spec, since none of them traps to EL1 (60_exceptions R551). -/
def Obligations.TrapSyndrome : Prop :=
  ∀ (s : State) (i : Instr),
    (∀ el : EL, HigherTaken s (s.takeTrap el i.fields) el (some (0x62000000 |||
      (i.fields.op0.setWidth 64 <<< 20 ||| i.fields.op2.setWidth 64 <<< 17 ||| i.fields.op1.setWidth 64 <<< 14 |||
        i.fields.crn.setWidth 64 <<< 10 ||| i.fields.rt.setWidth 64 <<< 5 ||| i.fields.crm.setWidth 64 <<< 1 |||
        (bit i.fields.read).setWidth 64)))) ∧
    (s.pendingEntry = none → ∀ (t : State) (h : HigherEntry), exec i s = .next t → t.pendingEntry = some h →
      h.target = .el2 ∨ h.target = .el3) ∧
    ∀ (c : Config) (e : Env) (p : PState) (x : ExcCause), x.info = .sysAccess i.fields → x.check c e p = false

/-- R470 to R475, R480 to R485: the traps to EL2 of the ESR and SPSR names at EL1: TRVM, TVM, the fine-grained controls, NVx
011 for SPSR_EL1, and NV for the _EL12 and _EL2 names (MSR SPSR_EL2 only when the lock is not held). -/
def Obligations.EsrSpsrTraps : Prop :=
  ∀ (s : State) (n : Nat) (i : Instr), s.pstate.EL = .el1 →
    (i = .mrsEsrEl1 n ∧ ((s.env.hyp.el2Enabled = true ∧ s.env.hyp.trvm = true) ∨ FineGrainedTrap s s.env.fgt.rdESR)) ∨
    (i = .msrEsrEl1 n ∧ ((s.env.hyp.el2Enabled = true ∧ s.env.hyp.tvm = true) ∨ FineGrainedTrap s s.env.fgt.wrESR)) ∨
    ((i = .mrsSpsrEl1 n ∨ i = .msrSpsrEl1 n) ∧ s.env.hyp.nvx = 0b011#3) ∨
    ((i = .mrsEsrEl12 n ∨ i = .msrEsrEl12 n ∨ i = .mrsSpsrEl12 n ∨ i = .msrSpsrEl12 n)
      ∧ s.env.hyp.nvx.getLsbD 0 = true ∧ s.env.hyp.nvx ≠ 0b101#3) ∨
    ((i = .mrsEsrEl2 n ∨ i = .msrEsrEl2 n ∨ i = .mrsSpsrEl2 n ∨ (i = .msrSpsrEl2 n ∧ ¬ LockHeld s))
      ∧ s.env.hyp.nvx.getLsbD 0 = true ∧ s.env.hyp.nvx.getLsbD 2 = false) →
    ∃ t, exec i s = .next t ∧ HigherTaken s t .el2 (some (trapSyndrome i.fields))

/-- R492, R493, R496, R497: the traps to EL2 of the debug registers at EL1: the fine-grained controls and MDCR_EL2.{TDE, TDA}. The
EL3 test comes first only in Debug state with Secure debug disabled and EL3TrapPriorityWhenSDD (R462). -/
def Obligations.DebugTraps : Prop :=
  ∀ (s : State) (m n : Nat) (i : Instr), s.pstate.EL = .el1 →
    ¬ (DebugTrapEL3 s ∧ SecureDebugDisabled s ∧ s.cfg.el3TrapPriorityWhenSDD = true) →
    (i = .mrsDbgwcr m n ∧ watchpointOf s m < s.cfg.numWatchpoints ∧
      (FineGrainedTrap s s.env.fgt.rdDBGWCR ∨ DebugTrapEL2 s)) ∨
    (i = .msrDbgwcr m n ∧ watchpointOf s m < s.cfg.numWatchpoints ∧
      (FineGrainedTrap s s.env.fgt.wrDBGWCR ∨ DebugTrapEL2 s)) ∨
    (i = .mrsMdscr n ∧ (FineGrainedTrap s s.env.fgt.rdMDSCR ∨ DebugTrapEL2 s)) ∨
    (i = .msrMdscr n ∧ (FineGrainedTrap s s.env.fgt.wrMDSCR ∨ DebugTrapEL2 s)) →
    ∃ t, exec i s = .next t ∧ HigherTaken s t .el2 (some (trapSyndrome i.fields))

/-- R505 to R511: the traps to EL2 of the profiling registers at EL1: the fine-grained controls (nBRBCTL traps when it is 0),
MDCR_EL2.TPMS, and NV for BRBCR_EL12. -/
def Obligations.ProfilingTraps : Prop :=
  ∀ (s : State) (n : Nat) (i : Instr), s.pstate.EL = .el1 →
    (s.cfg.prof.spe = true ∧
      ¬ (ProfilingTrapEL3 s ∧ SecureDebugDisabled s ∧ s.cfg.el3TrapPriorityWhenSDD = true) ∧
      ((i = .mrsPmsfcr n ∧ (FineGrainedTrap s s.env.fgt.rdPMSFCR ∨ (s.env.hyp.el2Enabled = true ∧ s.env.mon.mdcr2TPMS = true))) ∨
       (i = .msrPmsfcr n ∧ (FineGrainedTrap s s.env.fgt.wrPMSFCR ∨ (s.env.hyp.el2Enabled = true ∧ s.env.mon.mdcr2TPMS = true))))) ∨
    (s.cfg.prof.brbe = true ∧
      ¬ (BranchTrapEL3 s ∧ SecureDebugDisabled s ∧ s.cfg.el3TrapPriorityWhenSDD = true) ∧
      ((i = .mrsBrbcrEl1 n ∧ FineGrainedTrap s (!s.env.fgt.rdNBRBCTL)) ∨
       (i = .msrBrbcrEl1 n ∧ FineGrainedTrap s (!s.env.fgt.wrNBRBCTL)))) ∨
    (s.cfg.prof.brbe = true ∧ (i = .mrsBrbcrEl12 n ∨ i = .msrBrbcrEl12 n)
      ∧ s.env.hyp.nvx.getLsbD 0 = true ∧ s.env.hyp.nvx ≠ 0b101#3) →
    ∃ t, exec i s = .next t ∧ HigherTaken s t .el2 (some (trapSyndrome i.fields))

/-- R462, R492, R496, R505, R508, R510: the EL3 tests at EL1 and EL2: the access traps to EL3, or is UNDEFINED in Debug state with
Secure debug disabled. At EL1 the tests for EL2 come before, unless in that case EL3TrapPriorityWhenSDD puts the EL3 test first. -/
def Obligations.El3Traps : Prop :=
  ∀ (s : State) (i : Instr), El3TestHolds s i →
    s.pstate.EL = .el2 ∨ (s.pstate.EL = .el1 ∧ (¬ El2TestHolds s i ∨ El3TestsFirst s)) →
    ∃ t, exec i s = .next t ∧
      (SecureDebugDisabled s → SynchronousTaken s t 0x02000000) ∧
      (¬ SecureDebugDisabled s → HigherTaken s t .el3 (some (trapSyndrome i.fields)))

/-- R491: an access to DBGWCR<m>_EL1 that passes every other test, with the OS Lock clear, halting allowed and EDSCR.TDA 1, enters
Debug state. That Debug state is Halted() true and nothing else changes, pc included, is R456, decision 92 D15 and log 22
(DESIGN CHOICE, general knowledge in part). -/
def Obligations.SoftwareAccessHalt : Prop :=
  ∀ (s : State) (m n : Nat), watchpointOf s m < s.cfg.numWatchpoints → SoftwareAccessHalts s →
    ((s.pstate.EL = .el1 ∧ ¬ DebugTrapEL2 s ∧ ¬ DebugTrapEL3 s)
      ∨ (s.pstate.EL = .el2 ∧ ¬ DebugTrapEL3 s) ∨ s.pstate.EL = .el3) →
    (¬ (s.pstate.EL = .el1 ∧ FineGrainedTrap s s.env.fgt.rdDBGWCR) →
      exec (.mrsDbgwcr m n) s = .next { s with env := { s.env with dbg := { s.env.dbg with halted := true } } }) ∧
    (¬ (s.pstate.EL = .el1 ∧ FineGrainedTrap s s.env.fgt.wrDBGWCR) →
      exec (.msrDbgwcr m n) s = .next { s with env := { s.env with dbg := { s.env.dbg with halted := true } } })

/-- R457, R481, R485 (to the current level: general knowledge of the spec): with the exception lock held, MSR SPSR_EL1 (unless NV1 and NV) and MSR SPSR_EL2 (with NV) at EL1 take the EXLOCK
exception to EL1, and at EL2 MSR SPSR_EL1 in host mode and MSR SPSR_EL2 end in Trap(EL2, 0xB6100000). -/
def Obligations.ExceptionLock : Prop :=
  ∀ (s : State) (n : Nat), LockHeld s →
    (s.pstate.EL = .el1 → ¬ (s.env.hyp.nvx.getLsbD 1 = true ∧ s.env.hyp.nvx.getLsbD 0 = true) →
      ∃ t, exec (.msrSpsrEl1 n) s = .next t ∧ EntryEL1 s t (some 0xB6100000)) ∧
    (s.pstate.EL = .el1 → s.env.hyp.nvx.getLsbD 0 = true →
      ∃ t, exec (.msrSpsrEl2 n) s = .next t ∧ EntryEL1 s t (some 0xB6100000)) ∧
    (s.pstate.EL = .el2 → s.env.hyp.elIsInHost = true →
      ∃ t, exec (.msrSpsrEl1 n) s = .next t ∧ HigherTaken s t .el2 (some 0xB6100000)) ∧
    (s.pstate.EL = .el2 →
      ∃ t, exec (.msrSpsrEl2 n) s = .next t ∧ HigherTaken s t .el2 (some 0xB6100000))

/-! ### Every instruction (40_sysreg_access_common R450 to R452, R464; 60_exceptions R533) -/

/-- R450, R533: every instruction in every state ends in a next state, of one of these kinds: completed with PSTATE as it was, or an
exception to EL1 with the Undefined or the EXLOCK syndrome, or an exception on its way to EL2 or EL3, or Debug state, which is
Halted() alone (log 22, DESIGN CHOICE). -/
def Obligations.OneOutcome : Prop :=
  ∀ (s : State) (i : Instr), ∃ t, exec i s = .next t ∧
    (Completed s t ∨ EntryEL1 s t (some 0x02000000) ∨ EntryEL1 s t (some 0xB6100000) ∨
      (∃ el y, (el = .el2 ∨ el = .el3) ∧ HigherTaken s t el y) ∨
      t = { s with env := { s.env with dbg := { s.env.dbg with halted := true } } })

/-- R404, R405, R452: no instruction changes a general register but the one an MRS names; an MRS, and an MSR that is not redirected,
changes no memory; and a redirected MSR changes no byte but the eight of its NVMem cell. -/
def Obligations.ExecFrame : Prop :=
  ∀ (s t : State) (i : Instr), i.wellFormed = true → exec i s = .next t →
    (∀ k, i.fields.read = false ∨ k ≠ (registerOf i) → t.readX k = s.readX k) ∧
    (i.fields.read = true ∨ (∀ off, ¬ Redirected s i off) → t.mem = s.mem) ∧
    (∀ off, Redirected s i off → ∀ a, ¬ s.inNVMemCell off a → t.mem.read a = s.mem.read a)

/-! ### Exceptions taken to EL1 (60_exceptions) -/

/-- R520, R521, R526 to R528, R540, R552: a cause the environment supplies, if it keeps every constraint (log 20), is taken to EL1 with
the syndrome its fields make up, and an asynchronous exception that is not masked too, an IRQ or FIQ without a syndrome, an SError
with EC 0x2F, a PMU exception with 0xF6000000, and an SError that is pending alone once it is not masked, with the fields it arrived
with but IESB 0, as it is not taken immediately (R226; that the wait leaves the other fields is the model's choice, log 39); or to
EL2, where TGE, the trap on SVC or the routing of debug exceptions says so. A step from EL0 that leaves EL1 has taken an exception to
EL1, but for a reset or a power-up, whose level is the highest one (R553, R588); PSTATE.SS may have been cleared before (R557, general
knowledge of the spec). -/
def Obligations.ExceptionEntry : Prop :=
  (∀ (s u : State) (x : ExcCause), s.offers (.exception x) u → x.check s.cfg s.env s.pstate = true →
    x.info.hasOwnInput = false → x.info.beforeInstruction = true ∨ s.pstate.IL = false →
    ∃ t, step s = .next t ∧ RoutedTaken u t (CauseRoutes s x.info) (some
      (esrValue x.info.iss2 (x.info.ec x.fromEL1 x.fromAArch32) x.il (x.info.iss s.cfg s.pstate.M)))) ∧
  (∀ (s u : State) (k : AsyncException), s.offers (.arrives k) u → k.allowed s.cfg.synd = true →
    s.pstate.EL = .el0 ∨ s.pstate.EL = .el1 → ¬ Masked s k →
    ∃ t, step s = .next t ∧ RoutedTaken u t (TGERoutes s) (match k with
      | .irq | .fiq => none
      | .serror e => some (esrValue 0 0x2F true ((ExcInfo.serror e).iss s.cfg s.pstate.M))
      | .pmu => some 0xF6000000)) ∧
  (∀ s t : State, s.Inv → step s = .next t → s.pstate.EL = .el0 → t.pstate.EL = .el1 →
    (∃ (q : State) (y : Option Word), q.cfg = s.cfg ∧ q.pstate = { s.pstate with SS := q.pstate.SS } ∧ EntryEL1 q t y) ∨
    (∃ (i : Input) (u : State), (i = .warmReset ∨ i = .coldReset) ∧ s.offers i u) ∨
    (∃ (e : Env) (u : State), s.offers (.env e) u ∧ s.env.ext.corePowered = false ∧ e.ext.corePowered = true)) ∧
  ∀ (s : State) (e : SErrorInfo) (rest : List SErrorInfo), s.pendingEntry = none → s.pendingIRQ = false → s.pendingFIQ = false →
    s.pendingSErrors = e :: rest → s.pendingPMU = false → s.pstate.EL = .el0 ∨ s.pstate.EL = .el1 → ¬ Masked s (.serror e) →
    ∃ t, step s = .next t ∧ RoutedTaken { s.settle with pendingSErrors := rest } t (TGERoutes s) (some
      (esrValue 0 0x2F true (match e with
        | .implDefined payload => 1#1 ++ payload
        | .fields els wu vfv pfv _ aet ea wnrv wnr dfsc =>
          0#6 ++ bit els ++ wu ++ bit vfv ++ bit pfv ++ 0#1 ++ aet ++ bit ea ++ 0#1 ++ bit wnrv ++ bit wnr ++ dfsc)))

/-- R88: the value written on an entry is (ISS2 << 32) | (EC << 26) | (IL << 25) | ISS with bits [63:56] zero, and the fields are found
again at their places (R60); a cause of any of the 27 encodings has the Exception class of R80 and each field of its ISS and ISS2 at its
place, with 0 in the RES0 cells (R65 to R79, R100 to R253; some places are general knowledge of the spec or its alignment of the figures,
log 32); and a descriptor that the entry step admits (log 20) leaves 0 in every RES0 bit and 1 in every RES1 bit of
ESR_EL1 (R14, R63; log 36). -/
def Obligations.SyndromeLayout : Prop :=
  (∀ (iss2 : BitVec 24) (ec : BitVec 6) (il : Bool) (iss : BitVec 25),
    esrValue iss2 ec il iss = iss2.setWidth 64 <<< 32 ||| ec.setWidth 64 <<< 26 ||| (bit il).setWidth 64 <<< 25 ||| iss.setWidth 64 ∧
    (esrValue iss2 ec il iss).extractLsb' 56 8 = 0 ∧
    esrISS2 (esrValue iss2 ec il iss) = iss2 ∧ esrEC (esrValue iss2 ec il iss) = ec ∧
    esrIL (esrValue iss2 ec il iss) = il ∧ esrISS (esrValue iss2 ec il iss) = iss) ∧
  (∀ (c : Config) (mode : BitVec 4) (x : ExcCause),
    FieldsAt c mode x.fromEL1 x.fromAArch32 (x.syndrome c mode) x.info ∧ Iss2FieldsAt (x.syndrome c mode) x.info ∧
    (x.syndrome c mode).getLsbD 25 = x.il ∧ (x.syndrome c mode).extractLsb' 56 8 = 0) ∧
  ∀ (c : Config) (e : Env) (p : PState) (x : ExcCause), x.check c e p = true →
    x.syndrome c p.M &&& esrRes0 c (x.syndrome c p.M) = 0 ∧
    x.syndrome c p.M &&& esrRes1 c (x.syndrome c p.M) = esrRes1 c (x.syndrome c p.M)

/-- R80, R81: after a step ESR_EL1 is as it was, or UNKNOWN, or holds an allocated Exception class, unless the step runs an MSR of an ESR
name that completes, and ESR_EL1 holds the value of x[t] or, at EL3, the one a pending record says was written, or unless the step
takes a reset or a power-up: so no exception entry, whatever takes it, writes a reserved class of its own. No descriptor that the
entry step admits (log 20) has one, and the 25 unallocated values are reserved. -/
def Obligations.NoReservedClass : Prop :=
  (∀ s t : State, step s = .next t →
    t.esrEL1 = s.esrEL1 ∨ t.esrUnknown = true ∨ ecAllocated s.cfg (esrEC t.esrEL1) = true ∨
    (∃ (w : Word32) (i : Instr) (n : Nat) (u : State), s.ready ∧ s.program[(s.pc - s.progStart).toNat / 4]? = some w ∧
      decode w = .ok i ∧ (i = .msrEsrEl1 n ∨ i = .msrEsrEl12 n ∨ i = .msrEsrEl2 n) ∧
      exec i { s.settle with inputs := s.inputs.tail } = .next u ∧ Completed { s.settle with inputs := s.inputs.tail } u ∧
      t.esrEL1 = u.esrEL1 ∧
      (t.esrEL1 = s.readX n ∨ (s.pstate.EL = .el3 ∧ ∃ r, s.esrPair = some r ∧ t.esrEL1 = r.written))) ∨
    (∃ (i : Input) (u : State), (i = .warmReset ∨ i = .coldReset) ∧ s.offers i u) ∨
    (∃ (e : Env) (u : State), s.offers (.env e) u ∧ s.env.ext.corePowered = false ∧ e.ext.corePowered = true)) ∧
  (∀ (c : Config) (e : Env) (p : PState) (x : ExcCause), x.check c e p = true →
    ecAllocated c (esrEC (x.syndrome c p.M)) = true) ∧
  ∀ (c : Config) (ec : BitVec 6),
    ec ∈ [0x02#6, 0x08, 0x09, 0x0B, 0x0F, 0x10, 0x12, 0x13, 0x16, 0x17, 0x1A, 0x1E, 0x1F, 0x23, 0x29, 0x2A, 0x2B, 0x2E, 0x36,
      0x37, 0x39, 0x3A, 0x3B, 0x3E, 0x3F] → ecAllocated c ec = false

/-- R525, R526: an IRQ or FIQ taken to EL1 writes SPSR_EL1 as every exception does and leaves ESR_EL1 unchanged, which 92 D23 marks as
general knowledge; one that is masked stays pending and changes nothing else; and an IRQ that is pending alone is taken before anything
else once it is not masked (general knowledge of the spec; log 39). -/
def Obligations.InterruptKeepsSyndrome : Prop :=
  (∀ (s u : State) (k : AsyncException), k = .irq ∨ k = .fiq → s.offers (.arrives k) u →
    s.pstate.EL = .el0 ∨ s.pstate.EL = .el1 →
    (¬ Masked s k → ¬ TGERoutes s →
      ∃ t, step s = .next t ∧ t.esrEL1 = s.esrEL1 ∧ t.esrUnknown = s.esrUnknown ∧
        t.spsrEL1 = savedPState s.cfg s.pstate ∧ t.spsrUnknown = false) ∧
    (Masked s k → k = .irq → step s = .next { u with pendingIRQ := true }) ∧
    (Masked s k → k = .fiq → step s = .next { u with pendingFIQ := true })) ∧
  ∀ s : State, s.pendingEntry = none → s.pendingIRQ = true → s.pendingFIQ = false → s.pendingSErrors = [] → s.pendingPMU = false →
    s.pstate.EL = .el0 ∨ s.pstate.EL = .el1 → ¬ Masked s .irq →
    ∃ t, step s = .next t ∧ RoutedTaken { s.settle with pendingIRQ := false } t (TGERoutes s) none

/-- R261, R262, R290: the saved process state, field by field: the AArch64 view with M[4] 0 and the AArch32 view with M[4] 1; a field whose
feature is absent is 0, and E is 0 without big-endian and 1 without little-endian support (R270), at EL0 by the model's choice
(log 41). The places of [19:10] and the features are general knowledge of the spec (log 32). -/
def Obligations.SavedState : Prop :=
  ∀ (c : Config) (p : PState),
    (let v := savedPState c p
     v.getLsbD 31 = p.N ∧ v.getLsbD 30 = p.Z ∧ v.getLsbD 29 = p.C ∧ v.getLsbD 28 = p.V ∧ v.getLsbD 24 = (c.pst.dit && p.DIT) ∧
     v.getLsbD 22 = (c.pst.pan && p.PAN) ∧ v.getLsbD 21 = p.SS ∧ v.getLsbD 20 = p.IL ∧ v.getLsbD 8 = p.A ∧ v.getLsbD 7 = p.I ∧
     v.getLsbD 6 = p.F ∧ v.getLsbD 4 = p.nRW ∧ v.getLsbD 33 = (c.synd.sebep && p.PPEND) ∧ v.extractLsb' 36 28 = 0 ∧
     (p.nRW = false →
       v.getLsbD 35 = (c.pst.pauthLR && p.PACM) ∧ v.getLsbD 34 = (c.synd.gcs && p.EXLOCK) ∧ v.getLsbD 32 = (c.synd.ebep && p.PM) ∧
       v.extractLsb' 26 2 = 0 ∧ v.getLsbD 25 = ((c.synd.mte2 || c.tcoWithoutMTE2) && p.TCO) ∧ v.getLsbD 23 = (c.pst.uao && p.UAO) ∧
       v.extractLsb' 14 6 = 0 ∧ v.getLsbD 13 = (c.pst.nmi && p.ALLINT) ∧ v.getLsbD 12 = (c.pst.ssbs && p.SSBS) ∧
       v.extractLsb' 10 2 = (if c.synd.bti then p.BTYPE else 0) ∧ v.getLsbD 9 = p.D ∧ v.getLsbD 5 = false ∧
       (p.EL = .el0 → v.extractLsb' 0 4 = 0b0000) ∧
       (p.EL = .el1 → v.extractLsb' 0 4 = if p.SP then 0b0101 else 0b0100)) ∧
     (p.nRW = true →
       v.extractLsb' 34 2 = 0 ∧ v.getLsbD 32 = false ∧ v.getLsbD 27 = p.Q ∧ v.extractLsb' 25 2 = p.IT.extractLsb' 0 2 ∧
       v.getLsbD 23 = (c.pst.ssbs && p.SSBS) ∧ v.extractLsb' 16 4 = p.GE ∧ v.extractLsb' 10 6 = p.IT.extractLsb' 2 6 ∧
       (c.bigEndEL0 = true → c.littleEndEL0 = true → v.getLsbD 9 = p.E) ∧ (c.bigEndEL0 = false → v.getLsbD 9 = false) ∧
       (c.bigEndEL0 = true → c.littleEndEL0 = false → v.getLsbD 9 = true) ∧
       v.getLsbD 5 = p.T ∧ v.extractLsb' 0 4 = p.M))

/-! ### Returns from EL1 (60_exceptions R545 to R548) -/

/-- R545, R546: a return from EL1 with a legal AArch64 value in SPSR_EL1 copies the saved fields back, a field without its feature copying
nothing, makes SPSR_EL1 and ESR_EL1 UNKNOWN, and goes to the return target; a return to User mode does the same with the AArch32 view,
E as the byte orders EL0 supports allow (R548). SS and PPEND without their guards become 0 (R546; log 14). A step from EL1 that leaves
EL0 has executed an exception return (R553), which leaves both registers UNKNOWN. -/
def Obligations.ReturnRestores : Prop :=
  (∀ (s u : State), s.offers .exceptionReturn u → s.pstate.EL = .el1 → s.pstate.nRW = false → s.pstate.IL = false →
    s.spsrUnknown = false → s.env.step.illegalReturnOther = false →
    s.spsrEL1.extractLsb' 0 5 = 0b00000 ∨ s.spsrEL1.extractLsb' 0 5 = 0b00100 ∨ s.spsrEL1.extractLsb' 0 5 = 0b00101 →
    ∃ t, step s = .next t ∧ t.pc = s.env.step.returnTarget ∧ t.spsrUnknown = true ∧ t.esrUnknown = true ∧
      t = { u with
        pc := t.pc, pstate := t.pstate, spsrEL1 := t.spsrEL1, spsrUnknown := true, esrEL1 := t.esrEL1, esrUnknown := true
        esrPair := none, spsrPair := none, brbcrPair := none, draws := t.draws, brbeLog := t.brbeLog } ∧
      t.pstate = { s.pstate with
        N := s.spsrEL1.getLsbD 31, Z := s.spsrEL1.getLsbD 30, C := s.spsrEL1.getLsbD 29, V := s.spsrEL1.getLsbD 28
        TCO := if s.cfg.synd.mte2 || s.cfg.tcoWithoutMTE2 then s.spsrEL1.getLsbD 25 else s.pstate.TCO
        DIT := if s.cfg.pst.dit then s.spsrEL1.getLsbD 24 else s.pstate.DIT
        UAO := if s.cfg.pst.uao then s.spsrEL1.getLsbD 23 else s.pstate.UAO
        PAN := if s.cfg.pst.pan then s.spsrEL1.getLsbD 22 else s.pstate.PAN
        IL := s.spsrEL1.getLsbD 20
        ALLINT := if s.cfg.pst.nmi then s.spsrEL1.getLsbD 13 else s.pstate.ALLINT
        SSBS := if s.cfg.pst.ssbs then s.spsrEL1.getLsbD 12 else s.pstate.SSBS
        BTYPE := if s.cfg.synd.bti then s.spsrEL1.extractLsb' 10 2 else s.pstate.BTYPE
        D := s.spsrEL1.getLsbD 9, A := s.spsrEL1.getLsbD 8, I := s.spsrEL1.getLsbD 7, F := s.spsrEL1.getLsbD 6
        PACM := if s.cfg.pst.pauthLR then s.spsrEL1.getLsbD 35 else s.pstate.PACM
        EXLOCK := if s.cfg.synd.gcs then s.spsrEL1.getLsbD 34 else s.pstate.EXLOCK
        PM := if s.cfg.synd.ebep then s.spsrEL1.getLsbD 32 else s.pstate.PM
        SS := s.env.step.copySS && s.spsrEL1.getLsbD 21
        PPEND := if s.cfg.synd.sebep then s.env.step.copyPPEND && s.spsrEL1.getLsbD 33 else s.pstate.PPEND
        nRW := false, EL := if s.spsrEL1.getLsbD 2 then .el1 else .el0, SP := s.spsrEL1.getLsbD 0 }) ∧
  (∀ s t : State, s.Inv → step s = .next t → s.pstate.EL = .el1 → t.pstate.EL = .el0 →
    (∃ u, s.offers .exceptionReturn u) ∧ t.spsrUnknown = true ∧ t.esrUnknown = true) ∧
  ∀ (s u : State), s.offers .exceptionReturn u → s.pstate.EL = .el1 → s.pstate.nRW = false → s.pstate.IL = false →
    s.spsrUnknown = false → s.env.step.illegalReturnOther = false → s.cfg.haveAArch32 = true →
    s.spsrEL1.extractLsb' 0 5 = 0b10000 →
    ∃ t, step s = .next t ∧ t.pc = s.env.step.returnTarget ∧ t.spsrUnknown = true ∧ t.esrUnknown = true ∧
      t = { u with
        pc := t.pc, pstate := t.pstate, spsrEL1 := t.spsrEL1, spsrUnknown := true, esrEL1 := t.esrEL1, esrUnknown := true
        esrPair := none, spsrPair := none, brbcrPair := none, draws := t.draws, brbeLog := t.brbeLog } ∧
      t.pstate = { s.pstate with
        N := s.spsrEL1.getLsbD 31, Z := s.spsrEL1.getLsbD 30, C := s.spsrEL1.getLsbD 29, V := s.spsrEL1.getLsbD 28
        Q := s.spsrEL1.getLsbD 27, IT := s.spsrEL1.extractLsb' 10 6 ++ s.spsrEL1.extractLsb' 25 2
        DIT := if s.cfg.pst.dit then s.spsrEL1.getLsbD 24 else s.pstate.DIT
        SSBS := if s.cfg.pst.ssbs then s.spsrEL1.getLsbD 23 else s.pstate.SSBS
        PAN := if s.cfg.pst.pan then s.spsrEL1.getLsbD 22 else s.pstate.PAN
        IL := s.spsrEL1.getLsbD 20, GE := s.spsrEL1.extractLsb' 16 4
        E := if s.cfg.bigEndEL0 = false then false else if s.cfg.littleEndEL0 = false then true else s.spsrEL1.getLsbD 9
        A := s.spsrEL1.getLsbD 8, I := s.spsrEL1.getLsbD 7, F := s.spsrEL1.getLsbD 6, T := s.spsrEL1.getLsbD 5
        SS := s.env.step.copySS && s.spsrEL1.getLsbD 21
        PPEND := if s.cfg.synd.sebep then s.env.step.copyPPEND && s.spsrEL1.getLsbD 33 else s.pstate.PPEND
        nRW := true, EL := .el0, M := 0b0000 }

/-- R547: a return from EL1 with a reserved mode in SPSR_EL1, or with an AArch32 mode and no AArch32 support, or with another AArch32
mode than User, since EL1 uses AArch64 (the model's reading, log 14), sets PSTATE.IL, keeps the level, the stack pointer and the Execution state, copies the condition flags, the masks and every other saved bit, as a legal return to that view does but with E by the byte orders of EL1,
and makes both registers UNKNOWN, with nothing else changed that a return does not change; unless the environment does something first, the
next step takes the exception 0x3A000000. The effect is general knowledge of the spec (log 14). -/
def Obligations.IllegalReturn : Prop :=
  ∀ (s u : State), s.offers .exceptionReturn u → s.pstate.EL = .el1 → s.pstate.nRW = false → s.pstate.IL = false →
    s.spsrUnknown = false →
    (s.spsrEL1.getLsbD 4 = false ∧ s.spsrEL1.extractLsb' 0 4 ≠ 0b0000 ∧ s.spsrEL1.extractLsb' 0 4 ≠ 0b0100 ∧
        s.spsrEL1.extractLsb' 0 4 ≠ 0b0101) ∨
      (s.spsrEL1.getLsbD 4 = true ∧ (s.cfg.haveAArch32 = false ∨ s.spsrEL1.extractLsb' 0 4 ≠ 0b0000)) →
    ∃ t, step s = .next t ∧ t.pc = s.env.step.returnTarget ∧ t.spsrUnknown = true ∧ t.esrUnknown = true ∧
      t = { u with
        pc := t.pc, pstate := t.pstate, spsrEL1 := t.spsrEL1, spsrUnknown := true, esrEL1 := t.esrEL1, esrUnknown := true
        esrPair := none, spsrPair := none, brbcrPair := none, draws := t.draws, brbeLog := t.brbeLog } ∧
      t.pstate.IL = true ∧ t.pstate.EL = .el1 ∧ t.pstate.SP = s.pstate.SP ∧ t.pstate.nRW = false ∧
      (s.spsrEL1.getLsbD 4 = false → t.pstate = { s.pstate with
        N := s.spsrEL1.getLsbD 31, Z := s.spsrEL1.getLsbD 30, C := s.spsrEL1.getLsbD 29, V := s.spsrEL1.getLsbD 28
        TCO := if s.cfg.synd.mte2 || s.cfg.tcoWithoutMTE2 then s.spsrEL1.getLsbD 25 else s.pstate.TCO
        DIT := if s.cfg.pst.dit then s.spsrEL1.getLsbD 24 else s.pstate.DIT
        UAO := if s.cfg.pst.uao then s.spsrEL1.getLsbD 23 else s.pstate.UAO
        PAN := if s.cfg.pst.pan then s.spsrEL1.getLsbD 22 else s.pstate.PAN
        IL := true
        ALLINT := if s.cfg.pst.nmi then s.spsrEL1.getLsbD 13 else s.pstate.ALLINT
        SSBS := if s.cfg.pst.ssbs then s.spsrEL1.getLsbD 12 else s.pstate.SSBS
        BTYPE := if s.cfg.synd.bti then s.spsrEL1.extractLsb' 10 2 else s.pstate.BTYPE
        D := s.spsrEL1.getLsbD 9, A := s.spsrEL1.getLsbD 8, I := s.spsrEL1.getLsbD 7, F := s.spsrEL1.getLsbD 6
        PACM := if s.cfg.pst.pauthLR then s.spsrEL1.getLsbD 35 else s.pstate.PACM
        EXLOCK := if s.cfg.synd.gcs then s.spsrEL1.getLsbD 34 else s.pstate.EXLOCK
        PM := if s.cfg.synd.ebep then s.spsrEL1.getLsbD 32 else s.pstate.PM
        SS := s.env.step.copySS && s.spsrEL1.getLsbD 21
        PPEND := if s.cfg.synd.sebep then s.env.step.copyPPEND && s.spsrEL1.getLsbD 33 else s.pstate.PPEND }) ∧
      (s.spsrEL1.getLsbD 4 = true → t.pstate = { s.pstate with
        N := s.spsrEL1.getLsbD 31, Z := s.spsrEL1.getLsbD 30, C := s.spsrEL1.getLsbD 29, V := s.spsrEL1.getLsbD 28
        Q := s.spsrEL1.getLsbD 27, IT := s.spsrEL1.extractLsb' 10 6 ++ s.spsrEL1.extractLsb' 25 2
        DIT := if s.cfg.pst.dit then s.spsrEL1.getLsbD 24 else s.pstate.DIT
        SSBS := if s.cfg.pst.ssbs then s.spsrEL1.getLsbD 23 else s.pstate.SSBS
        PAN := if s.cfg.pst.pan then s.spsrEL1.getLsbD 22 else s.pstate.PAN
        IL := true, GE := s.spsrEL1.extractLsb' 16 4
        E := if s.cfg.bigEndEL1 = false then false else if s.cfg.littleEndEL1 = false then true else s.spsrEL1.getLsbD 9
        A := s.spsrEL1.getLsbD 8, I := s.spsrEL1.getLsbD 7, F := s.spsrEL1.getLsbD 6, T := s.spsrEL1.getLsbD 5
        SS := s.env.step.copySS && s.spsrEL1.getLsbD 21
        PPEND := if s.cfg.synd.sebep then s.env.step.copyPPEND && s.spsrEL1.getLsbD 33 else s.pstate.PPEND }) ∧
      (t.instructionNext → ∃ r, step t = .next r ∧ IllegalStateTaken { t with inputs := t.inputs.tail } r)

/-! ### Debug exceptions (60_exceptions R555 to R559) -/

/-- R557, R559: a completed step is taken to EL1 as a Software Step exception, EC 0x32 or 0x33, with its ISV and EX and with PSTATE.SS
cleared before it is saved (general knowledge of the spec), when MDSCR_EL1.SS is 1 and debug exceptions are enabled from the current level,
or to EL2 where they are routed there; with SS 0 nothing happens. That PSTATE.D and KDE gate it at EL1 is the model's choice (log 28). -/
def Obligations.SoftwareStep : Prop :=
  ∀ (s u : State) (isv ex : Bool), s.offers (.stepped isv ex) u → isv = true ∨ ex = false →
    (s.mdscr.getLsbD 0 = false → step s = .next u) ∧
    (s.mdscr.getLsbD 0 = true → DebugWithin s →
      ∃ t, step s = .next t ∧ RoutedTaken { u with pstate := { u.pstate with SS := false } } t (DebugRoutes s)
        (some (esrValue 0 (if s.pstate.EL = .el1 then 0x33 else 0x32) true (bit isv ++ 0#17 ++ bit ex ++ 0b100010#6))))

/-- R556, R559: a breakpoint match whose comparand holds is taken as a Breakpoint exception, 0xC2000022 from EL0 and 0xC6000022 from EL1, while
MDE (and at EL1 KDE with PSTATE.D clear; log 28) allows it, or to EL2 where debug exceptions are routed there; with MDE 0 nothing
happens. -/
def Obligations.BreakpointException : Prop :=
  ∀ (s u : State) (n : Nat) (a : Word), s.offers (.breakpoint n a) u →
    n < s.cfg.numBreakpoints → s.comparandMatches n a = true → s.env.dbg.haltOnBpWp = false →
    (s.mdscr.getLsbD 15 = false → step s = .next u) ∧
    (s.mdscr.getLsbD 15 = true → DebugWithin s →
      ∃ t, step s = .next t ∧ RoutedTaken u t (DebugRoutes s) (some (if s.pstate.EL = .el1 then 0xC6000022 else 0xC2000022)))

/-- R332, R330, R329, R322, R335: with BAS all ones, MASK 0 and DBGWVR a multiple of 8, watchpoint n matches an access exactly when it is
implemented and enabled, LSC admits the access, some accessed byte lies in the watched doubleword, and the state matches, with WT 1 the
breakpoint UInt(LBNX : LBN) it is linked to as well (log 21). -/
def Obligations.WatchpointMatch : Prop :=
  ∀ (s : State) (a : DataAccess) (n : Nat) (h : n < 64),
    (s.wcr n).extractLsb' 5 8 = 0xFF → (s.wcr n).extractLsb' 24 5 = 0 → s.env.dbg.dbgwvr[n].extractLsb' 0 3 = 0 →
    (s.watchpointMatch a n = true ↔
      n < s.cfg.numWatchpoints ∧ (s.wcr n).getLsbD 0 = true ∧
      ¬ (s.cfg.dbg.debugv8p9 = true ∧ 16 ≤ n ∧ ((s.env.dbg.haltOnBpWp = false ∧ s.env.dbg.ebwe = false) ∨
          (s.env.dbg.haltOnBpWp = true ∧ s.env.dbg.edscr2EBWE = false))) ∧
      (if a.isAtomic then (s.wcr n).extractLsb' 3 2 ≠ 0
        else if a.isWrite then (s.wcr n).getLsbD 4 = true else (s.wcr n).getLsbD 3 = true) ∧
      (∃ j < a.size, ∃ k < 8, a.addr + BitVec.ofNat 64 j = s.env.dbg.dbgwvr[n] + BitVec.ofNat 64 k) ∧
      s.env.dbg.wpStateMatch.getLsbD n = true ∧
      ((s.wcr n).getLsbD 20 = true → s.env.dbg.wpLinkMatch.getLsbD
        ((if s.cfg.dbg.debugv8p9 then 16 * ((s.wcr n).extractLsb' 30 2).toNat else 0) + ((s.wcr n).extractLsb' 16 4).toNat) = true))

/-- R555, R559: an access that some watchpoint matches is taken to EL1 as a Watchpoint exception, EC 0x34 or 0x35, IL 1, DFSC 0b100010, WnR of
an access that is no atomic, CM, and with FEAT_Debugv8p9 the number of one watchpoint that matches (R259), while MDE (and at EL1 KDE with PSTATE.D clear; log 28)
allows it, or to EL2 where debug exceptions are routed there; when none matches or MDE is 0, only free values are used up. -/
def Obligations.WatchpointException : Prop :=
  ∀ (s u : State) (a : DataAccess), s.offers (.access a) u → s.pstate.IL = false → s.env.dbg.haltOnBpWp = false →
    ((∀ n < 64, u.watchpointMatch a n = false) ∨ s.mdscr.getLsbD 15 = false → ∃ d, step s = .next { u with draws := d }) ∧
    ((∃ n < 64, u.watchpointMatch a n = true) → s.mdscr.getLsbD 15 = true → DebugWithin s →
      ∃ t v, step s = .next t ∧ RoutedTaken u t (DebugRoutes s) (some v) ∧
        esrEC v = (if s.pstate.EL = .el1 then 0x35 else 0x34) ∧ esrIL v = true ∧ v.extractLsb' 0 6 = 0b100010 ∧
        v.getLsbD 8 = a.isCM ∧ (a.isAtomic = false → v.getLsbD 6 = (a.isCM || a.isWrite)) ∧
        (s.cfg.dbg.debugv8p9 = true →
          v.getLsbD 17 = true ∧ ∃ n < 64, u.watchpointMatch a n = true ∧ v.extractLsb' 18 6 = BitVec.ofNat 6 n))

/-! ### The external debug interface (20_memory R410 to R412) -/

/-- R410, R411, R412: the debugger's accesses to DBGBVR<n>_EL1 at DebugBase + 0x400 + 16n: an error where the predicates fail, a read of the
register in the view BT selects (R301 to R313), a write that the software lock makes ignored (general knowledge of the spec); and its
read and write of DBGWCR<n>_EL1, which no condition gates (log 25). -/
def Obligations.ExternalAccess : Prop :=
  ∀ (s u : State) (n : Nat) (v : Word), n < 16 → n < s.cfg.numBreakpoints →
    (s.offers (.extRead (s.cfg.debugBase + BitVec.ofNat 64 (0x400 + 16 * n))) u →
      (s.extOk = true → ∃ r d, step s = .next { u with extResponse := some (.data r), draws := d } ∧ BvrReads s n r) ∧
      (s.extOk = false → step s = .next { u with extResponse := some .error })) ∧
    (s.offers (.extWrite (s.cfg.debugBase + BitVec.ofNat 64 (0x400 + 16 * n)) v) u →
      (s.extOk = true → s.env.ext.softwareLock = false →
        ∃ t, step s = .next t ∧ t = { u with dbgbvr := t.dbgbvr, extResponse := some .written } ∧
          ∀ k, t.bvr k = if k = n then v else s.bvr k) ∧
      (s.extOk = true → s.env.ext.softwareLock = true → step s = .next { u with extResponse := some .ignored }) ∧
      (s.extOk = false → step s = .next { u with extResponse := some .error })) ∧
    (∀ k < 64, k < s.cfg.numWatchpoints →
      (s.offers (.extReadWCR k) u →
        ∃ r d, step s = .next { u with extResponse := some (.data r), draws := d } ∧ WcrReads s k r) ∧
      (s.offers (.extWriteWCR k v) u →
        ∃ t, step s = .next t ∧ t = { u with dbgwcr := t.dbgwcr, extResponse := some .written } ∧
          ∀ j, t.wcr j = if j = k then v else s.wcr j))

/-! ### Profiling (16_profiling_regs) -/

/-- R541, R550, R389, R390: the Branch records of an entry to EL1 and of a return from EL1: one record more where FEAT_BRBE, EXCEPTION
or ERTN and the enable of the level allow it, and none otherwise: from EL0 E0BRE, or BRBCR_EL2.E0HBRE where TGE with EL2 enabled makes it
ignored, from EL1 E1BRE. That an entry asks the enable of the level it comes from is general knowledge of the spec, and that none is
recorded from EL2 or EL3 is the model's choice (log 23). -/
def Obligations.BranchRecords : Prop :=
  ∀ (s : State) (y : Option Word),
    (s.cfg.prof.brbe = true ∧ s.brbcrEL1.getLsbD 23 = true ∧ RecordingEnabled s →
      ∃ ts, (s.takeExceptionToEL1 y).brbeLog =
        .record .exceptionEntry ts (s.brbcrEL1.getLsbD 4) (s.brbcrEL1.getLsbD 3) :: s.brbeLog) ∧
    (¬ (s.cfg.prof.brbe = true ∧ s.brbcrEL1.getLsbD 23 = true ∧ RecordingEnabled s) →
      (s.takeExceptionToEL1 y).brbeLog = s.brbeLog) ∧
    (s.cfg.prof.brbe = true ∧ s.brbcrEL1.getLsbD 22 = true ∧ s.brbcrEL1.getLsbD 1 = true →
      ∃ ts, s.exceptionReturnFromEL1.brbeLog =
        .record .exceptionReturn ts (s.brbcrEL1.getLsbD 4) (s.brbcrEL1.getLsbD 3) :: s.brbeLog) ∧
    (¬ (s.cfg.prof.brbe = true ∧ s.brbcrEL1.getLsbD 22 = true ∧ s.brbcrEL1.getLsbD 1 = true) →
      s.exceptionReturnFromEL1.brbeLog = s.brbeLog)

/-- R375: outside the CONSTRAINED UNPREDICTABLE cases (MINLAT, PMSEVFR or PMSNEVFR zero, or FT with no type bit set), and with no mask bit set,
a sample is recorded exactly when it passes each filter that is enabled (log 24). In such a case of a control bit either no sample is
recorded, whatever sample and state, or each is as with the control bit 0: for a run the one or the other, as 93 P6 has it and 92 D4
has not (log 24). -/
def Obligations.SampleFilter : Prop :=
  (∀ (s u : State) (o : Sample), s.offers (.sample o) u → s.cfg.prof.spe = true → s.env.prof.minlat ≠ 0 →
    s.env.prof.pmsevfr ≠ 0 → s.env.prof.pmsnevfr ≠ 0 →
    ∀ v, v = s.pmsfcr &&& ~~~pmsfcrRes0 s.cfg → v.extractLsb' 48 5 = 0 → v.extractLsb' 16 5 ≠ 0 →
    ∃ t, step s = .next t ∧ t = { u with speLog := t.speLog } ∧
      t.speLog = if (v.getLsbD 2 = true → s.env.prof.minlat ≤ o.latency) ∧
          (v.getLsbD 1 = true → (v.getLsbD 20 = true ∧ o.simd = true) ∨ (v.getLsbD 19 = true ∧ o.fp = true) ∨
            (v.getLsbD 18 = true ∧ o.st = true) ∨ (v.getLsbD 17 = true ∧ o.ld = true) ∨ (v.getLsbD 16 = true ∧ o.br = true)) ∧
          (v.getLsbD 0 = true → o.hasSelectedEvents = true) ∧ (v.getLsbD 3 = true → o.hasInvertedEvents = false) ∧
          (v.getLsbD 4 = true → o.ld = true → o.dataSource = .absent ∨
            (o.dataSource = .selected ∧ s.env.prof.pmsdsfr ≠ 0))
        then o :: s.speLog else s.speLog) ∧
  ∀ k < 4,
    (∀ (s u : State) (o : Sample), s.offers (.sample o) u → s.cfg.prof.spe = true → SamplingUnpredictable s k → step s = .next u) ∨
    (∀ (s u : State) (o : Sample), s.offers (.sample o) u → s.cfg.prof.spe = true → SamplingUnpredictable s k →
      ∃ t r, step s = .next t ∧ step { s with pmsfcr := s.pmsfcr &&& ~~~(1#64 <<< k) } = .next r ∧
        t = { u with speLog := t.speLog } ∧ t.speLog = r.speLog)

/-! ### Reset and invariants (70_reset_and_hazards) -/

/-- R580, R581, R587, R588: a Warm reset leaves DBGBVR, DBGWCR and memory, starts at ResetPC at the highest implemented level with D, A, I, F and SP 1
and IL and SS 0; a Cold reset does the same but for DBGBVR and DBGWCR; turning the Core power domain on is a Cold reset (R414, R580);
and State.reset starts so. The level, pc and PSTATE are general knowledge of the spec
(logs 6, 26). -/
def Obligations.Resets : Prop :=
  (∀ (s u : State) (i : Input), i = .warmReset ∨ i = .coldReset → s.offers i u → ∃ t, step s = .next t ∧
    (i = .warmReset → t.dbgbvr = s.dbgbvr ∧ t.dbgwcr = s.dbgwcr) ∧
    t.mem = s.mem ∧ t.cfg = s.cfg ∧ t.env = s.env ∧ t.pc = s.cfg.resetPC ∧ t.mdscr.extractLsb' 16 3 = 0 ∧
    t.pstate.D = true ∧ t.pstate.A = true ∧ t.pstate.I = true ∧ t.pstate.F = true ∧ t.pstate.SP = true ∧
    t.pstate.IL = false ∧ t.pstate.SS = false ∧
    t.pstate.EL = if s.cfg.haveEL3 then .el3 else if s.cfg.haveEL2 then .el2 else .el1) ∧
  (∀ (s u : State) (e : Env), s.offers (.env e) u → s.env.ext.corePowered = false → e.ext.corePowered = true →
    step s = .next ({ u with env := e } : State).coldReset) ∧
  (State.reset.pc = State.reset.cfg.resetPC ∧ State.reset.pstate.EL = .el3 ∧ State.reset.pstate.D = true ∧
    State.reset.pstate.A = true ∧ State.reset.pstate.I = true ∧ State.reset.pstate.F = true ∧
    State.reset.pstate.SP = true ∧ State.reset.pstate.IL = false ∧ State.reset.pstate.SS = false)

/-- R260, R273, R355, R400: the invariant holds of the state after reset; its clause on an entry on its way upward is about the model's own
field (log 11). -/
def Obligations.InvReset : Prop := State.reset.Inv

/-- R6, R7, R260, R273, R355, R400: every step from a state with the invariant that answers a next state keeps the invariant, and no step
changes the implementation parameters. That an entry on its way upward goes to EL2 or EL3 is a clause about the model's own field
(log 11). -/
def Obligations.InvStep : Prop :=
  ∀ s t : State, s.Inv → step s = .next t → t.Inv ∧ t.cfg = s.cfg

/-- The model's choice (log 11): the step after an outcome that goes to EL2 or EL3 enters that level, at the vector target, with the condition
flags unchanged and no register of EL1 or memory changed. -/
def Obligations.HigherEntryCompletes : Prop :=
  ∀ (s : State) (h : HigherEntry), s.pendingEntry = some h →
    ∃ t, step s = .next t ∧ t.pendingEntry = none ∧ t.pc = s.env.step.vectorTarget ∧ t.pstate.EL = h.target ∧
      t.pstate.N = s.pstate.N ∧ t.pstate.Z = s.pstate.Z ∧ t.pstate.C = s.pstate.C ∧ t.pstate.V = s.pstate.V ∧
      t = { s with
        pendingEntry := none, pstate := t.pstate, pc := t.pc, draws := t.draws, esrPair := none, spsrPair := none
        brbcrPair := none }
end

