-- ==== Sys2Proof/Laws/Encode.lean ====
section
/-! SUPPORT. The layout of an instruction word: what each bit of an encoded word is, and that decoding finds the fields
again (30_encoding R427). -/

namespace Sys2Proof

/-- Every bit of the word of the fields. -/
theorem wordOfFields_getLsbD (f : SysFields) (i : Nat) :
    (wordOfFields f).getLsbD i =
      if i < 5 then f.rt.getLsbD i else if i < 8 then f.op2.getLsbD (i - 5)
      else if i < 12 then f.crm.getLsbD (i - 8) else if i < 16 then f.crn.getLsbD (i - 12)
      else if i < 19 then f.op1.getLsbD (i - 16) else if i < 20 then f.op0.getLsbD 0
      else if i < 21 then true else if i < 22 then f.read
      else (0b1101010100#10).getLsbD (i - 22) := by
  unfold wordOfFields
  simp only [BitVec.getLsbD_append]
  simp only [Nat.sub_sub, BitVec.getLsbD_extractLsb', BitVec.getLsbD_ofBool, Nat.reduceAdd]
  by_cases h5 : i < 5
  · rw [if_pos h5, if_pos h5]
  by_cases h8 : i < 8
  · rw [if_neg h5, if_pos (show i - 5 < 3 by omega), if_neg h5, if_pos h8]
  by_cases h12 : i < 12
  · rw [if_neg h5, if_neg (show ¬ i - 5 < 3 by omega), if_pos (show i - 8 < 4 by omega), if_neg h5, if_neg h8, if_pos h12]
  by_cases h16 : i < 16
  · rw [if_neg h5, if_neg (show ¬ i - 5 < 3 by omega), if_neg (show ¬ i - 8 < 4 by omega), if_pos (show i - 12 < 4 by omega), if_neg h5, if_neg h8, if_neg h12, if_pos h16]
  by_cases h19 : i < 19
  · rw [if_neg h5, if_neg (show ¬ i - 5 < 3 by omega), if_neg (show ¬ i - 8 < 4 by omega), if_neg (show ¬ i - 12 < 4 by omega), if_pos (show i - 16 < 3 by omega), if_neg h5, if_neg h8, if_neg h12, if_neg h16, if_pos h19]
  by_cases h20 : i < 20
  · obtain rfl : i = 19 := by omega
    simp
  by_cases h21 : i < 21
  · obtain rfl : i = 20 := by omega
    simp
  by_cases h22 : i < 22
  · obtain rfl : i = 21 := by omega
    simp
  rw [if_neg h5, if_neg (show ¬ i - 5 < 3 by omega), if_neg (show ¬ i - 8 < 4 by omega), if_neg (show ¬ i - 12 < 4 by omega), if_neg (show ¬ i - 16 < 3 by omega), if_neg (show ¬ i - 19 < 1 by omega), if_neg (show ¬ i - 20 < 1 by omega), if_neg (show ¬ i - 21 < 1 by omega), if_neg h5, if_neg h8, if_neg h12, if_neg h16, if_neg h19, if_neg h20, if_neg h21, if_neg h22]

/-- The word of any fields has the fixed bits of the format. -/
theorem isSysRegForm_wordOfFields (f : SysFields) : isSysRegForm (wordOfFields f) = true := by
  unfold isSysRegForm
  rw [wordOfFields_getLsbD, Bool.and_eq_true, beq_iff_eq]
  refine ⟨BitVec.eq_of_getLsbD_eq fun i hi => ?_, by simp⟩
  rw [BitVec.getLsbD_extractLsb', wordOfFields_getLsbD, if_neg, if_neg, if_neg, if_neg, if_neg, if_neg, if_neg, if_neg]
    <;> first | omega | simp [hi]

/-- The fields are found again in their word; op0 is 2 or 3 in the format. -/
theorem fieldsOfWord_wordOfFields (f : SysFields) (h : f.op0.getLsbD 1 = true) : fieldsOfWord (wordOfFields f) = f := by
  obtain ⟨r, op0, op1, crn, crm, op2, rt⟩ := f
  unfold fieldsOfWord
  simp only [SysFields.mk.injEq]
  refine ⟨by rw [wordOfFields_getLsbD]; rfl, ?_, ?_, ?_, ?_, ?_, ?_⟩
  all_goals
    refine BitVec.eq_of_getLsbD_eq fun i hi => ?_
    simp only [BitVec.getLsbD_append, BitVec.getLsbD_extractLsb', wordOfFields_getLsbD]
  · obtain rfl | rfl : i = 0 ∨ i = 1 := by omega
    · simp
    · simpa using h
  all_goals
    repeat' split
    all_goals first
      | omega
      | (rw [decide_eq_true hi, Bool.true_and]; congr 1; omega)

end Sys2Proof
end

