-- ==== Sys2Proof/Laws/State.lean ====
section
/-! SUPPORT. What each update of the state leaves in each field, so that no later proof unfolds a record update. -/

namespace Sys2Proof.Machine

open Sys2Proof

/-! ### advance -/

@[simp] theorem State.advance_cfg (s : State) : s.advance.cfg = s.cfg := rfl
@[simp] theorem State.advance_env (s : State) : s.advance.env = s.env := rfl
@[simp] theorem State.advance_inputs (s : State) : s.advance.inputs = s.inputs := rfl
@[simp] theorem State.advance_progStart (s : State) : s.advance.progStart = s.progStart := rfl
@[simp] theorem State.advance_program (s : State) : s.advance.program = s.program := rfl
@[simp] theorem State.advance_x (s : State) : s.advance.x = s.x := rfl
@[simp] theorem State.advance_pc (s : State) : s.advance.pc = s.pc + 4 := rfl
@[simp] theorem State.advance_pstate (s : State) : s.advance.pstate = s.pstate := rfl
@[simp] theorem State.advance_esrEL1 (s : State) : s.advance.esrEL1 = s.esrEL1 := rfl
@[simp] theorem State.advance_esrUnknown (s : State) : s.advance.esrUnknown = s.esrUnknown := rfl
@[simp] theorem State.advance_spsrEL1 (s : State) : s.advance.spsrEL1 = s.spsrEL1 := rfl
@[simp] theorem State.advance_spsrUnknown (s : State) : s.advance.spsrUnknown = s.spsrUnknown := rfl
@[simp] theorem State.advance_dbgbvr (s : State) : s.advance.dbgbvr = s.dbgbvr := rfl
@[simp] theorem State.advance_dbgwcr (s : State) : s.advance.dbgwcr = s.dbgwcr := rfl
@[simp] theorem State.advance_mdscr (s : State) : s.advance.mdscr = s.mdscr := rfl
@[simp] theorem State.advance_pmsfcr (s : State) : s.advance.pmsfcr = s.pmsfcr := rfl
@[simp] theorem State.advance_brbcrEL1 (s : State) : s.advance.brbcrEL1 = s.brbcrEL1 := rfl
@[simp] theorem State.advance_esrEL2 (s : State) : s.advance.esrEL2 = s.esrEL2 := rfl
@[simp] theorem State.advance_spsrEL2 (s : State) : s.advance.spsrEL2 = s.spsrEL2 := rfl
@[simp] theorem State.advance_brbcrEL2 (s : State) : s.advance.brbcrEL2 = s.brbcrEL2 := rfl
@[simp] theorem State.advance_esrPair (s : State) : s.advance.esrPair = s.esrPair := rfl
@[simp] theorem State.advance_spsrPair (s : State) : s.advance.spsrPair = s.spsrPair := rfl
@[simp] theorem State.advance_brbcrPair (s : State) : s.advance.brbcrPair = s.brbcrPair := rfl
@[simp] theorem State.advance_mem (s : State) : s.advance.mem = s.mem := rfl
@[simp] theorem State.advance_draws (s : State) : s.advance.draws = s.draws := rfl
@[simp] theorem State.advance_pendingEntry (s : State) : s.advance.pendingEntry = s.pendingEntry := rfl
@[simp] theorem State.advance_pendingIRQ (s : State) : s.advance.pendingIRQ = s.pendingIRQ := rfl
@[simp] theorem State.advance_pendingFIQ (s : State) : s.advance.pendingFIQ = s.pendingFIQ := rfl
@[simp] theorem State.advance_pendingSErrors (s : State) : s.advance.pendingSErrors = s.pendingSErrors := rfl
@[simp] theorem State.advance_pendingPMU (s : State) : s.advance.pendingPMU = s.pendingPMU := rfl
@[simp] theorem State.advance_brbeLog (s : State) : s.advance.brbeLog = s.brbeLog := rfl
@[simp] theorem State.advance_speLog (s : State) : s.advance.speLog = s.speLog := rfl
@[simp] theorem State.advance_extResponse (s : State) : s.advance.extResponse = s.extResponse := rfl

/-! ### skip -/

@[simp] theorem State.skip_cfg (s : State) (n : Nat) : (s.skip n).cfg = s.cfg := rfl
@[simp] theorem State.skip_env (s : State) (n : Nat) : (s.skip n).env = s.env := rfl
@[simp] theorem State.skip_inputs (s : State) (n : Nat) : (s.skip n).inputs = s.inputs := rfl
@[simp] theorem State.skip_progStart (s : State) (n : Nat) : (s.skip n).progStart = s.progStart := rfl
@[simp] theorem State.skip_program (s : State) (n : Nat) : (s.skip n).program = s.program := rfl
@[simp] theorem State.skip_x (s : State) (n : Nat) : (s.skip n).x = s.x := rfl
@[simp] theorem State.skip_pc (s : State) (n : Nat) : (s.skip n).pc = s.pc := rfl
@[simp] theorem State.skip_pstate (s : State) (n : Nat) : (s.skip n).pstate = s.pstate := rfl
@[simp] theorem State.skip_esrEL1 (s : State) (n : Nat) : (s.skip n).esrEL1 = s.esrEL1 := rfl
@[simp] theorem State.skip_esrUnknown (s : State) (n : Nat) : (s.skip n).esrUnknown = s.esrUnknown := rfl
@[simp] theorem State.skip_spsrEL1 (s : State) (n : Nat) : (s.skip n).spsrEL1 = s.spsrEL1 := rfl
@[simp] theorem State.skip_spsrUnknown (s : State) (n : Nat) : (s.skip n).spsrUnknown = s.spsrUnknown := rfl
@[simp] theorem State.skip_dbgbvr (s : State) (n : Nat) : (s.skip n).dbgbvr = s.dbgbvr := rfl
@[simp] theorem State.skip_dbgwcr (s : State) (n : Nat) : (s.skip n).dbgwcr = s.dbgwcr := rfl
@[simp] theorem State.skip_mdscr (s : State) (n : Nat) : (s.skip n).mdscr = s.mdscr := rfl
@[simp] theorem State.skip_pmsfcr (s : State) (n : Nat) : (s.skip n).pmsfcr = s.pmsfcr := rfl
@[simp] theorem State.skip_brbcrEL1 (s : State) (n : Nat) : (s.skip n).brbcrEL1 = s.brbcrEL1 := rfl
@[simp] theorem State.skip_esrEL2 (s : State) (n : Nat) : (s.skip n).esrEL2 = s.esrEL2 := rfl
@[simp] theorem State.skip_spsrEL2 (s : State) (n : Nat) : (s.skip n).spsrEL2 = s.spsrEL2 := rfl
@[simp] theorem State.skip_brbcrEL2 (s : State) (n : Nat) : (s.skip n).brbcrEL2 = s.brbcrEL2 := rfl
@[simp] theorem State.skip_esrPair (s : State) (n : Nat) : (s.skip n).esrPair = s.esrPair := rfl
@[simp] theorem State.skip_spsrPair (s : State) (n : Nat) : (s.skip n).spsrPair = s.spsrPair := rfl
@[simp] theorem State.skip_brbcrPair (s : State) (n : Nat) : (s.skip n).brbcrPair = s.brbcrPair := rfl
@[simp] theorem State.skip_mem (s : State) (n : Nat) : (s.skip n).mem = s.mem := rfl
@[simp] theorem State.skip_draws (s : State) (n : Nat) : (s.skip n).draws = s.draws + n := rfl
@[simp] theorem State.skip_pendingEntry (s : State) (n : Nat) : (s.skip n).pendingEntry = s.pendingEntry := rfl
@[simp] theorem State.skip_pendingIRQ (s : State) (n : Nat) : (s.skip n).pendingIRQ = s.pendingIRQ := rfl
@[simp] theorem State.skip_pendingFIQ (s : State) (n : Nat) : (s.skip n).pendingFIQ = s.pendingFIQ := rfl
@[simp] theorem State.skip_pendingSErrors (s : State) (n : Nat) : (s.skip n).pendingSErrors = s.pendingSErrors := rfl
@[simp] theorem State.skip_pendingPMU (s : State) (n : Nat) : (s.skip n).pendingPMU = s.pendingPMU := rfl
@[simp] theorem State.skip_brbeLog (s : State) (n : Nat) : (s.skip n).brbeLog = s.brbeLog := rfl
@[simp] theorem State.skip_speLog (s : State) (n : Nat) : (s.skip n).speLog = s.speLog := rfl
@[simp] theorem State.skip_extResponse (s : State) (n : Nat) : (s.skip n).extResponse = s.extResponse := rfl

/-! ### clearPairs -/

@[simp] theorem State.clearPairs_cfg (s : State) : s.clearPairs.cfg = s.cfg := rfl
@[simp] theorem State.clearPairs_env (s : State) : s.clearPairs.env = s.env := rfl
@[simp] theorem State.clearPairs_inputs (s : State) : s.clearPairs.inputs = s.inputs := rfl
@[simp] theorem State.clearPairs_progStart (s : State) : s.clearPairs.progStart = s.progStart := rfl
@[simp] theorem State.clearPairs_program (s : State) : s.clearPairs.program = s.program := rfl
@[simp] theorem State.clearPairs_x (s : State) : s.clearPairs.x = s.x := rfl
@[simp] theorem State.clearPairs_pc (s : State) : s.clearPairs.pc = s.pc := rfl
@[simp] theorem State.clearPairs_pstate (s : State) : s.clearPairs.pstate = s.pstate := rfl
@[simp] theorem State.clearPairs_esrEL1 (s : State) : s.clearPairs.esrEL1 = s.esrEL1 := rfl
@[simp] theorem State.clearPairs_esrUnknown (s : State) : s.clearPairs.esrUnknown = s.esrUnknown := rfl
@[simp] theorem State.clearPairs_spsrEL1 (s : State) : s.clearPairs.spsrEL1 = s.spsrEL1 := rfl
@[simp] theorem State.clearPairs_spsrUnknown (s : State) : s.clearPairs.spsrUnknown = s.spsrUnknown := rfl
@[simp] theorem State.clearPairs_dbgbvr (s : State) : s.clearPairs.dbgbvr = s.dbgbvr := rfl
@[simp] theorem State.clearPairs_dbgwcr (s : State) : s.clearPairs.dbgwcr = s.dbgwcr := rfl
@[simp] theorem State.clearPairs_mdscr (s : State) : s.clearPairs.mdscr = s.mdscr := rfl
@[simp] theorem State.clearPairs_pmsfcr (s : State) : s.clearPairs.pmsfcr = s.pmsfcr := rfl
@[simp] theorem State.clearPairs_brbcrEL1 (s : State) : s.clearPairs.brbcrEL1 = s.brbcrEL1 := rfl
@[simp] theorem State.clearPairs_esrEL2 (s : State) : s.clearPairs.esrEL2 = s.esrEL2 := rfl
@[simp] theorem State.clearPairs_spsrEL2 (s : State) : s.clearPairs.spsrEL2 = s.spsrEL2 := rfl
@[simp] theorem State.clearPairs_brbcrEL2 (s : State) : s.clearPairs.brbcrEL2 = s.brbcrEL2 := rfl
@[simp] theorem State.clearPairs_esrPair (s : State) : s.clearPairs.esrPair = none := rfl
@[simp] theorem State.clearPairs_spsrPair (s : State) : s.clearPairs.spsrPair = none := rfl
@[simp] theorem State.clearPairs_brbcrPair (s : State) : s.clearPairs.brbcrPair = none := rfl
@[simp] theorem State.clearPairs_mem (s : State) : s.clearPairs.mem = s.mem := rfl
@[simp] theorem State.clearPairs_draws (s : State) : s.clearPairs.draws = s.draws := rfl
@[simp] theorem State.clearPairs_pendingEntry (s : State) : s.clearPairs.pendingEntry = s.pendingEntry := rfl
@[simp] theorem State.clearPairs_pendingIRQ (s : State) : s.clearPairs.pendingIRQ = s.pendingIRQ := rfl
@[simp] theorem State.clearPairs_pendingFIQ (s : State) : s.clearPairs.pendingFIQ = s.pendingFIQ := rfl
@[simp] theorem State.clearPairs_pendingSErrors (s : State) : s.clearPairs.pendingSErrors = s.pendingSErrors := rfl
@[simp] theorem State.clearPairs_pendingPMU (s : State) : s.clearPairs.pendingPMU = s.pendingPMU := rfl
@[simp] theorem State.clearPairs_brbeLog (s : State) : s.clearPairs.brbeLog = s.brbeLog := rfl
@[simp] theorem State.clearPairs_speLog (s : State) : s.clearPairs.speLog = s.speLog := rfl
@[simp] theorem State.clearPairs_extResponse (s : State) : s.clearPairs.extResponse = s.extResponse := rfl

/-! ### drawCells -/

/-- The cells of EL2 and the count of free values may change, and nothing else. -/
theorem State.drawCells_frame (s : State) (el : EL) : s.drawCells el = { s with
    esrEL2 := (s.drawCells el).esrEL2, spsrEL2 := (s.drawCells el).spsrEL2, brbcrEL2 := (s.drawCells el).brbcrEL2
    draws := (s.drawCells el).draws } := by
  unfold State.drawCells; split <;> rfl

@[simp] theorem State.drawCells_cfg (s : State) (el : EL) : (s.drawCells el).cfg = s.cfg := by
  rw [State.drawCells_frame]
@[simp] theorem State.drawCells_env (s : State) (el : EL) : (s.drawCells el).env = s.env := by
  rw [State.drawCells_frame]
@[simp] theorem State.drawCells_inputs (s : State) (el : EL) : (s.drawCells el).inputs = s.inputs := by
  rw [State.drawCells_frame]
@[simp] theorem State.drawCells_progStart (s : State) (el : EL) : (s.drawCells el).progStart = s.progStart := by
  rw [State.drawCells_frame]
@[simp] theorem State.drawCells_program (s : State) (el : EL) : (s.drawCells el).program = s.program := by
  rw [State.drawCells_frame]
@[simp] theorem State.drawCells_x (s : State) (el : EL) : (s.drawCells el).x = s.x := by
  rw [State.drawCells_frame]
@[simp] theorem State.drawCells_pc (s : State) (el : EL) : (s.drawCells el).pc = s.pc := by
  rw [State.drawCells_frame]
@[simp] theorem State.drawCells_pstate (s : State) (el : EL) : (s.drawCells el).pstate = s.pstate := by
  rw [State.drawCells_frame]
@[simp] theorem State.drawCells_esrEL1 (s : State) (el : EL) : (s.drawCells el).esrEL1 = s.esrEL1 := by
  rw [State.drawCells_frame]
@[simp] theorem State.drawCells_esrUnknown (s : State) (el : EL) : (s.drawCells el).esrUnknown = s.esrUnknown := by
  rw [State.drawCells_frame]
@[simp] theorem State.drawCells_spsrEL1 (s : State) (el : EL) : (s.drawCells el).spsrEL1 = s.spsrEL1 := by
  rw [State.drawCells_frame]
@[simp] theorem State.drawCells_spsrUnknown (s : State) (el : EL) : (s.drawCells el).spsrUnknown = s.spsrUnknown := by
  rw [State.drawCells_frame]
@[simp] theorem State.drawCells_dbgbvr (s : State) (el : EL) : (s.drawCells el).dbgbvr = s.dbgbvr := by
  rw [State.drawCells_frame]
@[simp] theorem State.drawCells_dbgwcr (s : State) (el : EL) : (s.drawCells el).dbgwcr = s.dbgwcr := by
  rw [State.drawCells_frame]
@[simp] theorem State.drawCells_mdscr (s : State) (el : EL) : (s.drawCells el).mdscr = s.mdscr := by
  rw [State.drawCells_frame]
@[simp] theorem State.drawCells_pmsfcr (s : State) (el : EL) : (s.drawCells el).pmsfcr = s.pmsfcr := by
  rw [State.drawCells_frame]
@[simp] theorem State.drawCells_brbcrEL1 (s : State) (el : EL) : (s.drawCells el).brbcrEL1 = s.brbcrEL1 := by
  rw [State.drawCells_frame]
@[simp] theorem State.drawCells_esrPair (s : State) (el : EL) : (s.drawCells el).esrPair = s.esrPair := by
  rw [State.drawCells_frame]
@[simp] theorem State.drawCells_spsrPair (s : State) (el : EL) : (s.drawCells el).spsrPair = s.spsrPair := by
  rw [State.drawCells_frame]
@[simp] theorem State.drawCells_brbcrPair (s : State) (el : EL) : (s.drawCells el).brbcrPair = s.brbcrPair := by
  rw [State.drawCells_frame]
@[simp] theorem State.drawCells_mem (s : State) (el : EL) : (s.drawCells el).mem = s.mem := by
  rw [State.drawCells_frame]
@[simp] theorem State.drawCells_pendingEntry (s : State) (el : EL) : (s.drawCells el).pendingEntry = s.pendingEntry := by
  rw [State.drawCells_frame]
@[simp] theorem State.drawCells_pendingIRQ (s : State) (el : EL) : (s.drawCells el).pendingIRQ = s.pendingIRQ := by
  rw [State.drawCells_frame]
@[simp] theorem State.drawCells_pendingFIQ (s : State) (el : EL) : (s.drawCells el).pendingFIQ = s.pendingFIQ := by
  rw [State.drawCells_frame]
@[simp] theorem State.drawCells_pendingSErrors (s : State) (el : EL) : (s.drawCells el).pendingSErrors = s.pendingSErrors := by
  rw [State.drawCells_frame]
@[simp] theorem State.drawCells_pendingPMU (s : State) (el : EL) : (s.drawCells el).pendingPMU = s.pendingPMU := by
  rw [State.drawCells_frame]
@[simp] theorem State.drawCells_brbeLog (s : State) (el : EL) : (s.drawCells el).brbeLog = s.brbeLog := by
  rw [State.drawCells_frame]
@[simp] theorem State.drawCells_speLog (s : State) (el : EL) : (s.drawCells el).speLog = s.speLog := by
  rw [State.drawCells_frame]
@[simp] theorem State.drawCells_extResponse (s : State) (el : EL) : (s.drawCells el).extResponse = s.extResponse := by
  rw [State.drawCells_frame]

/-! ### outsideEvent -/

/-- The kind of a step outside this spec changes the pending records of the name pairs, the cells of EL2 and the count of free values
alone. -/
theorem State.outsideEvent_frame (s : State) (o : OutsideStep) : s.outsideEvent o = { s with
    esrPair := (s.outsideEvent o).esrPair, spsrPair := (s.outsideEvent o).spsrPair, brbcrPair := (s.outsideEvent o).brbcrPair
    esrEL2 := (s.outsideEvent o).esrEL2, spsrEL2 := (s.outsideEvent o).spsrEL2, brbcrEL2 := (s.outsideEvent o).brbcrEL2
    draws := (s.outsideEvent o).draws } := by
  unfold State.outsideEvent
  cases o.event
  case entry => rw [State.drawCells_frame]; rfl
  all_goals rfl

/-! ### enterDebugState -/

@[simp] theorem State.enterDebugState_cfg (s : State) : s.enterDebugState.cfg = s.cfg := rfl
@[simp] theorem State.enterDebugState_env (s : State) :
    s.enterDebugState.env = { s.env with dbg := { s.env.dbg with halted := true } } := rfl
@[simp] theorem State.enterDebugState_inputs (s : State) : s.enterDebugState.inputs = s.inputs := rfl
@[simp] theorem State.enterDebugState_progStart (s : State) : s.enterDebugState.progStart = s.progStart := rfl
@[simp] theorem State.enterDebugState_program (s : State) : s.enterDebugState.program = s.program := rfl
@[simp] theorem State.enterDebugState_x (s : State) : s.enterDebugState.x = s.x := rfl
@[simp] theorem State.enterDebugState_pc (s : State) : s.enterDebugState.pc = s.pc := rfl
@[simp] theorem State.enterDebugState_pstate (s : State) : s.enterDebugState.pstate = s.pstate := rfl
@[simp] theorem State.enterDebugState_esrEL1 (s : State) : s.enterDebugState.esrEL1 = s.esrEL1 := rfl
@[simp] theorem State.enterDebugState_esrUnknown (s : State) : s.enterDebugState.esrUnknown = s.esrUnknown := rfl
@[simp] theorem State.enterDebugState_spsrEL1 (s : State) : s.enterDebugState.spsrEL1 = s.spsrEL1 := rfl
@[simp] theorem State.enterDebugState_spsrUnknown (s : State) : s.enterDebugState.spsrUnknown = s.spsrUnknown := rfl
@[simp] theorem State.enterDebugState_dbgbvr (s : State) : s.enterDebugState.dbgbvr = s.dbgbvr := rfl
@[simp] theorem State.enterDebugState_dbgwcr (s : State) : s.enterDebugState.dbgwcr = s.dbgwcr := rfl
@[simp] theorem State.enterDebugState_mdscr (s : State) : s.enterDebugState.mdscr = s.mdscr := rfl
@[simp] theorem State.enterDebugState_pmsfcr (s : State) : s.enterDebugState.pmsfcr = s.pmsfcr := rfl
@[simp] theorem State.enterDebugState_brbcrEL1 (s : State) : s.enterDebugState.brbcrEL1 = s.brbcrEL1 := rfl
@[simp] theorem State.enterDebugState_esrEL2 (s : State) : s.enterDebugState.esrEL2 = s.esrEL2 := rfl
@[simp] theorem State.enterDebugState_spsrEL2 (s : State) : s.enterDebugState.spsrEL2 = s.spsrEL2 := rfl
@[simp] theorem State.enterDebugState_brbcrEL2 (s : State) : s.enterDebugState.brbcrEL2 = s.brbcrEL2 := rfl
@[simp] theorem State.enterDebugState_esrPair (s : State) : s.enterDebugState.esrPair = s.esrPair := rfl
@[simp] theorem State.enterDebugState_spsrPair (s : State) : s.enterDebugState.spsrPair = s.spsrPair := rfl
@[simp] theorem State.enterDebugState_brbcrPair (s : State) : s.enterDebugState.brbcrPair = s.brbcrPair := rfl
@[simp] theorem State.enterDebugState_mem (s : State) : s.enterDebugState.mem = s.mem := rfl
@[simp] theorem State.enterDebugState_draws (s : State) : s.enterDebugState.draws = s.draws := rfl
@[simp] theorem State.enterDebugState_pendingEntry (s : State) :
    s.enterDebugState.pendingEntry = s.pendingEntry := rfl
@[simp] theorem State.enterDebugState_pendingIRQ (s : State) :
    s.enterDebugState.pendingIRQ = s.pendingIRQ := rfl
@[simp] theorem State.enterDebugState_pendingFIQ (s : State) :
    s.enterDebugState.pendingFIQ = s.pendingFIQ := rfl
@[simp] theorem State.enterDebugState_pendingSErrors (s : State) :
    s.enterDebugState.pendingSErrors = s.pendingSErrors := rfl
@[simp] theorem State.enterDebugState_pendingPMU (s : State) :
    s.enterDebugState.pendingPMU = s.pendingPMU := rfl
@[simp] theorem State.enterDebugState_brbeLog (s : State) : s.enterDebugState.brbeLog = s.brbeLog := rfl
@[simp] theorem State.enterDebugState_speLog (s : State) : s.enterDebugState.speLog = s.speLog := rfl
@[simp] theorem State.enterDebugState_extResponse (s : State) : s.enterDebugState.extResponse = s.extResponse := rfl

/-! ### answer -/

@[simp] theorem State.answer_cfg (s : State) (r : ExtResponse) : (s.answer r).cfg = s.cfg := rfl
@[simp] theorem State.answer_env (s : State) (r : ExtResponse) : (s.answer r).env = s.env := rfl
@[simp] theorem State.answer_inputs (s : State) (r : ExtResponse) : (s.answer r).inputs = s.inputs := rfl
@[simp] theorem State.answer_progStart (s : State) (r : ExtResponse) : (s.answer r).progStart = s.progStart := rfl
@[simp] theorem State.answer_program (s : State) (r : ExtResponse) : (s.answer r).program = s.program := rfl
@[simp] theorem State.answer_x (s : State) (r : ExtResponse) : (s.answer r).x = s.x := rfl
@[simp] theorem State.answer_pc (s : State) (r : ExtResponse) : (s.answer r).pc = s.pc := rfl
@[simp] theorem State.answer_pstate (s : State) (r : ExtResponse) : (s.answer r).pstate = s.pstate := rfl
@[simp] theorem State.answer_esrEL1 (s : State) (r : ExtResponse) : (s.answer r).esrEL1 = s.esrEL1 := rfl
@[simp] theorem State.answer_esrUnknown (s : State) (r : ExtResponse) : (s.answer r).esrUnknown = s.esrUnknown := rfl
@[simp] theorem State.answer_spsrEL1 (s : State) (r : ExtResponse) : (s.answer r).spsrEL1 = s.spsrEL1 := rfl
@[simp] theorem State.answer_spsrUnknown (s : State) (r : ExtResponse) :
    (s.answer r).spsrUnknown = s.spsrUnknown := rfl
@[simp] theorem State.answer_dbgbvr (s : State) (r : ExtResponse) : (s.answer r).dbgbvr = s.dbgbvr := rfl
@[simp] theorem State.answer_dbgwcr (s : State) (r : ExtResponse) : (s.answer r).dbgwcr = s.dbgwcr := rfl
@[simp] theorem State.answer_mdscr (s : State) (r : ExtResponse) : (s.answer r).mdscr = s.mdscr := rfl
@[simp] theorem State.answer_pmsfcr (s : State) (r : ExtResponse) : (s.answer r).pmsfcr = s.pmsfcr := rfl
@[simp] theorem State.answer_brbcrEL1 (s : State) (r : ExtResponse) : (s.answer r).brbcrEL1 = s.brbcrEL1 := rfl
@[simp] theorem State.answer_esrEL2 (s : State) (r : ExtResponse) : (s.answer r).esrEL2 = s.esrEL2 := rfl
@[simp] theorem State.answer_spsrEL2 (s : State) (r : ExtResponse) : (s.answer r).spsrEL2 = s.spsrEL2 := rfl
@[simp] theorem State.answer_brbcrEL2 (s : State) (r : ExtResponse) : (s.answer r).brbcrEL2 = s.brbcrEL2 := rfl
@[simp] theorem State.answer_esrPair (s : State) (r : ExtResponse) : (s.answer r).esrPair = s.esrPair := rfl
@[simp] theorem State.answer_spsrPair (s : State) (r : ExtResponse) : (s.answer r).spsrPair = s.spsrPair := rfl
@[simp] theorem State.answer_brbcrPair (s : State) (r : ExtResponse) : (s.answer r).brbcrPair = s.brbcrPair := rfl
@[simp] theorem State.answer_mem (s : State) (r : ExtResponse) : (s.answer r).mem = s.mem := rfl
@[simp] theorem State.answer_draws (s : State) (r : ExtResponse) : (s.answer r).draws = s.draws := rfl
@[simp] theorem State.answer_pendingEntry (s : State) (r : ExtResponse) :
    (s.answer r).pendingEntry = s.pendingEntry := rfl
@[simp] theorem State.answer_pendingIRQ (s : State) (r : ExtResponse) :
    (s.answer r).pendingIRQ = s.pendingIRQ := rfl
@[simp] theorem State.answer_pendingFIQ (s : State) (r : ExtResponse) :
    (s.answer r).pendingFIQ = s.pendingFIQ := rfl
@[simp] theorem State.answer_pendingSErrors (s : State) (r : ExtResponse) :
    (s.answer r).pendingSErrors = s.pendingSErrors := rfl
@[simp] theorem State.answer_pendingPMU (s : State) (r : ExtResponse) :
    (s.answer r).pendingPMU = s.pendingPMU := rfl
@[simp] theorem State.answer_brbeLog (s : State) (r : ExtResponse) : (s.answer r).brbeLog = s.brbeLog := rfl
@[simp] theorem State.answer_speLog (s : State) (r : ExtResponse) : (s.answer r).speLog = s.speLog := rfl
@[simp] theorem State.answer_extResponse (s : State) (r : ExtResponse) : (s.answer r).extResponse = some r := rfl

/-! ### nvMemWrite -/

@[simp] theorem State.nvMemWrite_cfg (s : State) (off v : Word) : (s.nvMemWrite off v).cfg = s.cfg := rfl
@[simp] theorem State.nvMemWrite_env (s : State) (off v : Word) : (s.nvMemWrite off v).env = s.env := rfl
@[simp] theorem State.nvMemWrite_inputs (s : State) (off v : Word) : (s.nvMemWrite off v).inputs = s.inputs := rfl
@[simp] theorem State.nvMemWrite_progStart (s : State) (off v : Word) :
    (s.nvMemWrite off v).progStart = s.progStart := rfl
@[simp] theorem State.nvMemWrite_program (s : State) (off v : Word) : (s.nvMemWrite off v).program = s.program := rfl
@[simp] theorem State.nvMemWrite_x (s : State) (off v : Word) : (s.nvMemWrite off v).x = s.x := rfl
@[simp] theorem State.nvMemWrite_pc (s : State) (off v : Word) : (s.nvMemWrite off v).pc = s.pc := rfl
@[simp] theorem State.nvMemWrite_pstate (s : State) (off v : Word) : (s.nvMemWrite off v).pstate = s.pstate := rfl
@[simp] theorem State.nvMemWrite_esrEL1 (s : State) (off v : Word) : (s.nvMemWrite off v).esrEL1 = s.esrEL1 := rfl
@[simp] theorem State.nvMemWrite_esrUnknown (s : State) (off v : Word) :
    (s.nvMemWrite off v).esrUnknown = s.esrUnknown := rfl
@[simp] theorem State.nvMemWrite_spsrEL1 (s : State) (off v : Word) : (s.nvMemWrite off v).spsrEL1 = s.spsrEL1 := rfl
@[simp] theorem State.nvMemWrite_spsrUnknown (s : State) (off v : Word) :
    (s.nvMemWrite off v).spsrUnknown = s.spsrUnknown := rfl
@[simp] theorem State.nvMemWrite_dbgbvr (s : State) (off v : Word) : (s.nvMemWrite off v).dbgbvr = s.dbgbvr := rfl
@[simp] theorem State.nvMemWrite_dbgwcr (s : State) (off v : Word) : (s.nvMemWrite off v).dbgwcr = s.dbgwcr := rfl
@[simp] theorem State.nvMemWrite_mdscr (s : State) (off v : Word) : (s.nvMemWrite off v).mdscr = s.mdscr := rfl
@[simp] theorem State.nvMemWrite_pmsfcr (s : State) (off v : Word) : (s.nvMemWrite off v).pmsfcr = s.pmsfcr := rfl
@[simp] theorem State.nvMemWrite_brbcrEL1 (s : State) (off v : Word) :
    (s.nvMemWrite off v).brbcrEL1 = s.brbcrEL1 := rfl
@[simp] theorem State.nvMemWrite_esrEL2 (s : State) (off v : Word) : (s.nvMemWrite off v).esrEL2 = s.esrEL2 := rfl
@[simp] theorem State.nvMemWrite_spsrEL2 (s : State) (off v : Word) : (s.nvMemWrite off v).spsrEL2 = s.spsrEL2 := rfl
@[simp] theorem State.nvMemWrite_brbcrEL2 (s : State) (off v : Word) :
    (s.nvMemWrite off v).brbcrEL2 = s.brbcrEL2 := rfl
@[simp] theorem State.nvMemWrite_esrPair (s : State) (off v : Word) : (s.nvMemWrite off v).esrPair = s.esrPair := rfl
@[simp] theorem State.nvMemWrite_spsrPair (s : State) (off v : Word) :
    (s.nvMemWrite off v).spsrPair = s.spsrPair := rfl
@[simp] theorem State.nvMemWrite_brbcrPair (s : State) (off v : Word) :
    (s.nvMemWrite off v).brbcrPair = s.brbcrPair := rfl
@[simp] theorem State.nvMemWrite_mem (s : State) (off v : Word) :
    (s.nvMemWrite off v).mem = s.mem.write8 s.cfg.nvMemBigEndian (s.nvMemAddr off) v := rfl
@[simp] theorem State.nvMemWrite_draws (s : State) (off v : Word) : (s.nvMemWrite off v).draws = s.draws := rfl
@[simp] theorem State.nvMemWrite_pendingEntry (s : State) (off v : Word) :
    (s.nvMemWrite off v).pendingEntry = s.pendingEntry := rfl
@[simp] theorem State.nvMemWrite_pendingIRQ (s : State) (off v : Word) :
    (s.nvMemWrite off v).pendingIRQ = s.pendingIRQ := rfl
@[simp] theorem State.nvMemWrite_pendingFIQ (s : State) (off v : Word) :
    (s.nvMemWrite off v).pendingFIQ = s.pendingFIQ := rfl
@[simp] theorem State.nvMemWrite_pendingSErrors (s : State) (off v : Word) :
    (s.nvMemWrite off v).pendingSErrors = s.pendingSErrors := rfl
@[simp] theorem State.nvMemWrite_pendingPMU (s : State) (off v : Word) :
    (s.nvMemWrite off v).pendingPMU = s.pendingPMU := rfl
@[simp] theorem State.nvMemWrite_brbeLog (s : State) (off v : Word) : (s.nvMemWrite off v).brbeLog = s.brbeLog := rfl
@[simp] theorem State.nvMemWrite_speLog (s : State) (off v : Word) : (s.nvMemWrite off v).speLog = s.speLog := rfl
@[simp] theorem State.nvMemWrite_extResponse (s : State) (off v : Word) :
    (s.nvMemWrite off v).extResponse = s.extResponse := rfl

/-! ### writeMdscr -/

@[simp] theorem State.writeMdscr_cfg (s : State) (v : Word) : (s.writeMdscr v).cfg = s.cfg := rfl
@[simp] theorem State.writeMdscr_env (s : State) (v : Word) :
    (s.writeMdscr v).env = { s.env with edscr := if s.env.dbg.oslk then EDSCR.ofWindows s.cfg v s.env.edscr else s.env.edscr } := rfl
@[simp] theorem State.writeMdscr_inputs (s : State) (v : Word) : (s.writeMdscr v).inputs = s.inputs := rfl
@[simp] theorem State.writeMdscr_progStart (s : State) (v : Word) : (s.writeMdscr v).progStart = s.progStart := rfl
@[simp] theorem State.writeMdscr_program (s : State) (v : Word) : (s.writeMdscr v).program = s.program := rfl
@[simp] theorem State.writeMdscr_x (s : State) (v : Word) : (s.writeMdscr v).x = s.x := rfl
@[simp] theorem State.writeMdscr_pc (s : State) (v : Word) : (s.writeMdscr v).pc = s.pc := rfl
@[simp] theorem State.writeMdscr_pstate (s : State) (v : Word) : (s.writeMdscr v).pstate = s.pstate := rfl
@[simp] theorem State.writeMdscr_esrEL1 (s : State) (v : Word) : (s.writeMdscr v).esrEL1 = s.esrEL1 := rfl
@[simp] theorem State.writeMdscr_esrUnknown (s : State) (v : Word) :
    (s.writeMdscr v).esrUnknown = s.esrUnknown := rfl
@[simp] theorem State.writeMdscr_spsrEL1 (s : State) (v : Word) : (s.writeMdscr v).spsrEL1 = s.spsrEL1 := rfl
@[simp] theorem State.writeMdscr_spsrUnknown (s : State) (v : Word) :
    (s.writeMdscr v).spsrUnknown = s.spsrUnknown := rfl
@[simp] theorem State.writeMdscr_dbgbvr (s : State) (v : Word) : (s.writeMdscr v).dbgbvr = s.dbgbvr := rfl
@[simp] theorem State.writeMdscr_dbgwcr (s : State) (v : Word) : (s.writeMdscr v).dbgwcr = s.dbgwcr := rfl
@[simp] theorem State.writeMdscr_mdscr (s : State) (v : Word) : (s.writeMdscr v).mdscr = v &&& mdscrKept s.cfg := rfl
@[simp] theorem State.writeMdscr_pmsfcr (s : State) (v : Word) : (s.writeMdscr v).pmsfcr = s.pmsfcr := rfl
@[simp] theorem State.writeMdscr_brbcrEL1 (s : State) (v : Word) : (s.writeMdscr v).brbcrEL1 = s.brbcrEL1 := rfl
@[simp] theorem State.writeMdscr_esrEL2 (s : State) (v : Word) : (s.writeMdscr v).esrEL2 = s.esrEL2 := rfl
@[simp] theorem State.writeMdscr_spsrEL2 (s : State) (v : Word) : (s.writeMdscr v).spsrEL2 = s.spsrEL2 := rfl
@[simp] theorem State.writeMdscr_brbcrEL2 (s : State) (v : Word) : (s.writeMdscr v).brbcrEL2 = s.brbcrEL2 := rfl
@[simp] theorem State.writeMdscr_esrPair (s : State) (v : Word) : (s.writeMdscr v).esrPair = s.esrPair := rfl
@[simp] theorem State.writeMdscr_spsrPair (s : State) (v : Word) : (s.writeMdscr v).spsrPair = s.spsrPair := rfl
@[simp] theorem State.writeMdscr_brbcrPair (s : State) (v : Word) : (s.writeMdscr v).brbcrPair = s.brbcrPair := rfl
@[simp] theorem State.writeMdscr_mem (s : State) (v : Word) : (s.writeMdscr v).mem = s.mem := rfl
@[simp] theorem State.writeMdscr_draws (s : State) (v : Word) : (s.writeMdscr v).draws = s.draws := rfl
@[simp] theorem State.writeMdscr_pendingEntry (s : State) (v : Word) :
    (s.writeMdscr v).pendingEntry = s.pendingEntry := rfl
@[simp] theorem State.writeMdscr_pendingIRQ (s : State) (v : Word) :
    (s.writeMdscr v).pendingIRQ = s.pendingIRQ := rfl
@[simp] theorem State.writeMdscr_pendingFIQ (s : State) (v : Word) :
    (s.writeMdscr v).pendingFIQ = s.pendingFIQ := rfl
@[simp] theorem State.writeMdscr_pendingSErrors (s : State) (v : Word) :
    (s.writeMdscr v).pendingSErrors = s.pendingSErrors := rfl
@[simp] theorem State.writeMdscr_pendingPMU (s : State) (v : Word) :
    (s.writeMdscr v).pendingPMU = s.pendingPMU := rfl
@[simp] theorem State.writeMdscr_brbeLog (s : State) (v : Word) : (s.writeMdscr v).brbeLog = s.brbeLog := rfl
@[simp] theorem State.writeMdscr_speLog (s : State) (v : Word) : (s.writeMdscr v).speLog = s.speLog := rfl
@[simp] theorem State.writeMdscr_extResponse (s : State) (v : Word) :
    (s.writeMdscr v).extResponse = s.extResponse := rfl

/-! ### writeX -/

@[simp] theorem State.writeX_cfg (s : State) (t : Nat) (v : Word) :
    (s.writeX t v).cfg = s.cfg := by unfold State.writeX; split <;> rfl
@[simp] theorem State.writeX_env (s : State) (t : Nat) (v : Word) :
    (s.writeX t v).env = s.env := by unfold State.writeX; split <;> rfl
@[simp] theorem State.writeX_inputs (s : State) (t : Nat) (v : Word) :
    (s.writeX t v).inputs = s.inputs := by unfold State.writeX; split <;> rfl
@[simp] theorem State.writeX_progStart (s : State) (t : Nat) (v : Word) :
    (s.writeX t v).progStart = s.progStart := by unfold State.writeX; split <;> rfl
@[simp] theorem State.writeX_program (s : State) (t : Nat) (v : Word) :
    (s.writeX t v).program = s.program := by unfold State.writeX; split <;> rfl
@[simp] theorem State.writeX_x (s : State) (t : Nat) (v : Word) :
    (s.writeX t v).x = if h : t < 31 then s.x.set t v else s.x := by unfold State.writeX; split <;> rfl
@[simp] theorem State.writeX_pc (s : State) (t : Nat) (v : Word) :
    (s.writeX t v).pc = s.pc := by unfold State.writeX; split <;> rfl
@[simp] theorem State.writeX_pstate (s : State) (t : Nat) (v : Word) :
    (s.writeX t v).pstate = s.pstate := by unfold State.writeX; split <;> rfl
@[simp] theorem State.writeX_esrEL1 (s : State) (t : Nat) (v : Word) :
    (s.writeX t v).esrEL1 = s.esrEL1 := by unfold State.writeX; split <;> rfl
@[simp] theorem State.writeX_esrUnknown (s : State) (t : Nat) (v : Word) :
    (s.writeX t v).esrUnknown = s.esrUnknown := by unfold State.writeX; split <;> rfl
@[simp] theorem State.writeX_spsrEL1 (s : State) (t : Nat) (v : Word) :
    (s.writeX t v).spsrEL1 = s.spsrEL1 := by unfold State.writeX; split <;> rfl
@[simp] theorem State.writeX_spsrUnknown (s : State) (t : Nat) (v : Word) :
    (s.writeX t v).spsrUnknown = s.spsrUnknown := by unfold State.writeX; split <;> rfl
@[simp] theorem State.writeX_dbgbvr (s : State) (t : Nat) (v : Word) :
    (s.writeX t v).dbgbvr = s.dbgbvr := by unfold State.writeX; split <;> rfl
@[simp] theorem State.writeX_dbgwcr (s : State) (t : Nat) (v : Word) :
    (s.writeX t v).dbgwcr = s.dbgwcr := by unfold State.writeX; split <;> rfl
@[simp] theorem State.writeX_mdscr (s : State) (t : Nat) (v : Word) :
    (s.writeX t v).mdscr = s.mdscr := by unfold State.writeX; split <;> rfl
@[simp] theorem State.writeX_pmsfcr (s : State) (t : Nat) (v : Word) :
    (s.writeX t v).pmsfcr = s.pmsfcr := by unfold State.writeX; split <;> rfl
@[simp] theorem State.writeX_brbcrEL1 (s : State) (t : Nat) (v : Word) :
    (s.writeX t v).brbcrEL1 = s.brbcrEL1 := by unfold State.writeX; split <;> rfl
@[simp] theorem State.writeX_esrEL2 (s : State) (t : Nat) (v : Word) :
    (s.writeX t v).esrEL2 = s.esrEL2 := by unfold State.writeX; split <;> rfl
@[simp] theorem State.writeX_spsrEL2 (s : State) (t : Nat) (v : Word) :
    (s.writeX t v).spsrEL2 = s.spsrEL2 := by unfold State.writeX; split <;> rfl
@[simp] theorem State.writeX_brbcrEL2 (s : State) (t : Nat) (v : Word) :
    (s.writeX t v).brbcrEL2 = s.brbcrEL2 := by unfold State.writeX; split <;> rfl
@[simp] theorem State.writeX_esrPair (s : State) (t : Nat) (v : Word) :
    (s.writeX t v).esrPair = s.esrPair := by unfold State.writeX; split <;> rfl
@[simp] theorem State.writeX_spsrPair (s : State) (t : Nat) (v : Word) :
    (s.writeX t v).spsrPair = s.spsrPair := by unfold State.writeX; split <;> rfl
@[simp] theorem State.writeX_brbcrPair (s : State) (t : Nat) (v : Word) :
    (s.writeX t v).brbcrPair = s.brbcrPair := by unfold State.writeX; split <;> rfl
@[simp] theorem State.writeX_mem (s : State) (t : Nat) (v : Word) :
    (s.writeX t v).mem = s.mem := by unfold State.writeX; split <;> rfl
@[simp] theorem State.writeX_draws (s : State) (t : Nat) (v : Word) :
    (s.writeX t v).draws = s.draws := by unfold State.writeX; split <;> rfl
@[simp] theorem State.writeX_pendingEntry (s : State) (t : Nat) (v : Word) :
    (s.writeX t v).pendingEntry = s.pendingEntry := by unfold State.writeX; split <;> rfl
@[simp] theorem State.writeX_pendingIRQ (s : State) (t : Nat) (v : Word) :
    (s.writeX t v).pendingIRQ = s.pendingIRQ := by unfold State.writeX; split <;> rfl
@[simp] theorem State.writeX_pendingFIQ (s : State) (t : Nat) (v : Word) :
    (s.writeX t v).pendingFIQ = s.pendingFIQ := by unfold State.writeX; split <;> rfl
@[simp] theorem State.writeX_pendingSErrors (s : State) (t : Nat) (v : Word) :
    (s.writeX t v).pendingSErrors = s.pendingSErrors := by unfold State.writeX; split <;> rfl
@[simp] theorem State.writeX_pendingPMU (s : State) (t : Nat) (v : Word) :
    (s.writeX t v).pendingPMU = s.pendingPMU := by unfold State.writeX; split <;> rfl
@[simp] theorem State.writeX_brbeLog (s : State) (t : Nat) (v : Word) :
    (s.writeX t v).brbeLog = s.brbeLog := by unfold State.writeX; split <;> rfl
@[simp] theorem State.writeX_speLog (s : State) (t : Nat) (v : Word) :
    (s.writeX t v).speLog = s.speLog := by unfold State.writeX; split <;> rfl
@[simp] theorem State.writeX_extResponse (s : State) (t : Nat) (v : Word) :
    (s.writeX t v).extResponse = s.extResponse := by unfold State.writeX; split <;> rfl

/-! ### writeWcr -/

@[simp] theorem State.writeWcr_cfg (s : State) (i : Nat) (v : Word) :
    (s.writeWcr i v).cfg = s.cfg := by unfold State.writeWcr; split <;> rfl
@[simp] theorem State.writeWcr_env (s : State) (i : Nat) (v : Word) :
    (s.writeWcr i v).env = s.env := by unfold State.writeWcr; split <;> rfl
@[simp] theorem State.writeWcr_inputs (s : State) (i : Nat) (v : Word) :
    (s.writeWcr i v).inputs = s.inputs := by unfold State.writeWcr; split <;> rfl
@[simp] theorem State.writeWcr_progStart (s : State) (i : Nat) (v : Word) :
    (s.writeWcr i v).progStart = s.progStart := by unfold State.writeWcr; split <;> rfl
@[simp] theorem State.writeWcr_program (s : State) (i : Nat) (v : Word) :
    (s.writeWcr i v).program = s.program := by unfold State.writeWcr; split <;> rfl
@[simp] theorem State.writeWcr_x (s : State) (i : Nat) (v : Word) :
    (s.writeWcr i v).x = s.x := by unfold State.writeWcr; split <;> rfl
@[simp] theorem State.writeWcr_pc (s : State) (i : Nat) (v : Word) :
    (s.writeWcr i v).pc = s.pc := by unfold State.writeWcr; split <;> rfl
@[simp] theorem State.writeWcr_pstate (s : State) (i : Nat) (v : Word) :
    (s.writeWcr i v).pstate = s.pstate := by unfold State.writeWcr; split <;> rfl
@[simp] theorem State.writeWcr_esrEL1 (s : State) (i : Nat) (v : Word) :
    (s.writeWcr i v).esrEL1 = s.esrEL1 := by unfold State.writeWcr; split <;> rfl
@[simp] theorem State.writeWcr_esrUnknown (s : State) (i : Nat) (v : Word) :
    (s.writeWcr i v).esrUnknown = s.esrUnknown := by unfold State.writeWcr; split <;> rfl
@[simp] theorem State.writeWcr_spsrEL1 (s : State) (i : Nat) (v : Word) :
    (s.writeWcr i v).spsrEL1 = s.spsrEL1 := by unfold State.writeWcr; split <;> rfl
@[simp] theorem State.writeWcr_spsrUnknown (s : State) (i : Nat) (v : Word) :
    (s.writeWcr i v).spsrUnknown = s.spsrUnknown := by unfold State.writeWcr; split <;> rfl
@[simp] theorem State.writeWcr_dbgbvr (s : State) (i : Nat) (v : Word) :
    (s.writeWcr i v).dbgbvr = s.dbgbvr := by unfold State.writeWcr; split <;> rfl
@[simp] theorem State.writeWcr_dbgwcr (s : State) (i : Nat) (v : Word) :
    (s.writeWcr i v).dbgwcr = if h : i < 64 then s.dbgwcr.set i v else s.dbgwcr := by unfold State.writeWcr; split <;> rfl
@[simp] theorem State.writeWcr_mdscr (s : State) (i : Nat) (v : Word) :
    (s.writeWcr i v).mdscr = s.mdscr := by unfold State.writeWcr; split <;> rfl
@[simp] theorem State.writeWcr_pmsfcr (s : State) (i : Nat) (v : Word) :
    (s.writeWcr i v).pmsfcr = s.pmsfcr := by unfold State.writeWcr; split <;> rfl
@[simp] theorem State.writeWcr_brbcrEL1 (s : State) (i : Nat) (v : Word) :
    (s.writeWcr i v).brbcrEL1 = s.brbcrEL1 := by unfold State.writeWcr; split <;> rfl
@[simp] theorem State.writeWcr_esrEL2 (s : State) (i : Nat) (v : Word) :
    (s.writeWcr i v).esrEL2 = s.esrEL2 := by unfold State.writeWcr; split <;> rfl
@[simp] theorem State.writeWcr_spsrEL2 (s : State) (i : Nat) (v : Word) :
    (s.writeWcr i v).spsrEL2 = s.spsrEL2 := by unfold State.writeWcr; split <;> rfl
@[simp] theorem State.writeWcr_brbcrEL2 (s : State) (i : Nat) (v : Word) :
    (s.writeWcr i v).brbcrEL2 = s.brbcrEL2 := by unfold State.writeWcr; split <;> rfl
@[simp] theorem State.writeWcr_esrPair (s : State) (i : Nat) (v : Word) :
    (s.writeWcr i v).esrPair = s.esrPair := by unfold State.writeWcr; split <;> rfl
@[simp] theorem State.writeWcr_spsrPair (s : State) (i : Nat) (v : Word) :
    (s.writeWcr i v).spsrPair = s.spsrPair := by unfold State.writeWcr; split <;> rfl
@[simp] theorem State.writeWcr_brbcrPair (s : State) (i : Nat) (v : Word) :
    (s.writeWcr i v).brbcrPair = s.brbcrPair := by unfold State.writeWcr; split <;> rfl
@[simp] theorem State.writeWcr_mem (s : State) (i : Nat) (v : Word) :
    (s.writeWcr i v).mem = s.mem := by unfold State.writeWcr; split <;> rfl
@[simp] theorem State.writeWcr_draws (s : State) (i : Nat) (v : Word) :
    (s.writeWcr i v).draws = s.draws := by unfold State.writeWcr; split <;> rfl
@[simp] theorem State.writeWcr_pendingEntry (s : State) (i : Nat) (v : Word) :
    (s.writeWcr i v).pendingEntry = s.pendingEntry := by unfold State.writeWcr; split <;> rfl
@[simp] theorem State.writeWcr_pendingIRQ (s : State) (i : Nat) (v : Word) :
    (s.writeWcr i v).pendingIRQ = s.pendingIRQ := by unfold State.writeWcr; split <;> rfl
@[simp] theorem State.writeWcr_pendingFIQ (s : State) (i : Nat) (v : Word) :
    (s.writeWcr i v).pendingFIQ = s.pendingFIQ := by unfold State.writeWcr; split <;> rfl
@[simp] theorem State.writeWcr_pendingSErrors (s : State) (i : Nat) (v : Word) :
    (s.writeWcr i v).pendingSErrors = s.pendingSErrors := by unfold State.writeWcr; split <;> rfl
@[simp] theorem State.writeWcr_pendingPMU (s : State) (i : Nat) (v : Word) :
    (s.writeWcr i v).pendingPMU = s.pendingPMU := by unfold State.writeWcr; split <;> rfl
@[simp] theorem State.writeWcr_brbeLog (s : State) (i : Nat) (v : Word) :
    (s.writeWcr i v).brbeLog = s.brbeLog := by unfold State.writeWcr; split <;> rfl
@[simp] theorem State.writeWcr_speLog (s : State) (i : Nat) (v : Word) :
    (s.writeWcr i v).speLog = s.speLog := by unfold State.writeWcr; split <;> rfl
@[simp] theorem State.writeWcr_extResponse (s : State) (i : Nat) (v : Word) :
    (s.writeWcr i v).extResponse = s.extResponse := by unfold State.writeWcr; split <;> rfl

/-! ### writeBvr -/

@[simp] theorem State.writeBvr_cfg (s : State) (n : Nat) (v : Word) :
    (s.writeBvr n v).cfg = s.cfg := by unfold State.writeBvr; split <;> rfl
@[simp] theorem State.writeBvr_env (s : State) (n : Nat) (v : Word) :
    (s.writeBvr n v).env = s.env := by unfold State.writeBvr; split <;> rfl
@[simp] theorem State.writeBvr_inputs (s : State) (n : Nat) (v : Word) :
    (s.writeBvr n v).inputs = s.inputs := by unfold State.writeBvr; split <;> rfl
@[simp] theorem State.writeBvr_progStart (s : State) (n : Nat) (v : Word) :
    (s.writeBvr n v).progStart = s.progStart := by unfold State.writeBvr; split <;> rfl
@[simp] theorem State.writeBvr_program (s : State) (n : Nat) (v : Word) :
    (s.writeBvr n v).program = s.program := by unfold State.writeBvr; split <;> rfl
@[simp] theorem State.writeBvr_x (s : State) (n : Nat) (v : Word) :
    (s.writeBvr n v).x = s.x := by unfold State.writeBvr; split <;> rfl
@[simp] theorem State.writeBvr_pc (s : State) (n : Nat) (v : Word) :
    (s.writeBvr n v).pc = s.pc := by unfold State.writeBvr; split <;> rfl
@[simp] theorem State.writeBvr_pstate (s : State) (n : Nat) (v : Word) :
    (s.writeBvr n v).pstate = s.pstate := by unfold State.writeBvr; split <;> rfl
@[simp] theorem State.writeBvr_esrEL1 (s : State) (n : Nat) (v : Word) :
    (s.writeBvr n v).esrEL1 = s.esrEL1 := by unfold State.writeBvr; split <;> rfl
@[simp] theorem State.writeBvr_esrUnknown (s : State) (n : Nat) (v : Word) :
    (s.writeBvr n v).esrUnknown = s.esrUnknown := by unfold State.writeBvr; split <;> rfl
@[simp] theorem State.writeBvr_spsrEL1 (s : State) (n : Nat) (v : Word) :
    (s.writeBvr n v).spsrEL1 = s.spsrEL1 := by unfold State.writeBvr; split <;> rfl
@[simp] theorem State.writeBvr_spsrUnknown (s : State) (n : Nat) (v : Word) :
    (s.writeBvr n v).spsrUnknown = s.spsrUnknown := by unfold State.writeBvr; split <;> rfl
@[simp] theorem State.writeBvr_dbgbvr (s : State) (n : Nat) (v : Word) :
    (s.writeBvr n v).dbgbvr = if h : n < 16 then s.dbgbvr.set n v else s.dbgbvr := by unfold State.writeBvr; split <;> rfl
@[simp] theorem State.writeBvr_dbgwcr (s : State) (n : Nat) (v : Word) :
    (s.writeBvr n v).dbgwcr = s.dbgwcr := by unfold State.writeBvr; split <;> rfl
@[simp] theorem State.writeBvr_mdscr (s : State) (n : Nat) (v : Word) :
    (s.writeBvr n v).mdscr = s.mdscr := by unfold State.writeBvr; split <;> rfl
@[simp] theorem State.writeBvr_pmsfcr (s : State) (n : Nat) (v : Word) :
    (s.writeBvr n v).pmsfcr = s.pmsfcr := by unfold State.writeBvr; split <;> rfl
@[simp] theorem State.writeBvr_brbcrEL1 (s : State) (n : Nat) (v : Word) :
    (s.writeBvr n v).brbcrEL1 = s.brbcrEL1 := by unfold State.writeBvr; split <;> rfl
@[simp] theorem State.writeBvr_esrEL2 (s : State) (n : Nat) (v : Word) :
    (s.writeBvr n v).esrEL2 = s.esrEL2 := by unfold State.writeBvr; split <;> rfl
@[simp] theorem State.writeBvr_spsrEL2 (s : State) (n : Nat) (v : Word) :
    (s.writeBvr n v).spsrEL2 = s.spsrEL2 := by unfold State.writeBvr; split <;> rfl
@[simp] theorem State.writeBvr_brbcrEL2 (s : State) (n : Nat) (v : Word) :
    (s.writeBvr n v).brbcrEL2 = s.brbcrEL2 := by unfold State.writeBvr; split <;> rfl
@[simp] theorem State.writeBvr_esrPair (s : State) (n : Nat) (v : Word) :
    (s.writeBvr n v).esrPair = s.esrPair := by unfold State.writeBvr; split <;> rfl
@[simp] theorem State.writeBvr_spsrPair (s : State) (n : Nat) (v : Word) :
    (s.writeBvr n v).spsrPair = s.spsrPair := by unfold State.writeBvr; split <;> rfl
@[simp] theorem State.writeBvr_brbcrPair (s : State) (n : Nat) (v : Word) :
    (s.writeBvr n v).brbcrPair = s.brbcrPair := by unfold State.writeBvr; split <;> rfl
@[simp] theorem State.writeBvr_mem (s : State) (n : Nat) (v : Word) :
    (s.writeBvr n v).mem = s.mem := by unfold State.writeBvr; split <;> rfl
@[simp] theorem State.writeBvr_draws (s : State) (n : Nat) (v : Word) :
    (s.writeBvr n v).draws = s.draws := by unfold State.writeBvr; split <;> rfl
@[simp] theorem State.writeBvr_pendingEntry (s : State) (n : Nat) (v : Word) :
    (s.writeBvr n v).pendingEntry = s.pendingEntry := by unfold State.writeBvr; split <;> rfl
@[simp] theorem State.writeBvr_pendingIRQ (s : State) (n : Nat) (v : Word) :
    (s.writeBvr n v).pendingIRQ = s.pendingIRQ := by unfold State.writeBvr; split <;> rfl
@[simp] theorem State.writeBvr_pendingFIQ (s : State) (n : Nat) (v : Word) :
    (s.writeBvr n v).pendingFIQ = s.pendingFIQ := by unfold State.writeBvr; split <;> rfl
@[simp] theorem State.writeBvr_pendingSErrors (s : State) (n : Nat) (v : Word) :
    (s.writeBvr n v).pendingSErrors = s.pendingSErrors := by unfold State.writeBvr; split <;> rfl
@[simp] theorem State.writeBvr_pendingPMU (s : State) (n : Nat) (v : Word) :
    (s.writeBvr n v).pendingPMU = s.pendingPMU := by unfold State.writeBvr; split <;> rfl
@[simp] theorem State.writeBvr_brbeLog (s : State) (n : Nat) (v : Word) :
    (s.writeBvr n v).brbeLog = s.brbeLog := by unfold State.writeBvr; split <;> rfl
@[simp] theorem State.writeBvr_speLog (s : State) (n : Nat) (v : Word) :
    (s.writeBvr n v).speLog = s.speLog := by unfold State.writeBvr; split <;> rfl
@[simp] theorem State.writeBvr_extResponse (s : State) (n : Nat) (v : Word) :
    (s.writeBvr n v).extResponse = s.extResponse := by unfold State.writeBvr; split <;> rfl

/-! ### afterRead -/

@[simp] theorem State.afterRead_cfg (s : State) (r : Reading) :
    (s.afterRead r).cfg = s.cfg := by unfold State.afterRead; split <;> rfl
@[simp] theorem State.afterRead_env (s : State) (r : Reading) :
    (s.afterRead r).env = s.env := by unfold State.afterRead; split <;> rfl
@[simp] theorem State.afterRead_inputs (s : State) (r : Reading) :
    (s.afterRead r).inputs = s.inputs := by unfold State.afterRead; split <;> rfl
@[simp] theorem State.afterRead_progStart (s : State) (r : Reading) :
    (s.afterRead r).progStart = s.progStart := by unfold State.afterRead; split <;> rfl
@[simp] theorem State.afterRead_program (s : State) (r : Reading) :
    (s.afterRead r).program = s.program := by unfold State.afterRead; split <;> rfl
@[simp] theorem State.afterRead_x (s : State) (r : Reading) :
    (s.afterRead r).x = s.x := by unfold State.afterRead; split <;> rfl
@[simp] theorem State.afterRead_pc (s : State) (r : Reading) :
    (s.afterRead r).pc = s.pc := by unfold State.afterRead; split <;> rfl
@[simp] theorem State.afterRead_pstate (s : State) (r : Reading) :
    (s.afterRead r).pstate = s.pstate := by unfold State.afterRead; split <;> rfl
@[simp] theorem State.afterRead_esrEL1 (s : State) (r : Reading) :
    (s.afterRead r).esrEL1 = s.esrEL1 := by unfold State.afterRead; split <;> rfl
@[simp] theorem State.afterRead_esrUnknown (s : State) (r : Reading) :
    (s.afterRead r).esrUnknown = s.esrUnknown := by unfold State.afterRead; split <;> rfl
@[simp] theorem State.afterRead_spsrEL1 (s : State) (r : Reading) :
    (s.afterRead r).spsrEL1 = s.spsrEL1 := by unfold State.afterRead; split <;> rfl
@[simp] theorem State.afterRead_spsrUnknown (s : State) (r : Reading) :
    (s.afterRead r).spsrUnknown = s.spsrUnknown := by unfold State.afterRead; split <;> rfl
@[simp] theorem State.afterRead_dbgbvr (s : State) (r : Reading) :
    (s.afterRead r).dbgbvr = s.dbgbvr := by unfold State.afterRead; split <;> rfl
@[simp] theorem State.afterRead_dbgwcr (s : State) (r : Reading) :
    (s.afterRead r).dbgwcr = s.dbgwcr := by unfold State.afterRead; split <;> rfl
@[simp] theorem State.afterRead_mdscr (s : State) (r : Reading) :
    (s.afterRead r).mdscr = s.mdscr := by unfold State.afterRead; split <;> rfl
@[simp] theorem State.afterRead_pmsfcr (s : State) (r : Reading) :
    (s.afterRead r).pmsfcr = s.pmsfcr := by unfold State.afterRead; split <;> rfl
@[simp] theorem State.afterRead_brbcrEL1 (s : State) (r : Reading) :
    (s.afterRead r).brbcrEL1 = s.brbcrEL1 := by unfold State.afterRead; split <;> rfl
@[simp] theorem State.afterRead_esrEL2 (s : State) (r : Reading) :
    (s.afterRead r).esrEL2 = s.esrEL2 := by unfold State.afterRead; split <;> rfl
@[simp] theorem State.afterRead_spsrEL2 (s : State) (r : Reading) :
    (s.afterRead r).spsrEL2 = s.spsrEL2 := by unfold State.afterRead; split <;> rfl
@[simp] theorem State.afterRead_brbcrEL2 (s : State) (r : Reading) :
    (s.afterRead r).brbcrEL2 = s.brbcrEL2 := by unfold State.afterRead; split <;> rfl
@[simp] theorem State.afterRead_esrPair (s : State) (r : Reading) :
    (s.afterRead r).esrPair = s.esrPair := by unfold State.afterRead; split <;> rfl
@[simp] theorem State.afterRead_spsrPair (s : State) (r : Reading) :
    (s.afterRead r).spsrPair = s.spsrPair := by unfold State.afterRead; split <;> rfl
@[simp] theorem State.afterRead_brbcrPair (s : State) (r : Reading) :
    (s.afterRead r).brbcrPair = s.brbcrPair := by unfold State.afterRead; split <;> rfl
@[simp] theorem State.afterRead_mem (s : State) (r : Reading) :
    (s.afterRead r).mem = s.mem := by unfold State.afterRead; split <;> rfl
@[simp] theorem State.afterRead_draws (s : State) (r : Reading) :
    (s.afterRead r).draws = s.draws + (if r.isOpen then 1 else 0) := by unfold State.afterRead; split <;> rfl
@[simp] theorem State.afterRead_pendingEntry (s : State) (r : Reading) :
    (s.afterRead r).pendingEntry = s.pendingEntry := by unfold State.afterRead; split <;> rfl
@[simp] theorem State.afterRead_pendingIRQ (s : State) (r : Reading) :
    (s.afterRead r).pendingIRQ = s.pendingIRQ := by unfold State.afterRead; split <;> rfl
@[simp] theorem State.afterRead_pendingFIQ (s : State) (r : Reading) :
    (s.afterRead r).pendingFIQ = s.pendingFIQ := by unfold State.afterRead; split <;> rfl
@[simp] theorem State.afterRead_pendingSErrors (s : State) (r : Reading) :
    (s.afterRead r).pendingSErrors = s.pendingSErrors := by unfold State.afterRead; split <;> rfl
@[simp] theorem State.afterRead_pendingPMU (s : State) (r : Reading) :
    (s.afterRead r).pendingPMU = s.pendingPMU := by unfold State.afterRead; split <;> rfl
@[simp] theorem State.afterRead_brbeLog (s : State) (r : Reading) :
    (s.afterRead r).brbeLog = s.brbeLog := by unfold State.afterRead; split <;> rfl
@[simp] theorem State.afterRead_speLog (s : State) (r : Reading) :
    (s.afterRead r).speLog = s.speLog := by unfold State.afterRead; split <;> rfl
@[simp] theorem State.afterRead_extResponse (s : State) (r : Reading) :
    (s.afterRead r).extResponse = s.extResponse := by unfold State.afterRead; split <;> rfl

/-! ### afterPairedChoice -/

@[simp] theorem State.afterPairedChoice_cfg (s : State) (p : RegPair) (n : PairName) :
    (s.afterPairedChoice p n).cfg = s.cfg := by unfold State.afterPairedChoice; split <;> rfl
@[simp] theorem State.afterPairedChoice_env (s : State) (p : RegPair) (n : PairName) :
    (s.afterPairedChoice p n).env = s.env := by unfold State.afterPairedChoice; split <;> rfl
@[simp] theorem State.afterPairedChoice_inputs (s : State) (p : RegPair) (n : PairName) :
    (s.afterPairedChoice p n).inputs = s.inputs := by unfold State.afterPairedChoice; split <;> rfl
@[simp] theorem State.afterPairedChoice_progStart (s : State) (p : RegPair) (n : PairName) :
    (s.afterPairedChoice p n).progStart = s.progStart := by unfold State.afterPairedChoice; split <;> rfl
@[simp] theorem State.afterPairedChoice_program (s : State) (p : RegPair) (n : PairName) :
    (s.afterPairedChoice p n).program = s.program := by unfold State.afterPairedChoice; split <;> rfl
@[simp] theorem State.afterPairedChoice_x (s : State) (p : RegPair) (n : PairName) :
    (s.afterPairedChoice p n).x = s.x := by unfold State.afterPairedChoice; split <;> rfl
@[simp] theorem State.afterPairedChoice_pc (s : State) (p : RegPair) (n : PairName) :
    (s.afterPairedChoice p n).pc = s.pc := by unfold State.afterPairedChoice; split <;> rfl
@[simp] theorem State.afterPairedChoice_pstate (s : State) (p : RegPair) (n : PairName) :
    (s.afterPairedChoice p n).pstate = s.pstate := by unfold State.afterPairedChoice; split <;> rfl
@[simp] theorem State.afterPairedChoice_esrEL1 (s : State) (p : RegPair) (n : PairName) :
    (s.afterPairedChoice p n).esrEL1 = s.esrEL1 := by unfold State.afterPairedChoice; split <;> rfl
@[simp] theorem State.afterPairedChoice_esrUnknown (s : State) (p : RegPair) (n : PairName) :
    (s.afterPairedChoice p n).esrUnknown = s.esrUnknown := by unfold State.afterPairedChoice; split <;> rfl
@[simp] theorem State.afterPairedChoice_spsrEL1 (s : State) (p : RegPair) (n : PairName) :
    (s.afterPairedChoice p n).spsrEL1 = s.spsrEL1 := by unfold State.afterPairedChoice; split <;> rfl
@[simp] theorem State.afterPairedChoice_spsrUnknown (s : State) (p : RegPair) (n : PairName) :
    (s.afterPairedChoice p n).spsrUnknown = s.spsrUnknown := by unfold State.afterPairedChoice; split <;> rfl
@[simp] theorem State.afterPairedChoice_dbgbvr (s : State) (p : RegPair) (n : PairName) :
    (s.afterPairedChoice p n).dbgbvr = s.dbgbvr := by unfold State.afterPairedChoice; split <;> rfl
@[simp] theorem State.afterPairedChoice_dbgwcr (s : State) (p : RegPair) (n : PairName) :
    (s.afterPairedChoice p n).dbgwcr = s.dbgwcr := by unfold State.afterPairedChoice; split <;> rfl
@[simp] theorem State.afterPairedChoice_mdscr (s : State) (p : RegPair) (n : PairName) :
    (s.afterPairedChoice p n).mdscr = s.mdscr := by unfold State.afterPairedChoice; split <;> rfl
@[simp] theorem State.afterPairedChoice_pmsfcr (s : State) (p : RegPair) (n : PairName) :
    (s.afterPairedChoice p n).pmsfcr = s.pmsfcr := by unfold State.afterPairedChoice; split <;> rfl
@[simp] theorem State.afterPairedChoice_brbcrEL1 (s : State) (p : RegPair) (n : PairName) :
    (s.afterPairedChoice p n).brbcrEL1 = s.brbcrEL1 := by unfold State.afterPairedChoice; split <;> rfl
@[simp] theorem State.afterPairedChoice_esrEL2 (s : State) (p : RegPair) (n : PairName) :
    (s.afterPairedChoice p n).esrEL2 = s.esrEL2 := by unfold State.afterPairedChoice; split <;> rfl
@[simp] theorem State.afterPairedChoice_spsrEL2 (s : State) (p : RegPair) (n : PairName) :
    (s.afterPairedChoice p n).spsrEL2 = s.spsrEL2 := by unfold State.afterPairedChoice; split <;> rfl
@[simp] theorem State.afterPairedChoice_brbcrEL2 (s : State) (p : RegPair) (n : PairName) :
    (s.afterPairedChoice p n).brbcrEL2 = s.brbcrEL2 := by unfold State.afterPairedChoice; split <;> rfl
@[simp] theorem State.afterPairedChoice_esrPair (s : State) (p : RegPair) (n : PairName) :
    (s.afterPairedChoice p n).esrPair = s.esrPair := by unfold State.afterPairedChoice; split <;> rfl
@[simp] theorem State.afterPairedChoice_spsrPair (s : State) (p : RegPair) (n : PairName) :
    (s.afterPairedChoice p n).spsrPair = s.spsrPair := by unfold State.afterPairedChoice; split <;> rfl
@[simp] theorem State.afterPairedChoice_brbcrPair (s : State) (p : RegPair) (n : PairName) :
    (s.afterPairedChoice p n).brbcrPair = s.brbcrPair := by unfold State.afterPairedChoice; split <;> rfl
@[simp] theorem State.afterPairedChoice_mem (s : State) (p : RegPair) (n : PairName) :
    (s.afterPairedChoice p n).mem = s.mem := by unfold State.afterPairedChoice; split <;> rfl
@[simp] theorem State.afterPairedChoice_pendingEntry (s : State) (p : RegPair) (n : PairName) :
    (s.afterPairedChoice p n).pendingEntry = s.pendingEntry := by unfold State.afterPairedChoice; split <;> rfl
@[simp] theorem State.afterPairedChoice_pendingIRQ (s : State) (p : RegPair) (n : PairName) :
    (s.afterPairedChoice p n).pendingIRQ = s.pendingIRQ := by unfold State.afterPairedChoice; split <;> rfl
@[simp] theorem State.afterPairedChoice_pendingFIQ (s : State) (p : RegPair) (n : PairName) :
    (s.afterPairedChoice p n).pendingFIQ = s.pendingFIQ := by unfold State.afterPairedChoice; split <;> rfl
@[simp] theorem State.afterPairedChoice_pendingSErrors (s : State) (p : RegPair) (n : PairName) :
    (s.afterPairedChoice p n).pendingSErrors = s.pendingSErrors := by unfold State.afterPairedChoice; split <;> rfl
@[simp] theorem State.afterPairedChoice_pendingPMU (s : State) (p : RegPair) (n : PairName) :
    (s.afterPairedChoice p n).pendingPMU = s.pendingPMU := by unfold State.afterPairedChoice; split <;> rfl
@[simp] theorem State.afterPairedChoice_brbeLog (s : State) (p : RegPair) (n : PairName) :
    (s.afterPairedChoice p n).brbeLog = s.brbeLog := by unfold State.afterPairedChoice; split <;> rfl
@[simp] theorem State.afterPairedChoice_speLog (s : State) (p : RegPair) (n : PairName) :
    (s.afterPairedChoice p n).speLog = s.speLog := by unfold State.afterPairedChoice; split <;> rfl
@[simp] theorem State.afterPairedChoice_extResponse (s : State) (p : RegPair) (n : PairName) :
    (s.afterPairedChoice p n).extResponse = s.extResponse := by unfold State.afterPairedChoice; split <;> rfl

/-! ### settle -/

@[simp] theorem State.settle_cfg (s : State) : s.settle.cfg = s.cfg := by unfold State.settle; split <;> rfl
@[simp] theorem State.settle_env (s : State) : s.settle.env = s.env := by unfold State.settle; split <;> rfl
@[simp] theorem State.settle_inputs (s : State) : s.settle.inputs = s.inputs := by unfold State.settle; split <;> rfl
@[simp] theorem State.settle_progStart (s : State) :
    s.settle.progStart = s.progStart := by unfold State.settle; split <;> rfl
@[simp] theorem State.settle_program (s : State) :
    s.settle.program = s.program := by unfold State.settle; split <;> rfl
@[simp] theorem State.settle_x (s : State) : s.settle.x = s.x := by unfold State.settle; split <;> rfl
@[simp] theorem State.settle_pc (s : State) : s.settle.pc = s.pc := by unfold State.settle; split <;> rfl
@[simp] theorem State.settle_pstate (s : State) : s.settle.pstate = s.pstate := by unfold State.settle; split <;> rfl
@[simp] theorem State.settle_esrEL1 (s : State) : s.settle.esrEL1 = s.esrEL1 := by unfold State.settle; split <;> rfl
@[simp] theorem State.settle_esrUnknown (s : State) :
    s.settle.esrUnknown = s.esrUnknown := by unfold State.settle; split <;> rfl
@[simp] theorem State.settle_spsrEL1 (s : State) :
    s.settle.spsrEL1 = s.spsrEL1 := by unfold State.settle; split <;> rfl
@[simp] theorem State.settle_spsrUnknown (s : State) :
    s.settle.spsrUnknown = s.spsrUnknown := by unfold State.settle; split <;> rfl
@[simp] theorem State.settle_dbgbvr (s : State) : s.settle.dbgbvr = s.dbgbvr := by unfold State.settle; split <;> rfl
@[simp] theorem State.settle_dbgwcr (s : State) : s.settle.dbgwcr = s.dbgwcr := by unfold State.settle; split <;> rfl
@[simp] theorem State.settle_mdscr (s : State) : s.settle.mdscr = s.mdscr := by unfold State.settle; split <;> rfl
@[simp] theorem State.settle_pmsfcr (s : State) : s.settle.pmsfcr = s.pmsfcr := by unfold State.settle; split <;> rfl
@[simp] theorem State.settle_brbcrEL1 (s : State) :
    s.settle.brbcrEL1 = s.brbcrEL1 := by unfold State.settle; split <;> rfl
@[simp] theorem State.settle_esrEL2 (s : State) : s.settle.esrEL2 = s.esrEL2 := by unfold State.settle; split <;> rfl
@[simp] theorem State.settle_spsrEL2 (s : State) :
    s.settle.spsrEL2 = s.spsrEL2 := by unfold State.settle; split <;> rfl
@[simp] theorem State.settle_brbcrEL2 (s : State) :
    s.settle.brbcrEL2 = s.brbcrEL2 := by unfold State.settle; split <;> rfl
@[simp] theorem State.settle_esrPair (s : State) :
    s.settle.esrPair = if s.pstate.EL = .el3 then s.esrPair else none := by unfold State.settle; split <;> rfl
@[simp] theorem State.settle_spsrPair (s : State) :
    s.settle.spsrPair = if s.pstate.EL = .el3 then s.spsrPair else none := by unfold State.settle; split <;> rfl
@[simp] theorem State.settle_brbcrPair (s : State) :
    s.settle.brbcrPair = if s.pstate.EL = .el3 then s.brbcrPair else none := by unfold State.settle; split <;> rfl
@[simp] theorem State.settle_mem (s : State) : s.settle.mem = s.mem := by unfold State.settle; split <;> rfl
@[simp] theorem State.settle_draws (s : State) : s.settle.draws = s.draws := by unfold State.settle; split <;> rfl
@[simp] theorem State.settle_pendingEntry (s : State) :
    s.settle.pendingEntry = s.pendingEntry := by unfold State.settle; split <;> rfl
@[simp] theorem State.settle_pendingIRQ (s : State) :
    s.settle.pendingIRQ = s.pendingIRQ := by unfold State.settle; split <;> rfl
@[simp] theorem State.settle_pendingFIQ (s : State) :
    s.settle.pendingFIQ = s.pendingFIQ := by unfold State.settle; split <;> rfl
@[simp] theorem State.settle_pendingSErrors (s : State) :
    s.settle.pendingSErrors = s.pendingSErrors := by unfold State.settle; split <;> rfl
@[simp] theorem State.settle_pendingPMU (s : State) :
    s.settle.pendingPMU = s.pendingPMU := by unfold State.settle; split <;> rfl
@[simp] theorem State.settle_brbeLog (s : State) :
    s.settle.brbeLog = s.brbeLog := by unfold State.settle; split <;> rfl
@[simp] theorem State.settle_speLog (s : State) : s.settle.speLog = s.speLog := by unfold State.settle; split <;> rfl
@[simp] theorem State.settle_extResponse (s : State) :
    s.settle.extResponse = s.extResponse := by unfold State.settle; split <;> rfl

/-! ### setPairRecord -/

@[simp] theorem State.setPairRecord_cfg (s : State) (r : Option PairRecord) (p : RegPair) :
    (s.setPairRecord r p).cfg = s.cfg := by cases p <;> rfl
@[simp] theorem State.setPairRecord_env (s : State) (r : Option PairRecord) (p : RegPair) :
    (s.setPairRecord r p).env = s.env := by cases p <;> rfl
@[simp] theorem State.setPairRecord_inputs (s : State) (r : Option PairRecord) (p : RegPair) :
    (s.setPairRecord r p).inputs = s.inputs := by cases p <;> rfl
@[simp] theorem State.setPairRecord_progStart (s : State) (r : Option PairRecord) (p : RegPair) :
    (s.setPairRecord r p).progStart = s.progStart := by cases p <;> rfl
@[simp] theorem State.setPairRecord_program (s : State) (r : Option PairRecord) (p : RegPair) :
    (s.setPairRecord r p).program = s.program := by cases p <;> rfl
@[simp] theorem State.setPairRecord_x (s : State) (r : Option PairRecord) (p : RegPair) :
    (s.setPairRecord r p).x = s.x := by cases p <;> rfl
@[simp] theorem State.setPairRecord_pc (s : State) (r : Option PairRecord) (p : RegPair) :
    (s.setPairRecord r p).pc = s.pc := by cases p <;> rfl
@[simp] theorem State.setPairRecord_pstate (s : State) (r : Option PairRecord) (p : RegPair) :
    (s.setPairRecord r p).pstate = s.pstate := by cases p <;> rfl
@[simp] theorem State.setPairRecord_esrEL1 (s : State) (r : Option PairRecord) (p : RegPair) :
    (s.setPairRecord r p).esrEL1 = s.esrEL1 := by cases p <;> rfl
@[simp] theorem State.setPairRecord_esrUnknown (s : State) (r : Option PairRecord) (p : RegPair) :
    (s.setPairRecord r p).esrUnknown = s.esrUnknown := by cases p <;> rfl
@[simp] theorem State.setPairRecord_spsrEL1 (s : State) (r : Option PairRecord) (p : RegPair) :
    (s.setPairRecord r p).spsrEL1 = s.spsrEL1 := by cases p <;> rfl
@[simp] theorem State.setPairRecord_spsrUnknown (s : State) (r : Option PairRecord) (p : RegPair) :
    (s.setPairRecord r p).spsrUnknown = s.spsrUnknown := by cases p <;> rfl
@[simp] theorem State.setPairRecord_dbgbvr (s : State) (r : Option PairRecord) (p : RegPair) :
    (s.setPairRecord r p).dbgbvr = s.dbgbvr := by cases p <;> rfl
@[simp] theorem State.setPairRecord_dbgwcr (s : State) (r : Option PairRecord) (p : RegPair) :
    (s.setPairRecord r p).dbgwcr = s.dbgwcr := by cases p <;> rfl
@[simp] theorem State.setPairRecord_mdscr (s : State) (r : Option PairRecord) (p : RegPair) :
    (s.setPairRecord r p).mdscr = s.mdscr := by cases p <;> rfl
@[simp] theorem State.setPairRecord_pmsfcr (s : State) (r : Option PairRecord) (p : RegPair) :
    (s.setPairRecord r p).pmsfcr = s.pmsfcr := by cases p <;> rfl
@[simp] theorem State.setPairRecord_brbcrEL1 (s : State) (r : Option PairRecord) (p : RegPair) :
    (s.setPairRecord r p).brbcrEL1 = s.brbcrEL1 := by cases p <;> rfl
@[simp] theorem State.setPairRecord_esrEL2 (s : State) (r : Option PairRecord) (p : RegPair) :
    (s.setPairRecord r p).esrEL2 = s.esrEL2 := by cases p <;> rfl
@[simp] theorem State.setPairRecord_spsrEL2 (s : State) (r : Option PairRecord) (p : RegPair) :
    (s.setPairRecord r p).spsrEL2 = s.spsrEL2 := by cases p <;> rfl
@[simp] theorem State.setPairRecord_brbcrEL2 (s : State) (r : Option PairRecord) (p : RegPair) :
    (s.setPairRecord r p).brbcrEL2 = s.brbcrEL2 := by cases p <;> rfl
@[simp] theorem State.setPairRecord_mem (s : State) (r : Option PairRecord) (p : RegPair) :
    (s.setPairRecord r p).mem = s.mem := by cases p <;> rfl
@[simp] theorem State.setPairRecord_draws (s : State) (r : Option PairRecord) (p : RegPair) :
    (s.setPairRecord r p).draws = s.draws := by cases p <;> rfl
@[simp] theorem State.setPairRecord_pendingEntry (s : State) (r : Option PairRecord) (p : RegPair) :
    (s.setPairRecord r p).pendingEntry = s.pendingEntry := by cases p <;> rfl
@[simp] theorem State.setPairRecord_pendingIRQ (s : State) (r : Option PairRecord) (p : RegPair) :
    (s.setPairRecord r p).pendingIRQ = s.pendingIRQ := by cases p <;> rfl
@[simp] theorem State.setPairRecord_pendingFIQ (s : State) (r : Option PairRecord) (p : RegPair) :
    (s.setPairRecord r p).pendingFIQ = s.pendingFIQ := by cases p <;> rfl
@[simp] theorem State.setPairRecord_pendingSErrors (s : State) (r : Option PairRecord) (p : RegPair) :
    (s.setPairRecord r p).pendingSErrors = s.pendingSErrors := by cases p <;> rfl
@[simp] theorem State.setPairRecord_pendingPMU (s : State) (r : Option PairRecord) (p : RegPair) :
    (s.setPairRecord r p).pendingPMU = s.pendingPMU := by cases p <;> rfl
@[simp] theorem State.setPairRecord_brbeLog (s : State) (r : Option PairRecord) (p : RegPair) :
    (s.setPairRecord r p).brbeLog = s.brbeLog := by cases p <;> rfl
@[simp] theorem State.setPairRecord_speLog (s : State) (r : Option PairRecord) (p : RegPair) :
    (s.setPairRecord r p).speLog = s.speLog := by cases p <;> rfl
@[simp] theorem State.setPairRecord_extResponse (s : State) (r : Option PairRecord) (p : RegPair) :
    (s.setPairRecord r p).extResponse = s.extResponse := by cases p <;> rfl

/-! ### setSyndrome -/

@[simp] theorem State.setSyndrome_cfg (s : State) (v : Option Word) :
    (s.setSyndrome v).cfg = s.cfg := by cases v <;> rfl
@[simp] theorem State.setSyndrome_env (s : State) (v : Option Word) :
    (s.setSyndrome v).env = s.env := by cases v <;> rfl
@[simp] theorem State.setSyndrome_inputs (s : State) (v : Option Word) :
    (s.setSyndrome v).inputs = s.inputs := by cases v <;> rfl
@[simp] theorem State.setSyndrome_progStart (s : State) (v : Option Word) :
    (s.setSyndrome v).progStart = s.progStart := by cases v <;> rfl
@[simp] theorem State.setSyndrome_program (s : State) (v : Option Word) :
    (s.setSyndrome v).program = s.program := by cases v <;> rfl
@[simp] theorem State.setSyndrome_x (s : State) (v : Option Word) : (s.setSyndrome v).x = s.x := by cases v <;> rfl
@[simp] theorem State.setSyndrome_pc (s : State) (v : Option Word) :
    (s.setSyndrome v).pc = s.pc := by cases v <;> rfl
@[simp] theorem State.setSyndrome_pstate (s : State) (v : Option Word) :
    (s.setSyndrome v).pstate = s.pstate := by cases v <;> rfl
@[simp] theorem State.setSyndrome_esrEL1 (s : State) (v : Option Word) :
    (s.setSyndrome v).esrEL1 = v.getD s.esrEL1 := by cases v <;> rfl
@[simp] theorem State.setSyndrome_esrUnknown (s : State) (v : Option Word) :
    (s.setSyndrome v).esrUnknown = if v.isSome then false else s.esrUnknown := by cases v <;> rfl
@[simp] theorem State.setSyndrome_spsrEL1 (s : State) (v : Option Word) :
    (s.setSyndrome v).spsrEL1 = s.spsrEL1 := by cases v <;> rfl
@[simp] theorem State.setSyndrome_spsrUnknown (s : State) (v : Option Word) :
    (s.setSyndrome v).spsrUnknown = s.spsrUnknown := by cases v <;> rfl
@[simp] theorem State.setSyndrome_dbgbvr (s : State) (v : Option Word) :
    (s.setSyndrome v).dbgbvr = s.dbgbvr := by cases v <;> rfl
@[simp] theorem State.setSyndrome_dbgwcr (s : State) (v : Option Word) :
    (s.setSyndrome v).dbgwcr = s.dbgwcr := by cases v <;> rfl
@[simp] theorem State.setSyndrome_mdscr (s : State) (v : Option Word) :
    (s.setSyndrome v).mdscr = s.mdscr := by cases v <;> rfl
@[simp] theorem State.setSyndrome_pmsfcr (s : State) (v : Option Word) :
    (s.setSyndrome v).pmsfcr = s.pmsfcr := by cases v <;> rfl
@[simp] theorem State.setSyndrome_brbcrEL1 (s : State) (v : Option Word) :
    (s.setSyndrome v).brbcrEL1 = s.brbcrEL1 := by cases v <;> rfl
@[simp] theorem State.setSyndrome_esrEL2 (s : State) (v : Option Word) :
    (s.setSyndrome v).esrEL2 = s.esrEL2 := by cases v <;> rfl
@[simp] theorem State.setSyndrome_spsrEL2 (s : State) (v : Option Word) :
    (s.setSyndrome v).spsrEL2 = s.spsrEL2 := by cases v <;> rfl
@[simp] theorem State.setSyndrome_brbcrEL2 (s : State) (v : Option Word) :
    (s.setSyndrome v).brbcrEL2 = s.brbcrEL2 := by cases v <;> rfl
@[simp] theorem State.setSyndrome_esrPair (s : State) (v : Option Word) :
    (s.setSyndrome v).esrPair = s.esrPair := by cases v <;> rfl
@[simp] theorem State.setSyndrome_spsrPair (s : State) (v : Option Word) :
    (s.setSyndrome v).spsrPair = s.spsrPair := by cases v <;> rfl
@[simp] theorem State.setSyndrome_brbcrPair (s : State) (v : Option Word) :
    (s.setSyndrome v).brbcrPair = s.brbcrPair := by cases v <;> rfl
@[simp] theorem State.setSyndrome_mem (s : State) (v : Option Word) :
    (s.setSyndrome v).mem = s.mem := by cases v <;> rfl
@[simp] theorem State.setSyndrome_draws (s : State) (v : Option Word) :
    (s.setSyndrome v).draws = s.draws := by cases v <;> rfl
@[simp] theorem State.setSyndrome_pendingEntry (s : State) (v : Option Word) :
    (s.setSyndrome v).pendingEntry = s.pendingEntry := by cases v <;> rfl
@[simp] theorem State.setSyndrome_pendingIRQ (s : State) (v : Option Word) :
    (s.setSyndrome v).pendingIRQ = s.pendingIRQ := by cases v <;> rfl
@[simp] theorem State.setSyndrome_pendingFIQ (s : State) (v : Option Word) :
    (s.setSyndrome v).pendingFIQ = s.pendingFIQ := by cases v <;> rfl
@[simp] theorem State.setSyndrome_pendingSErrors (s : State) (v : Option Word) :
    (s.setSyndrome v).pendingSErrors = s.pendingSErrors := by cases v <;> rfl
@[simp] theorem State.setSyndrome_pendingPMU (s : State) (v : Option Word) :
    (s.setSyndrome v).pendingPMU = s.pendingPMU := by cases v <;> rfl
@[simp] theorem State.setSyndrome_brbeLog (s : State) (v : Option Word) :
    (s.setSyndrome v).brbeLog = s.brbeLog := by cases v <;> rfl
@[simp] theorem State.setSyndrome_speLog (s : State) (v : Option Word) :
    (s.setSyndrome v).speLog = s.speLog := by cases v <;> rfl
@[simp] theorem State.setSyndrome_extResponse (s : State) (v : Option Word) :
    (s.setSyndrome v).extResponse = s.extResponse := by cases v <;> rfl

/-! ### emitRecord -/

@[simp] theorem State.emitRecord_cfg (s : State) (k : BranchKind) : (s.emitRecord k).cfg = s.cfg := rfl
@[simp] theorem State.emitRecord_env (s : State) (k : BranchKind) : (s.emitRecord k).env = s.env := rfl
@[simp] theorem State.emitRecord_inputs (s : State) (k : BranchKind) : (s.emitRecord k).inputs = s.inputs := rfl
@[simp] theorem State.emitRecord_progStart (s : State) (k : BranchKind) :
    (s.emitRecord k).progStart = s.progStart := rfl
@[simp] theorem State.emitRecord_program (s : State) (k : BranchKind) : (s.emitRecord k).program = s.program := rfl
@[simp] theorem State.emitRecord_x (s : State) (k : BranchKind) : (s.emitRecord k).x = s.x := rfl
@[simp] theorem State.emitRecord_pc (s : State) (k : BranchKind) : (s.emitRecord k).pc = s.pc := rfl
@[simp] theorem State.emitRecord_pstate (s : State) (k : BranchKind) : (s.emitRecord k).pstate = s.pstate := rfl
@[simp] theorem State.emitRecord_esrEL1 (s : State) (k : BranchKind) : (s.emitRecord k).esrEL1 = s.esrEL1 := rfl
@[simp] theorem State.emitRecord_esrUnknown (s : State) (k : BranchKind) :
    (s.emitRecord k).esrUnknown = s.esrUnknown := rfl
@[simp] theorem State.emitRecord_spsrEL1 (s : State) (k : BranchKind) : (s.emitRecord k).spsrEL1 = s.spsrEL1 := rfl
@[simp] theorem State.emitRecord_spsrUnknown (s : State) (k : BranchKind) :
    (s.emitRecord k).spsrUnknown = s.spsrUnknown := rfl
@[simp] theorem State.emitRecord_dbgbvr (s : State) (k : BranchKind) : (s.emitRecord k).dbgbvr = s.dbgbvr := rfl
@[simp] theorem State.emitRecord_dbgwcr (s : State) (k : BranchKind) : (s.emitRecord k).dbgwcr = s.dbgwcr := rfl
@[simp] theorem State.emitRecord_mdscr (s : State) (k : BranchKind) : (s.emitRecord k).mdscr = s.mdscr := rfl
@[simp] theorem State.emitRecord_pmsfcr (s : State) (k : BranchKind) : (s.emitRecord k).pmsfcr = s.pmsfcr := rfl
@[simp] theorem State.emitRecord_brbcrEL1 (s : State) (k : BranchKind) :
    (s.emitRecord k).brbcrEL1 = s.brbcrEL1 := rfl
@[simp] theorem State.emitRecord_esrEL2 (s : State) (k : BranchKind) : (s.emitRecord k).esrEL2 = s.esrEL2 := rfl
@[simp] theorem State.emitRecord_spsrEL2 (s : State) (k : BranchKind) : (s.emitRecord k).spsrEL2 = s.spsrEL2 := rfl
@[simp] theorem State.emitRecord_brbcrEL2 (s : State) (k : BranchKind) :
    (s.emitRecord k).brbcrEL2 = s.brbcrEL2 := rfl
@[simp] theorem State.emitRecord_esrPair (s : State) (k : BranchKind) : (s.emitRecord k).esrPair = s.esrPair := rfl
@[simp] theorem State.emitRecord_spsrPair (s : State) (k : BranchKind) :
    (s.emitRecord k).spsrPair = s.spsrPair := rfl
@[simp] theorem State.emitRecord_brbcrPair (s : State) (k : BranchKind) :
    (s.emitRecord k).brbcrPair = s.brbcrPair := rfl
@[simp] theorem State.emitRecord_mem (s : State) (k : BranchKind) : (s.emitRecord k).mem = s.mem := rfl
@[simp] theorem State.emitRecord_draws (s : State) (k : BranchKind) : (s.emitRecord k).draws = s.draws + 1 := rfl
@[simp] theorem State.emitRecord_pendingEntry (s : State) (k : BranchKind) :
    (s.emitRecord k).pendingEntry = s.pendingEntry := rfl
@[simp] theorem State.emitRecord_pendingIRQ (s : State) (k : BranchKind) :
    (s.emitRecord k).pendingIRQ = s.pendingIRQ := rfl
@[simp] theorem State.emitRecord_pendingFIQ (s : State) (k : BranchKind) :
    (s.emitRecord k).pendingFIQ = s.pendingFIQ := rfl
@[simp] theorem State.emitRecord_pendingSErrors (s : State) (k : BranchKind) :
    (s.emitRecord k).pendingSErrors = s.pendingSErrors := rfl
@[simp] theorem State.emitRecord_pendingPMU (s : State) (k : BranchKind) :
    (s.emitRecord k).pendingPMU = s.pendingPMU := rfl
@[simp] theorem State.emitRecord_speLog (s : State) (k : BranchKind) : (s.emitRecord k).speLog = s.speLog := rfl
@[simp] theorem State.emitRecord_extResponse (s : State) (k : BranchKind) :
    (s.emitRecord k).extResponse = s.extResponse := rfl

/-! ### clearSS -/

@[simp] theorem State.clearSS_cfg (s : State) :
    (s.clearSS).cfg = s.cfg := rfl
@[simp] theorem State.clearSS_env (s : State) :
    (s.clearSS).env = s.env := rfl
@[simp] theorem State.clearSS_inputs (s : State) :
    (s.clearSS).inputs = s.inputs := rfl
@[simp] theorem State.clearSS_progStart (s : State) :
    (s.clearSS).progStart = s.progStart := rfl
@[simp] theorem State.clearSS_program (s : State) :
    (s.clearSS).program = s.program := rfl
@[simp] theorem State.clearSS_x (s : State) :
    (s.clearSS).x = s.x := rfl
@[simp] theorem State.clearSS_pc (s : State) :
    (s.clearSS).pc = s.pc := rfl
@[simp] theorem State.clearSS_pstate (s : State) :
    (s.clearSS).pstate = { s.pstate with SS := false } := rfl
@[simp] theorem State.clearSS_esrEL1 (s : State) :
    (s.clearSS).esrEL1 = s.esrEL1 := rfl
@[simp] theorem State.clearSS_esrUnknown (s : State) :
    (s.clearSS).esrUnknown = s.esrUnknown := rfl
@[simp] theorem State.clearSS_spsrEL1 (s : State) :
    (s.clearSS).spsrEL1 = s.spsrEL1 := rfl
@[simp] theorem State.clearSS_spsrUnknown (s : State) :
    (s.clearSS).spsrUnknown = s.spsrUnknown := rfl
@[simp] theorem State.clearSS_dbgbvr (s : State) :
    (s.clearSS).dbgbvr = s.dbgbvr := rfl
@[simp] theorem State.clearSS_dbgwcr (s : State) :
    (s.clearSS).dbgwcr = s.dbgwcr := rfl
@[simp] theorem State.clearSS_mdscr (s : State) :
    (s.clearSS).mdscr = s.mdscr := rfl
@[simp] theorem State.clearSS_pmsfcr (s : State) :
    (s.clearSS).pmsfcr = s.pmsfcr := rfl
@[simp] theorem State.clearSS_brbcrEL1 (s : State) :
    (s.clearSS).brbcrEL1 = s.brbcrEL1 := rfl
@[simp] theorem State.clearSS_esrEL2 (s : State) :
    (s.clearSS).esrEL2 = s.esrEL2 := rfl
@[simp] theorem State.clearSS_spsrEL2 (s : State) :
    (s.clearSS).spsrEL2 = s.spsrEL2 := rfl
@[simp] theorem State.clearSS_brbcrEL2 (s : State) :
    (s.clearSS).brbcrEL2 = s.brbcrEL2 := rfl
@[simp] theorem State.clearSS_esrPair (s : State) :
    (s.clearSS).esrPair = s.esrPair := rfl
@[simp] theorem State.clearSS_spsrPair (s : State) :
    (s.clearSS).spsrPair = s.spsrPair := rfl
@[simp] theorem State.clearSS_brbcrPair (s : State) :
    (s.clearSS).brbcrPair = s.brbcrPair := rfl
@[simp] theorem State.clearSS_mem (s : State) :
    (s.clearSS).mem = s.mem := rfl
@[simp] theorem State.clearSS_draws (s : State) :
    (s.clearSS).draws = s.draws := rfl
@[simp] theorem State.clearSS_pendingEntry (s : State) :
    (s.clearSS).pendingEntry = s.pendingEntry := rfl
@[simp] theorem State.clearSS_pendingIRQ (s : State) :
    (s.clearSS).pendingIRQ = s.pendingIRQ := rfl
@[simp] theorem State.clearSS_pendingFIQ (s : State) :
    (s.clearSS).pendingFIQ = s.pendingFIQ := rfl
@[simp] theorem State.clearSS_pendingSErrors (s : State) :
    (s.clearSS).pendingSErrors = s.pendingSErrors := rfl
@[simp] theorem State.clearSS_pendingPMU (s : State) :
    (s.clearSS).pendingPMU = s.pendingPMU := rfl
@[simp] theorem State.clearSS_brbeLog (s : State) :
    (s.clearSS).brbeLog = s.brbeLog := rfl
@[simp] theorem State.clearSS_speLog (s : State) :
    (s.clearSS).speLog = s.speLog := rfl
@[simp] theorem State.clearSS_extResponse (s : State) :
    (s.clearSS).extResponse = s.extResponse := rfl

/-! ### holdAsync -/

@[simp] theorem State.holdAsync_cfg (s : State) (k : AsyncException) :
    (s.holdAsync k).cfg = s.cfg := by
  cases k <;> first | rfl | (simp only [State.holdAsync]; split <;> rfl)
@[simp] theorem State.holdAsync_env (s : State) (k : AsyncException) :
    (s.holdAsync k).env = s.env := by
  cases k <;> first | rfl | (simp only [State.holdAsync]; split <;> rfl)
@[simp] theorem State.holdAsync_inputs (s : State) (k : AsyncException) :
    (s.holdAsync k).inputs = s.inputs := by
  cases k <;> first | rfl | (simp only [State.holdAsync]; split <;> rfl)
@[simp] theorem State.holdAsync_progStart (s : State) (k : AsyncException) :
    (s.holdAsync k).progStart = s.progStart := by
  cases k <;> first | rfl | (simp only [State.holdAsync]; split <;> rfl)
@[simp] theorem State.holdAsync_program (s : State) (k : AsyncException) :
    (s.holdAsync k).program = s.program := by
  cases k <;> first | rfl | (simp only [State.holdAsync]; split <;> rfl)
@[simp] theorem State.holdAsync_x (s : State) (k : AsyncException) :
    (s.holdAsync k).x = s.x := by
  cases k <;> first | rfl | (simp only [State.holdAsync]; split <;> rfl)
@[simp] theorem State.holdAsync_pc (s : State) (k : AsyncException) :
    (s.holdAsync k).pc = s.pc := by
  cases k <;> first | rfl | (simp only [State.holdAsync]; split <;> rfl)
@[simp] theorem State.holdAsync_esrEL1 (s : State) (k : AsyncException) :
    (s.holdAsync k).esrEL1 = s.esrEL1 := by
  cases k <;> first | rfl | (simp only [State.holdAsync]; split <;> rfl)
@[simp] theorem State.holdAsync_esrUnknown (s : State) (k : AsyncException) :
    (s.holdAsync k).esrUnknown = s.esrUnknown := by
  cases k <;> first | rfl | (simp only [State.holdAsync]; split <;> rfl)
@[simp] theorem State.holdAsync_spsrEL1 (s : State) (k : AsyncException) :
    (s.holdAsync k).spsrEL1 = s.spsrEL1 := by
  cases k <;> first | rfl | (simp only [State.holdAsync]; split <;> rfl)
@[simp] theorem State.holdAsync_spsrUnknown (s : State) (k : AsyncException) :
    (s.holdAsync k).spsrUnknown = s.spsrUnknown := by
  cases k <;> first | rfl | (simp only [State.holdAsync]; split <;> rfl)
@[simp] theorem State.holdAsync_dbgbvr (s : State) (k : AsyncException) :
    (s.holdAsync k).dbgbvr = s.dbgbvr := by
  cases k <;> first | rfl | (simp only [State.holdAsync]; split <;> rfl)
@[simp] theorem State.holdAsync_dbgwcr (s : State) (k : AsyncException) :
    (s.holdAsync k).dbgwcr = s.dbgwcr := by
  cases k <;> first | rfl | (simp only [State.holdAsync]; split <;> rfl)
@[simp] theorem State.holdAsync_mdscr (s : State) (k : AsyncException) :
    (s.holdAsync k).mdscr = s.mdscr := by
  cases k <;> first | rfl | (simp only [State.holdAsync]; split <;> rfl)
@[simp] theorem State.holdAsync_pmsfcr (s : State) (k : AsyncException) :
    (s.holdAsync k).pmsfcr = s.pmsfcr := by
  cases k <;> first | rfl | (simp only [State.holdAsync]; split <;> rfl)
@[simp] theorem State.holdAsync_brbcrEL1 (s : State) (k : AsyncException) :
    (s.holdAsync k).brbcrEL1 = s.brbcrEL1 := by
  cases k <;> first | rfl | (simp only [State.holdAsync]; split <;> rfl)
@[simp] theorem State.holdAsync_esrEL2 (s : State) (k : AsyncException) :
    (s.holdAsync k).esrEL2 = s.esrEL2 := by
  cases k <;> first | rfl | (simp only [State.holdAsync]; split <;> rfl)
@[simp] theorem State.holdAsync_spsrEL2 (s : State) (k : AsyncException) :
    (s.holdAsync k).spsrEL2 = s.spsrEL2 := by
  cases k <;> first | rfl | (simp only [State.holdAsync]; split <;> rfl)
@[simp] theorem State.holdAsync_brbcrEL2 (s : State) (k : AsyncException) :
    (s.holdAsync k).brbcrEL2 = s.brbcrEL2 := by
  cases k <;> first | rfl | (simp only [State.holdAsync]; split <;> rfl)
@[simp] theorem State.holdAsync_esrPair (s : State) (k : AsyncException) :
    (s.holdAsync k).esrPair = s.esrPair := by
  cases k <;> first | rfl | (simp only [State.holdAsync]; split <;> rfl)
@[simp] theorem State.holdAsync_spsrPair (s : State) (k : AsyncException) :
    (s.holdAsync k).spsrPair = s.spsrPair := by
  cases k <;> first | rfl | (simp only [State.holdAsync]; split <;> rfl)
@[simp] theorem State.holdAsync_brbcrPair (s : State) (k : AsyncException) :
    (s.holdAsync k).brbcrPair = s.brbcrPair := by
  cases k <;> first | rfl | (simp only [State.holdAsync]; split <;> rfl)
@[simp] theorem State.holdAsync_mem (s : State) (k : AsyncException) :
    (s.holdAsync k).mem = s.mem := by
  cases k <;> first | rfl | (simp only [State.holdAsync]; split <;> rfl)
@[simp] theorem State.holdAsync_draws (s : State) (k : AsyncException) :
    (s.holdAsync k).draws = s.draws := by
  cases k <;> first | rfl | (simp only [State.holdAsync]; split <;> rfl)
@[simp] theorem State.holdAsync_pendingEntry (s : State) (k : AsyncException) :
    (s.holdAsync k).pendingEntry = s.pendingEntry := by
  cases k <;> first | rfl | (simp only [State.holdAsync]; split <;> rfl)
@[simp] theorem State.holdAsync_brbeLog (s : State) (k : AsyncException) :
    (s.holdAsync k).brbeLog = s.brbeLog := by
  cases k <;> first | rfl | (simp only [State.holdAsync]; split <;> rfl)
@[simp] theorem State.holdAsync_speLog (s : State) (k : AsyncException) :
    (s.holdAsync k).speLog = s.speLog := by
  cases k <;> first | rfl | (simp only [State.holdAsync]; split <;> rfl)
@[simp] theorem State.holdAsync_extResponse (s : State) (k : AsyncException) :
    (s.holdAsync k).extResponse = s.extResponse := by
  cases k <;> first | rfl | (simp only [State.holdAsync]; split <;> rfl)

/-! ### releaseAsync -/

@[simp] theorem State.releaseAsync_cfg (s : State) (k : AsyncException) :
    (s.releaseAsync k).cfg = s.cfg := by cases k <;> rfl
@[simp] theorem State.releaseAsync_env (s : State) (k : AsyncException) :
    (s.releaseAsync k).env = s.env := by cases k <;> rfl
@[simp] theorem State.releaseAsync_inputs (s : State) (k : AsyncException) :
    (s.releaseAsync k).inputs = s.inputs := by cases k <;> rfl
@[simp] theorem State.releaseAsync_progStart (s : State) (k : AsyncException) :
    (s.releaseAsync k).progStart = s.progStart := by cases k <;> rfl
@[simp] theorem State.releaseAsync_program (s : State) (k : AsyncException) :
    (s.releaseAsync k).program = s.program := by cases k <;> rfl
@[simp] theorem State.releaseAsync_x (s : State) (k : AsyncException) :
    (s.releaseAsync k).x = s.x := by cases k <;> rfl
@[simp] theorem State.releaseAsync_pc (s : State) (k : AsyncException) :
    (s.releaseAsync k).pc = s.pc := by cases k <;> rfl
@[simp] theorem State.releaseAsync_pstate (s : State) (k : AsyncException) :
    (s.releaseAsync k).pstate = s.pstate := by cases k <;> rfl
@[simp] theorem State.releaseAsync_esrEL1 (s : State) (k : AsyncException) :
    (s.releaseAsync k).esrEL1 = s.esrEL1 := by cases k <;> rfl
@[simp] theorem State.releaseAsync_esrUnknown (s : State) (k : AsyncException) :
    (s.releaseAsync k).esrUnknown = s.esrUnknown := by cases k <;> rfl
@[simp] theorem State.releaseAsync_spsrEL1 (s : State) (k : AsyncException) :
    (s.releaseAsync k).spsrEL1 = s.spsrEL1 := by cases k <;> rfl
@[simp] theorem State.releaseAsync_spsrUnknown (s : State) (k : AsyncException) :
    (s.releaseAsync k).spsrUnknown = s.spsrUnknown := by cases k <;> rfl
@[simp] theorem State.releaseAsync_dbgbvr (s : State) (k : AsyncException) :
    (s.releaseAsync k).dbgbvr = s.dbgbvr := by cases k <;> rfl
@[simp] theorem State.releaseAsync_dbgwcr (s : State) (k : AsyncException) :
    (s.releaseAsync k).dbgwcr = s.dbgwcr := by cases k <;> rfl
@[simp] theorem State.releaseAsync_mdscr (s : State) (k : AsyncException) :
    (s.releaseAsync k).mdscr = s.mdscr := by cases k <;> rfl
@[simp] theorem State.releaseAsync_pmsfcr (s : State) (k : AsyncException) :
    (s.releaseAsync k).pmsfcr = s.pmsfcr := by cases k <;> rfl
@[simp] theorem State.releaseAsync_brbcrEL1 (s : State) (k : AsyncException) :
    (s.releaseAsync k).brbcrEL1 = s.brbcrEL1 := by cases k <;> rfl
@[simp] theorem State.releaseAsync_esrEL2 (s : State) (k : AsyncException) :
    (s.releaseAsync k).esrEL2 = s.esrEL2 := by cases k <;> rfl
@[simp] theorem State.releaseAsync_spsrEL2 (s : State) (k : AsyncException) :
    (s.releaseAsync k).spsrEL2 = s.spsrEL2 := by cases k <;> rfl
@[simp] theorem State.releaseAsync_brbcrEL2 (s : State) (k : AsyncException) :
    (s.releaseAsync k).brbcrEL2 = s.brbcrEL2 := by cases k <;> rfl
@[simp] theorem State.releaseAsync_esrPair (s : State) (k : AsyncException) :
    (s.releaseAsync k).esrPair = s.esrPair := by cases k <;> rfl
@[simp] theorem State.releaseAsync_spsrPair (s : State) (k : AsyncException) :
    (s.releaseAsync k).spsrPair = s.spsrPair := by cases k <;> rfl
@[simp] theorem State.releaseAsync_brbcrPair (s : State) (k : AsyncException) :
    (s.releaseAsync k).brbcrPair = s.brbcrPair := by cases k <;> rfl
@[simp] theorem State.releaseAsync_mem (s : State) (k : AsyncException) :
    (s.releaseAsync k).mem = s.mem := by cases k <;> rfl
@[simp] theorem State.releaseAsync_draws (s : State) (k : AsyncException) :
    (s.releaseAsync k).draws = s.draws := by cases k <;> rfl
@[simp] theorem State.releaseAsync_pendingEntry (s : State) (k : AsyncException) :
    (s.releaseAsync k).pendingEntry = s.pendingEntry := by cases k <;> rfl
@[simp] theorem State.releaseAsync_brbeLog (s : State) (k : AsyncException) :
    (s.releaseAsync k).brbeLog = s.brbeLog := by cases k <;> rfl
@[simp] theorem State.releaseAsync_speLog (s : State) (k : AsyncException) :
    (s.releaseAsync k).speLog = s.speLog := by cases k <;> rfl
@[simp] theorem State.releaseAsync_extResponse (s : State) (k : AsyncException) :
    (s.releaseAsync k).extResponse = s.extResponse := by cases k <;> rfl

end Sys2Proof.Machine
end

