-- ==== Sys2Proof/Laws/Memory.lean ====
section
/-! SUPPORT. Memory: a read after a write, and the canonical form that every write keeps (log 7). -/

namespace Sys2Proof.Machine

open Sys2Proof

theorem Memory.read_filter_same (m : Memory) (a : Nat) : Memory.read (m.filter (fun e => e.1 != a)) a = 0 := by
  induction m with
  | nil => rfl
  | cons e m ih =>
    obtain ⟨b, v⟩ := e
    by_cases h : b = a
    · simpa [List.filter_cons, h] using ih
    · simpa [List.filter_cons, h, Memory.read] using ih

theorem Memory.read_filter_other (m : Memory) {a b : Nat} (h : b ≠ a) :
    Memory.read (m.filter (fun e => e.1 != a)) b = Memory.read m b := by
  induction m with
  | nil => rfl
  | cons e m ih =>
    obtain ⟨c, v⟩ := e
    by_cases hc : c = a
    · subst hc
      simpa [List.filter_cons, Memory.read, Ne.symm h] using ih
    · by_cases hb : c = b
      · simp [Memory.read, hb, h]
      · simpa [List.filter_cons, hc, Memory.read, hb] using ih

theorem Memory.read_insert_same (m : Memory) (a : Nat) (v : Byte) : Memory.read (Memory.insert m a v) a = v := by
  induction m with
  | nil => simp [Memory.insert, Memory.read]
  | cons e m ih =>
    obtain ⟨b, w⟩ := e
    simp only [Memory.insert]
    split
    · simp [Memory.read]
    · split
      · simp [Memory.read]
      · simp [Memory.read, *]

theorem Memory.read_insert_other (m : Memory) {a b : Nat} (v : Byte) (h : b ≠ a) :
    Memory.read (Memory.insert m a v) b = Memory.read m b := by
  induction m with
  | nil => simp [Memory.insert, Memory.read, Ne.symm h]
  | cons e m ih =>
    obtain ⟨c, w⟩ := e
    simp only [Memory.insert]
    split
    · rename_i hc; subst hc; simp [Memory.read, Ne.symm h]
    · split
      · simp [Memory.read, Ne.symm h]
      · simp [Memory.read, ih]

/-- A byte reads as it was written. -/
@[simp] theorem Memory.read_write_same (m : Memory) (a : Nat) (v : Byte) : (m.write a v).read a = v := by
  unfold Memory.write
  split
  · rename_i h; rw [h]; exact Memory.read_filter_same m a
  · exact Memory.read_insert_same m a v

/-- A write leaves every other byte. -/
theorem Memory.read_write_other (m : Memory) {a b : Nat} (v : Byte) (h : b ≠ a) :
    (m.write a v).read b = m.read b := by
  unfold Memory.write
  split
  · exact Memory.read_filter_other m h
  · exact Memory.read_insert_other m v h

theorem Memory.wfFrom_mono {lo hi : Nat} (m : Memory) (h : lo ≤ hi) (hm : Memory.wfFrom hi m = true) :
    Memory.wfFrom lo m = true := by
  cases m with
  | nil => rfl
  | cons e m =>
    obtain ⟨a, v⟩ := e
    simp only [Memory.wfFrom, Bool.and_eq_true, decide_eq_true_eq] at hm ⊢
    exact ⟨⟨⟨by omega, hm.1.1.2⟩, hm.1.2⟩, hm.2⟩

theorem Memory.wfFrom_filter (m : Memory) (a : Nat) :
    ∀ lo, Memory.wfFrom lo m = true → Memory.wfFrom lo (m.filter (fun e => e.1 != a)) = true := by
  induction m with
  | nil => intro lo _; rfl
  | cons e m ih =>
    obtain ⟨b, v⟩ := e
    intro lo h
    simp only [Memory.wfFrom, Bool.and_eq_true, decide_eq_true_eq, bne_iff_ne, ne_eq] at h
    by_cases hb : b = a
    · simp only [List.filter_cons, hb, bne_self_eq_false]
      refine Memory.wfFrom_mono _ (hi := b + 1) (by omega) (by simpa using ih _ h.2)
    · simp only [List.filter_cons, bne_iff_ne, ne_eq, hb, not_false_eq_true, if_true, Memory.wfFrom,
        Bool.and_eq_true, decide_eq_true_eq]
      exact ⟨h.1, by simpa using ih _ h.2⟩

theorem Memory.wfFrom_insert (m : Memory) (a : Nat) (v : Byte) (hv : (v != 0) = true) (ha : a < 2 ^ 64) :
    ∀ lo, lo ≤ a → Memory.wfFrom lo m = true → Memory.wfFrom lo (Memory.insert m a v) = true := by
  induction m with
  | nil =>
    intro lo h _
    simp only [Memory.insert, Memory.wfFrom, Bool.and_eq_true, decide_eq_true_eq]
    exact ⟨⟨⟨h, ha⟩, hv⟩, trivial⟩
  | cons e m ih =>
    obtain ⟨b, w⟩ := e
    intro lo h hm
    simp only [Memory.wfFrom, Bool.and_eq_true, decide_eq_true_eq] at hm
    simp only [Memory.insert]
    split
    · rename_i hb; subst hb
      simp only [Memory.wfFrom, Bool.and_eq_true, decide_eq_true_eq]
      exact ⟨⟨⟨h, ha⟩, hv⟩, hm.2⟩
    · split
      · rename_i hb hlt
        simp only [Memory.wfFrom, Bool.and_eq_true, decide_eq_true_eq]
        exact ⟨⟨⟨h, ha⟩, hv⟩, ⟨⟨by omega, hm.1.1.2⟩, hm.1.2⟩, hm.2⟩
      · rename_i hb hlt
        simp only [Memory.wfFrom, Bool.and_eq_true, decide_eq_true_eq]
        exact ⟨hm.1, ih _ (by omega) hm.2⟩

/-- A write to an address of the 64-bit space keeps the canonical form. -/
theorem Memory.wf_write (m : Memory) (a : Nat) (v : Byte) (ha : a < 2 ^ 64) (hm : m.wf = true) :
    (m.write a v).wf = true := by
  unfold Memory.write
  split
  · exact Memory.wfFrom_filter m a 0 hm
  · rename_i h
    exact Memory.wfFrom_insert m a v (by simpa using h) ha 0 (Nat.zero_le _) hm

theorem Memory.wf_foldl {ι : Type} (f : ι → Word) (g : ι → Byte) :
    ∀ (l : List ι) (m : Memory), m.wf = true → (l.foldl (fun m i => m.write (f i).toNat (g i)) m).wf = true := by
  intro l
  induction l with
  | nil => intro m h; exact h
  | cons i l ih => intro m h; exact ih _ (Memory.wf_write m _ _ (f i).isLt h)

/-- The 8-byte write keeps the canonical form. -/
theorem Memory.wf_write8 (m : Memory) (big : Bool) (a v : Word) (hm : m.wf = true) : (m.write8 big a v).wf = true :=
  Memory.wf_foldl (fun i => a + BitVec.ofNat 64 i) (fun i => byteOf v (if big then 7 - i else i)) _ m hm

theorem Memory.read_foldl_other {ι : Type} (f : ι → Nat) (g : ι → Byte) (b : Nat) :
    ∀ (l : List ι) (m : Memory), (∀ i ∈ l, b ≠ f i) → (l.foldl (fun m i => m.write (f i) (g i)) m).read b = m.read b := by
  intro l
  induction l with
  | nil => intro m _; rfl
  | cons i l ih =>
    intro m h
    rw [List.foldl_cons, ih _ (fun j hj => h j (List.mem_cons_of_mem _ hj))]
    exact Memory.read_write_other m _ (h i List.mem_cons_self)

/-- The 8-byte write leaves every byte outside its eight. -/
theorem Memory.read_write8_other (m : Memory) (big : Bool) (a v : Word) (b : Nat)
    (h : ∀ i < 8, b ≠ (a + BitVec.ofNat 64 i).toNat) : (m.write8 big a v).read b = m.read b := by
  refine Memory.read_foldl_other (fun i => (a + BitVec.ofNat 64 i).toNat) _ b _ m ?_
  intro i hi
  refine h i ?_
  simp only [List.mem_cons, List.not_mem_nil, or_false] at hi
  omega

theorem Memory.read_foldl_same {ι : Type} (f : ι → Nat) (g : ι → Byte) :
    ∀ (l : List ι) (m : Memory) (i : ι), i ∈ l → l.Pairwise (fun i j => f i ≠ f j) →
      (l.foldl (fun m i => m.write (f i) (g i)) m).read (f i) = g i := by
  intro l
  induction l with
  | nil => intro m i h; cases h
  | cons j l ih =>
    intro m i hi hp
    rw [List.pairwise_cons] at hp
    rw [List.foldl_cons]
    rcases List.mem_cons.mp hi with rfl | hi
    · rw [Memory.read_foldl_other f g (f i) l _ (fun k hk => hp.1 k hk)]
      exact Memory.read_write_same m (f i) (g i)
    · exact ih _ i hi hp.2

/-- The eight addresses of an access are distinct. -/
theorem cell_pairwise (a : Word) :
    [0, 1, 2, 3, 4, 5, 6, 7].Pairwise (fun i j => (a + BitVec.ofNat 64 i).toNat ≠ (a + BitVec.ofNat 64 j).toNat) := by
  have key : ∀ i j : Nat, i < 8 → j < 8 → i ≠ j →
      (a + BitVec.ofNat 64 i).toNat ≠ (a + BitVec.ofNat 64 j).toNat := by
    intro i j hi hj hij
    have h := a.isLt
    simp only [BitVec.toNat_add, BitVec.toNat_ofNat]
    omega
  simp only [List.pairwise_cons]
  refine ⟨?_, ?_, ?_, ?_, ?_, ?_, ?_, ?_, List.Pairwise.nil⟩ <;> intro j hj <;>
    simp only [List.mem_cons, List.not_mem_nil, or_false] at hj <;>
    (apply key <;> omega)

/-- Each byte of the 8-byte write. -/
theorem Memory.byteAt_write8 (m : Memory) (big : Bool) (a v : Word) (i : Nat) (h : i < 8) :
    (m.write8 big a v).byteAt a i = byteOf v (if big then 7 - i else i) := by
  refine Memory.read_foldl_same (fun i => (a + BitVec.ofNat 64 i).toNat)
    (fun i => byteOf v (if big then 7 - i else i)) _ m i ?_ (cell_pairwise a)
  simp only [List.mem_cons, List.not_mem_nil, or_false]
  omega

/-- Eight bytes make up the value. -/
theorem bytes_append (v : Word) :
    byteOf v 7 ++ byteOf v 6 ++ byteOf v 5 ++ byteOf v 4 ++ byteOf v 3 ++ byteOf v 2 ++ byteOf v 1 ++ byteOf v 0 = v := by
  apply BitVec.eq_of_getLsbD_eq
  intro i hi
  simp only [byteOf, BitVec.getLsbD_append, BitVec.getLsbD_extractLsb']
  repeat' split
  all_goals (rw [decide_eq_true (by omega), Bool.true_and]; congr 1; omega)

/-- An 8-byte read after the write of the same cell gives the value written. -/
theorem Memory.read8_write8 (m : Memory) (big : Bool) (a v : Word) : (m.write8 big a v).read8 big a = v := by
  unfold Memory.read8
  cases big <;>
    simp [Memory.byteAt_write8] <;> exact bytes_append v

/-- Reset's memory has the canonical form. -/
theorem reset_mem_wf : State.reset.mem.wf = true := rfl

end Sys2Proof.Machine
end

