-- ==== Sys2Proof/Laws/Ops.lean ====
section
/-! SUPPORT. What each shared operation can do, said once: general registers, what a register reads as, the end of an MRS
or MSR, taking an exception, and returning from one. -/

namespace Sys2Proof.Machine

open Sys2Proof

/-! ### General registers (10_state R26) -/

/-- A read after a write to the same number: number 31 reads 0. -/
theorem State.readX_writeX_same (s : State) (t : Nat) (v : Word) :
    (s.writeX t v).readX t = if t < 31 then v else 0 := by
  by_cases h : t < 31 <;> simp [State.readX, State.writeX, h]

/-- A write leaves every other number. -/
theorem State.readX_writeX_other (s : State) {t k : Nat} (v : Word) (h : k ≠ t) :
    (s.writeX t v).readX k = s.readX k := by
  by_cases ht : t < 31
  · by_cases hk : k < 31 <;> simp [State.readX, State.writeX, ht, hk, Ne.symm h]
  · simp [State.writeX, ht]

/-- A write changes nothing but the general registers. -/
theorem State.writeX_frame (s : State) (t : Nat) (v : Word) : s.writeX t v = { s with x := (s.writeX t v).x } := by
  by_cases h : t < 31 <;> simp [State.writeX, h]

@[simp] theorem State.advance_readX (s : State) (k : Nat) : s.advance.readX k = s.readX k := rfl
@[simp] theorem State.skip_readX (s : State) (n k : Nat) : (s.skip n).readX k = s.readX k := rfl

/-- Numbers 31 and above read 0. -/
theorem State.readX_high (s : State) {t : Nat} (h : 31 ≤ t) : s.readX t = 0 := by
  simp [State.readX, Nat.not_lt.mpr h]

/-! ### What a register reads as (40_sysreg_access_common R466) -/

/-- A reading no bit of which is open is the held value. -/
theorem Reading.value_closed (r : Reading) (d : Word) (h : r.isOpen = false) : r.value d = r.held := by
  simp [Reading.value, h]

@[simp] theorem Reading.plain_isOpen (v : Word) : (Reading.plain v).isOpen = false := by
  simp [Reading.isOpen, Reading.plain]

@[simp] theorem Reading.plain_value (v d : Word) : (Reading.plain v).value d = v := by
  simp [Reading.value, Reading.plain_isOpen]; rfl

/-- A wholly UNKNOWN register reads as the free value. -/
@[simp] theorem Reading.allUnknown_value (d : Word) : Reading.allUnknown.value d = d := by
  simp [Reading.value, Reading.allUnknown, Reading.isOpen]
  exact BitVec.and_allOnes

/-- A reading agrees with the held value outside its UNKNOWN and reserved positions, in a RES0 position that holds 0 and
in a RES1 position that holds 1. -/
theorem Reading.value_getLsbD (r : Reading) (d : Word) (i : Nat) (hu : r.unknown.getLsbD i = false)
    (h0 : r.res0.getLsbD i = false ∨ r.held.getLsbD i = false)
    (h1 : r.res1.getLsbD i = false ∨ r.held.getLsbD i = true) : (r.value d).getLsbD i = r.held.getLsbD i := by
  unfold Reading.value
  split
  · by_cases hi : i < 64
    · rcases h0 with h0 | h0 <;> rcases h1 with h1 | h1 <;> simp_all
    · simp [BitVec.getLsbD_of_ge _ _ (Nat.le_of_not_lt hi)]
  · rfl

/-- A register without UNKNOWN positions reads as the held value outside its reserved positions. -/
theorem Reading.value_readsAs (r : Reading) (d : Word) (hu : r.unknown = 0) :
    ReadsAs (r.value d) r.held r.res0 r.res1 := by
  intro i h0 h1
  exact r.value_getLsbD d i (by simp [hu]) h0 h1

/-- A reading changes the count of free values and nothing else. -/
theorem State.afterRead_frame (s : State) (r : Reading) :
    s.afterRead r = { s with draws := (s.afterRead r).draws } := by
  unfold State.afterRead; split <;> rfl

@[simp] theorem State.afterRead_readX (s : State) (r : Reading) (k : Nat) : (s.afterRead r).readX k = s.readX k := by
  unfold State.afterRead; split <;> rfl

/-! ### Free choices -/

/-- A free choice among a list is one of its elements. -/
theorem State.chooseFrom_mem {α : Type} (s : State) (a : α) (rest : List α) : s.chooseFrom a rest ∈ a :: rest := by
  cases rest with
  | nil => simp [State.chooseFrom]
  | cons b more =>
    have h : s.freeValue.toNat % (more.length + 2) < (a :: b :: more).length := Nat.mod_lt _ (by simp)
    simp only [State.chooseFrom]
    rw [List.getElem?_eq_getElem h]
    exact List.getElem_mem h

/-! ### The end of an MRS (40_sysreg_access_common R452) -/

/-- The transfer of an MRS: the value in the register, pc moved on, nothing else but the count of free values. -/
theorem State.completeRead_done (s : State) (n : Nat) (r : Reading) :
    MrsDone s (s.completeRead n r) n (s.valueOf r) where
  value := State.readX_writeX_same _ n _
  others k h := by
    rw [State.completeRead, State.advance_readX, State.readX_writeX_other _ _ h, State.afterRead_readX]
  pc := by simp [State.completeRead]
  frame := by
    unfold State.completeRead State.advance
    rw [State.writeX_frame, State.afterRead_frame]

/-- The end of an MRS of a register is the transfer of what the register reads as. -/
theorem State.finishRead_storage (s : State) (f : SysFields) (n : Nat) (r : Storage) :
    MrsDone s (s.finishRead f n (.storage r)) n (s.valueOf (s.reading r)) := s.completeRead_done n (s.reading r)

/-- The end of an MSR of a register. -/
theorem State.finishWrite_storage (s : State) (f : SysFields) (n : Nat) (r : Storage) :
    s.finishWrite f n (.storage r) = (s.writeStorage (s.readX n) r).advance := rfl

/-! ### Branch records (16_profiling_regs R394) -/

/-- A record adds to the log and uses one free value. -/
theorem State.entryRecord_frame (s : State) :
    s.entryRecord = { s with draws := s.entryRecord.draws, brbeLog := s.entryRecord.brbeLog } := by
  unfold State.entryRecord; split <;> rfl

/-- The record of a return adds to the log and uses one free value. -/
theorem State.returnRecord_frame (s : State) :
    s.returnRecord = { s with draws := s.returnRecord.draws, brbeLog := s.returnRecord.brbeLog } := by
  unfold State.returnRecord; split <;> rfl

/-! ### Exceptions -/

/-- Everything an exception taken to EL1 does (60_exceptions R540, R542). -/
theorem State.takeExceptionToEL1_entry (s : State) (y : Option Word) : EntryEL1 s (s.takeExceptionToEL1 y) y where
  saved := ⟨rfl, rfl⟩
  esr v h := by subst h; exact ⟨rfl, rfl⟩
  esrKept h := by
    subst h
    unfold State.takeExceptionToEL1
    rw [State.entryRecord_frame]
    exact ⟨rfl, rfl⟩
  level := ⟨rfl, rfl, rfl⟩
  masks := ⟨rfl, rfl, rfl, rfl⟩
  cleared := ⟨rfl, rfl, rfl⟩
  flags := ⟨rfl, rfl, rfl, rfl⟩
  vector := rfl
  pairs := ⟨rfl, rfl, rfl⟩
  frame := by
    unfold State.takeExceptionToEL1
    rw [State.entryRecord_frame]
    cases y <;> rfl

/-- Everything an exception taken to EL2 or EL3 does in the step that takes it (40_sysreg_access_common R455, R458). -/
theorem State.takeExceptionHigher_taken (s : State) (el : EL) (y : Option Word) :
    HigherTaken s (s.takeExceptionHigher el y) el y where
  entry := rfl
  pairs := by simp [State.takeExceptionHigher]
  cells h := by simp [State.takeExceptionHigher, State.drawCells, h]
  frame := by unfold State.takeExceptionHigher; rw [State.drawCells_frame]; rfl

/-- A synchronous exception with a fixed syndrome goes to the level it is given. -/
theorem State.takeSynchronous_taken (s : State) (el : EL) (y : Word) : TakenTo s (s.takeSynchronous el y) el y := by
  unfold TakenTo State.takeSynchronous
  split
  · exact s.takeExceptionToEL1_entry (some y)
  · exact s.takeExceptionHigher_taken _ (some y)

/-- Everything the outcome Undefined does (40_sysreg_access_common R453). -/
theorem State.takeUndefined_taken (s : State) : SynchronousTaken s s.takeUndefined 0x02000000 := by
  have hy : undefinedSyndrome = 0x02000000 := by decide
  exact hy ▸ s.takeSynchronous_taken s.undefTarget undefinedSyndrome

/-- The level of a synchronous exception is EL1 or higher. -/
theorem State.undefTarget_ne_el0 (s : State) : s.undefTarget ≠ .el0 := by
  unfold State.undefTarget
  cases s.env.step.undefTarget <;> cases s.pstate.EL <;> decide

/-- An exception that would go to EL1 goes where the routing says. -/
theorem State.takeRouted_taken (s : State) (b : Bool) (y : Option Word) :
    RoutedTaken s (s.takeRouted b y) (b = true) y := by
  cases b
  · exact ⟨(fun h => absurd h (by decide)), fun _ => s.takeExceptionToEL1_entry y⟩
  · exact ⟨fun _ => s.takeExceptionHigher_taken .el2 none, fun h => absurd rfl h⟩

/-- The routing of TGE. -/
theorem State.tgeToEL2_iff (s : State) : s.tgeToEL2 = true ↔ TGERoutes s := by simp [State.tgeToEL2, TGERoutes]

/-- Everything the Illegal Execution state exception does: it goes where TGE says, else where Undefined goes. -/
theorem State.takeIllegalState_taken (s : State) : IllegalStateTaken s s.takeIllegalState := by
  have hy : illegalStateSyndrome = 0x3A000000 := by decide
  have h := s.takeSynchronous_taken s.illegalTarget illegalStateSyndrome
  refine ⟨fun ht => ?_, fun ht => ?_⟩
  · have hl : s.illegalTarget = .el2 := by simp [State.illegalTarget, ht.1, s.tgeToEL2_iff.2 ht.2]
    rw [hl, hy] at h
    unfold State.takeIllegalState
    rw [hl, hy]
    exact h
  · have hl : s.illegalTarget = s.undefTarget := by
      unfold State.illegalTarget
      exact if_neg (by simpa [← s.tgeToEL2_iff] using ht)
    rw [hl, hy] at h
    unfold State.takeIllegalState
    rw [hl, hy]
    exact h

/-- The level of an Illegal Execution state exception is EL1 or higher. -/
theorem State.illegalTarget_ne_el0 (s : State) : s.illegalTarget ≠ .el0 := by
  unfold State.illegalTarget
  split
  · decide
  · exact s.undefTarget_ne_el0

/-- The routing of debug exceptions. -/
theorem State.debugToEL2_iff (s : State) : s.debugToEL2 = true ↔ DebugRoutes s := by
  simp [State.debugToEL2, DebugRoutes]

/-! ### Asynchronous exceptions (60_exceptions R525 to R528) -/

/-- No asynchronous exception is due exactly when each pending one is masked, or the level is above EL1. -/
theorem State.dueAsync_nil (s : State) : s.dueAsync = [] ↔ NothingDue s := by
  unfold State.dueAsync State.pendingAsync State.asyncTakeable State.belowEL2 NothingDue AllMasked
  cases s.pendingIRQ <;> cases s.pendingFIQ <;> cases s.pendingPMU <;> cases s.cfg.synd.ebep <;> cases s.pendingSErrors <;>
    cases s.pstate.EL <;> simp [State.asyncMasked]

@[simp] theorem State.settle_dueAsync (s : State) : s.settle.dueAsync = s.dueAsync := by
  unfold State.settle; split <;> rfl

/-- Everything that happens when one of the due exceptions is taken: it is one of them, it is pending no longer, and it goes
where TGE says. -/
theorem State.takeDue_taken (s : State) (k : AsyncException) (rest : List AsyncException) :
    ∃ j ∈ k :: rest, RoutedTaken ((s.skip 1).releaseAsync j) (s.takeDue k rest) (s.tgeToEL2 = true) (s.asyncSyndrome j) := by
  refine ⟨s.chooseFrom k rest, s.chooseFrom_mem k rest, ?_⟩
  have h := ((s.skip 1).releaseAsync (s.chooseFrom k rest)).takeRouted_taken
    ((s.skip 1).releaseAsync (s.chooseFrom k rest)).tgeToEL2
    (((s.skip 1).releaseAsync (s.chooseFrom k rest)).asyncSyndrome (s.chooseFrom k rest))
  have ht : ((s.skip 1).releaseAsync (s.chooseFrom k rest)).tgeToEL2 = s.tgeToEL2 := by simp [State.tgeToEL2]
  have hs : ((s.skip 1).releaseAsync (s.chooseFrom k rest)).asyncSyndrome (s.chooseFrom k rest)
      = s.asyncSyndrome (s.chooseFrom k rest) := by simp [State.asyncSyndrome]
  rw [ht, hs] at h
  unfold State.takeDue State.takeAsync
  rw [ht, hs]
  exact h

/-! ### Software step (60_exceptions R557) -/

/-- What completing an instruction leaves: PSTATE.SS may be cleared, nothing else. -/
theorem State.afterInstruction_frame (s t : State) :
    s.afterInstruction t = { t with pstate := { t.pstate with SS := (s.afterInstruction t).pstate.SS } } := by
  unfold State.afterInstruction; split <;> rfl

/-! ### Exception returns -/

/-- Everything an exception return from EL1 does (60_exceptions R545 to R548, R550). -/
theorem State.exceptionReturnFromEL1_frame (s : State) :
    s.exceptionReturnFromEL1 = { s with
      pstate := returnPState s.cfg s.env.step s.returnSource s.pstate
      pc := s.env.step.returnTarget, spsrUnknown := true, esrUnknown := true
      spsrEL1 := s.exceptionReturnFromEL1.spsrEL1, esrEL1 := s.exceptionReturnFromEL1.esrEL1
      esrPair := none, spsrPair := none, brbcrPair := none
      draws := s.exceptionReturnFromEL1.draws, brbeLog := s.exceptionReturnFromEL1.brbeLog } := by
  unfold State.exceptionReturnFromEL1
  rw [State.returnRecord_frame]
  rfl

/-! ### Resets (70_reset R581 to R588) -/

@[simp] theorem State.warmReset_cfg (s : State) : s.warmReset.cfg = s.cfg := by
  simp only [State.warmReset, State.skip_cfg]
@[simp] theorem State.warmReset_env (s : State) : s.warmReset.env = s.env := by
  simp only [State.warmReset, State.skip_env]
@[simp] theorem State.warmReset_mem (s : State) : s.warmReset.mem = s.mem := by
  simp only [State.warmReset, State.skip_mem]
@[simp] theorem State.warmReset_pendingEntry (s : State) : s.warmReset.pendingEntry = none := by
  simp only [State.warmReset]
@[simp] theorem State.warmReset_mdscr (s : State) : s.warmReset.mdscr = (s.skip 5).freeValue &&& mdscrOwn := by
  simp only [State.warmReset]
@[simp] theorem State.coldReset_cfg (s : State) : s.coldReset.cfg = s.cfg := by
  simp only [State.coldReset, State.skip_cfg, State.warmReset_cfg]
@[simp] theorem State.coldReset_env (s : State) : s.coldReset.env = s.env := by
  simp only [State.coldReset, State.skip_env, State.warmReset_env]
@[simp] theorem State.coldReset_mem (s : State) : s.coldReset.mem = s.mem := by
  simp only [State.coldReset, State.skip_mem, State.warmReset_mem]
@[simp] theorem State.coldReset_pendingEntry (s : State) : s.coldReset.pendingEntry = none := by
  simp only [State.coldReset, State.skip_pendingEntry, State.warmReset_pendingEntry]
@[simp] theorem State.coldReset_mdscr (s : State) : s.coldReset.mdscr = (s.skip 5).freeValue &&& mdscrOwn := by
  simp only [State.coldReset, State.skip_mdscr, State.warmReset_mdscr]

/-- A drawn SError keeps the constraints on an SError. -/
theorem SErrorInfo.drawn_allowed (y : SyndromeFeatures) (d : Word) : (SErrorInfo.drawn y d).allowed y = true := by
  have h : ∀ e : SErrorInfo, (if e.allowed y then e else .fields false 0 false false false 0 false false false 0).allowed y = true := by
    intro e
    split
    · assumption
    · simp [SErrorInfo.allowed]
  exact h _

/-- The IESB of 0 that an SError reports after it was held pending (R226) keeps the constraints on its fields. -/
theorem SErrorInfo.delayed_allowed {y : SyndromeFeatures} {e : SErrorInfo} (h : e.allowed y = true) : e.delayed.allowed y = true := by
  cases e with
  | implDefined => exact h
  | fields _ _ _ _ iesb =>
    cases iesb
    · exact h
    · simp only [SErrorInfo.allowed, SErrorInfo.delayed, Bool.and_eq_true, Bool.or_eq_true, beq_iff_eq] at h ⊢
      simp_all

/-- Every SError pending after a reset keeps the constraints on an SError. -/
theorem State.warmReset_pendingSErrors (s : State) : ∀ e ∈ s.warmReset.pendingSErrors, e.allowed s.cfg.synd = true := by
  intro e he
  obtain ⟨k, _, rfl⟩ := List.mem_map.1 he
  exact SErrorInfo.drawn_allowed _ _

/-! ### Steps outside this spec (60_exceptions R553; log 27) -/

/-- Writes of general registers change nothing else. -/
theorem State.foldl_writeX_frame (l : List (Nat × Word)) (s : State) :
    l.foldl (fun r e => r.writeX e.1 e.2) s = { s with x := (l.foldl (fun r e => r.writeX e.1 e.2) s).x } := by
  induction l generalizing s with
  | nil => rfl
  | cons e l ih =>
    rw [List.foldl_cons, ih, State.writeX_frame]

/-- Everything a step outside this spec does: the general registers, the bytes, pc and PSTATE the environment gives, the records of the
name pairs, and at an entry to EL2 its cells. -/
theorem State.outsideStep_frame (s : State) (o : OutsideStep) : s.outsideStep o = { s with
    x := (s.outsideStep o).x, mem := o.mem.foldl (fun m e => m.write e.1.toNat e.2) s.mem, pc := o.pc, pstate := o.pstate
    esrPair := (s.outsideEvent o).esrPair, spsrPair := (s.outsideEvent o).spsrPair, brbcrPair := (s.outsideEvent o).brbcrPair
    esrEL2 := (s.outsideEvent o).esrEL2, spsrEL2 := (s.outsideEvent o).spsrEL2, brbcrEL2 := (s.outsideEvent o).brbcrEL2
    draws := (s.outsideEvent o).draws } := by
  unfold State.outsideStep
  rw [State.foldl_writeX_frame, State.outsideEvent_frame]

/-- A step outside this spec answers a next state only where its PSTATE and its level can be. -/
theorem handleOutside_next {o : OutsideStep} {s t : State} (h : handleOutside o s = .next t) :
    t = s.outsideStep o ∧ o.pstate.stateOk s.cfg = true ∧ o.levelOk s.pstate = true := by
  unfold handleOutside at h
  split at h
  · rename_i hc
    rw [Bool.and_eq_true] at hc
    exact ⟨(Host.Outcome.next.inj h).symm, hc⟩
  · cases h

/-- From EL0 or EL1 a step outside this spec goes to EL2 or EL3 or stays where it is; at EL1 and EL0 it ends by staying there or by a
return from EL2 or EL3. -/
theorem OutsideStep.levelOk_cases {p : PState} {o : OutsideStep} (h : o.levelOk p = true) :
    o.pstate.EL = p.EL ∨ ((o.pstate.EL = .el2 ∨ o.pstate.EL = .el3) ∧ o.event = .entry) ∨
      ((p.EL = .el2 ∨ p.EL = .el3) ∧ o.event = .exceptionReturn) := by
  unfold OutsideStep.levelOk at h
  cases he : o.event <;> simp only [he, Bool.and_eq_true, Bool.or_eq_true, beq_iff_eq] at h
  · exact Or.inl h
  · exact Or.inl h
  · exact Or.inr (Or.inl ⟨h.1, rfl⟩)
  · exact Or.inr (Or.inr ⟨h.1, rfl⟩)

/-! ### Causes (60_exceptions R521, R551) -/

/-- The fields of an instruction of this spec are those of an accessor (30_encoding R431). -/
theorem isAccessor_fields (i : Instr) : isAccessor i.fields = true := by
  cases i <;> simp [isAccessor, instrOfFields, named, Instr.fields, sysFields]

/-- The trapped access of a cause that the entry step admits is none of an accessor of this spec (60_exceptions R551). -/
theorem ExcCause.not_isAccessor_of_check {c : Config} {e : Env} {p : PState} {x : ExcCause} {f : SysFields}
    (h : x.check c e p = true) (hx : x.info = .sysAccess f) : isAccessor f = false := by
  unfold ExcCause.check at h
  rw [hx] at h
  simp only [ExcInfo.allowed, Bool.and_eq_true, Bool.not_eq_true'] at h
  exact h.2.2

/-! ### Invariants -/

/-- A step that leaves the memory, MDSCR_EL1, the parameters and the pending entry keeps the invariant. -/
theorem State.Inv.of_same {s t : State} (h : s.Inv) (hm : t.mem = s.mem) (hd : t.mdscr = s.mdscr)
    (hc : t.cfg = s.cfg) (hp : t.pendingEntry = none ∨ t.pendingEntry = s.pendingEntry)
    (hs : t.pstate.nRW = false ∨ (t.pstate.nRW = s.pstate.nRW ∧ t.pstate.EL = s.pstate.EL ∧ t.pstate.M = s.pstate.M)) :
    t.Inv where
  mem := by rw [hm]; exact h.mem
  mdscr := by rw [hd, hc]; exact h.mdscr
  entry e he := by
    rcases hp with hp | hp
    · rw [hp] at he; cases he
    · rw [hp] at he; exact h.entry e he
  aarch32 hn := by
    rcases hs with hs | ⟨h1, h2, h3⟩
    · rw [hs] at hn; cases hn
    · rw [hc, h2, h3]
      exact h.aarch32 (h1 ▸ hn)

/-- An exception on its way to EL2 or EL3 keeps the invariant. -/
theorem State.Inv.of_higher {s t : State} {el : EL} {y : Option Word} (h : s.Inv) (ht : HigherTaken s t el y)
    (hel : el = .el2 ∨ el = .el3) : t.Inv := by
  have hf := ht.frame
  refine ⟨?_, ?_, ?_, ?_⟩
  · rw [hf]; exact h.mem
  · rw [hf]; exact h.mdscr
  · intro e he
    rw [ht.entry] at he
    cases he
    exact hel
  · rw [hf]; exact h.aarch32

/-- An exception taken to EL1 keeps the invariant. -/
theorem State.Inv.of_entry {s t : State} {y : Option Word} (h : s.Inv) (ht : EntryEL1 s t y) : t.Inv := by
  have hf := ht.frame
  exact h.of_same (by rw [hf]) (by rw [hf]) (by rw [hf]) (Or.inr (by rw [hf])) (Or.inl ht.level.2.1)

/-- An exception that goes where the routing says keeps the invariant. -/
theorem State.Inv.of_routed {s t : State} {p : Prop} {y : Option Word} (h : s.Inv) (ht : RoutedTaken s t p y) : t.Inv :=
  (Classical.em p).elim (fun hp => h.of_higher (ht.1 hp) (Or.inl rfl)) (fun hp => h.of_entry (ht.2 hp))

/-- PSTATE after a return keeps AArch32 state to User mode at EL0. -/
theorem returnPState_aarch32 (c : Config) (i : StepInputs) (v : Word) (p : PState) (h : p.nRW = false) :
    (returnPState c i v p).nRW = true →
      c.haveAArch32 = true ∧ (returnPState c i v p).EL = .el0 ∧ (returnPState c i v p).M = 0 := by
  unfold returnPState
  split
  · unfold returnIllegal copyConditional
    split <;> simp [copyBackAArch32, copyBackAArch64, h]
  · rename_i hl
    split
    · rename_i h4
      simp only [illegalReturn, h4, if_true, aarch32ModeAvailable, Bool.or_eq_true, not_or, Bool.not_eq_true',
        Bool.not_eq_false, Bool.and_eq_true, beq_iff_eq] at hl
      intro _
      exact ⟨hl.2.1, rfl, hl.2.2⟩
    · intro hn
      simp [copyConditional, returnAArch64] at hn

end Sys2Proof.Machine
end

