-- ==== Sys2Proof/Laws/Step.lean ====
section
/-! SUPPORT. What comes first in a step, said once: the settled state, a step that takes an input, a step that runs an
instruction. -/

namespace Sys2Proof.Machine

open Sys2Proof

/-- Settling clears the pending records of the name pairs, or nothing (70_reset R590). -/
theorem State.settle_frame (s : State) : s.settle = { s with
    esrPair := s.settle.esrPair, spsrPair := s.settle.spsrPair, brbcrPair := s.settle.brbcrPair } := by
  unfold State.settle; split <;> rfl

/-- What is pending and can be taken does not depend on the records of the name pairs. -/
theorem State.settle_dueAsync_nil {s : State} (h : NothingDue s) : s.settle.dueAsync = [] := by
  rw [State.settle_dueAsync]; exact s.dueAsync_nil.mpr h

/-- A step whose environment offers an input takes it. -/
theorem State.step_of_offers {s u : State} {i : Input} (h : s.offers i u) : step s = handleInput i u := by
  obtain ⟨hp, hd, rest, hi, rfl⟩ := h
  have hp' : s.settle.pendingEntry = none := by rw [State.settle_frame]; exact hp
  have hi' : s.settle.inputs = i :: rest := by rw [State.settle_frame]; exact hi
  have hd' := State.settle_dueAsync_nil hd
  unfold step
  generalize s.settle = q at *
  simp only [State.cycle, hp', hd', hi']

/-- The state an input is taken in differs by the input and by the records of the name pairs only. -/
theorem State.offers_frame {s u : State} {i : Input} (h : s.offers i u) : u = { s with
    inputs := u.inputs, esrPair := u.esrPair, spsrPair := u.spsrPair, brbcrPair := u.brbcrPair } := by
  obtain ⟨_, _, rest, _, rfl⟩ := h
  rw [State.settle_frame]

/-- A step that nothing comes before runs the instruction at pc, without the input that said so. -/
theorem State.step_of_instructionNext {s : State} (h : s.instructionNext) :
    step s = ({ s.settle with inputs := s.inputs.tail } : State).runInstruction := by
  obtain ⟨hp, hd, hi⟩ := h
  have hp' : s.settle.pendingEntry = none := by rw [State.settle_frame]; exact hp
  have hi' : s.settle.inputs = s.inputs := by rw [State.settle_frame]
  have hd' := State.settle_dueAsync_nil hd
  unfold step
  generalize s.settle = q at *
  rcases hi with hi | ⟨rest, hi⟩
  · rw [hi] at hi' ⊢
    have hq : ({ q with inputs := ([] : List Input).tail } : State) = q := by
      cases q; simp only at hi'; subst hi'; rfl
    rw [hq]
    simp only [State.cycle, hp', hd', hi']
  · simp only [State.cycle, hp', hd', hi', hi, handleInput, List.tail_cons]

/-- Software step is active as the statements word it. -/
theorem State.stepActive_iff (s : State) : s.stepActive = true ↔ StepActive s := by
  unfold State.stepActive StepActive State.debugLocal DebugWithin
  rw [Bool.and_eq_true]
  refine and_congr Iff.rfl ?_
  have hd := s.debugToEL2_iff
  cases s.pstate.EL <;> simp [hd] <;> tauto

end Sys2Proof.Machine
end

