-- ==== Sys2Proof/Laws/Level.lean ====
section
/-! SUPPORT. What each operation of a step does to the Exception level, said once (60_exceptions R553): it is kept, or EL1 is entered by
an exception, or an exception return, a reset or a step outside this spec changes it. -/

namespace Sys2Proof.Machine

open Sys2Proof

/-- From `s` to `t` the level is kept, or an exception has been taken to EL1 with the process state of `s`, PSTATE.SS apart, which the
completion of a stepped instruction clears first (60_exceptions R557). -/
def LevelEnd (s t : State) : Prop :=
  t.pstate.EL = s.pstate.EL ∨
    ∃ (q : State) (y : Option Word), q.cfg = s.cfg ∧ q.pstate = { s.pstate with SS := q.pstate.SS } ∧ EntryEL1 q t y

theorem LevelEnd.of_entry {s t : State} {y : Option Word} (h : EntryEL1 s t y) : LevelEnd s t := Or.inr ⟨s, y, rfl, rfl, h⟩

theorem LevelEnd.of_higher {s t : State} {el : EL} {y : Option Word} (h : HigherTaken s t el y) : LevelEnd s t :=
  Or.inl (by rw [h.frame])

theorem LevelEnd.of_taken {s t : State} {el : EL} {y : Word} (h : TakenTo s t el y) : LevelEnd s t := by
  unfold TakenTo at h
  split at h
  · exact .of_entry h
  · exact .of_higher h

theorem LevelEnd.of_routed {s t : State} {p : Prop} {y : Option Word} (h : RoutedTaken s t p y) : LevelEnd s t :=
  (Classical.em p).elim (fun hp => .of_higher (h.1 hp)) (fun hp => .of_entry (h.2 hp))

theorem LevelEnd.refl (s : State) : LevelEnd s s := Or.inl rfl

/-- What happens before, if it leaves the parameters and PSTATE but PSTATE.SS, does not matter. -/
theorem LevelEnd.of_eq {s r t : State} (h : LevelEnd r t) (hc : r.cfg = s.cfg)
    (hp : r.pstate = { s.pstate with SS := r.pstate.SS }) : LevelEnd s t := by
  rcases h with h | ⟨q, y, hq, hs, he⟩
  · exact Or.inl (by rw [h, hp])
  · exact Or.inr ⟨q, y, hq.trans hc, by rw [hs, hp], he⟩

theorem LevelEnd.of_settle {s t : State} {l : List Input} (h : LevelEnd { s.settle with inputs := l } t) : LevelEnd s t :=
  h.of_eq (by rw [State.settle_frame]) (by rw [State.settle_frame])

/-! ### Instructions -/

@[simp] theorem State.writeStorage_pstate (s : State) (v : Word) (r : Storage) : (s.writeStorage v r).pstate = s.pstate := by
  cases r <;> first | rfl | simp [State.writeStorage]

@[simp] theorem State.writePaired_pstate (s : State) (p : RegPair) (n : PairName) (v : Word) :
    (s.writePaired p n v).pstate = s.pstate := by
  unfold State.writePaired
  split
  · simp
  · split <;> simp

/-- The outcomes that MRS and MSR share. -/
theorem State.takeExlock_level (s : State) : LevelEnd s s.takeExlock := by
  unfold State.takeExlock
  split
  · exact .of_entry (s.takeExceptionToEL1_entry _)
  · exact .of_higher (s.takeExceptionHigher_taken _ _)

theorem State.finishRead_level (s : State) (f : SysFields) (n : Nat) (a : Access) : LevelEnd s (s.finishRead f n a) := by
  cases a with
  | undefined => exact .of_taken s.takeUndefined_taken
  | trap el => exact .of_higher (s.takeExceptionHigher_taken el _)
  | halt => exact Or.inl rfl
  | exlock => exact s.takeExlock_level
  | storage r => exact Or.inl (by rw [(s.finishRead_storage f n r).frame])
  | paired p m =>
    refine Or.inl ?_
    rw [show s.finishRead f n (.paired p m) = (s.afterPairedChoice p m).completeRead n (s.pairedReading p m) from rfl,
      ((s.afterPairedChoice p m).completeRead_done n _).frame]
    simp
  | nvMem off =>
    simp only [State.finishRead]
    split
    · exact .of_higher (s.takeExceptionHigher_taken _ _)
    · exact Or.inl (by rw [(s.completeRead_done n _).frame])

theorem State.finishWrite_level (s : State) (f : SysFields) (n : Nat) (a : Access) : LevelEnd s (s.finishWrite f n a) := by
  cases a with
  | undefined => exact .of_taken s.takeUndefined_taken
  | trap el => exact .of_higher (s.takeExceptionHigher_taken el _)
  | halt => exact Or.inl rfl
  | exlock => exact s.takeExlock_level
  | storage r => exact Or.inl (by simp [State.finishWrite])
  | paired p m => exact Or.inl (by simp [State.finishWrite])
  | nvMem off =>
    simp only [State.finishWrite]
    split
    · exact .of_higher (s.takeExceptionHigher_taken _ _)
    · exact Or.inl (by simp)

/-- Every instruction ends as an MRS or an MSR ends. -/
theorem exec_ends (i : Instr) (s : State) :
    ∃ (f : SysFields) (n : Nat) (a : Access), exec i s = .next (s.finishRead f n a) ∨ exec i s = .next (s.finishWrite f n a) := by
  cases i <;> first | exact ⟨_, _, _, Or.inl rfl⟩ | exact ⟨_, _, _, Or.inr rfl⟩

theorem exec_level {i : Instr} {s t : State} (h : exec i s = .next t) : LevelEnd s t := by
  obtain ⟨f, n, a, he | he⟩ := exec_ends i s <;> rw [he] at h <;> cases h
  · exact s.finishRead_level f n a
  · exact s.finishWrite_level f n a

/-- Clearing PSTATE.SS keeps the level, and changes nothing after an entry to EL1, which has cleared it. -/
theorem LevelEnd.of_afterInstruction {s r t : State} (h : LevelEnd s t) : LevelEnd s (r.afterInstruction t) := by
  rcases h with h | ⟨q, y, hq, hs, he⟩
  · exact Or.inl (by rw [State.afterInstruction_frame]; exact h)
  · have ht : r.afterInstruction t = t := by
      unfold State.afterInstruction
      split
      · have hss : t.pstate.SS = false := he.cleared.1
        unfold State.clearSS
        rw [show ({ t.pstate with SS := false } : PState) = t.pstate by rw [← hss]]
      · rfl
    exact Or.inr ⟨q, y, hq, hs, by rw [ht]; exact he⟩

theorem State.takeIllegalState_level (s : State) : LevelEnd s s.takeIllegalState :=
  .of_taken (s.takeSynchronous_taken s.illegalTarget _)

theorem State.runInstruction_level {s t : State} (h : s.runInstruction = .next t) : LevelEnd s t := by
  unfold State.runInstruction at h
  split at h
  · cases h; exact s.takeIllegalState_level
  · split at h
    · cases h
    · split at h
      · cases h
      · split at h
        · cases h
        · split at h
          · rename_i he
            cases h
            exact (exec_level he).of_afterInstruction
          · cases h
          · cases h

/-! ### Inputs -/

theorem State.takeDebugException_level (s : State) (i : ExcInfo) : LevelEnd s (s.takeDebugException i) :=
  .of_routed (s.takeRouted_taken _ _)

theorem State.debugMatch_level (s : State) (i : ExcInfo) : LevelEnd s (s.debugMatch i) := by
  unfold State.debugMatch
  split
  · exact Or.inl rfl
  · split
    · exact s.takeDebugException_level i
    · exact .refl s

theorem takeCause_level {x : ExcCause} {s t : State} (h : takeCause x s = .next t) : LevelEnd s t := by
  unfold takeCause at h
  split at h
  · cases h; exact .of_routed (s.takeRouted_taken _ _)
  · cases h

/-- What an executing instruction does is done, or the Illegal Execution state exception is taken in its place. -/
theorem State.unlessIllegal_next {s t : State} {r : Result} (h : s.unlessIllegal r = .next t) : t = s.takeIllegalState ∨ r = .next t := by
  unfold State.unlessIllegal at h
  split at h
  · cases h; exact Or.inl rfl
  · exact Or.inr h

theorem handleException_level {x : ExcCause} {s t : State} (h : handleException x s = .next t) : LevelEnd s t := by
  unfold handleException at h
  split at h
  · exact takeCause_level h
  · rcases State.unlessIllegal_next h with rfl | h
    · exact s.takeIllegalState_level
    · exact takeCause_level h

theorem handleUnpredictable_level {x : ExcCause} {p : PState} {e : Env} {s t : State} (h : handleUnpredictable x p e s = .next t) :
    LevelEnd s t := by
  unfold handleUnpredictable at h
  split at h
  · cases h; exact .of_routed (s.takeRouted_taken _ _)
  · cases h

theorem State.holdAsync_level (s : State) (k : AsyncException) : (s.holdAsync k).pstate.EL = s.pstate.EL := by
  cases k <;> first | rfl | (simp only [State.holdAsync]; split <;> rfl)

theorem handleArrival_level {k : AsyncException} {s t : State} (h : handleArrival k s = .next t) : LevelEnd s t := by
  unfold handleArrival at h
  split at h
  · cases h
    split
    · exact .of_routed (s.takeRouted_taken _ _)
    · exact Or.inl (s.holdAsync_level k)
  · cases h

theorem handleAccess_level {a : DataAccess} {s t : State} (h : handleAccess a s = .next t) : LevelEnd s t := by
  unfold handleAccess at h
  split at h <;> cases h
  · exact Or.inl rfl
  · exact ((s.skip 65).debugMatch_level _).of_eq rfl rfl

theorem handleBreakpoint_level {n : Nat} {a : Word} {s t : State} (h : handleBreakpoint n a s = .next t) : LevelEnd s t := by
  unfold handleBreakpoint at h
  split at h
  · cases h; exact s.debugMatch_level _
  · cases h

theorem handleVectorCatch_level {s t : State} (h : handleVectorCatch s = .next t) : LevelEnd s t := by
  unfold handleVectorCatch at h
  split at h
  · cases h
    split
    · exact s.takeDebugException_level _
    · exact .refl s
  · cases h

theorem handleStepped_level {isv ex : Bool} {s t : State} (h : handleStepped isv ex s = .next t) : LevelEnd s t := by
  unfold handleStepped at h
  split at h
  · cases h
    split
    · exact (s.clearSS.takeDebugException_level _).of_eq rfl rfl
    · exact .refl s
  · cases h

theorem handleDCC_level {x : ExcCause} {s t : State} (h : handleDCC x s = .next t) : LevelEnd s t := by
  unfold handleDCC at h
  split at h
  · cases h
    split
    · exact .of_routed (s.takeRouted_taken _ _)
    · exact .refl s
  · cases h

theorem State.extRead_level (s : State) (n : Nat) : (s.extRead n).pstate = s.pstate := by
  unfold State.extRead; split <;> split <;> simp

theorem State.extWrite_level (s : State) (n : Nat) (v : Word) : (s.extWrite n v).pstate = s.pstate := by
  unfold State.extWrite; repeat' split
  all_goals simp

theorem State.extReadWcr_level (s : State) (n : Nat) : (s.extReadWcr n).pstate = s.pstate := by
  unfold State.extReadWcr; split <;> simp

theorem State.extWriteWcr_level (s : State) (n : Nat) (v : Word) : (s.extWriteWcr n v).pstate = s.pstate := by
  unfold State.extWriteWcr; split <;> simp

/-- The level after a reset is the highest one (70_reset R588). -/
@[simp] theorem State.warmReset_level (s : State) : s.warmReset.pstate.EL = s.cfg.resetEL := rfl
@[simp] theorem State.coldReset_level (s : State) : s.coldReset.pstate.EL = s.cfg.resetEL := rfl

/-- An input changes the environment record: the level is kept, unless the Core power domain is turned on. -/
theorem State.changeEnv_level (s : State) (e : Env) :
    (s.changeEnv e).pstate.EL = s.pstate.EL ∨ (s.env.ext.corePowered = false ∧ e.ext.corePowered = true) := by
  unfold State.changeEnv
  split
  · rename_i h
    simp only [Bool.and_eq_true, Bool.not_eq_true'] at h
    exact Or.inr ⟨h.2, h.1⟩
  · exact Or.inl rfl

/-- Everything an input can do to the level. -/
theorem handleInput_level {i : Input} {s t : State} (h : handleInput i s = .next t) :
    LevelEnd s t ∨ i = .warmReset ∨ i = .coldReset ∨
      (∃ e, i = .env e ∧ s.env.ext.corePowered = false ∧ e.ext.corePowered = true) ∨
      (i = .exceptionReturn ∧ t = s.exceptionReturnFromEL1) ∨
      ∃ o, i = .outside o ∧ o.levelOk s.pstate = true ∧ t.pstate = o.pstate := by
  cases i with
  | instruction => exact Or.inl (State.runInstruction_level h)
  | env e =>
    cases h
    rcases s.changeEnv_level e with hl | hp
    · exact Or.inl (Or.inl hl)
    · exact Or.inr (Or.inr (Or.inr (Or.inl ⟨e, rfl, hp⟩)))
  | program start words => cases h; exact Or.inl (Or.inl rfl)
  | exception x => exact Or.inl (handleException_level h)
  | unpredictable x p e =>
    rcases State.unlessIllegal_next h with rfl | h
    · exact Or.inl s.takeIllegalState_level
    · exact Or.inl (handleUnpredictable_level h)
  | arrives k => exact Or.inl (handleArrival_level h)
  | exceptionReturn =>
    rcases State.unlessIllegal_next h with rfl | h
    · exact Or.inl s.takeIllegalState_level
    · unfold handleReturn at h
      split at h <;> cases h
      exact Or.inr (Or.inr (Or.inr (Or.inr (Or.inl ⟨rfl, rfl⟩))))
  | contextSync => cases h; exact Or.inl (Or.inl rfl)
  | extRead a =>
    simp only [handleInput, handleExtRead] at h
    split at h <;> cases h
    exact Or.inl (Or.inl (by rw [State.extRead_level]))
  | extWrite a v =>
    simp only [handleInput, handleExtWrite] at h
    split at h <;> cases h
    exact Or.inl (Or.inl (by rw [State.extWrite_level]))
  | extReadWCR n => cases h; exact Or.inl (Or.inl (by rw [State.extReadWcr_level]))
  | extWriteWCR n v => cases h; exact Or.inl (Or.inl (by rw [State.extWriteWcr_level]))
  | coldReset => exact Or.inr (Or.inr (Or.inl rfl))
  | warmReset => exact Or.inr (Or.inl rfl)
  | access a =>
    rcases State.unlessIllegal_next h with rfl | h
    · exact Or.inl s.takeIllegalState_level
    · exact Or.inl (handleAccess_level h)
  | breakpoint n a => exact Or.inl (handleBreakpoint_level h)
  | vectorCatch => exact Or.inl (handleVectorCatch_level h)
  | stepped isv ex => exact Or.inl (handleStepped_level h)
  | dccAccess x =>
    rcases State.unlessIllegal_next h with rfl | h
    · exact Or.inl s.takeIllegalState_level
    · exact Or.inl (handleDCC_level h)
  | branch =>
    rcases State.unlessIllegal_next h with rfl | h
    · exact Or.inl s.takeIllegalState_level
    · cases h
      refine Or.inl (Or.inl ?_)
      unfold State.takeBranch
      split <;> rfl
  | pmuCapture =>
    cases h
    refine Or.inl (Or.inl ?_)
    unfold State.pmuCapture
    split <;> rfl
  | pmuOverflow =>
    cases h
    refine Or.inl (Or.inl ?_)
    unfold State.pmuOverflow
    split <;> rfl
  | sample o =>
    simp only [handleInput, handleSample] at h
    split at h <;> cases h
    exact Or.inl (Or.inl rfl)
  | outside o =>
    have hn : handleOutside o s = .next t → ∃ q, .outside o = Input.outside q ∧ q.levelOk s.pstate = true ∧ t.pstate = q.pstate := by
      intro h
      obtain ⟨rfl, _, ho⟩ := handleOutside_next h
      exact ⟨o, rfl, ho, rfl⟩
    simp only [handleInput] at h
    split at h
    · exact Or.inr (Or.inr (Or.inr (Or.inr (Or.inr (hn h)))))
    · rcases State.unlessIllegal_next h with rfl | h
      · exact Or.inl s.takeIllegalState_level
      · exact Or.inr (Or.inr (Or.inr (Or.inr (Or.inr (hn h)))))

/-! ### A step -/

/-- Everything a step can do to the level: a higher exception goes to its level, an exception that has been pending is taken, an input
does what `handleInput_level` says, or an instruction runs. -/
theorem step_level {s t : State} (h : step s = .next t) :
    (∃ e, s.pendingEntry = some e ∧ t.pstate.EL = e.target) ∨ LevelEnd s t ∨
    ∃ i u, s.offers i u ∧ handleInput i u = .next t := by
  unfold step State.cycle at h
  split at h
  · rename_i e he
    cases h
    exact Or.inl ⟨e, by rw [State.settle_frame] at he; exact he, rfl⟩
  · rename_i k rest _ _
    cases h
    obtain ⟨j, _, hj⟩ := s.settle.takeDue_taken k rest
    exact Or.inr (Or.inl ((LevelEnd.of_routed hj).of_eq (by rw [State.settle_frame]; simp) (by rw [State.settle_frame]; simp)))
  · rename_i i rest he hd hi
    refine Or.inr (Or.inr ⟨i, _, ⟨?_, ?_, rest, ?_, rfl⟩, h⟩)
    · rw [State.settle_frame] at he; exact he
    · rw [State.settle_dueAsync] at hd; exact s.dueAsync_nil.mp hd
    · rw [State.settle_frame] at hi; exact hi
  · exact Or.inr (Or.inl ((State.runInstruction_level h).of_eq (by rw [State.settle_frame]) (by rw [State.settle_frame])))

end Sys2Proof.Machine
end

