-- ==== Sys2Proof/Laws/Mdscr.lean ====
section
/-! SUPPORT. The bits of MDSCR_EL1: which are storage, and what the windows show (15_debug_regs R339 to R355). -/

namespace Sys2Proof.Machine

open Sys2Proof

/-! ### The windows, bit by bit (R340) -/

theorem mdscrWindows_bit31 (c : Config) (e : EDSCR) : (mdscrWindows c e).getLsbD 31 = (c.dbg.trf && e.TFO) := by
  unfold mdscrWindows
  simp only [BitVec.getLsbD_append]
  simp

theorem mdscrWindows_bit30 (c : Config) (e : EDSCR) : (mdscrWindows c e).getLsbD 30 = e.RXfull := by
  unfold mdscrWindows
  simp only [BitVec.getLsbD_append]
  simp

theorem mdscrWindows_bit29 (c : Config) (e : EDSCR) : (mdscrWindows c e).getLsbD 29 = e.TXfull := by
  unfold mdscrWindows
  simp only [BitVec.getLsbD_append]
  simp

theorem mdscrWindows_bit27 (c : Config) (e : EDSCR) : (mdscrWindows c e).getLsbD 27 = e.RXO := by
  unfold mdscrWindows
  simp only [BitVec.getLsbD_append]
  simp

theorem mdscrWindows_bit26 (c : Config) (e : EDSCR) : (mdscrWindows c e).getLsbD 26 = e.TXU := by
  unfold mdscrWindows
  simp only [BitVec.getLsbD_append]
  simp

theorem mdscrWindows_bit23 (c : Config) (e : EDSCR) : (mdscrWindows c e).getLsbD 23 = e.INTdis.getLsbD 1 := by
  unfold mdscrWindows
  simp only [BitVec.getLsbD_append]
  simp

theorem mdscrWindows_bit22 (c : Config) (e : EDSCR) : (mdscrWindows c e).getLsbD 22 = e.INTdis.getLsbD 0 := by
  unfold mdscrWindows
  simp only [BitVec.getLsbD_append]
  simp

theorem mdscrWindows_bit21 (c : Config) (e : EDSCR) : (mdscrWindows c e).getLsbD 21 = e.TDA := by
  unfold mdscrWindows
  simp only [BitVec.getLsbD_append]
  simp

theorem mdscrWindows_bit19 (c : Config) (e : EDSCR) : (mdscrWindows c e).getLsbD 19 = (c.dbg.pcsrv8p2 && e.SC2) := by
  unfold mdscrWindows
  simp only [BitVec.getLsbD_append]
  simp

theorem mdscrWindows_bit14 (c : Config) (e : EDSCR) : (mdscrWindows c e).getLsbD 14 = e.HDE := by
  unfold mdscrWindows
  simp only [BitVec.getLsbD_append]
  simp

theorem mdscrWindows_bit6 (c : Config) (e : EDSCR) : (mdscrWindows c e).getLsbD 6 = e.ERR := by
  unfold mdscrWindows
  simp only [BitVec.getLsbD_append]
  simp

theorem mdscrWindows_bit0 (c : Config) (e : EDSCR) : (mdscrWindows c e).getLsbD 0 = false := by
  unfold mdscrWindows
  simp only [BitVec.getLsbD_append]
  simp

theorem mdscrWindows_bit12 (c : Config) (e : EDSCR) : (mdscrWindows c e).getLsbD 12 = false := by
  unfold mdscrWindows
  simp only [BitVec.getLsbD_append]
  simp

theorem mdscrWindows_bit13 (c : Config) (e : EDSCR) : (mdscrWindows c e).getLsbD 13 = false := by
  unfold mdscrWindows
  simp only [BitVec.getLsbD_append]
  simp

theorem mdscrWindows_bit15 (c : Config) (e : EDSCR) : (mdscrWindows c e).getLsbD 15 = false := by
  unfold mdscrWindows
  simp only [BitVec.getLsbD_append]
  simp

theorem mdscrWindows_bit16 (c : Config) (e : EDSCR) : (mdscrWindows c e).getLsbD 16 = false := by
  unfold mdscrWindows
  simp only [BitVec.getLsbD_append]
  simp

theorem mdscrWindows_bit17 (c : Config) (e : EDSCR) : (mdscrWindows c e).getLsbD 17 = false := by
  unfold mdscrWindows
  simp only [BitVec.getLsbD_append]
  simp

theorem mdscrWindows_bit18 (c : Config) (e : EDSCR) : (mdscrWindows c e).getLsbD 18 = false := by
  unfold mdscrWindows
  simp only [BitVec.getLsbD_append]
  simp

/-! ### The stored bits (R339, R353, R355) -/

/-- MDE, KDE, TDCC and SS are storage, and are no RES0 bits. -/
theorem mdscr_own (c : Config) : ∀ k ∈ [15, 13, 12, 0], (mdscrKept c).getLsbD k = true ∧
    (mdscrWindowMask c).getLsbD k = false ∧ (mdscrKept c &&& ~~~mdscrOwn).getLsbD k = false := by
  unfold mdscrKept mdscrWindowMask
  cases c.dbg.trf <;> cases c.dbg.pcsrv8p2 <;> decide

/-- Bits [18:16] are not storage and no windows. -/
theorem mdscr_raz (c : Config) : ∀ k ∈ [16, 17, 18], (mdscrKept c).getLsbD k = false ∧
    (mdscrWindowMask c).getLsbD k = false := by
  unfold mdscrKept mdscrWindowMask
  cases c.dbg.trf <;> cases c.dbg.pcsrv8p2 <;> decide

/-- The windows that need no feature are not storage. -/
theorem mdscr_window (c : Config) : ∀ k ∈ [30, 29, 27, 26, 23, 22, 21, 14, 6], (mdscrKept c).getLsbD k = false := by
  unfold mdscrKept mdscrWindowMask
  cases c.dbg.trf <;> cases c.dbg.pcsrv8p2 <;> decide

/-- The window TFO, with its feature, is not storage. -/
theorem mdscr_window31 (c : Config) (h : c.dbg.trf = true) : (mdscrKept c).getLsbD 31 = false := by
  unfold mdscrKept mdscrWindowMask
  rw [h]; cases c.dbg.pcsrv8p2 <;> decide

/-- The window SC2, with its feature, is not storage. -/
theorem mdscr_window19 (c : Config) (h : c.dbg.pcsrv8p2 = true) : (mdscrKept c).getLsbD 19 = false := by
  unfold mdscrKept mdscrWindowMask
  rw [h]; cases c.dbg.trf <;> decide

/-- What is written to MDSCR_EL1 holds nothing behind the windows and the RAZ/WI bits. -/
theorem mdscr_kept_and (c : Config) (v : Word) : v &&& mdscrKept c &&& (mdscrWindowMask c ||| mdscrRaz) = 0 := by
  unfold mdscrKept
  rw [BitVec.and_assoc, BitVec.and_comm (~~~_), BitVec.and_not_self]; simp

/-- The own bits lie outside the windows and the RAZ/WI bits. -/
theorem mdscr_own_and (c : Config) (v : Word) : v &&& mdscrOwn &&& (mdscrWindowMask c ||| mdscrRaz) = 0 := by
  have h : mdscrOwn &&& (mdscrWindowMask c ||| mdscrRaz) = 0 := by
    unfold mdscrWindowMask
    cases c.dbg.trf <;> cases c.dbg.pcsrv8p2 <;> decide
  rw [BitVec.and_assoc, h]; simp

end Sys2Proof.Machine
end

