-- ==== Sys2Proof/Laws/PerInstr.lean ====
section
/-! SUPPORT. What is proved of every instruction by cases: its encoding has the format, and its fields are found again. -/

namespace Sys2Proof.Laws.Encoded

open Sys2Proof

/-- The word of an instruction has the fixed bits of the format, and its fields are the instruction's (R427). -/
def Statement (i : Instr) : Prop :=
  isSysRegForm (encode i) = true ∧ fieldsOfWord (encode i) = i.fields

theorem mrsEsrEl1 (t : Nat) : Statement (.mrsEsrEl1 t) :=
  ⟨isSysRegForm_wordOfFields _, fieldsOfWord_wordOfFields _ (by simp [Instr.fields, sysFields])⟩

theorem msrEsrEl1 (t : Nat) : Statement (.msrEsrEl1 t) :=
  ⟨isSysRegForm_wordOfFields _, fieldsOfWord_wordOfFields _ (by simp [Instr.fields, sysFields])⟩

theorem mrsEsrEl12 (t : Nat) : Statement (.mrsEsrEl12 t) :=
  ⟨isSysRegForm_wordOfFields _, fieldsOfWord_wordOfFields _ (by simp [Instr.fields, sysFields])⟩

theorem msrEsrEl12 (t : Nat) : Statement (.msrEsrEl12 t) :=
  ⟨isSysRegForm_wordOfFields _, fieldsOfWord_wordOfFields _ (by simp [Instr.fields, sysFields])⟩

theorem mrsEsrEl2 (t : Nat) : Statement (.mrsEsrEl2 t) :=
  ⟨isSysRegForm_wordOfFields _, fieldsOfWord_wordOfFields _ (by simp [Instr.fields, sysFields])⟩

theorem msrEsrEl2 (t : Nat) : Statement (.msrEsrEl2 t) :=
  ⟨isSysRegForm_wordOfFields _, fieldsOfWord_wordOfFields _ (by simp [Instr.fields, sysFields])⟩

theorem mrsSpsrEl1 (t : Nat) : Statement (.mrsSpsrEl1 t) :=
  ⟨isSysRegForm_wordOfFields _, fieldsOfWord_wordOfFields _ (by simp [Instr.fields, sysFields])⟩

theorem msrSpsrEl1 (t : Nat) : Statement (.msrSpsrEl1 t) :=
  ⟨isSysRegForm_wordOfFields _, fieldsOfWord_wordOfFields _ (by simp [Instr.fields, sysFields])⟩

theorem mrsSpsrEl12 (t : Nat) : Statement (.mrsSpsrEl12 t) :=
  ⟨isSysRegForm_wordOfFields _, fieldsOfWord_wordOfFields _ (by simp [Instr.fields, sysFields])⟩

theorem msrSpsrEl12 (t : Nat) : Statement (.msrSpsrEl12 t) :=
  ⟨isSysRegForm_wordOfFields _, fieldsOfWord_wordOfFields _ (by simp [Instr.fields, sysFields])⟩

theorem mrsSpsrEl2 (t : Nat) : Statement (.mrsSpsrEl2 t) :=
  ⟨isSysRegForm_wordOfFields _, fieldsOfWord_wordOfFields _ (by simp [Instr.fields, sysFields])⟩

theorem msrSpsrEl2 (t : Nat) : Statement (.msrSpsrEl2 t) :=
  ⟨isSysRegForm_wordOfFields _, fieldsOfWord_wordOfFields _ (by simp [Instr.fields, sysFields])⟩

theorem mrsDbgwcr (m t : Nat) : Statement (.mrsDbgwcr m t) :=
  ⟨isSysRegForm_wordOfFields _, fieldsOfWord_wordOfFields _ (by simp [Instr.fields, sysFields])⟩

theorem msrDbgwcr (m t : Nat) : Statement (.msrDbgwcr m t) :=
  ⟨isSysRegForm_wordOfFields _, fieldsOfWord_wordOfFields _ (by simp [Instr.fields, sysFields])⟩

theorem mrsMdscr (t : Nat) : Statement (.mrsMdscr t) :=
  ⟨isSysRegForm_wordOfFields _, fieldsOfWord_wordOfFields _ (by simp [Instr.fields, sysFields])⟩

theorem msrMdscr (t : Nat) : Statement (.msrMdscr t) :=
  ⟨isSysRegForm_wordOfFields _, fieldsOfWord_wordOfFields _ (by simp [Instr.fields, sysFields])⟩

theorem mrsPmsfcr (t : Nat) : Statement (.mrsPmsfcr t) :=
  ⟨isSysRegForm_wordOfFields _, fieldsOfWord_wordOfFields _ (by simp [Instr.fields, sysFields])⟩

theorem msrPmsfcr (t : Nat) : Statement (.msrPmsfcr t) :=
  ⟨isSysRegForm_wordOfFields _, fieldsOfWord_wordOfFields _ (by simp [Instr.fields, sysFields])⟩

theorem mrsBrbcrEl1 (t : Nat) : Statement (.mrsBrbcrEl1 t) :=
  ⟨isSysRegForm_wordOfFields _, fieldsOfWord_wordOfFields _ (by simp [Instr.fields, sysFields])⟩

theorem msrBrbcrEl1 (t : Nat) : Statement (.msrBrbcrEl1 t) :=
  ⟨isSysRegForm_wordOfFields _, fieldsOfWord_wordOfFields _ (by simp [Instr.fields, sysFields])⟩

theorem mrsBrbcrEl12 (t : Nat) : Statement (.mrsBrbcrEl12 t) :=
  ⟨isSysRegForm_wordOfFields _, fieldsOfWord_wordOfFields _ (by simp [Instr.fields, sysFields])⟩

theorem msrBrbcrEl12 (t : Nat) : Statement (.msrBrbcrEl12 t) :=
  ⟨isSysRegForm_wordOfFields _, fieldsOfWord_wordOfFields _ (by simp [Instr.fields, sysFields])⟩

end Sys2Proof.Laws.Encoded
end

