-- ==== Sys2Proof/Tests/Slice0.lean ====
section
/-! SUPPORT. The model's own tests: ill-formed terms, the words of 95_test_vectors section 2.1, one step at a time of the
vectors of sections 2.2 to 2.8, and for every statement a state and operands that meet its hypotheses. -/

namespace Sys2Proof.Tests

open Sys2Proof Sys2Proof.Machine

-- one theorem after another: many at once, each waiting for the kernel, would need too many threads
set_option Elab.async false

/-! ### Helpers -/

/-- A field of the next state, if there is one. -/
def after {α : Type} (o : Result) (f : State → α) : Option α :=
  match o with
  | .next t => some (f t)
  | _ => none

/-- The machine after reset, but at another Exception level. -/
def base (el : EL) : State := { State.reset with pstate := { State.reset.pstate with EL := el } }

/-- Changes of the hypervisor controls, the fine-grained controls, the other monitor controls, the debug inputs, the
inputs of the step, EDSCR, the parameters and PSTATE. -/
def hyp (f : HypControls → HypControls) (s : State) : State := { s with env := { s.env with hyp := f s.env.hyp } }
def fgt (f : FineGrained → FineGrained) (s : State) : State := { s with env := { s.env with fgt := f s.env.fgt } }
def mon (f : MonControls → MonControls) (s : State) : State := { s with env := { s.env with mon := f s.env.mon } }
def dbg (f : DebugInputs → DebugInputs) (s : State) : State := { s with env := { s.env with dbg := f s.env.dbg } }
def env (f : StepInputs → StepInputs) (s : State) : State := { s with env := { s.env with step := f s.env.step } }
def edscr (f : EDSCR → EDSCR) (s : State) : State := { s with env := { s.env with edscr := f s.env.edscr } }
def cfg (f : Config → Config) (s : State) : State := { s with cfg := f s.cfg }
def psr (f : PState → PState) (s : State) : State := { s with pstate := f s.pstate }

/-- EL2 enabled, and on top of it nested virtualization with these bits NV2 : NV1 : NV. -/
def guest (nvx : BitVec 3) (el : EL := .el1) : State := hyp (fun h => { h with el2Enabled := true, nvx := nvx }) (base el)

/-- Host mode at a level. -/
def host (el : EL) : State := hyp (fun h => { h with el2Enabled := true, elIsInHost := true, e2h := true }) (base el)

/-- The exception lock is held. -/
def locked (s : State) : State :=
  env (fun e => { e with exlockEn := true }) (psr (fun p => { p with EXLOCK := true }) s)

/-- EL3 lets the profiling registers be used in Non-secure state. -/
def profiling (s : State) : State := mon (fun m => { m with ns := true, nspb := 0b11, sbrbe := 0b01 }) s

/-- A state with one input waiting, and the state in which it is taken. -/
def offering (i : Input) (s : State) : State := { s with inputs := [i] }
def taken (i : Input) (s : State) : State := { (offering i s).settle with inputs := [] }

/-- What is on its way to be taken before an input. -/
def waiting (s : State) : Option HigherEntry × Bool × Bool × List SErrorInfo × Bool :=
  (s.pendingEntry, s.pendingIRQ, s.pendingFIQ, s.pendingSErrors, s.pendingPMU)

theorem nothing_due (s : State) (h : waiting s = (none, false, false, [], false)) : NothingDue s := by
  simp only [waiting, Prod.mk.injEq] at h
  simp [NothingDue, h]

theorem offered (i : Input) (s : State) (h : waiting s = (none, false, false, [], false)) :
    (offering i s).offers i (taken i s) :=
  ⟨(Prod.mk.inj h).1, nothing_due _ h, [], rfl, rfl⟩

theorem next_is_instruction (s : State) (h : waiting s = (none, false, false, [], false)) (hi : s.inputs = []) :
    s.instructionNext := ⟨(Prod.mk.inj h).1, nothing_due _ h, Or.inl hi⟩

/-! ### WellFormed refuses -/

theorem test_rt_32_ill_formed : (Instr.mrsEsrEl1 32).wellFormed = false := by decide
theorem test_wp_16_ill_formed : (Instr.msrDbgwcr 16 0).wellFormed = false := by decide
theorem test_no_watchpoints_ill_formed :
    Config.watchpointsOk { Config.reference with numWatchpoints := 0 } = false := by decide
theorem test_17_breakpoints_ill_formed :
    Config.breakpointsOk { Config.reference with numBreakpoints := 17 } = false := by decide
theorem test_no_byte_order_ill_formed :
    Config.endianOk { Config.reference with bigEndEL0 := false, littleEndEL0 := false } = false := by decide
theorem test_no_byte_order_at_EL3_ill_formed :
    Config.endianOk { Config.reference with bigEndEL3 := false, littleEndEL3 := false } = false := by decide
theorem test_vmid_12_ill_formed : Config.vmidOk { Config.reference with vmidBits := 12 } = false := by decide
theorem test_nvmem_misaligned_ill_formed :
    Config.nvMemAligned { Config.reference with nvMemBase := 0x80004 } = false := by decide
theorem test_reference_well_formed : Config.wellFormed Config.reference = true := by decide

/-! ### Decoding (95 section 2.1: D1 to D33) -/

theorem test_decode_esr :
    decode 0xD5385200 = .ok (.mrsEsrEl1 0) ∧ decode 0xD5185200 = .ok (.msrEsrEl1 0) ∧
    decode 0xD5385203 = .ok (.mrsEsrEl1 3) ∧ decode 0xD518521F = .ok (.msrEsrEl1 31) ∧
    decode 0xD53D5203 = .ok (.mrsEsrEl12 3) ∧ decode 0xD51D5203 = .ok (.msrEsrEl12 3) ∧
    decode 0xD53C5201 = .ok (.mrsEsrEl2 1) ∧ decode 0xD51C5201 = .ok (.msrEsrEl2 1) :=
  ⟨rfl, rfl, rfl, rfl, rfl, rfl, rfl, rfl⟩

theorem test_decode_spsr :
    decode 0xD538401E = .ok (.mrsSpsrEl1 30) ∧ decode 0xD5184001 = .ok (.msrSpsrEl1 1) ∧
    decode 0xD53D401F = .ok (.mrsSpsrEl12 31) ∧ decode 0xD51D401F = .ok (.msrSpsrEl12 31) ∧
    decode 0xD53C4007 = .ok (.mrsSpsrEl2 7) ∧ decode 0xD51C4007 = .ok (.msrSpsrEl2 7) :=
  ⟨rfl, rfl, rfl, rfl, rfl, rfl⟩

theorem test_decode_debug :
    decode 0xD53000E0 = .ok (.mrsDbgwcr 0 0) ∧ decode 0xD51000E0 = .ok (.msrDbgwcr 0 0) ∧
    decode 0xD51005E2 = .ok (.msrDbgwcr 5 2) ∧ decode 0xD5300FE9 = .ok (.mrsDbgwcr 15 9) ∧
    decode 0xD5300249 = .ok (.mrsMdscr 9) ∧ decode 0xD5100240 = .ok (.msrMdscr 0) :=
  ⟨rfl, rfl, rfl, rfl, rfl, rfl⟩

theorem test_decode_profiling :
    decode 0xD5389980 = .ok (.mrsPmsfcr 0) ∧ decode 0xD5189984 = .ok (.msrPmsfcr 4) ∧
    decode 0xD531900C = .ok (.mrsBrbcrEl1 12) ∧ decode 0xD5119000 = .ok (.msrBrbcrEl1 0) ∧
    decode 0xD5359000 = .ok (.mrsBrbcrEl12 0) ∧ decode 0xD5159000 = .ok (.msrBrbcrEl12 0) :=
  ⟨rfl, rfl, rfl, rfl, rfl, rfl⟩

theorem test_decode_out_of_scope :
    decode 0xD5385220 = .error .notOneOfTheNames ∧ decode 0xD5385300 = .error .notOneOfTheNames ∧
    decode 0xD53B5200 = .error .notOneOfTheNames ∧ decode 0xD50000E0 = .error .notSysRegForm ∧
    decode 0xD5300220 = .error .notOneOfTheNames ∧ decode 0xD4000001 = .error .notSysRegForm ∧
    decode 0x00000000 = .error .notSysRegForm :=
  ⟨rfl, rfl, rfl, rfl, rfl, rfl, rfl⟩

/-- The mask words of 30_encoding R431, bit by bit: a full register number and index. -/
theorem test_encode_words :
    encode (.mrsDbgwcr 15 31) = 0b11010101001100000000111111111111 ∧
    encode (.msrPmsfcr 4) = 0b11010101000110001001100110000100 ∧
    encode (.mrsBrbcrEl12 0) = 0b11010101001101011001000000000000 :=
  ⟨rfl, rfl, rfl⟩

/-- The syndromes of the third column of 95 section 2.1. -/
theorem test_trap_syndromes :
    [Instr.mrsEsrEl1 0, .msrEsrEl1 31, .mrsEsrEl12 3, .msrEsrEl2 1, .mrsSpsrEl1 30, .msrSpsrEl12 31, .mrsSpsrEl2 7,
      .msrDbgwcr 5 2, .mrsDbgwcr 15 9, .mrsMdscr 9, .msrPmsfcr 4, .mrsBrbcrEl1 12, .msrBrbcrEl12 0].map
      (fun i => trapSyndrome i.fields)
    = [0x62301405, 0x623017E4, 0x62315465, 0x62311424, 0x623013C1, 0x623153E0, 0x623110E1,
      0x622E004A, 0x622E013F, 0x62240125, 0x62382492, 0x62206581, 0x62216400] := by decide +kernel

/-- The host's reading of a table word, and a first step after reset (EL3). -/
theorem test_first_step :
    decodeTableWord 32 0xD5385203 = some (.mrsEsrEl1 3) ∧
    after (step (State.reset.withFetchWord 32 0xD5385203)) (fun t => (t.pc, t.readX 3)) = some (4, 0) := by
  decide +kernel

/-! ### ESR_EL1, ESR_EL12, ESR_EL2 (95 section 2.2, A1 to A17) -/

/-- A1, A5. -/
theorem test_mrs_esr_el1 :
    after (exec (.mrsEsrEl1 3) { base .el1 with esrEL1 := 0x56001234 }) (fun t => (t.readX 3, t.pc)) = some (0x56001234, 4) ∧
    after (exec (.mrsEsrEl1 3) (hyp (fun h => { h with el2Enabled := true, trvm := true }) (base .el1)))
      (fun t => (t.pendingEntry, t.pc)) = some (some { target := .el2, syndrome := some 0x62301465 }, 0) := by
  decide +kernel

/-- A2 (all 64 bits stored), A9 (the bytes in memory, the register unchanged). -/
theorem test_msr_esr_el1 :
    after (exec (.msrEsrEl1 3) ((base .el1).writeX 3 0xFFFFFFFFFFFFFFFF)) (fun t => t.esrEL1) = some 0xFFFFFFFFFFFFFFFF ∧
    after (exec (.msrEsrEl1 2) ((guest 0b111).writeX 2 0x96000045)) (fun t => (t.mem, t.esrEL1))
      = some ([(0x80138, 0x45), (0x8013B, 0x96)], 0) := by
  decide +kernel

/-- A11: the same, big-endian; A12: the access faults. -/
theorem test_nvmem_big_endian_and_abort :
    after (exec (.msrEsrEl1 2) (cfg (fun c => { c with nvMemBigEndian := true }) ((guest 0b111).writeX 2 0x96000045)))
      (fun t => t.mem) = some [(0x8013C, 0x96), (0x8013F, 0x45)] ∧
    after (exec (.msrEsrEl1 2) (env (fun e => { e with nvMemFaults := [(0x80138, true)] })
        ((guest 0b111).writeX 2 0x96000045)))
      (fun t => (t.mem, t.esrEL1, t.pendingEntry)) = some ([], 0, some { target := .el2, syndrome := none }) := by
  decide +kernel

/-- A10: the read comes from memory; A16: Undefined at EL2 not in host mode (taken to EL2, the lowest admitted level). -/
theorem test_mrs_esr_el12 :
    after (exec (.mrsEsrEl12 4) { guest 0b101 with mem := [(0x80138, 0x45), (0x8013B, 0x96)], esrEL1 := 7 })
      (fun t => t.readX 4) = some 0x96000045 ∧
    after (exec (.mrsEsrEl12 0) (base .el2)) (fun t => t.pendingEntry)
      = some (some { target := .el2, syndrome := some 0x02000000 }) := by
  decide +kernel

/-- A14, A13. -/
theorem test_msr_esr_el12 :
    after (exec (.msrEsrEl12 1) ((host .el2).writeX 1 0x1234)) (fun t => (t.esrEL1, t.esrEL2)) = some (0x1234, 0) ∧
    after (exec (.msrEsrEl12 1) ((base .el1).writeX 1 0x1234)) (fun t => (t.esrEL1, t.pstate.EL)) = some (0x02000000, .el1) := by
  decide +kernel

/-- 41_esr_access R474: the cell at EL2, the EL1 register at EL1 with NV2 and NV. -/
theorem test_mrs_esr_el2 :
    after (exec (.mrsEsrEl2 1) { base .el2 with esrEL1 := 0x56001234, esrEL2 := 9 }) (fun t => t.readX 1) = some 9 ∧
    after (exec (.mrsEsrEl2 1) { guest 0b101 with esrEL1 := 0x56001234, esrEL2 := 9 }) (fun t => t.readX 1) = some 0x56001234 := by
  decide +kernel

/-- R475: Undefined at EL1 with NV 0; with NV 1 and NV2 0 it traps. -/
theorem test_msr_esr_el2 :
    after (exec (.msrEsrEl2 1) (base .el1)) (fun t => (t.esrEL1, t.esrEL2)) = some (0x02000000, 0) ∧
    after (exec (.msrEsrEl2 1) (guest 0b001)) (fun t => t.pendingEntry)
      = some (some { target := .el2, syndrome := some 0x62311424 }) := by
  decide +kernel

/-! ### SPSR_EL1, SPSR_EL12, SPSR_EL2 (B1 to B10) -/

/-- B4 (the lock guards writes only), B6. -/
theorem test_mrs_spsr_el1 :
    after (exec (.mrsSpsrEl1 1) (locked { base .el1 with spsrEL1 := 0x3C5 })) (fun t => t.readX 1) = some 0x3C5 ∧
    after (exec (.mrsSpsrEl1 1) (guest 0b011)) (fun t => t.pendingEntry)
      = some (some { target := .el2, syndrome := some 0x62301021 }) := by
  decide +kernel

/-- B2 (no check at the write), B3 (EXLOCK, bit 34 saved). -/
theorem test_msr_spsr_el1 :
    after (exec (.msrSpsrEl1 1) ((base .el1).writeX 1 0x3C9)) (fun t => t.spsrEL1) = some 0x3C9 ∧
    after (exec (.msrSpsrEl1 1) ((locked (base .el1)).writeX 1 0x3C5)) (fun t => (t.esrEL1, t.spsrEL1))
      = some (0xB6100000, 0x4000003C5) := by
  decide +kernel

/-- B5 and its read: with NVx 111 the write is exempt from the lock and goes to memory. -/
theorem test_spsr_el1_redirected :
    after (exec (.msrSpsrEl1 1) ((locked (guest 0b111)).writeX 1 0x3C5)) (fun t => t.mem)
      = some [(0x80160, 0xC5), (0x80161, 0x03)] := by
  decide +kernel

/-- 42_spsr_access R482: the EL1 register at EL2 in host mode; at EL1 with NV 1 the trap. -/
theorem test_mrs_spsr_el12 :
    after (exec (.mrsSpsrEl12 31) { host .el2 with spsrEL1 := 0x3C5 }) (fun t => (t.x, t.pc)) = some (State.reset.x, 4) ∧
    after (exec (.mrsSpsrEl12 31) (guest 0b001)) (fun t => t.pendingEntry)
      = some (some { target := .el2, syndrome := some 0x623153E1 }) := by
  decide +kernel

/-- B9; H3: at EL3 the write leaves the register written and the record of the value before. -/
theorem test_msr_spsr_el12 :
    after (exec (.msrSpsrEl12 0) ((locked (host .el2)).writeX 0 0x3C5)) (fun t => t.spsrEL1) = some 0x3C5 ∧
    after (exec (.msrSpsrEl12 1) ((host .el3).writeX 1 0x3C5)) (fun t => (t.spsrEL1, t.spsrPair))
      = some (0x3C5, some { name := .el12Name, old := 0, written := 0x3C5 }) := by
  decide +kernel

/-- H5: the same name ignores the record; B8: the lock at EL2 in host mode. -/
theorem test_spsr_same_name_and_lock :
    after (exec (.mrsSpsrEl12 0)
        { host .el3 with spsrEL1 := 0x3C5, spsrPair := some { name := .el12Name, old := 0, written := 0x3C5 } })
      (fun t => t.readX 0) = some 0x3C5 ∧
    after (exec (.msrSpsrEl1 0) (locked (host .el2))) (fun t => t.pendingEntry)
      = some (some { target := .el2, syndrome := some 0xB6100000 }) := by
  decide +kernel

/-- R484, R485: the cell at EL2; the lock has priority at EL1 with NV 1. -/
theorem test_spsr_el2 :
    after (exec (.mrsSpsrEl2 7) { base .el2 with spsrEL2 := 6 }) (fun t => t.readX 7) = some 6 ∧
    after (exec (.msrSpsrEl2 7) ((base .el2).writeX 7 8)) (fun t => (t.spsrEL1, t.spsrEL2)) = some (0, 8) ∧
    after (exec (.msrSpsrEl2 7) (locked (guest 0b101))) (fun t => t.esrEL1) = some 0xB6100000 := by
  decide +kernel

/-! ### DBGWCR<m>_EL1 and MDSCR_EL1 (C1 to C15) -/

/-- C3, C4: the bank reaches watchpoint 19, and 20 is not implemented. -/
theorem test_mrs_dbgwcr :
    after (exec (.mrsDbgwcr 3 0)
        (cfg (fun c => { c with numWatchpoints := 20 }) (dbg (fun d => { d with bank := 1 }) ((base .el1).writeWcr 19 0x101FFD))))
      (fun t => t.readX 0) = some 0x101FFD ∧
    after (exec (.mrsDbgwcr 4 0)
        (cfg (fun c => { c with numWatchpoints := 20 }) (dbg (fun d => { d with bank := 1 }) (base .el1))))
      (fun t => t.esrEL1) = some 0x02000000 := by
  decide +kernel

/-- C1, C6. -/
theorem test_msr_dbgwcr :
    after (exec (.msrDbgwcr 0 0) ((base .el1).writeX 0 0x1FFD)) (fun t => (t.wcr 0, t.wcr 1)) = some (0x1FFD, 0) ∧
    after (exec (.msrDbgwcr 5 2) (mon (fun m => { m with mdcr3TDA := true }) (base .el1))) (fun t => t.pendingEntry)
      = some (some { target := .el3, syndrome := some 0x622E004A }) := by
  decide +kernel

/-- C7 (Undefined in Debug state with Secure debug disabled), C8 (Halt). -/
theorem test_dbgwcr_debug_state :
    after (exec (.mrsDbgwcr 0 0) (mon (fun m => { m with mdcr3TDA := true })
        (edscr (fun e => { e with SDD := true }) (dbg (fun d => { d with halted := true }) (base .el1)))))
      (fun t => t.esrEL1) = some 0x02000000 ∧
    after (exec (.mrsDbgwcr 0 0)
        (edscr (fun e => { e with TDA := true }) (dbg (fun d => { d with haltingAllowed := true }) (base .el1))))
      (fun t => (t.env.dbg.halted, t.pc, t.x)) = some (true, 0, State.reset.x) := by
  decide +kernel

/-- C11; C13. -/
theorem test_mrs_mdscr :
    after (exec (.mrsMdscr 9)
        (edscr (fun e => { e with HDE := true, TDA := true, INTdis := 0b01 }) (dbg (fun d => { d with oslk := true })
          { base .el1 with mdscr := 0x8000 })))
      (fun t => t.readX 9) = some 0x60C000 ∧
    after (exec (.mrsMdscr 0) { guest 0b101 with mem := [(0x80159, 0xA0)] }) (fun t => t.readX 0) = some 0xA000 := by
  decide +kernel

/-- C9 with the OS Lock clear, C15 (bits [18:16] dropped). -/
theorem test_msr_mdscr :
    after (exec (.msrMdscr 0) ((base .el1).writeX 0 0x6000A000)) (fun t => (t.mdscr, t.env.edscr))
      = some (0xA000, Env.zero.edscr) ∧
    after (exec (.msrMdscr 0) ((base .el1).writeX 0 0x70000)) (fun t => t.mdscr) = some 0 := by
  decide +kernel

/-! ### PMSFCR_EL1, BRBCR_EL1, BRBCR_EL12 (Q1 to Q13) -/

/-- Q3, Q4. -/
theorem test_mrs_pmsfcr :
    after (exec (.mrsPmsfcr 0) (mon (fun m => { m with nspb := 0b10, ns := true }) (base .el1))) (fun t => t.pendingEntry)
      = some (some { target := .el3, syndrome := some 0x62382413 }) ∧
    after (exec (.mrsPmsfcr 0) (profiling { base .el1 with pmsfcr := 0x20006 })) (fun t => t.readX 0) = some 0x20006 := by
  decide +kernel

/-- Q1, Q2. -/
theorem test_msr_pmsfcr :
    after (exec (.msrPmsfcr 0) (profiling ((base .el1).writeX 0 0x20006))) (fun t => t.pmsfcr) = some 0x20006 ∧
    after (exec (.msrPmsfcr 0) (cfg (fun c => { c with prof := { c.prof with spe := false } }) (base .el3)))
      (fun t => t.pendingEntry) = some (some { target := .el3, syndrome := some 0x02000000 }) := by
  decide +kernel

/-- Q7, Q11. -/
theorem test_mrs_brbcr_el1 :
    after (exec (.mrsBrbcrEl1 0) (mon (fun m => { m with ns := true, sbrbe := 0b10 }) (base .el1))) (fun t => t.pendingEntry)
      = some (some { target := .el3, syndrome := some 0x62206401 }) ∧
    after (exec (.mrsBrbcrEl1 0) (profiling { host .el2 with brbcrEL1 := 1, brbcrEL2 := 2 })) (fun t => t.readX 0) = some 2 := by
  decide +kernel

/-- Q6, Q13. -/
theorem test_msr_brbcr_el1 :
    after (exec (.msrBrbcrEl1 0) (profiling ((base .el1).writeX 0 0xC0007B))) (fun t => t.brbcrEL1) = some 0xC0007B ∧
    after (exec (.msrBrbcrEl1 0)
        (fgt (fun f => { f with fgtEn := true, wrNBRBCTL := true }) (profiling ((guest 0b111).writeX 0 0xC0007B))))
      (fun t => (t.mem, t.brbcrEL1)) = some ([(0x808E0, 0x7B), (0x808E2, 0xC0)], 0) := by
  decide +kernel

/-- Q9: nBRBCTL 0 traps. -/
theorem test_brbcr_fine_grained :
    after (exec (.mrsBrbcrEl1 0) (fgt (fun f => { f with fgtEn := true }) (profiling (guest 0b000)))) (fun t => t.pendingEntry)
      = some (some { target := .el2, syndrome := some 0x62206401 }) := by
  decide +kernel

/-- Q12; R511 at EL2 in host mode. -/
theorem test_brbcr_el12 :
    after (exec (.mrsBrbcrEl12 0) (profiling { host .el2 with brbcrEL1 := 1, brbcrEL2 := 2 })) (fun t => t.readX 0) = some 1 ∧
    after (exec (.msrBrbcrEl12 0) (profiling ((host .el2).writeX 0 3))) (fun t => (t.brbcrEL1, t.brbcrEL2)) = some (3, 0) := by
  decide +kernel

/-! ### Exceptions (95 sections 2.3 and 2.4) -/

/-- The Data Abort of E12. -/
def abortE12 : DataAbort :=
  { group := .isv1 3 false 8 true false, lstSet := 1, fnv := false, ea := false, cm := false, s1ptw := false
    wnr := true, dfsc := 0x0F, tnd := false, tagAccess := false, gcs := false, assuredOnly := false
    overlay := false, dirtyBit := false, xs := 7 }

/-- An Instruction Abort with a status code. -/
def instrAbort (code : BitVec 6) : InstrAbort :=
  { pfv := false, set := 0, fnv := false, ea := false, s1ptw := false, ifsc := code, assuredOnly := false
    overlay := false }

/-- EL0 with every mask and SP 0. -/
def user : State := psr (fun p => { p with D := false, A := false, I := false, F := false, SP := false }) (base .el0)

/-- E2, E8, E9, E10, E12, E13, E15, E17 to E22, E24, E25, E29, E32 to E34, E41, E44: the syndromes. -/
theorem test_syndromes :
    [ExcInfo.wfx true 0b1110 0 false 0, .fpAccess true 0b1110, .ls64 .ld64bSt64b, .branchTarget 3,
      .dataAbort abortE12,
      .svc 0x1234, .sysAccess128 3 0 0 2 2 0 true, .sveAccess, .tstart 4, .pacFail true true, .smeAccess 4,
      .memoryOperation true false 0 false true true 0 2 1, .gcs .exlock,
      .serror (.fields false 0 false false false 0 false false false 0),
      .serror (.fields false 0 false false false 3 false false false 0x11), .breakpointInstr 0x3E8].map
      (fun i => ExcCause.syndrome Config.reference 0 { info := i, fromEL1 := false, fromAArch32 := false, il := true })
    = [0x07E00000, 0x1FE00000, 0x2A000002, 0x36000003, 0x793C8884F, 0x56001234, 0x52300881, 0x66000000, 0x6E000080,
      0x72000003, 0x76000004, 0x9F030041, 0xB6100000, 0xBE000000, 0xBE000C11, 0xF20003E8] := by decide +kernel

/-- E5, E6, E7, E14, E43: the syndromes from AArch32. -/
theorem test_syndromes_aarch32 :
    [(ExcInfo.mcr true true 0b1110 0 0 1 (.reg 2) 0 true, true),
      (.mcrr true false true 0b1110 0 (.reg 1) (.reg 0) 2 false, true),
      (.ldcStc true 0b1110 4 (.reg 1) true 2 true, true), (.svc 0xAB, true), (.breakpointInstr 0xAB, false)].map
      (fun i => ExcCause.syndrome Config.reference 0 { info := i.1, fromEL1 := false, fromAArch32 := true, il := i.2 })
    = [0x0FE00441, 0x13E00404, 0x1BE04035, 0x460000AB, 0xE00000AB] := by decide +kernel

/-- Program P2, step 1: SVC #0x1234 from EL0, and T2 for the saved state of EL1h with the masks set. -/
theorem test_exception_entry :
    after (step (offering (.exception { info := .svc 0x1234, fromEL1 := false, fromAArch32 := false, il := true })
        (env (fun e => { e with vectorTarget := 0x2400 }) user)))
      (fun t => (t.esrEL1, t.spsrEL1, t.pc, t.pstate.EL, t.pstate.I)) = some (0x56001234, 0, 0x2400, .el1, true) ∧
    savedPState Config.reference (base .el1).pstate = 0x3C5 := by
  decide +kernel

/-- A cause that breaks a constraint is refused (60_exceptions R521): reserved status code 0b111111, a trapped WFI with a
register (12_esr_iss_a R107), a TnD of a read (11_esr_el1 R67). -/
theorem test_bad_cause_refused :
    [ExcInfo.instrAbort (instrAbort 0x3F), .wfx true 0b1110 5 false 0, .dataAbort { abortE12 with tnd := true, wnr := false }].map
      (fun i => after (step (offering (.exception { info := i, fromEL1 := true, fromAArch32 := false, il := true }) (base .el1)))
        (fun _ => ())) = [none, none, none] := by
  decide +kernel

/-- A trapped access to one of the eleven names is refused as a cause (60_exceptions R551), one to another register is taken; and a
trapped WFIT from AArch32 state reports an AArch64 view (11_esr_el1 R85), here 0 to 15 or 31. -/
theorem test_admitted_causes :
    [(Instr.mrsEsrEl1 0).fields, { (Instr.mrsEsrEl1 0).fields with op2 := 1 }].map
      (fun f => ExcCause.check Config.reference Env.zero (base .el1).pstate
        { info := .sysAccess f, fromEL1 := true, fromAArch32 := false, il := true }) = [false, true] ∧
    [5, 16, 31].map (fun rn => ExcCause.check Config.reference Env.zero { user.pstate with nRW := true }
        { info := .wfx true 0b1110 rn true 2, fromEL1 := false, fromAArch32 := true, il := true }) = [true, false, true] := by
  decide +kernel

/-- A step outside this spec that ends at a level, and does nothing else. -/
def outsideTo (el : EL) (event : OutsideEvent) (s : State) : OutsideStep :=
  { x := [], mem := [], pc := s.pc, pstate := { s.pstate with EL := el }, event := event }

/-- 60_exceptions R553: no step outside this spec enters EL1 from EL0 or leaves it for EL0; from EL1 an exception goes to EL2, a return
comes back, and without either the level stays; with PSTATE.IL 1 (14_spsr_el1 R280) an instruction is not run, an entry is made. -/
theorem test_outside_levels :
    [(EL.el0, EL.el1, OutsideEvent.plain), (.el0, .el1, .entry), (.el1, .el0, .plain), (.el1, .el0, .exceptionReturn),
      (.el1, .el2, .plain), (.el1, .el2, .entry), (.el2, .el1, .exceptionReturn), (.el1, .el1, .plain)].map
      (fun w => after (step (offering (.outside (outsideTo w.2.1 w.2.2 (base w.1))) (base w.1))) (fun t => t.pstate.EL))
    = [none, none, none, none, none, some .el2, some .el1, some .el1] ∧
    [OutsideEvent.plain, .entry].map (fun event =>
      let s := psr (fun p => { p with IL := true }) (base .el0)
      after (step (offering (.outside (outsideTo (if event = .entry then .el2 else .el0) event s)) s)) (fun t => t.pstate.EL))
    = [some .el1, some .el2] := by
  decide +kernel

/-- 60_exceptions R552: an SVC goes to EL2 under TGE and under its fine-grained trap; 14_spsr_el1 R280: with PSTATE.IL 1 it is
the Illegal Execution state exception, which TGE routes too. -/
theorem test_svc_routing :
    [hyp (fun h => { h with el2Enabled := true, tge := true }) user,
      fgt (fun f => { f with fgtEn := true }) { guest 0 .el0 with env := { (guest 0 .el0).env with
        named := { Env.zero.named with hfgitrSVCEL0 := true } } }, user, psr (fun p => { p with IL := true }) user,
      hyp (fun h => { h with el2Enabled := true, tge := true }) (psr (fun p => { p with IL := true }) user)].map
      (fun s => after (step (offering (.exception { info := .svc 0, fromEL1 := false, fromAArch32 := false, il := true }) s))
        (fun t => (t.pendingEntry, t.esrEL1)))
    = [some (some { target := .el2, syndrome := none }, 0), some (some { target := .el2, syndrome := none }, 0),
      some (none, 0x56000000), some (none, 0x3A000000), some (some { target := .el2, syndrome := some 0x3A000000 }, 0)] := by
  decide +kernel

/-- 11_esr_el1 R62: an UNKNOWN syndrome must be one an exception from User mode could create, not one of FIQ mode. -/
theorem test_unpredictable_mode :
    [0b0000#4, 0b0001].map (fun m =>
      after (step (offering (.unpredictable
        { info := .ldcStc true 0b1110 0 (.reg 8) true 0 false, fromEL1 := false, fromAArch32 := true, il := true }
        { user.pstate with nRW := true, M := m } user.env) user)) (fun t => t.pstate.EL)) = [some .el1, none] := by
  decide +kernel

/-- 11_esr_el1 R60, R66, 13_esr_iss_b R185, R207: the RES0 bits under a Translation fault of a Data Abort, and the RES1 bits of a
trapped floating-point exception from AArch32 state. -/
theorem test_esr_reserved :
    esrRes0 Config.reference 0x92000007 = 0xFFFFFC7F00FC2400 ∧ esrRes1 Config.reference 0xA2800702 = 0x700 ∧
    esrRes0 Config.reference 0x56001234 = 0xFFFFFFFF01FF0000 := by
  decide +kernel

/-- 20_memory R419, 93 I8 and 13_esr_iss_b R176: IFSC 0b110101 as the parameter says, DFSC 0b110101 always; 11_esr_el1 R66: TagAccess
and AssuredOnly are RES0 without their features; 13_esr_iss_b R220, R223: WU of an SError is RES0 without its own gate. -/
theorem test_lost_gates :
    ([true, false].map (fun b =>
      let y := { Config.reference.synd with ifscImplDefined := b }
      (ifscAllowed y 0b110101, dfscAllowed y 0b110101))) = [(true, true), (false, true)] ∧
    esrRes0 { Config.reference with synd := { Config.reference.synd with tagAccess := false, assuredOnly := false } } 0x92000007
      = 0xFFFFFEFF00FC2400 ∧
    ([true, false].map (fun b => esrRes0 { Config.reference with synd := { Config.reference.synd with wu := !b, serrWU := b } } 0xBE000000))
      = [0xFFFFFFFF00F80100, 0xFFFFFFFF00FB0100] := by
  decide +kernel

/-- 60_exceptions R525 to R528: a masked IRQ stays pending, a pending one is taken once its mask is clear, a masked PMU exception
with FEAT_SEBEP sets PSTATE.PPEND, and an SError is taken with PSTATE.A clear. -/
theorem test_masked_exceptions :
    after (step (offering (.arrives .irq) (base .el0))) (fun t => (t.pendingIRQ, t.pstate.EL)) = some (true, .el0) ∧
    after (step { offering .instruction user with pendingIRQ := true }) (fun t => (t.pendingIRQ, t.pstate.EL, t.esrEL1))
      = some (false, .el1, 0) ∧
    after (step (offering (.arrives .pmu) (psr (fun p => { p with PM := true }) user))) (fun t => (t.pstate.PPEND, t.pstate.EL))
      = some (true, .el0) ∧
    after (step (offering (.arrives (.serror (.implDefined 1))) user)) (fun t => (t.esrEL1, t.pendingSErrors))
      = some (0xBF000001, []) ∧
    after (step { offering .instruction user with pendingSErrors := [.fields false 0 false false true 3 false false false 0x11] })
      (fun t => (t.esrEL1, t.pendingSErrors)) = some (0xBE000C11, []) := by
  decide +kernel

/-- 60_exceptions R557: the stepped instruction clears PSTATE.SS, and the Software Step exception saves it clear. -/
theorem test_software_step :
    after (step (psr (fun p => { p with SS := true, D := false }) { base .el1 with mdscr := 0x2001 } |>.withFetchWord 32 0xD5385203))
      (fun t => (t.pc, t.pstate.SS)) = some (4, false) ∧
    after (step (offering (.stepped true false) (psr (fun p => { p with SS := true }) { user with mdscr := 1 })))
      (fun t => (t.esrEL1, t.spsrEL1.getLsbD 21)) = some (0xCB000022, false) := by
  decide +kernel

/-- T4, T5: SPSR_EL1 from EL0 in AArch64 state, and from T32. -/
theorem test_saved_state :
    savedPState Config.reference { user.pstate with BTYPE := 2, PAN := true, SSBS := true } = 0x401800 ∧
    savedPState Config.reference { user.pstate with nRW := true, T := true, IT := 0b00000110 } = 0x04000430 := by
  decide +kernel

/-- T10, T11, T13: a legal return, an illegal one, and a legal one with IL. -/
theorem test_return :
    after (step (offering .exceptionReturn { base .el1 with spsrEL1 := 0x60000084 }))
      (fun t => (t.pstate.EL, t.pstate.SP, t.pstate.C, t.pstate.I, t.esrUnknown)) = some (.el1, false, true, true, true) ∧
    after (step (offering .exceptionReturn { base .el1 with spsrEL1 := 0x3C9 })) (fun t => (t.pstate.EL, t.pstate.IL))
      = some (.el1, true) ∧
    after (step (offering .exceptionReturn { base .el1 with spsrEL1 := 0x100000 })) (fun t => (t.pstate.EL, t.pstate.IL))
      = some (.el0, true) := by
  decide +kernel

/-! ### Debug events, profiling, the external interface, reset (95 sections 2.5 to 2.8) -/

/-- A machine that watches the doubleword 0x8000 with watchpoint 0, as W1 to W9 do. -/
def watching (el : EL) (wcr mdscr : Word) : State :=
  dbg (fun d => { d with dbgwvr := d.dbgwvr.set 0 0x8000, wpStateMatch := 1 })
    (psr (fun p => { p with D := false }) { (base el).writeWcr 0 wcr with mdscr := mdscr })

/-- An access. -/
def access (addr : Word) (size : Nat) (isWrite : Bool) : DataAccess :=
  { addr := addr, size := size, isWrite := isWrite, isCM := false, isAtomic := false, gcs := false, wpf := false
    fnp := false, fnv := false }

/-- W1, W4, W7: the exception is taken; W2, W3, W5, W6, W8, W9: it is not. -/
theorem test_watchpoints :
    [(watching .el0 0x1FFD 0xA000, access 0x8004 4 true), (watching .el1 0x1FFD 0xA000, access 0x8000 4 false),
      (watching .el0 0x91 0xA000, access 0x8002 1 true), (watching .el0 0x1FFD 0, access 0x8004 4 true),
      (watching .el1 0x1FFD 0x8000, access 0x8000 4 false), (watching .el0 0x91 0xA000, access 0x8002 1 false),
      (watching .el0 0x91 0xA000, access 0x8003 1 true), (watching .el0 0x1FFC 0xA000, access 0x8000 4 true),
      (watching .el0 0x1FE5 0xA000, access 0x8000 4 true)].map
      (fun w => after (step (offering (.access w.2) w.1)) (fun t => t.esrEL1))
    = [some 0xD2020062, some 0xD6020022, some 0xD2020062, some 0, some 0, some 0, some 0, some 0, some 0] := by
  decide +kernel

/-- 15_debug_regs R324: MASK 3 with BAS all ones watches the whole doubleword; R335: a linked watchpoint needs its breakpoint, here
17, the number LBNX : LBN. -/
theorem test_watchpoint_mask_and_link :
    [(watching .el0 0x3001FFD 0xA000, access 0x8007 1 true), (watching .el0 0x3001FFD 0xA000, access 0x8008 1 true),
      (watching .el0 0x40111FFD 0xA000, access 0x8000 1 true),
      (dbg (fun d => { d with wpLinkMatch := 0x20000 }) (watching .el0 0x40111FFD 0xA000), access 0x8000 1 true)].map
      (fun w => w.1.watchpointMatch w.2 0) = [true, false, false, true] := by
  decide +kernel

/-- A sample of one type with a latency. -/
def sampled (latency : Nat) (ld st br events : Bool) : Sample :=
  { latency := latency, simd := false, fp := false, st := st, ld := ld, br := br, hasSelectedEvents := events
    hasInvertedEvents := false, dataSource := .absent }

/-- F7 to F13; and 16_profiling_regs R373, 93 P6: with FT 1 and no type bit a sample is recorded or not, also with a mask bit set. -/
theorem test_samples :
    [(0x20006, sampled 150 true false false false), (0x20006, sampled 50 true false false false),
      (0x20006, sampled 150 false true false false), (0x60002, sampled 0 false true false false),
      (0x60002, sampled 0 false false true false), (0x60003, sampled 0 true false false true),
      (0x60003, sampled 0 true false false false)].map
      (fun f => recordSample Config.reference { Env.zero.prof with minlat := 100, pmsevfr := 1, pmsnevfr := 1 } f.1 f.2 0)
    = [true, false, false, true, false, true, false] ∧
    ([true, false].map (passFT Config.reference 0x4000000000002 (sampled 0 false true false false))) = [true, false] := by
  decide +kernel

/-- The external interface with its predicates favourable. -/
def powered (s : State) : State :=
  { s with env := { s.env with ext := { s.env.ext with corePowered := true, allowExternal := true } } }

/-- X1, X2 and X4; and 15_debug_regs R306, 90 C14: the RES0 bits of an address view in the two regimes. -/
theorem test_external :
    after (step (offering (.extWrite 0x400 0x401000) (powered (base .el1)))) (fun t => (t.bvr 0, t.extResponse))
      = some (0x401000, some .written) ∧
    after (step (offering (.extRead 0x4F0) (powered ((base .el1).writeBvr 15 0x401000)))) (fun t => t.extResponse)
      = some (some (.data 0x401000)) ∧
    after (step (offering (.extRead 0x4F0) (base .el1))) (fun t => t.extResponse) = some (some .error) ∧
    after (step (offering (.extReadWCR 63) ((base .el1).writeWcr 63 0x101FFD))) (fun t => t.extResponse)
      = some (some (.data 0x101FFD)) ∧
    ([true, false].map (fun b => ((psr (fun p => { p with nRW := b }) (base .el0)).bvrReading 15).res0)) = [0xFFFFFFFF00000003, 3] := by
  decide +kernel

/-- 10_state R44: the environment record changes between two instructions of one run. -/
theorem test_env_between_instructions :
    after (step { (base .el1).withFetchWord 32 0xD5385203 with inputs := [.instruction, .env Env.zero, .instruction] })
      (fun t => (t.pc, t.inputs)) = some (4, [.env Env.zero, .instruction]) := by
  decide +kernel

/-- H2, and where a Warm reset starts. -/
theorem test_warm_reset :
    after (step (offering .warmReset ((base .el1).writeWcr 0 0x1FFD))) (fun t => (t.wcr 0, t.pc, t.pstate.EL, t.pstate.IL))
      = some (0x1FFD, 0, .el3, false) := by
  decide +kernel

/-! ### Witnesses: for each statement with hypotheses, a state and operands that meet them together

Where a statement has several clauses there is one witness for each, at a boundary of its range. -/

theorem witness_DecodeOfEncode : (Instr.mrsDbgwcr 15 31).wellFormed = true := by decide +kernel

theorem witness_EncodeOfDecode : decode 0xD5300FFF = .ok (.mrsDbgwcr 15 31) := rfl

theorem witness_OutOfScopeStops :
    (State.reset.withFetchWord 32 0xD4000001).ready ∧
    (State.reset.withFetchWord 32 0xD4000001).program[((State.reset.withFetchWord 32 0xD4000001).pc
      - (State.reset.withFetchWord 32 0xD4000001).progStart).toNat / 4]? = some 0xD4000001 ∧
    ∀ i : Instr, i.wellFormed = true → encode i ≠ 0xD4000001 := by
  refine ⟨⟨next_is_instruction _ rfl rfl, rfl, rfl⟩, rfl, fun i _ h => ?_⟩
  have h1 := isSysRegForm_wordOfFields i.fields
  rw [show wordOfFields i.fields = encode i from rfl, h] at h1
  exact absurd h1 (by decide +kernel)

/-- The two cases, at EL3 and elsewhere; and software step active. -/
theorem witness_StepRunsDecoded : ∀ el ∈ [EL.el3, EL.el0],
    ((base el).withFetchWord 32 0xD538401E).ready ∧
    ((base el).withFetchWord 32 0xD538401E).program[(((base el).withFetchWord 32 0xD538401E).pc
      - ((base el).withFetchWord 32 0xD538401E).progStart).toNat / 4]? = some 0xD538401E ∧
    decode 0xD538401E = .ok (.mrsSpsrEl1 30) ∧ StepActive { base .el0 with mdscr := 1 } := by
  intro el _
  refine ⟨⟨next_is_instruction _ rfl rfl, ?_, ?_⟩, ?_, rfl, rfl, Or.inl (Or.inl rfl)⟩ <;> cases el <;> rfl

/-- An instruction of the program; and an SVC. -/
theorem witness_IllegalStateException :
    (let s := psr (fun p => { p with IL := true }) (base .el1)
     s.instructionNext ∧ s.pstate.IL = true) ∧
    (let s := psr (fun p => { p with IL := true }) (base .el1)
     let x : ExcCause := { info := .svc 0, fromEL1 := true, fromAArch32 := false, il := true }
     (offering (.exception x) s).offers (.exception x) (taken (.exception x) s) ∧ x.info.beforeInstruction = false) :=
  ⟨⟨next_is_instruction _ rfl rfl, rfl⟩, offered _ _ rfl, rfl⟩

theorem witness_ZeroRegister : 30 < 31 ∧ 31 ≠ 30 := by decide +kernel

/-- At EL1 with the trap bits set and EL2 disabled, and at EL2. -/
theorem witness_EsrEl1 :
    (let s := hyp (fun h => { h with trvm := true, tvm := true, nvx := 0b110 }) (base .el1)
     s.pstate.EL = .el1 ∧ ¬ (s.env.hyp.el2Enabled = true ∧ s.env.hyp.trvm = true) ∧
     ¬ (s.env.hyp.el2Enabled = true ∧ s.env.hyp.tvm = true) ∧ ¬ FineGrainedTrap s s.env.fgt.rdESR ∧
     ¬ FineGrainedTrap s s.env.fgt.wrESR ∧ s.env.hyp.nvx ≠ 0b111#3) ∧
    ((base .el2).pstate.EL = .el2 ∧ (base .el2).env.hyp.elIsInHost = false) := by
  refine ⟨?_, rfl, rfl⟩
  unfold FineGrainedTrap
  decide +kernel

/-- At EL1 with NVx 101 and the lock's enable set but EXLOCK clear, and at EL2 with the lock held. -/
theorem witness_SpsrEl1 :
    (let s := env (fun e => { e with exlockEn := true }) (guest 0b101)
     s.pstate.EL = .el1 ∧ ¬ LockHeld s ∧ s.env.hyp.nvx ≠ 0b011#3 ∧ s.env.hyp.nvx ≠ 0b111#3 ∧ s.spsrUnknown = false) ∧
    ((locked (base .el2)).pstate.EL = .el2 ∧ (locked (base .el2)).env.hyp.elIsInHost = false) := by
  refine ⟨?_, rfl, rfl⟩
  unfold LockHeld
  decide +kernel

/-- At EL1 with NV2 and NV, and at EL2 and EL3 without the lock. -/
theorem witness_El2Names :
    ((guest 0b101).pstate.EL = .el1 ∧ (guest 0b101).env.hyp.nvx.getLsbD 2 = true ∧
      (guest 0b101).env.hyp.nvx.getLsbD 0 = true ∧ (guest 0b101).cfg.dbg.vhe = true ∧ ¬ LockHeld (guest 0b101)) ∧
    ((base .el2).pstate.EL = .el2 ∧ ¬ LockHeld (base .el2)) ∧ (locked (base .el3)).pstate.EL = .el3 := by
  unfold LockHeld
  decide +kernel

/-- EL2 in host mode, with the Branch Record Buffer accessible, for each pair; and each register held. -/
theorem witness_El12Names : ∀ p : RegPair,
    (profiling (host .el2)).pstate.EL = .el2 ∧ (profiling (host .el2)).env.hyp.elIsInHost = true ∧
    (p = .brbcr → BranchAccess (profiling (host .el2))) ∧ PairHolds (profiling (host .el2)) p 0 := by
  intro p
  refine ⟨rfl, rfl, fun _ => ?_, ?_⟩
  · unfold BranchAccess BranchTrapEL3
    decide +kernel
  · cases p
    · exact ⟨rfl, rfl⟩
    · exact ⟨rfl, rfl⟩
    · rfl

theorem witness_HostModeNames :
    (profiling (host .el2)).pstate.EL = .el2 ∧ (profiling (host .el2)).env.hyp.elIsInHost = true ∧
    BranchAccess (profiling (host .el2)) ∧ ¬ LockHeld (profiling (host .el2)) := by
  refine ⟨rfl, rfl, ?_, ?_⟩
  · unfold BranchAccess BranchTrapEL3
    decide +kernel
  · unfold LockHeld
    decide +kernel

/-- The last watchpoint, 15 in the last bank, at EL1, EL2 and EL3; reads and writes. -/
theorem witness_WatchpointControl : ∀ el ∈ [EL.el1, .el2, .el3],
    (dbg (fun d => { d with bank := 3 }) (base el)).cfg.numWatchpoints ≤ 64 ∧
    WatchpointAccess (dbg (fun d => { d with bank := 3 }) (base el)) 15 false := by
  unfold WatchpointAccess SoftwareAccessHalts FineGrainedTrap DebugTrapEL2 DebugTrapEL3
  decide +kernel

/-- At EL1, EL2 and EL3, with the OS Lock clear and set. -/
theorem witness_Mdscr : ∀ el ∈ [EL.el1, .el2, .el3], ∀ b ∈ [false, true],
    MdscrAccess (dbg (fun d => { d with oslk := b }) (base el)) false ∧
    (dbg (fun d => { d with oslk := b }) (base el)).env.dbg.oslk = b := by
  unfold MdscrAccess FineGrainedTrap DebugTrapEL2 DebugTrapEL3
  decide +kernel

/-- Both clauses: PMSFCR_EL1 at EL1, EL2 and EL3; BRBCR_EL1 at EL1 with its controls set, and at EL2. -/
theorem witness_Profiling :
    (∀ el ∈ [EL.el1, .el2, .el3], ProfilingAccess (profiling (base el)) false) ∧
    (∀ el ∈ [EL.el1, .el2], BranchAccess (profiling (base el)) ∧ (profiling (base el)).env.hyp.elIsInHost = false) ∧
    ¬ FineGrainedTrap (profiling (base .el1)) (!(profiling (base .el1)).env.fgt.rdNBRBCTL) ∧
    ¬ FineGrainedTrap (profiling (base .el1)) (!(profiling (base .el1)).env.fgt.wrNBRBCTL) ∧
    (profiling (base .el1)).env.hyp.nvx ≠ 0b111#3 := by
  unfold ProfilingAccess ProfilingTrapEL3 BranchAccess BranchTrapEL3 FineGrainedTrap
  decide +kernel

/-- EL3 in host mode: each pair, with no record and with one of the same name. -/
theorem witness_Pair : ∀ (p : RegPair) (nm : PairName), ∀ o ∈ [none, some (PairRecord.mk nm 1 2)],
    ((host .el3).setPairRecord o p).pstate.EL = .el3 ∧ ((host .el3).setPairRecord o p).cfg.prof.brbe = true ∧
    ((host .el3).setPairRecord o p).env.hyp.elIsInHost = true ∧
    (∀ r, ((host .el3).setPairRecord o p).pairRecord p = some r → r.name = nm) ∧
    PairHolds ((host .el3).setPairRecord o p) p 0 := by
  intro p nm o ho
  refine ⟨by cases p <;> rfl, by cases p <;> rfl, by cases p <;> rfl, ?_, ?_⟩
  · intro r hr
    simp only [List.mem_cons, List.not_mem_nil, or_false] at ho
    rcases ho with rfl | rfl
    · cases p <;> cases hr
    · cases p <;> cases hr <;> rfl
  · cases p
    · exact ⟨rfl, rfl⟩
    · exact ⟨rfl, rfl⟩
    · rfl

/-- The clauses of `PairWrite` outside host mode, without a record and with one. -/
theorem witness_PairWrite_not_host : ∀ p : RegPair,
    (base .el3).pstate.EL = .el3 ∧ (base .el3).cfg.prof.brbe = true ∧ (base .el3).env.hyp.elIsInHost = false ∧
    (base .el3).pairRecord p = none ∧
    ((base .el3).setPairRecord (some ⟨.el1Name, 1, 2⟩) p).pairRecord p = some ⟨.el1Name, 1, 2⟩ := by
  intro p
  cases p <;> exact ⟨rfl, rfl, rfl, rfl, rfl⟩

/-- EL3 in host mode with a record of the other name, for each pair and name. -/
theorem witness_PairHazard : ∀ (p : RegPair) (nm other : PairName), other ≠ nm →
    PairAtEL3 ((host .el3).setPairRecord (some ⟨other, 1, 2⟩) p) p ∧
    ((host .el3).setPairRecord (some ⟨other, 1, 2⟩) p).pairRecord p = some ⟨other, 1, 2⟩ := by
  intro p nm other _
  cases p <;> exact ⟨⟨rfl, rfl, fun _ => rfl⟩, rfl⟩

/-- A redirected read and write at each of the four offsets. -/
theorem witness_NVMem :
    (Redirected (guest 0b111) (.mrsEsrEl1 31) 0x138 ∧ Redirected (guest 0b101) (.msrEsrEl12 31) 0x138) ∧
    (Redirected (guest 0b101) (.mrsMdscr 31) 0x158 ∧ Redirected (guest 0b111) (.msrMdscr 31) 0x158) ∧
    (Redirected (guest 0b101) (.mrsSpsrEl12 31) 0x160 ∧ Redirected (guest 0b111) (.msrSpsrEl1 31) 0x160) ∧
    Redirected (profiling (guest 0b101)) (.mrsBrbcrEl12 31) 0x8E0 ∧
    Redirected (profiling (guest 0b101)) (.msrBrbcrEl12 31) 0x8E0 := by
  simp only [Redirected, FineGrainedTrap, DebugTrapEL2, DebugTrapEL3]
  decide +kernel

/-- The cell that faults on a write, and the accesses beside it that do not. -/
theorem witness_NVMemAbort :
    (let s := env (fun e => { e with nvMemFaults := [(0x80138, true)] }) (guest 0b111)
     Redirected s (.msrEsrEl1 31) 0x138 ∧ CellFaults s 0x138 true ∧ ¬ CellFaults s 0x138 false ∧
     ¬ CellFaults s 0x160 true) := by
  simp only [Redirected, CellFaults, FineGrainedTrap]
  decide +kernel

theorem witness_UndefinedAtEL0 : (base .el0).pstate.EL = .el0 := rfl

theorem witness_FeatureAbsentUndefined :
    (cfg (fun c => { c with prof := { c.prof with spe := false } }) (base .el3)).cfg.prof.spe = false ∧
    (cfg (fun c => { c with prof := { c.prof with brbe := false } }) (base .el3)).cfg.prof.brbe = false := ⟨rfl, rfl⟩

/-- EL2 and EL3 not in host mode, and EL1 with NV 0 but NV2 and NV1 1. -/
theorem witness_UndefinedNames :
    (∀ el ∈ [EL.el2, .el3], ((base el).pstate.EL = .el2 ∨ (base el).pstate.EL = .el3) ∧
      (base el).env.hyp.elIsInHost = false) ∧
    (guest 0b110).pstate.EL = .el1 ∧ (guest 0b110).env.hyp.nvx.getLsbD 0 = false := by
  decide +kernel

/-- The first index that is not implemented: 4 of 4, and 4 in bank 1 of 20. -/
theorem witness_WatchpointBound :
    (let s := cfg (fun c => { c with numWatchpoints := 4, dbg := { c.dbg with debugv8p9 := false } }) (base .el3)
     s.cfg.numWatchpoints ≤ watchpointOf s 4 ∧ ¬ s.cfg.numWatchpoints ≤ watchpointOf s 3) ∧
    (let s := cfg (fun c => { c with numWatchpoints := 20 }) (dbg (fun d => { d with bank := 1 }) (base .el0))
     s.cfg.numWatchpoints ≤ watchpointOf s 4 ∧ ¬ s.cfg.numWatchpoints ≤ watchpointOf s 3) := by
  unfold watchpointOf
  decide +kernel

/-- The second clause of `TrapSyndrome`: an instruction that traps; and the third: an MRS of a name, which alone keeps the cause out. -/
theorem witness_TrapSyndrome :
    (guest 0b001).pendingEntry = none ∧
    after (exec (.mrsEsrEl12 0) (guest 0b001)) (fun t => t.pendingEntry)
      = some (some { target := .el2, syndrome := some 0x62315405 }) ∧
    (let x : ExcCause := { info := .sysAccess (Instr.mrsEsrEl1 0).fields, fromEL1 := true, fromAArch32 := false, il := true }
     x.info = .sysAccess (Instr.mrsEsrEl1 0).fields ∧
     ({ x with info := .sysAccess { (Instr.mrsEsrEl1 0).fields with op2 := 1 } } : ExcCause).check Config.reference Env.zero
       (base .el1).pstate = true) := by
  decide +kernel

/-- A trap of each kind of `EsrSpsrTraps`. -/
theorem witness_EsrSpsrTraps :
    (let s := hyp (fun h => { h with trvm := true, tvm := true }) (guest 0b000)
     s.pstate.EL = .el1 ∧ s.env.hyp.el2Enabled = true ∧ s.env.hyp.trvm = true ∧ s.env.hyp.tvm = true) ∧
    (let s := fgt (fun f => { f with fgtEn := true, rdESR := true, wrESR := true }) (guest 0b000)
     s.pstate.EL = .el1 ∧ FineGrainedTrap s s.env.fgt.rdESR ∧ FineGrainedTrap s s.env.fgt.wrESR) ∧
    ((guest 0b011).pstate.EL = .el1 ∧ (guest 0b011).env.hyp.nvx = 0b011#3) ∧
    ((guest 0b111).env.hyp.nvx.getLsbD 0 = true ∧ (guest 0b111).env.hyp.nvx ≠ 0b101#3) ∧
    ((guest 0b011).env.hyp.nvx.getLsbD 0 = true ∧ (guest 0b011).env.hyp.nvx.getLsbD 2 = false ∧
      ¬ LockHeld (guest 0b011)) := by
  unfold FineGrainedTrap LockHeld
  decide +kernel

/-- The fine-grained control of each debug register, and MDCR_EL2.TDA alone; and a watchpoint that is not implemented, whose
MDSCR_EL1 clauses stand. -/
theorem witness_DebugTraps :
    (let s := mon (fun m => { m with mdcr2TDA := true }) (cfg (fun c => { c with numWatchpoints := 1 })
        (dbg (fun d => { d with bank := 3 }) (guest 0b000)))
     s.pstate.EL = .el1 ∧ DebugTrapEL2 s ∧ ¬ DebugTrapEL3 s) ∧
    (let s := fgt (fun f => { f with fgtEn := true, rdDBGWCR := true, wrDBGWCR := true, rdMDSCR := true, wrMDSCR := true })
        (dbg (fun d => { d with bank := 3 }) (guest 0b000))
     s.pstate.EL = .el1 ∧ watchpointOf s 15 < s.cfg.numWatchpoints ∧
     ¬ (DebugTrapEL3 s ∧ SecureDebugDisabled s ∧ s.cfg.el3TrapPriorityWhenSDD = true) ∧
     FineGrainedTrap s s.env.fgt.rdDBGWCR ∧ FineGrainedTrap s s.env.fgt.wrDBGWCR ∧
     FineGrainedTrap s s.env.fgt.rdMDSCR ∧ FineGrainedTrap s s.env.fgt.wrMDSCR) ∧
    DebugTrapEL2 (mon (fun m => { m with mdcr2TDA := true }) (guest 0b000)) := by
  unfold FineGrainedTrap DebugTrapEL2 DebugTrapEL3 SecureDebugDisabled watchpointOf
  decide +kernel

/-- The three groups of `ProfilingTraps`; nBRBCTL is 0. -/
theorem witness_ProfilingTraps :
    (let s := fgt (fun f => { f with fgtEn := true, rdPMSFCR := true, wrPMSFCR := true }) (profiling (guest 0b001))
     s.pstate.EL = .el1 ∧ s.cfg.prof.spe = true ∧
     ¬ (ProfilingTrapEL3 s ∧ SecureDebugDisabled s ∧ s.cfg.el3TrapPriorityWhenSDD = true) ∧
     FineGrainedTrap s s.env.fgt.rdPMSFCR ∧ FineGrainedTrap s s.env.fgt.wrPMSFCR ∧
     s.cfg.prof.brbe = true ∧ ¬ (BranchTrapEL3 s ∧ SecureDebugDisabled s ∧ s.cfg.el3TrapPriorityWhenSDD = true) ∧
     FineGrainedTrap s (!s.env.fgt.rdNBRBCTL) ∧ FineGrainedTrap s (!s.env.fgt.wrNBRBCTL) ∧
     s.env.hyp.nvx.getLsbD 0 = true ∧ s.env.hyp.nvx ≠ 0b101#3) ∧
    (let s := mon (fun m => { m with mdcr2TPMS := true }) (guest 0b000)
     s.env.hyp.el2Enabled = true ∧ s.env.mon.mdcr2TPMS = true) := by
  unfold FineGrainedTrap ProfilingTrapEL3 BranchTrapEL3 SecureDebugDisabled
  decide +kernel

/-- At EL1 and EL2 each EL3 control traps (SBRBE is 10 in Non-secure state), with Secure debug enabled and disabled; and the EL3
tests first, an EL2 test holding. -/
theorem witness_El3Traps :
    (∀ b ∈ [false, true], ∀ el ∈ [EL.el1, .el2],
      (let s := edscr (fun e => { e with SDD := true }) (dbg (fun d => { d with halted := b })
          (fgt (fun f => { f with rdNBRBCTL := true, wrNBRBCTL := true })
            (mon (fun m => { m with ns := true, mdcr3TDA := true, nspb := 0b01, sbrbe := 0b10 }) (host el))))
       s.pstate.EL = el ∧ DebugTrapEL3 s ∧ watchpointOf s 0 < s.cfg.numWatchpoints ∧ ProfilingTrapEL3 s ∧
       BranchTrapEL3 s ∧ s.env.hyp.elIsInHost = true ∧ (SecureDebugDisabled s ↔ b = true) ∧
       ¬ FineGrainedTrap s s.env.fgt.rdMDSCR ∧ ¬ DebugTrapEL2 s ∧ ¬ FineGrainedTrap s (!s.env.fgt.rdNBRBCTL) ∧
       s.env.mon.mdcr2TPMS = false)) ∧
    (let s := cfg (fun c => { c with el3TrapPriorityWhenSDD := true }) (edscr (fun e => { e with SDD := true })
        (dbg (fun d => { d with halted := true }) (mon (fun m => { m with mdcr2TDA := true, mdcr3TDA := true }) (guest 0b000))))
     s.pstate.EL = .el1 ∧ DebugTrapEL3 s ∧ DebugTrapEL2 s ∧ SecureDebugDisabled s ∧ s.cfg.el3TrapPriorityWhenSDD = true) := by
  unfold DebugTrapEL2 DebugTrapEL3 ProfilingTrapEL3 BranchTrapEL3 SecureDebugDisabled watchpointOf FineGrainedTrap
  decide +kernel

/-- At EL1, EL2 and EL3, for a read and for a write. -/
theorem witness_SoftwareAccessHalt : ∀ el ∈ [EL.el1, .el2, .el3],
    (let s := edscr (fun e => { e with TDA := true }) (dbg (fun d => { d with haltingAllowed := true, bank := 3 }) (base el))
     watchpointOf s 15 < s.cfg.numWatchpoints ∧ SoftwareAccessHalts s ∧ ¬ DebugTrapEL2 s ∧ ¬ DebugTrapEL3 s ∧
     ¬ FineGrainedTrap s s.env.fgt.rdDBGWCR ∧ ¬ FineGrainedTrap s s.env.fgt.wrDBGWCR) := by
  unfold watchpointOf SoftwareAccessHalts DebugTrapEL2 DebugTrapEL3 FineGrainedTrap
  decide +kernel

/-- The lock held at EL1 with NV1 alone and with NV alone, and at EL2 in host mode. -/
theorem witness_ExceptionLock :
    LockHeld (locked (guest 0b010)) ∧ (locked (guest 0b010)).pstate.EL = .el1 ∧
    (locked (guest 0b010)).env.hyp.nvx.getLsbD 0 = false ∧
    LockHeld (locked (guest 0b001)) ∧ (locked (guest 0b001)).env.hyp.nvx.getLsbD 0 = true ∧
    LockHeld (locked (host .el2)) ∧ (locked (host .el2)).pstate.EL = .el2 ∧
    (locked (host .el2)).env.hyp.elIsInHost = true := by
  unfold LockHeld
  decide +kernel

/-- A write to memory, at an address of the cell and one beside it; and an MSR that no offset redirects. -/
theorem witness_ExecFrame :
    Redirected (guest 0b111) (.msrEsrEl1 2) 0x138 ∧ (∀ off, ¬ Redirected (guest 0b101) (.msrEsrEl1 2) off) ∧
    (Instr.msrEsrEl1 2).wellFormed = true ∧
    after (exec (.msrEsrEl1 2) ((guest 0b111).writeX 2 0xFF)) (fun t => (t.mem.read 0x80138, t.mem.read 0x80140))
      = some (0xFF, 0) := by
  refine ⟨?_, fun off h => absurd h.2.2.1 (by decide +kernel), by decide +kernel, by decide +kernel⟩
  simp only [Redirected, FineGrainedTrap]
  decide +kernel

/-- A cause the spec admits, at EL1; an SVC that the trap sends to EL2; an asynchronous exception of each kind, unmasked; and a step
from EL0 to EL1 by an exception, by a reset of a machine without EL2 and EL3, and by turning its power on. -/
theorem witness_ExceptionEntry :
    (let x : ExcCause := { info := .instrAbort (instrAbort 0x0F), fromEL1 := true, fromAArch32 := false, il := true }
     (offering (.exception x) (base .el1)).offers (.exception x) (taken (.exception x) (base .el1)) ∧
     x.check (offering (.exception x) (base .el1)).cfg (offering (.exception x) (base .el1)).env
       (offering (.exception x) (base .el1)).pstate = true ∧ x.info.hasOwnInput = false ∧
     x.info.beforeInstruction = true ∧ ¬ CauseRoutes (base .el1) x.info) ∧
    CauseRoutes (fgt (fun f => { f with fgtEn := true })
      { guest 0b000 with env := { (guest 0b000).env with named := { Env.zero.named with hfgitrSVCEL1 := true } } }) (.svc 0) ∧
    (∀ k ∈ [AsyncException.irq, .fiq, .serror (.implDefined 0), .pmu],
      (offering (.arrives k) user).offers (.arrives k) (taken (.arrives k) user) ∧ k.allowed user.cfg.synd = true ∧
      ¬ Masked user k) ∧
    (∀ e ∈ [SErrorInfo.implDefined 1, .fields false 0 false false true 3 false false false 0x11],
      waiting { user with pendingSErrors := [e] } = (none, false, false, [e], false) ∧ user.pstate.EL = .el0 ∧
      ¬ Masked user (.serror e)) ∧
    (∀ i ∈ [Input.exception { info := .svc 0, fromEL1 := false, fromAArch32 := false, il := true }, .warmReset, .env Env.zero],
      let s : State := offering i { cfg (fun c => { c with haveEL2 := false, haveEL3 := false }) user with
        env := { Env.zero with ext := { Env.zero.ext with corePowered := match i with | .env _ => false | _ => true } } }
      s.Inv ∧ s.pstate.EL = .el0 ∧ after (step s) (fun t => t.pstate.EL) = some .el1) := by
  refine ⟨⟨offered _ _ rfl, by decide +kernel, rfl, rfl, ?_⟩, ?_, fun k hk => ⟨offered _ _ rfl, ?_⟩, fun e _ =>
    ⟨rfl, rfl, fun h => nomatch (h : false = true)⟩, ?_⟩
  · simp only [CauseRoutes, TGERoutes]
    decide +kernel
  · simp only [CauseRoutes, TGERoutes, SvcTrapped]
    decide +kernel
  · simp only [List.mem_cons, List.not_mem_nil, or_false] at hk
    rcases hk with rfl | rfl | rfl | rfl <;> simp only [Masked, AllMasked] <;> decide +kernel
  · intro i hi
    simp only [List.mem_cons, List.not_mem_nil, or_false] at hi
    rcases hi with rfl | rfl | rfl <;>
      exact ⟨⟨by decide +kernel, by decide +kernel, fun h => nofun, nofun⟩, rfl, by decide +kernel⟩

/-- A descriptor the entry step admits: the Data Abort of vector E12. -/
theorem witness_SyndromeLayout :
    ExcCause.check Config.reference Env.zero (base .el0).pstate
      { info := .dataAbort abortE12, fromEL1 := false, fromAArch32 := false, il := true } = true := by
  decide +kernel

/-- A step that takes an exception, a step whose MSR leaves a reserved class, a reset, a power-up, and a descriptor the entry step
admits. -/
theorem witness_NoReservedClass :
    (let s : State := ((base .el1).writeX 2 0xFC000000).withFetchWord 32 0xD5185202
     s.ready ∧ s.fetch = some 0xD5185202 ∧ decode 0xD5185202 = .ok (.msrEsrEl1 2) ∧
     after (step s) (fun t => t.esrEL1) = some 0xFC000000 ∧ ecAllocated s.cfg (esrEC 0xFC000000) = false) ∧
    (offering .warmReset (base .el1)).offers .warmReset (taken .warmReset (base .el1)) ∧
    (let s : State := { base .el1 with env := { Env.zero with ext := { Env.zero.ext with corePowered := false } } }
     (offering (.env Env.zero) s).offers (.env Env.zero) (taken (.env Env.zero) s) ∧ s.env.ext.corePowered = false) ∧
    after (step (offering (.arrives .pmu) user)) (fun t => t.esrEL1) = some 0xF6000000 ∧
    ExcCause.check Config.reference Env.zero (base .el0).pstate
      { info := .sveAccess, fromEL1 := false, fromAArch32 := false, il := true } = true := by
  refine ⟨⟨⟨next_is_instruction _ rfl rfl, rfl, rfl⟩, rfl, rfl, ?_, ?_⟩, offered _ _ rfl, ⟨offered _ _ rfl, rfl⟩, ?_⟩ <;> decide +kernel

/-- An IRQ that is not masked, one that is, and one that has been pending alone. -/
theorem witness_InterruptKeepsSyndrome :
    ((offering (.arrives .irq) user).offers (.arrives .irq) (taken (.arrives .irq) user) ∧ user.pstate.EL = .el0 ∧
      ¬ Masked user .irq ∧ ¬ TGERoutes user) ∧
    ((offering (.arrives .irq) (base .el0)).offers (.arrives .irq) (taken (.arrives .irq) (base .el0)) ∧
      Masked (base .el0) .irq ∧ Masked (base .el0) .fiq) ∧
    (let s : State := { user with pendingIRQ := true }
     s.pendingEntry = none ∧ s.pendingIRQ = true ∧ s.pendingFIQ = false ∧ s.pendingSErrors = [] ∧ s.pendingPMU = false ∧
     s.pstate.EL = .el0 ∧ ¬ Masked s .irq) := by
  refine ⟨⟨offered _ _ rfl, rfl, ?_⟩, ⟨offered _ _ rfl, ?_⟩, ?_⟩ <;> simp only [Masked, AllMasked, TGERoutes] <;> decide +kernel

/-- The two views and the two levels of the AArch64 view. -/
theorem witness_SavedState :
    (base .el0).pstate.nRW = false ∧ (base .el0).pstate.EL = .el0 ∧ (base .el1).pstate.EL = .el1 ∧
    (psr (fun p => { p with nRW := true }) (base .el0)).pstate.nRW = true ∧ Config.reference.bigEndEL0 = true ∧
    Config.reference.littleEndEL0 = true ∧ ({ Config.reference with bigEndEL0 := false } : Config).bigEndEL0 = false ∧
    ({ Config.reference with littleEndEL0 := false } : Config).littleEndEL0 = false := by
  decide +kernel

/-- A return to each of EL0, EL1t, EL1h and User mode; the first leaves EL1 for EL0. -/
theorem witness_ReturnRestores :
    (let s : State := offering .exceptionReturn { base .el1 with spsrEL1 := 0x3C0 }
     s.Inv ∧ s.pstate.EL = .el1 ∧ after (step s) (fun t => t.pstate.EL) = some .el0) ∧
    ∀ v ∈ [(0x3C0 : Word), 0x60000084, 0x3C5, 0x600001F0],
    (let s : State := offering .exceptionReturn { base .el1 with spsrEL1 := v }
     s.cfg.haveAArch32 = true ∧ waiting s = (none, false, false, [], false) ∧ s.inputs = [.exceptionReturn] ∧ s.pstate.EL = .el1 ∧ s.pstate.nRW = false ∧
     s.pstate.IL = false ∧ s.spsrUnknown = false ∧ s.env.step.illegalReturnOther = false ∧
     (s.spsrEL1.extractLsb' 0 5 = 0b00000 ∨ s.spsrEL1.extractLsb' 0 5 = 0b00100 ∨ s.spsrEL1.extractLsb' 0 5 = 0b00101 ∨
       s.spsrEL1.extractLsb' 0 5 = 0b10000)) := by
  refine ⟨⟨⟨by decide +kernel, by decide +kernel, fun h => nofun, nofun⟩, rfl, by decide +kernel⟩, ?_⟩
  intro v hv
  simp only [List.mem_cons, List.not_mem_nil, or_false] at hv
  rcases hv with rfl | rfl | rfl | rfl <;> decide +kernel

/-- A reserved AArch64 mode, after which nothing comes before the next instruction, User mode without AArch32 support, and FIQ mode with
it. -/
theorem witness_IllegalReturn :
    (let s : State := offering .exceptionReturn { base .el1 with spsrEL1 := 0x3C9 }
     waiting s = (none, false, false, [], false) ∧ s.inputs = [.exceptionReturn] ∧ s.pstate.EL = .el1 ∧ s.pstate.nRW = false ∧
     s.pstate.IL = false ∧ s.spsrUnknown = false ∧ s.spsrEL1.getLsbD 4 = false ∧
     s.spsrEL1.extractLsb' 0 4 ≠ 0b0000 ∧ s.spsrEL1.extractLsb' 0 4 ≠ 0b0100 ∧ s.spsrEL1.extractLsb' 0 4 ≠ 0b0101 ∧
     after (step s) (fun t => waiting t) = some (none, false, false, [], false)) ∧
    (let s : State := offering .exceptionReturn
        (cfg (fun c => { c with haveAArch32 := false }) { base .el1 with spsrEL1 := 0x10 })
     s.spsrUnknown = false ∧ s.spsrEL1.getLsbD 4 = true ∧ s.cfg.haveAArch32 = false) ∧
    ({ base .el1 with spsrEL1 := 0x11 } : State).spsrEL1.extractLsb' 0 4 ≠ 0b0000 := by
  decide +kernel

/-- The enable off and on; from EL0 with everything else off, and from EL1 with KDE. -/
theorem witness_SoftwareStep :
    (let s : State := offering (.stepped true true) (base .el0)
     s.offers (.stepped true true) (taken (.stepped true true) (base .el0)) ∧ s.pstate.EL = .el0 ∧
     s.mdscr.getLsbD 0 = false) ∧
    (let s : State := offering (.stepped false false) (psr (fun p => { p with D := false }) { base .el1 with mdscr := 0x2001 })
     s.mdscr.getLsbD 0 = true ∧ DebugWithin s ∧ ¬ DebugRoutes s) := by
  refine ⟨⟨offered _ _ rfl, rfl, rfl⟩, ?_⟩
  simp only [DebugWithin, DebugRoutes]
  decide +kernel

/-- The last breakpoint with the address it holds, MDE off and on, from EL0 and EL1. -/
theorem witness_BreakpointException :
    (let s : State := offering (.breakpoint 15 0x401000) ((base .el0).writeBvr 15 0x401000)
     s.offers (.breakpoint 15 0x401000) (taken (.breakpoint 15 0x401000) ((base .el0).writeBvr 15 0x401000)) ∧
     15 < s.cfg.numBreakpoints ∧ s.comparandMatches 15 0x401000 = true ∧ s.env.dbg.haltOnBpWp = false ∧
     s.mdscr.getLsbD 15 = false) ∧
    (let s : State := offering (.breakpoint 15 0x401000)
        (psr (fun p => { p with D := false }) { (base .el1).writeBvr 15 0x401000 with mdscr := 0xA000 })
     s.pstate.EL = .el1 ∧ s.comparandMatches 15 0x401000 = true ∧ s.mdscr.getLsbD 15 = true ∧ DebugWithin s ∧
     ¬ DebugRoutes s) := by
  refine ⟨⟨offered _ _ rfl, by decide +kernel, by decide +kernel, rfl, rfl⟩, ?_⟩
  simp only [DebugWithin, DebugRoutes]
  decide +kernel

/-- Watchpoint 0 with BAS all ones, MASK 0 and a doubleword address, at the last byte of the doubleword. -/
theorem witness_WatchpointMatch :
    ((watching .el0 0x1FFD 0xA000).wcr 0).extractLsb' 5 8 = 0xFF ∧
    ((watching .el0 0x1FFD 0xA000).wcr 0).extractLsb' 24 5 = 0 ∧
    (watching .el0 0x1FFD 0xA000).env.dbg.dbgwvr[0].extractLsb' 0 3 = 0 ∧
    (watching .el0 0x1FFD 0xA000).watchpointMatch (access 0x8007 1 true) 0 = true ∧
    (watching .el0 0x1FFD 0xA000).watchpointMatch (access 0x8008 1 true) 0 = false := by
  decide +kernel

/-- An access that matches, with MDE on at EL0 and at EL1; one that does not; and MDE off. -/
theorem witness_WatchpointException :
    (let s := offering (.access (access 0x8007 1 true)) (watching .el0 0x1FFD 0xA000)
     s.offers (.access (access 0x8007 1 true)) (taken (.access (access 0x8007 1 true)) (watching .el0 0x1FFD 0xA000)) ∧
     s.pstate.EL = .el0 ∧ s.pstate.IL = false ∧ s.env.dbg.haltOnBpWp = false ∧ s.mdscr.getLsbD 15 = true ∧
     DebugWithin s ∧ ¬ DebugRoutes s ∧ s.cfg.dbg.debugv8p9 = true ∧
     ∃ n < 64, (taken (.access (access 0x8007 1 true)) (watching .el0 0x1FFD 0xA000)).watchpointMatch (access 0x8007 1 true) n
       = true) ∧
    DebugWithin (watching .el1 0x1FFD 0xA000) ∧
    (∀ n < 64, (taken (.access (access 0x8008 1 true)) (watching .el0 0x1FFD 0xA000)).watchpointMatch (access 0x8008 1 true) n
      = false) ∧
    (watching .el0 0x1FFD 0).mdscr.getLsbD 15 = false := by
  unfold DebugWithin DebugRoutes
  refine ⟨⟨offered _ _ rfl, rfl, rfl, rfl, by decide +kernel, by decide +kernel, by decide +kernel, rfl, 0, by decide +kernel,
    by decide +kernel⟩, by decide +kernel, by decide +kernel, by decide +kernel⟩

/-- The last breakpoint and the last watchpoint; the predicates favourable and not; the software lock clear and set. -/
theorem witness_ExternalAccess :
    15 < (powered (base .el1)).cfg.numBreakpoints ∧ (powered (base .el1)).extOk = true ∧ (base .el1).extOk = false ∧
    (powered (base .el1)).env.ext.softwareLock = false ∧
    ({ powered (base .el1) with env := { (powered (base .el1)).env with
      ext := { (powered (base .el1)).env.ext with softwareLock := true } } } : State).extOk = true ∧
    63 < (base .el1).cfg.numWatchpoints ∧
    (offering (.extRead 0x4F0) (powered (base .el1))).offers (.extRead 0x4F0) (taken (.extRead 0x4F0) (powered (base .el1))) ∧
    (offering (.extReadWCR 63) (base .el1)).offers (.extReadWCR 63) (taken (.extReadWCR 63) (base .el1)) ∧
    (offering (.extWriteWCR 63 1) (base .el1)).offers (.extWriteWCR 63 1) (taken (.extWriteWCR 63 1) (base .el1)) := by
  exact ⟨by decide +kernel, rfl, rfl, rfl, rfl, by decide +kernel, offered _ _ rfl, offered _ _ rfl, offered _ _ rfl⟩

/-- The enables on, and off. -/
theorem witness_BranchRecords :
    (let s : State := { base .el1 with brbcrEL1 := 0xC00002 }
     s.cfg.prof.brbe = true ∧ s.brbcrEL1.getLsbD 23 = true ∧ s.brbcrEL1.getLsbD 22 = true ∧
     s.brbcrEL1.getLsbD 1 = true ∧ RecordingEnabled s) ∧
    RecordingEnabled { base .el0 with brbcrEL1 := 1 } ∧ ¬ RecordingEnabled (base .el1) := by
  unfold RecordingEnabled TGERoutes
  decide +kernel

/-- Each filter enabled, and every PMS register nonzero; and each filter enabled with its register or its type bits zero. -/
theorem witness_SampleFilter :
    (let s : State := { base .el1 with pmsfcr := 0xF }
     (offering (.sample (sampled 0 false false false false)) s).offers (.sample (sampled 0 false false false false))
       (taken (.sample (sampled 0 false false false false)) s) ∧
     s.cfg.prof.spe = true ∧ ∀ k < 4, SamplingUnpredictable s k) ∧
    (let s : State := offering (.sample (sampled 100 true false false true)) { base .el1 with
        pmsfcr := 0x2001F, env := { Env.zero with prof := { Env.zero.prof with minlat := 100, pmsevfr := 1, pmsnevfr := 1 } } }
     waiting s = (none, false, false, [], false) ∧ s.inputs = [.sample (sampled 100 true false false true)] ∧ s.cfg.prof.spe = true ∧
     s.env.prof.minlat ≠ 0 ∧ s.env.prof.pmsevfr ≠ 0 ∧ s.env.prof.pmsnevfr ≠ 0 ∧
     (s.pmsfcr &&& ~~~pmsfcrRes0 s.cfg).extractLsb' 48 5 = 0 ∧ (s.pmsfcr &&& ~~~pmsfcrRes0 s.cfg).extractLsb' 16 5 ≠ 0) := by
  refine ⟨⟨offered _ _ rfl, rfl, fun k hk => ?_⟩, by decide +kernel⟩
  match k, hk with
  | 0, _ | 1, _ | 2, _ | 3, _ => exact ⟨by decide +kernel, rfl⟩

/-- The two resets, and a power-up. -/
theorem witness_Resets :
    (∀ i ∈ [Input.warmReset, .coldReset], (offering i (base .el1)).offers i (taken i (base .el1))) ∧
    (let s : State := { base .el1 with env := { Env.zero with ext := { Env.zero.ext with corePowered := false } } }
     (offering (.env Env.zero) s).offers (.env Env.zero) (taken (.env Env.zero) s) ∧ s.env.ext.corePowered = false ∧
     Env.zero.ext.corePowered = true) :=
  ⟨fun i _ => offered i _ rfl, offered _ _ rfl, rfl, rfl⟩

theorem witness_InvStep :
    (guest 0b111).Inv ∧ (after (step ((guest 0b111).withFetchWord 32 0xD5185202)) (fun t => t.pc)).isSome :=
  ⟨⟨by decide +kernel, by decide +kernel, (fun _ h => nomatch h), (fun h => nomatch h)⟩, by decide +kernel⟩

theorem witness_HigherEntryCompletes :
    ({ base .el1 with pendingEntry := some { target := .el2, syndrome := none } } : State).pendingEntry
      = some { target := .el2, syndrome := none } := rfl

end Sys2Proof.Tests
end

