-- ==== Sys2Proof/Proofs/Access.lean ====
section
/-! PROOFS. The end of every MRS and MSR as a function of its chain of tests, and the outcome Undefined (40_sysreg_access_common R450,
R453, R463, R468). -/

namespace Sys2Proof.Machine

open Sys2Proof

/-! ### The chain of an instruction and its end -/

/-- The outcome of an instruction's tests (R450). -/
def accessOf (s : State) : Instr → Access
  | .mrsEsrEl1 _ => chainMrsEsrEl1 s
  | .msrEsrEl1 _ => chainMsrEsrEl1 s
  | .mrsEsrEl12 _ => chainMrsEsrEl12 s
  | .msrEsrEl12 _ => chainMsrEsrEl12 s
  | .mrsEsrEl2 _ => chainMrsEsrEl2 s
  | .msrEsrEl2 _ => chainMsrEsrEl2 s
  | .mrsSpsrEl1 _ => chainMrsSpsrEl1 s
  | .msrSpsrEl1 _ => chainMsrSpsrEl1 s
  | .mrsSpsrEl12 _ => chainMrsSpsrEl12 s
  | .msrSpsrEl12 _ => chainMsrSpsrEl12 s
  | .mrsSpsrEl2 _ => chainMrsSpsrEl2 s
  | .msrSpsrEl2 _ => chainMsrSpsrEl2 s
  | .mrsDbgwcr m _ => chainMrsDbgwcr m s
  | .msrDbgwcr m _ => chainMsrDbgwcr m s
  | .mrsMdscr _ => chainMrsMdscr s
  | .msrMdscr _ => chainMsrMdscr s
  | .mrsPmsfcr _ => chainMrsPmsfcr s
  | .msrPmsfcr _ => chainMsrPmsfcr s
  | .mrsBrbcrEl1 _ => chainMrsBrbcrEl1 s
  | .msrBrbcrEl1 _ => chainMsrBrbcrEl1 s
  | .mrsBrbcrEl12 _ => chainMrsBrbcrEl12 s
  | .msrBrbcrEl12 _ => chainMsrBrbcrEl12 s

/-- The number an instruction holds for its general register, also where it fits no field of the word. -/
def transferOf : Instr → Nat
  | .mrsEsrEl1 t | .msrEsrEl1 t | .mrsEsrEl12 t | .msrEsrEl12 t | .mrsEsrEl2 t | .msrEsrEl2 t
  | .mrsSpsrEl1 t | .msrSpsrEl1 t | .mrsSpsrEl12 t | .msrSpsrEl12 t | .mrsSpsrEl2 t | .msrSpsrEl2 t
  | .mrsDbgwcr _ t | .msrDbgwcr _ t | .mrsMdscr t | .msrMdscr t | .mrsPmsfcr t | .msrPmsfcr t
  | .mrsBrbcrEl1 t | .msrBrbcrEl1 t | .mrsBrbcrEl12 t | .msrBrbcrEl12 t => t

/-- What an outcome does, for an MRS or an MSR as the instruction's L says (R450, R452). -/
def State.finish (s : State) (i : Instr) (a : Access) : State :=
  if i.fields.read then s.finishRead i.fields (transferOf i) a else s.finishWrite i.fields (transferOf i) a

theorem exec_eq_finish (i : Instr) (s : State) : exec i s = .next (s.finish i (accessOf s i)) := by
  cases i <;> rfl

@[simp] theorem State.finish_undefined (s : State) (i : Instr) : s.finish i .undefined = s.takeUndefined := ite_self _

theorem exec_of_accessOf_undefined {s : State} {i : Instr} (h : accessOf s i = .undefined) :
    exec i s = .next s.takeUndefined := by
  rw [exec_eq_finish, h, State.finish_undefined]

/-! ### When the chain answers Undefined -/

/-- The register an instruction names is not there: the watchpoint is beyond the bound (R490), or the feature of a profiling register is
absent (R468). -/
def registerAbsent (s : State) : Instr → Bool
  | .mrsDbgwcr m _ | .msrDbgwcr m _ => s.watchpointAbsent m
  | .mrsPmsfcr _ | .msrPmsfcr _ => !s.cfg.prof.spe
  | .mrsBrbcrEl1 _ | .msrBrbcrEl1 _ | .mrsBrbcrEl12 _ | .msrBrbcrEl12 _ => !s.cfg.prof.brbe
  | _ => false

/-- Presence is tested before the Exception level, so the answer is the same at every level (R468, R490). -/
theorem accessOf_of_registerAbsent {s : State} {i : Instr} (h : registerAbsent s i = true) : accessOf s i = .undefined := by
  cases i with
  | mrsDbgwcr m t | msrDbgwcr m t => exact if_pos h
  | mrsPmsfcr t | msrPmsfcr t => exact if_pos h
  | mrsBrbcrEl1 t | msrBrbcrEl1 t | mrsBrbcrEl12 t | msrBrbcrEl12 t => exact if_pos h
  | _ => cases h

/-- The branch of EL0 tests no control; where a test of presence precedes it, that test answers Undefined too. -/
theorem accessOf_of_el0 {s : State} (h : s.pstate.EL = .el0) (i : Instr) : accessOf s i = .undefined := by
  cases i with
  | mrsDbgwcr m t | msrDbgwcr m t => simp only [accessOf, chainMrsDbgwcr, chainMsrDbgwcr, h, ite_self]
  | mrsPmsfcr t | msrPmsfcr t => simp only [accessOf, chainMrsPmsfcr, chainMsrPmsfcr, h, ite_self]
  | mrsBrbcrEl1 t | msrBrbcrEl1 t => simp only [accessOf, chainMrsBrbcrEl1, chainMsrBrbcrEl1, h, ite_self]
  | mrsBrbcrEl12 t | msrBrbcrEl12 t => simp only [accessOf, chainMrsBrbcrEl12, chainMsrBrbcrEl12, h, ite_self]
  | mrsMdscr t | msrMdscr t => simp only [accessOf, chainMrsMdscr, chainMsrMdscr, h]
  | mrsEsrEl1 t | msrEsrEl1 t => simp only [accessOf, chainMrsEsrEl1, chainMsrEsrEl1, h]
  | mrsEsrEl12 t | msrEsrEl12 t => simp only [accessOf, chainMrsEsrEl12, chainMsrEsrEl12, h]
  | mrsEsrEl2 t | msrEsrEl2 t => simp only [accessOf, chainMrsEsrEl2, chainMsrEsrEl2, h]
  | mrsSpsrEl1 t | msrSpsrEl1 t => simp only [accessOf, chainMrsSpsrEl1, chainMsrSpsrEl1, h]
  | mrsSpsrEl12 t | msrSpsrEl12 t => simp only [accessOf, chainMrsSpsrEl12, chainMsrSpsrEl12, h]
  | mrsSpsrEl2 t | msrSpsrEl2 t => simp only [accessOf, chainMrsSpsrEl2, chainMsrSpsrEl2, h]

/-! ### The statements -/

/-- Settles O30: at EL0 every chain answers Undefined. -/
theorem undefinedAtEL0 : Obligations.UndefinedAtEL0 :=
  fun _ i h => exec_of_accessOf_undefined (accessOf_of_el0 h i)

/-- Settles O31: without its feature the register is absent, which its chain tests first. -/
theorem featureAbsentUndefined : Obligations.FeatureAbsentUndefined := by
  intro s i n h
  refine exec_of_accessOf_undefined (accessOf_of_registerAbsent ?_)
  rcases h with ⟨h, rfl | rfl⟩ | ⟨h, rfl | rfl | rfl | rfl⟩ <;> simp [registerAbsent, h]

end Sys2Proof.Machine
end

