-- ==== Sys2Proof/Proofs/Encoding.lean ====
section
/-! PROOFS. Decoding and encoding undo each other (30_encoding R427, R431). -/

namespace Sys2Proof

/-! ### An encoded instruction is found again -/

/-- The number of a register fits Rt. -/
theorem toNat_ofNat_of_rtInRange {t : Nat} (h : rtInRange t = true) : (BitVec.ofNat 5 t).toNat = t :=
  (BitVec.toNat_ofNat t 5).trans (Nat.mod_eq_of_lt (of_decide_eq_true h))

/-- The index of a watchpoint fits CRm. -/
theorem toNat_ofNat_of_wpIndexInRange {m : Nat} (h : wpIndexInRange m = true) : (BitVec.ofNat 4 m).toNat = m :=
  (BitVec.toNat_ofNat m 4).trans (Nat.mod_eq_of_lt (of_decide_eq_true h))

/-- The word of an instruction holds its fields, whose op0 is 2 or 3. -/
theorem fieldsOfWord_encode (i : Instr) : fieldsOfWord (encode i) = i.fields :=
  fieldsOfWord_wordOfFields i.fields (by cases i <;> simp [Instr.fields, sysFields])

/-- The table of R431 finds the row of a well-formed instruction. -/
theorem instrOfFields_fields {i : Instr} (h : i.wellFormed = true) : instrOfFields i.fields = .ok i := by
  cases i with
  | mrsDbgwcr m t | msrDbgwcr m t =>
    obtain ⟨hm, ht⟩ := (Bool.and_eq_true _ _).mp h
    simp [Instr.fields, sysFields, instrOfFields, named, pick, toNat_ofNat_of_rtInRange ht, toNat_ofNat_of_wpIndexInRange hm]
  | _ t =>
    have ht : (BitVec.ofNat 5 t).toNat = t := toNat_ofNat_of_rtInRange h
    simp [Instr.fields, sysFields, instrOfFields, named, pick, ht]

theorem decode_encode {i : Instr} (h : i.wellFormed = true) : decode (encode i) = .ok i := by
  rw [decode, fieldsOfWord_encode, instrOfFields_fields h]
  exact if_pos (isSysRegForm_wordOfFields i.fields)

/-! ### A decoded word is the word of its instruction -/

/-- A word of the format is made up of its fields. -/
theorem wordOfFields_fieldsOfWord {w : Word32} (h : isSysRegForm w = true) : wordOfFields (fieldsOfWord w) = w := by
  obtain ⟨htop, h20⟩ := (Bool.and_eq_true _ _).mp h
  have htop := eq_of_beq htop
  refine BitVec.eq_of_getLsbD_eq fun i hi => ?_
  rw [wordOfFields_getLsbD]
  have h19 : (1#1 ++ w.extractLsb' 19 1).getLsbD 0 = w.getLsbD 19 := by
    rw [BitVec.getLsbD_append]; simp
  simp only [fieldsOfWord, BitVec.getLsbD_extractLsb', h19]
  repeat' split
  iterate 5
    · rw [decide_eq_true (by omega), Bool.true_and]; congr 1; omega
  · obtain rfl : i = 19 := by omega
    rfl
  · obtain rfl : i = 20 := by omega
    exact h20.symm
  · obtain rfl : i = 21 := by omega
    rfl
  · rw [← htop, BitVec.getLsbD_extractLsb', decide_eq_true (by omega), Bool.true_and]; congr 1; omega

/-- `i` is well-formed and `f` holds its fields. -/
def FieldsOf (f : SysFields) (i : Instr) : Prop := i.wellFormed = true ∧ i.fields = f

/-- A row of R431 picks an instruction whose fields are the row's, if both directions have them. -/
theorem fieldsOf_pick {f : SysFields} {mrs msr : Instr} (hr : f.read = true → FieldsOf f mrs)
    (hw : f.read = false → FieldsOf f msr) : FieldsOf f (pick f mrs msr) := by
  unfold pick
  split
  · exact hr ‹_›
  · exact hw (Bool.eq_false_iff.mpr ‹_›)

/-- Fields that match a row are the row's fields. -/
theorem eq_sysFields_of_named {f : SysFields} {op0 : BitVec 2} {op1 : BitVec 3} {crn crm : BitVec 4} {op2 : BitVec 3}
    (h : named f op0 op1 crn crm op2 = true) : sysFields f.read op0 op1 crn crm op2 f.rt.toNat = f := by
  obtain ⟨r, a, b, c, d, e, t⟩ := f
  simp only [named, Bool.and_eq_true, beq_iff_eq] at h
  obtain ⟨⟨⟨⟨rfl, rfl⟩, rfl⟩, rfl⟩, rfl⟩ := h
  simp [sysFields]

theorem rtInRange_toNat (t : BitVec 5) : rtInRange t.toNat = true := decide_eq_true t.isLt

/-- The fields of a row that the table of R431 selects belong to the instruction it answers. -/
theorem fieldsOf_of_instrOfFields {f : SysFields} {i : Instr} (h : instrOfFields f = .ok i) : FieldsOf f i := by
  simp only [instrOfFields] at h
  repeat' split at h
  case isFalse => cases h
  all_goals
    obtain rfl := Except.ok.inj h
    have hf := eq_sysFields_of_named ‹named f _ _ _ _ _ = true›
    refine fieldsOf_pick (fun hr => ⟨?_, ?_⟩) (fun hr => ⟨?_, ?_⟩)
  all_goals first
    | exact rtInRange_toNat f.rt
    | exact (Bool.and_eq_true _ _).mpr ⟨decide_eq_true f.crm.isLt, rtInRange_toNat f.rt⟩
    | (rw [hr] at hf; simpa [Instr.fields] using hf)

theorem encode_of_decode {w : Word32} {i : Instr} (h : decode w = .ok i) : i.wellFormed = true ∧ encode i = w := by
  unfold decode at h
  split at h
  · rename_i hform
    obtain ⟨hwf, hf⟩ := fieldsOf_of_instrOfFields h
    exact ⟨hwf, by rw [encode, hf, wordOfFields_fieldsOfWord hform]⟩
  · cases h

/-! ### The statements -/

/-- Settles O1: the fields are found again in the word, and the table of R431 finds the instruction again from its fields. -/
theorem decodeOfEncode : Obligations.DecodeOfEncode := fun _ h => decode_encode h

/-- Settles O2: a word of the format is made up of its fields, and each row of R431 answers an instruction with the row's fields. -/
theorem encodeOfDecode : Obligations.EncodeOfDecode := fun _ _ h => encode_of_decode h

/-- Settles O3, by evaluating the decoder. -/
theorem decodesListedWords : Obligations.DecodesListedWords := by
  unfold Obligations.DecodesListedWords
  decide +kernel

end Sys2Proof
end

