-- ==== Sys2Proof/Proofs/Ends.lean ====
section
/-! PROOFS. How each instruction ends: the tests of the chains in the words of the statements, what each answer of a chain does, and the
frame of every instruction (40_sysreg_access_common R450 to R466). -/

namespace Sys2Proof.Machine

open Sys2Proof

/-! ### The recurring tests in the words of the statements (40_sysreg_access_common, section 3) -/

theorem State.fgTrap_iff (s : State) (b : Bool) : s.fgTrap b = true ↔ FineGrainedTrap s b := by
  simp [State.fgTrap, FineGrainedTrap, and_assoc]

theorem State.debugTrapEL2_iff (s : State) : s.debugTrapEL2 = true ↔ DebugTrapEL2 s := by
  simp [State.debugTrapEL2, DebugTrapEL2]

theorem State.el3Test_mdcr3TDA_iff (s : State) : s.el3Test s.env.mon.mdcr3TDA = true ↔ DebugTrapEL3 s := by
  simp [State.el3Test, DebugTrapEL3]

theorem State.el3Test_nspbMismatch_iff (s : State) : s.el3Test s.nspbMismatch = true ↔ ProfilingTrapEL3 s := by
  simp [State.el3Test, State.nspbMismatch, ProfilingTrapEL3, or_assoc]

/-- S1 and S2 are two tests of the chains and one condition of the statements (44_profiling_access R508). -/
theorem State.el3Test_sbrbe_iff (s : State) :
    s.el3Test s.sbrbeSecure = true ∨ s.el3Test s.sbrbeNonSecure = true ↔ BranchTrapEL3 s := by
  simp [State.el3Test, State.sbrbeSecure, State.sbrbeNonSecure, BranchTrapEL3, ← and_or_left]

theorem State.sddUndef_iff (s : State) : s.sddUndef = true ↔ SecureDebugDisabled s := by
  simp [State.sddUndef, SecureDebugDisabled]

theorem State.sddPriority_iff (s : State) (c3 : Bool) :
    s.sddPriority c3 = true ↔ s.el3Test c3 = true ∧ SecureDebugDisabled s ∧ s.cfg.el3TrapPriorityWhenSDD = true := by
  simp [State.sddPriority, State.el3Test, State.sddUndef, SecureDebugDisabled]
  tauto

theorem State.haltCheck_iff (s : State) : s.haltCheck = true ↔ SoftwareAccessHalts s := by
  simp [State.haltCheck, SoftwareAccessHalts, and_assoc]

theorem State.gcsLock_iff (s : State) : s.gcsLock = true ↔ LockHeld s := by
  simp [State.gcsLock, LockHeld, and_assoc]

theorem State.watchpointIndex_eq (s : State) (m : Nat) : s.watchpointIndex m = watchpointOf s m := by
  simp [State.watchpointIndex, watchpointOf, Nat.mul_comm]

theorem State.watchpointAbsent_iff (s : State) (m : Nat) :
    s.watchpointAbsent m = true ↔ s.cfg.numWatchpoints ≤ watchpointOf s m := by
  simp [State.watchpointAbsent, State.watchpointIndex_eq]

/-- A test that a statement says fails answers `false` in the chain. -/
theorem eq_false_of_iff {b : Bool} {p : Prop} (h : b = true ↔ p) (hp : ¬ p) : b = false :=
  Bool.eq_false_iff.mpr fun hb => hp (h.mp hb)

/-! ### What each answer of a chain does -/

section
variable {s : State} {i : Instr}

theorem exec_of_accessOf {a : Access} (h : accessOf s i = a) : exec i s = .next (s.finish i a) := h ▸ exec_eq_finish i s

theorem exec_of_accessOf_trap {el : EL} (h : accessOf s i = .trap el) : exec i s = .next (s.takeTrap el i.fields) :=
  (exec_of_accessOf h).trans (congrArg _ (ite_self _))

theorem exec_of_accessOf_halt (h : accessOf s i = .halt) : exec i s = .next s.enterDebugState :=
  (exec_of_accessOf h).trans (congrArg _ (ite_self _))

theorem exec_of_accessOf_exlock (h : accessOf s i = .exlock) : exec i s = .next s.takeExlock :=
  (exec_of_accessOf h).trans (congrArg _ (ite_self _))

/-- An MRS of a register transfers what the register reads as. -/
theorem exec_mrs_storage {r : Storage} (hr : i.fields.read = true) (h : accessOf s i = .storage r) :
    ∃ t, exec i s = .next t ∧ MrsDone s t (transferOf i) (s.valueOf (s.reading r)) :=
  ⟨_, exec_of_accessOf h, by rw [State.finish, if_pos hr]; exact s.finishRead_storage _ _ r⟩

/-- An MSR of a register stores x[t]. -/
theorem exec_msr_storage {r : Storage} (hr : i.fields.read = false) (h : accessOf s i = .storage r) :
    exec i s = .next (s.writeStorage (s.readX (transferOf i)) r).advance := by
  rw [exec_of_accessOf h, State.finish, if_neg (by rw [hr]; decide), State.finishWrite_storage]

/-- The reading at EL3 through a name of a pair uses up a free value where there is a hazard, and is otherwise an MRS of the register. -/
theorem exec_mrs_paired {p : RegPair} {n : PairName} (hr : i.fields.read = true) (h : accessOf s i = .paired p n) :
    exec i s = .next ((s.afterPairedChoice p n).completeRead (transferOf i) (s.pairedReading p n)) := by
  rw [exec_of_accessOf h, State.finish, if_pos hr]; rfl

theorem exec_msr_paired {p : RegPair} {n : PairName} (hr : i.fields.read = false) (h : accessOf s i = .paired p n) :
    exec i s = .next (s.writePaired p n (s.readX (transferOf i))).advance := by
  rw [exec_of_accessOf h, State.finish, if_neg (by rw [hr]; decide)]; rfl

theorem exec_mrs_nvMem {off : Word} (hr : i.fields.read = true) (h : accessOf s i = .nvMem off) :
    exec i s = .next (if s.nvMemFaults off false then s.takeNVMemAbort
      else s.completeRead (transferOf i) (.plain (s.nvMemRead off))) := by
  rw [exec_of_accessOf h, State.finish, if_pos hr]; rfl

theorem exec_msr_nvMem {off : Word} (hr : i.fields.read = false) (h : accessOf s i = .nvMem off) :
    exec i s = .next (if s.nvMemFaults off true then s.takeNVMemAbort
      else (s.nvMemWrite off (s.readX (transferOf i))).advance) := by
  rw [exec_of_accessOf h, State.finish, if_neg (by rw [hr]; decide)]; rfl

end

/-- A trap puts its exception on its way upward (R455). -/
theorem State.takeTrap_taken (s : State) (el : EL) (f : SysFields) :
    HigherTaken s (s.takeTrap el f) el (some (trapSyndrome f)) := s.takeExceptionHigher_taken el _

theorem exlockSyndrome_eq : exlockSyndrome = 0xB6100000 := by decide

theorem State.takeExlock_taken_el1 {s : State} (h : s.pstate.EL = .el1) : EntryEL1 s s.takeExlock (some 0xB6100000) := by
  rw [State.takeExlock, if_pos h, exlockSyndrome_eq]; exact s.takeExceptionToEL1_entry _

theorem State.takeExlock_taken_higher {s : State} (h : s.pstate.EL ≠ .el1) :
    HigherTaken s s.takeExlock .el2 (some 0xB6100000) := by
  rw [State.takeExlock, if_neg h, exlockSyndrome_eq]; exact s.takeExceptionHigher_taken _ _

/-! ### Which answers a chain gives -/

/-- The EL3 test traps to EL3 or is UNDEFINED, whatever the answer is compared with (R462). -/
theorem State.el3Outcome_cases (s : State) : s.el3Outcome = .undefined ∨ s.el3Outcome = .trap .el3 := by
  unfold State.el3Outcome; split <;> simp

/-- Every answer the chain of an instruction can give, whatever the controls are (R470 to R511). -/
def answersOf (s : State) : Instr → List Access
  | .mrsEsrEl1 _ | .msrEsrEl1 _ =>
    [.undefined, .trap .el2, .nvMem 0x138, .storage .esrEL1, .storage .esrEL2, .paired .esr .el1Name]
  | .mrsEsrEl12 _ | .msrEsrEl12 _ => [.undefined, .trap .el2, .nvMem 0x138, .storage .esrEL1, .paired .esr .el12Name]
  | .mrsEsrEl2 _ | .msrEsrEl2 _ => [.undefined, .trap .el2, .storage .esrEL1, .storage .esrEL2]
  | .mrsSpsrEl1 _ | .msrSpsrEl1 _ =>
    [.undefined, .trap .el2, .exlock, .nvMem 0x160, .storage .spsrEL1, .storage .spsrEL2, .paired .spsr .el1Name]
  | .mrsSpsrEl12 _ | .msrSpsrEl12 _ => [.undefined, .trap .el2, .nvMem 0x160, .storage .spsrEL1, .paired .spsr .el12Name]
  | .mrsSpsrEl2 _ | .msrSpsrEl2 _ => [.undefined, .trap .el2, .exlock, .storage .spsrEL1, .storage .spsrEL2]
  | .mrsDbgwcr m _ | .msrDbgwcr m _ =>
    [.undefined, .trap .el2, .trap .el3, .halt, .storage (.dbgwcr (s.watchpointIndex m))]
  | .mrsMdscr _ | .msrMdscr _ => [.undefined, .trap .el2, .trap .el3, .nvMem 0x158, .storage .mdscr]
  | .mrsPmsfcr _ | .msrPmsfcr _ => [.undefined, .trap .el2, .trap .el3, .storage .pmsfcr]
  | .mrsBrbcrEl1 _ | .msrBrbcrEl1 _ =>
    [.undefined, .trap .el2, .trap .el3, .nvMem 0x8E0, .storage .brbcrEL1, .storage .brbcrEL2, .paired .brbcr .el1Name]
  | .mrsBrbcrEl12 _ | .msrBrbcrEl12 _ =>
    [.undefined, .trap .el2, .trap .el3, .nvMem 0x8E0, .storage .brbcrEL1, .paired .brbcr .el12Name]

/-- A chain gives one of the listed answers, and reaches a register by one name of a pair from EL3 only. -/
theorem accessOf_answers (s : State) (i : Instr) :
    accessOf s i ∈ answersOf s i ∧ ∀ p n, accessOf s i = .paired p n → s.pstate.EL = .el3 := by
  have h3 := s.el3Outcome_cases
  cases i with
  | mrsEsrEl1 t | msrEsrEl1 t =>
    simp only [accessOf, answersOf, chainMrsEsrEl1, chainMsrEsrEl1]
    constructor <;> grind
  | mrsEsrEl12 t | msrEsrEl12 t =>
    simp only [accessOf, answersOf, chainMrsEsrEl12, chainMsrEsrEl12]
    constructor <;> grind
  | mrsEsrEl2 t | msrEsrEl2 t =>
    simp only [accessOf, answersOf, chainMrsEsrEl2, chainMsrEsrEl2]
    constructor <;> grind
  | mrsSpsrEl1 t | msrSpsrEl1 t =>
    simp only [accessOf, answersOf, chainMrsSpsrEl1, chainMsrSpsrEl1]
    constructor <;> grind
  | mrsSpsrEl12 t | msrSpsrEl12 t =>
    simp only [accessOf, answersOf, chainMrsSpsrEl12, chainMsrSpsrEl12]
    constructor <;> grind
  | mrsSpsrEl2 t | msrSpsrEl2 t =>
    simp only [accessOf, answersOf, chainMrsSpsrEl2, chainMsrSpsrEl2]
    constructor <;> grind
  | mrsDbgwcr m t | msrDbgwcr m t =>
    simp only [accessOf, answersOf, chainMrsDbgwcr, chainMsrDbgwcr]
    constructor <;> grind
  | mrsMdscr t | msrMdscr t =>
    simp only [accessOf, answersOf, chainMrsMdscr, chainMsrMdscr]
    constructor <;> grind
  | mrsPmsfcr t | msrPmsfcr t =>
    simp only [accessOf, answersOf, chainMrsPmsfcr, chainMsrPmsfcr]
    constructor <;> grind
  | mrsBrbcrEl1 t | msrBrbcrEl1 t =>
    simp only [accessOf, answersOf, chainMrsBrbcrEl1, chainMsrBrbcrEl1]
    constructor <;> grind
  | mrsBrbcrEl12 t | msrBrbcrEl12 t =>
    simp only [accessOf, answersOf, chainMrsBrbcrEl12, chainMsrBrbcrEl12]
    constructor <;> grind

/-- A trap goes to EL2 or EL3 (R455). -/
theorem accessOf_trap {s : State} {i : Instr} {el : EL} (h : accessOf s i = .trap el) : el = .el2 ∨ el = .el3 := by
  have hm := h ▸ (accessOf_answers s i).1
  cases i <;> simp [answersOf] at hm <;> simp [hm]

/-- Only the chains of the SPSR names test the lock, which needs FEAT_GCS (42_spsr_access). -/
theorem gcs_of_accessOf_exlock {s : State} {i : Instr} (h : accessOf s i = .exlock) : s.cfg.synd.gcs = true := by
  have hm := h ▸ (accessOf_answers s i).1
  cases i with
  | mrsSpsrEl1 t | msrSpsrEl1 t => grind [accessOf, chainMrsSpsrEl1, chainMsrSpsrEl1, State.gcsLock]
  | mrsSpsrEl2 t | msrSpsrEl2 t => grind [accessOf, chainMrsSpsrEl2, chainMsrSpsrEl2, State.gcsLock]
  | _ => simp [answersOf] at hm

/-- An MSR reaches ESR_EL1 by an ESR name only. -/
theorem esr_name_of_accessOf {s : State} {i : Instr} (hr : i.fields.read = false)
    (h : accessOf s i = .storage .esrEL1 ∨ ∃ n, accessOf s i = .paired .esr n) :
    i = .msrEsrEl1 (transferOf i) ∨ i = .msrEsrEl12 (transferOf i) ∨ i = .msrEsrEl2 (transferOf i) := by
  have hm := (accessOf_answers s i).1
  cases i with
  | msrEsrEl1 t | msrEsrEl12 t | msrEsrEl2 t => simp [transferOf]
  | mrsEsrEl1 t | mrsEsrEl12 t | mrsEsrEl2 t => cases hr
  | _ => rcases h with h | ⟨n, h⟩ <;> simp [h, answersOf] at hm

/-! ### The redirection to an NVMem cell (20_memory R405) -/

/-- The chain reaches an NVMem cell exactly where the statements say that the instruction is redirected. -/
theorem accessOf_nvMem_iff (s : State) (i : Instr) (off : Word) : accessOf s i = .nvMem off ↔ Redirected s i off := by
  have h3 := s.el3Outcome_cases
  cases i with
  | mrsEsrEl1 t | msrEsrEl1 t =>
    grind [accessOf, Redirected, chainMrsEsrEl1, chainMsrEsrEl1, State.nvxIs, s.fgTrap_iff]
  | mrsEsrEl12 t | msrEsrEl12 t => grind [accessOf, Redirected, chainMrsEsrEl12, chainMsrEsrEl12, State.nvxIs]
  | mrsEsrEl2 t | msrEsrEl2 t => grind [accessOf, Redirected, chainMrsEsrEl2, chainMsrEsrEl2]
  | mrsSpsrEl1 t | msrSpsrEl1 t =>
    have h7 : s.env.hyp.nvx = 7 → s.nv1 = true := fun h => by simp [State.nv1, h]
    grind [accessOf, Redirected, chainMrsSpsrEl1, chainMsrSpsrEl1, State.nvxIs]
  | mrsSpsrEl12 t | msrSpsrEl12 t => grind [accessOf, Redirected, chainMrsSpsrEl12, chainMsrSpsrEl12, State.nvxIs]
  | mrsSpsrEl2 t | msrSpsrEl2 t => grind [accessOf, Redirected, chainMrsSpsrEl2, chainMsrSpsrEl2]
  | mrsDbgwcr m t | msrDbgwcr m t => grind [accessOf, Redirected, chainMrsDbgwcr, chainMsrDbgwcr]
  | mrsMdscr t | msrMdscr t =>
    grind [accessOf, Redirected, chainMrsMdscr, chainMsrMdscr, State.nv2, s.fgTrap_iff, s.debugTrapEL2_iff, s.el3Test_mdcr3TDA_iff,
      s.sddPriority_iff]
  | mrsPmsfcr t | msrPmsfcr t => grind [accessOf, Redirected, chainMrsPmsfcr, chainMsrPmsfcr]
  | mrsBrbcrEl1 t | msrBrbcrEl1 t =>
    grind [accessOf, Redirected, chainMrsBrbcrEl1, chainMsrBrbcrEl1, State.nvxIs, s.fgTrap_iff, s.el3Test_sbrbe_iff, s.sddPriority_iff]
  | mrsBrbcrEl12 t | msrBrbcrEl12 t =>
    simp only [accessOf, Redirected, chainMrsBrbcrEl12, chainMsrBrbcrEl12, State.nvxIs, beq_iff_eq]
    cases s.pstate.EL <;> grind

/-! ### What completes -/

/-- The free values a reading uses up are one or none. -/
theorem State.afterRead_eq_skip (s : State) (r : Reading) : ∃ k, s.afterRead r = s.skip k := by
  unfold State.afterRead
  split
  · exact ⟨1, rfl⟩
  · exact ⟨0, rfl⟩

theorem State.afterPairedChoice_eq_skip (s : State) (p : RegPair) (n : PairName) : ∃ k, s.afterPairedChoice p n = s.skip k := by
  unfold State.afterPairedChoice
  split
  · exact ⟨1, rfl⟩
  · exact ⟨0, rfl⟩

/-- Free values used up before an MRS are part of its count. -/
theorem MrsDone.of_skip {s t : State} {k n : Nat} {v : Word} (h : MrsDone (s.skip k) t n v) : MrsDone s t n v where
  value := h.value
  others := h.others
  pc := h.pc
  frame := h.frame

/-- An MRS at EL3 through a name of a pair transfers what `pairedReading` says. -/
theorem exec_mrs_paired_done {s : State} {i : Instr} {p : RegPair} {n : PairName} (hr : i.fields.read = true)
    (h : accessOf s i = .paired p n) :
    ∃ t d, exec i s = .next t ∧ MrsDone s t (transferOf i) ((s.pairedReading p n).value d) := by
  obtain ⟨k, hk⟩ := s.afterPairedChoice_eq_skip p n
  refine ⟨_, (s.skip k).freeValue, exec_mrs_paired hr h, ?_⟩
  rw [hk]
  exact ((s.skip k).completeRead_done _ _).of_skip

theorem pairStorage_write (s : State) (v : Word) (p : RegPair) : s.writeStorage v (pairStorage p) = s.withPair v p := by
  cases p <;> rfl

/-- An MSR at EL3 through a name of a pair stores x[t] or, where there is a hazard, the value a pending record says was written. -/
theorem State.writePaired_eq (s : State) (p : RegPair) (n : PairName) (v : Word) :
    ∃ w k r, s.writePaired p n v = ((s.skip k).withPair w p).setPairRecord r p ∧
      (w = v ∨ ∃ q, s.pairRecord p = some q ∧ w = q.written) := by
  unfold State.writePaired
  split
  · rename_i r hz
    refine ⟨_, 1, _, by rw [pairStorage_write], ?_⟩
    have hr : s.pairRecord p = some r := (Option.filter_eq_some_iff.mp hz).1
    unfold State.choose
    split
    · exact Or.inr ⟨r, hr, rfl⟩
    · exact Or.inl rfl
  · split
    · obtain ⟨k, hk⟩ := s.afterRead_eq_skip (s.reading (pairStorage p))
      exact ⟨v, k, _, by rw [hk, pairStorage_write], Or.inl rfl⟩
    · exact ⟨v, 0, _, by rw [pairStorage_write]; rfl, Or.inl rfl⟩

theorem MrsDone.completed {s t : State} {n : Nat} {v : Word} (h : MrsDone s t n v) : Completed s t where
  pc := h.pc
  frame := by rw [h.frame]

theorem State.writeStorage_completed (s : State) (v : Word) (r : Storage) : Completed s (s.writeStorage v r).advance where
  pc := by cases r <;> simp [State.writeStorage]
  frame := by
    cases r with
    | dbgwcr k =>
      simp only [State.writeStorage, State.writeWcr]
      split <;> rfl
    | _ => rfl

theorem State.nvMemWrite_completed (s : State) (off v : Word) : Completed s (s.nvMemWrite off v).advance := ⟨rfl, rfl⟩

end Sys2Proof.Machine
end

