-- ==== Sys2Proof/Proofs/Outcomes.lean ====
section
/-! PROOFS. Everything an instruction can do, said once, and what follows for every instruction (40_sysreg_access_common R450 to R452). -/

namespace Sys2Proof.Machine

open Sys2Proof

/-- The ends of an instruction, with what each leaves. -/
inductive ExecEnd (s : State) (i : Instr) (t : State) : Prop
  | undefined (h : SynchronousTaken s t 0x02000000)
  | higher (el : EL) (y : Option Word) (hel : el = .el2 ∨ el = .el3) (h : HigherTaken s t el y)
  | exlock (hg : s.cfg.synd.gcs = true) (h : EntryEL1 s t (some 0xB6100000))
  | halt (h : t = s.enterDebugState)
  | read (v : Word) (hr : i.fields.read = true) (h : MrsDone s t (transferOf i) v)
  | write (r : Storage) (hr : i.fields.read = false) (ha : accessOf s i = .storage r)
      (h : t = (s.writeStorage (s.readX (transferOf i)) r).advance)
  | writePair (p : RegPair) (n : PairName) (w : Word) (k : Nat) (r : Option PairRecord) (hr : i.fields.read = false)
      (ha : accessOf s i = .paired p n) (hw : w = s.readX (transferOf i) ∨ ∃ q, s.pairRecord p = some q ∧ w = q.written)
      (h : t = (((s.skip k).withPair w p).setPairRecord r p).advance)
  | writeCell (off : Word) (hr : i.fields.read = false) (ha : Redirected s i off)
      (h : t = (s.nvMemWrite off (s.readX (transferOf i))).advance)

theorem exec_end (s : State) (i : Instr) : ∃ t, exec i s = .next t ∧ ExecEnd s i t := by
  cases ha : accessOf s i with
  | undefined => exact ⟨_, exec_of_accessOf_undefined ha, .undefined s.takeUndefined_taken⟩
  | trap el => exact ⟨_, exec_of_accessOf_trap ha, .higher el _ (accessOf_trap ha) (s.takeTrap_taken el _)⟩
  | halt => exact ⟨_, exec_of_accessOf_halt ha, .halt rfl⟩
  | exlock =>
    refine ⟨_, exec_of_accessOf_exlock ha, ?_⟩
    by_cases hl : s.pstate.EL = .el1
    · exact .exlock (gcs_of_accessOf_exlock ha) (State.takeExlock_taken_el1 hl)
    · exact .higher .el2 _ (Or.inl rfl) (State.takeExlock_taken_higher hl)
  | storage r =>
    cases hr : i.fields.read with
    | true =>
      obtain ⟨t, he, hd⟩ := exec_mrs_storage hr ha
      exact ⟨t, he, .read _ hr hd⟩
    | false => exact ⟨_, exec_msr_storage hr ha, .write r hr ha rfl⟩
  | paired p n =>
    cases hr : i.fields.read with
    | true =>
      obtain ⟨t, d, he, hd⟩ := exec_mrs_paired_done hr ha
      exact ⟨t, he, .read _ hr hd⟩
    | false =>
      obtain ⟨w, k, r, hp, hw⟩ := s.writePaired_eq p n (s.readX (transferOf i))
      exact ⟨_, exec_msr_paired hr ha, .writePair p n w k r hr ha hw (by rw [hp])⟩
  | nvMem off =>
    cases hr : i.fields.read with
    | true =>
      refine ⟨_, exec_mrs_nvMem hr ha, ?_⟩
      split
      · exact .higher .el2 none (Or.inl rfl) (s.takeExceptionHigher_taken _ _)
      · exact .read _ hr (s.completeRead_done _ _)
    | false =>
      refine ⟨_, exec_msr_nvMem hr ha, ?_⟩
      split
      · exact .higher .el2 none (Or.inl rfl) (s.takeExceptionHigher_taken _ _)
      · exact .writeCell off hr ((accessOf_nvMem_iff s i off).mp ha) rfl

theorem execEnd_of_exec {s t : State} {i : Instr} (h : exec i s = .next t) : ExecEnd s i t := by
  obtain ⟨u, hu, he⟩ := exec_end s i
  rw [h] at hu
  cases hu
  exact he

/-- A synchronous exception to the level of Undefined goes to EL1, or upward. -/
theorem SynchronousTaken.cases {s t : State} {y : Word} (h : SynchronousTaken s t y) :
    EntryEL1 s t (some y) ∨ ∃ el, (el = .el2 ∨ el = .el3) ∧ HigherTaken s t el (some y) := by
  unfold SynchronousTaken TakenTo at h
  split at h
  · exact Or.inl h
  · rename_i hne
    refine Or.inr ⟨_, ?_, h⟩
    have h0 := s.undefTarget_ne_el0
    cases hl : s.undefTarget <;> simp_all

theorem withPair_completed (s : State) (w : Word) (k : Nat) (r : Option PairRecord) (p : RegPair) :
    Completed s (((s.skip k).withPair w p).setPairRecord r p).advance := by
  cases p <;> exact ⟨rfl, rfl⟩

/-- Settles O41: the ends of `ExecEnd`, where Undefined goes to EL1 or upward. -/
theorem oneOutcome : Obligations.OneOutcome := by
  intro s i
  obtain ⟨t, ht, he⟩ := exec_end s i
  refine ⟨t, ht, ?_⟩
  cases he with
  | undefined h =>
    rcases h.cases with h | ⟨el, hel, h⟩
    · exact Or.inr (Or.inl h)
    · exact Or.inr (Or.inr (Or.inr (Or.inl ⟨el, _, hel, h⟩)))
  | higher el y hel h => exact Or.inr (Or.inr (Or.inr (Or.inl ⟨el, y, hel, h⟩)))
  | exlock _ h => exact Or.inr (Or.inr (Or.inl h))
  | halt h => exact Or.inr (Or.inr (Or.inr (Or.inr h)))
  | read v _ h => exact Or.inl h.completed
  | write r _ _ h => exact Or.inl (h ▸ s.writeStorage_completed _ r)
  | writePair p n w k r _ _ _ h => exact Or.inl (h ▸ withPair_completed s w k r p)
  | writeCell off _ _ h => exact Or.inl (h ▸ ⟨rfl, rfl⟩)

/-! ### General registers and memory -/

/-- Rt of a well-formed instruction is the number it holds. -/
theorem registerOf_eq {i : Instr} (h : i.wellFormed = true) : registerOf i = transferOf i := by
  cases i with
  | mrsDbgwcr m t | msrDbgwcr m t => exact toNat_ofNat_of_rtInRange ((Bool.and_eq_true _ _).mp h).2
  | _ t => exact toNat_ofNat_of_rtInRange (t := t) h

theorem State.readX_congr {s t : State} (h : t.x = s.x) (k : Nat) : t.readX k = s.readX k := by
  unfold State.readX; rw [h]

theorem EntryEL1.x_mem {s t : State} {y : Option Word} (h : EntryEL1 s t y) : t.x = s.x ∧ t.mem = s.mem := by
  rw [h.frame]; exact ⟨rfl, rfl⟩

theorem HigherTaken.x_mem {s t : State} {el : EL} {y : Option Word} (h : HigherTaken s t el y) : t.x = s.x ∧ t.mem = s.mem := by
  rw [h.frame]; exact ⟨rfl, rfl⟩

theorem State.writeStorage_x_mem (s : State) (v : Word) (r : Storage) :
    (s.writeStorage v r).x = s.x ∧ (s.writeStorage v r).mem = s.mem := by
  cases r <;> simp [State.writeStorage]

theorem withPair_x_mem (s : State) (w : Word) (k : Nat) (r : Option PairRecord) (p : RegPair) :
    (((s.skip k).withPair w p).setPairRecord r p).x = s.x ∧ (((s.skip k).withPair w p).setPairRecord r p).mem = s.mem := by
  cases p <;> exact ⟨rfl, rfl⟩

/-- An instruction transfers to its register as an MRS does and leaves memory, or it leaves the registers, and memory too unless it is
redirected. -/
theorem ExecEnd.x_mem {s t : State} {i : Instr} (h : ExecEnd s i t) :
    (i.fields.read = true ∧ t.mem = s.mem ∧ ∃ v, MrsDone s t (transferOf i) v) ∨ (t.x = s.x ∧ t.mem = s.mem) ∨
      (t.x = s.x ∧ i.fields.read = false ∧ ∃ off v, Redirected s i off ∧ t.mem = (s.nvMemWrite off v).mem) := by
  cases h with
  | undefined h =>
    rcases h.cases with h | ⟨el, _, h⟩
    · exact Or.inr (Or.inl h.x_mem)
    · exact Or.inr (Or.inl h.x_mem)
  | higher el y _ h => exact Or.inr (Or.inl h.x_mem)
  | exlock _ h => exact Or.inr (Or.inl h.x_mem)
  | halt h => exact Or.inr (Or.inl (h ▸ ⟨rfl, rfl⟩))
  | read v hr h => exact Or.inl ⟨hr, by rw [h.frame], v, h⟩
  | write r _ _ h => exact Or.inr (Or.inl (h ▸ s.writeStorage_x_mem _ r))
  | writePair p n w k r _ _ _ h => exact Or.inr (Or.inl (h ▸ withPair_x_mem s w k r p))
  | writeCell off hr ha h => exact Or.inr (Or.inr (h ▸ ⟨rfl, hr, off, _, ha, rfl⟩))

theorem Redirected.offset_unique {s : State} {i : Instr} {a b : Word} (ha : Redirected s i a) (hb : Redirected s i b) : a = b := by
  have h := ((accessOf_nvMem_iff s i a).mpr ha).symm.trans ((accessOf_nvMem_iff s i b).mpr hb)
  cases h; rfl

/-- A write of the cell leaves every byte outside it (R404). -/
theorem State.nvMemWrite_read_other {s : State} {off : Word} (v : Word) {a : Nat} (h : ¬ s.inNVMemCell off a) :
    (s.nvMemWrite off v).mem.read a = s.mem.read a :=
  Memory.read_write8_other s.mem _ _ v a fun k hk he => h ⟨k, hk, he⟩

/-- Settles O42, from what an instruction leaves of the registers and of memory. -/
theorem execFrame : Obligations.ExecFrame := by
  intro s t i hwf he
  rw [registerOf_eq hwf]
  rcases (execEnd_of_exec he).x_mem with ⟨hr, hm, v, hd⟩ | ⟨hx, hm⟩ | ⟨hx, hr, off, v, ho, hm⟩
  · refine ⟨fun k hk => hd.others k (hk.resolve_left (by rw [hr]; decide)), fun _ => hm, fun _ _ a _ => by rw [hm]⟩
  · exact ⟨fun k _ => State.readX_congr hx k, fun _ => hm, fun _ _ a _ => by rw [hm]⟩
  · refine ⟨fun k _ => State.readX_congr hx k, fun h => ?_, fun off' ho' a ha => ?_⟩
    · rcases h with h | h
      · rw [hr] at h; cases h
      · exact absurd ho (h off)
    · obtain rfl := ho.offset_unique ho'
      rw [hm]
      exact State.nvMemWrite_read_other v ha

end Sys2Proof.Machine
end

