-- ==== Sys2Proof/Proofs/Classes.lean ====
section
/-! PROOFS. The layout of a syndrome, and the Exception classes that causes have (11_esr_el1 R60, R80, R81, R88). -/

namespace Sys2Proof.Machine

open Sys2Proof

/-! ### The four fields (R60, R88) -/

/-- Every bit of a syndrome. -/
theorem esrValue_getLsbD (iss2 : BitVec 24) (ec : BitVec 6) (il : Bool) (iss : BitVec 25) (i : Nat) :
    (esrValue iss2 ec il iss).getLsbD i =
      if i < 25 then iss.getLsbD i else if i < 26 then il else if i < 32 then ec.getLsbD (i - 26)
      else iss2.getLsbD (i - 32) := by
  unfold esrValue
  simp only [BitVec.getLsbD_append]
  simp only [Nat.sub_sub, BitVec.getLsbD_ofBool, Nat.reduceAdd, BitVec.getLsbD_zero]
  by_cases h25 : i < 25
  · rw [if_pos h25, if_pos h25]
  rw [if_neg h25, if_neg h25]
  by_cases h26 : i < 26
  · rw [if_pos (by omega), if_pos h26, decide_eq_true (by omega), Bool.true_and]
  rw [if_neg (by omega), if_neg h26]
  by_cases h32 : i < 32
  · rw [if_pos (by omega), if_pos h32]
  rw [if_neg (by omega), if_neg h32]
  split
  · rfl
  · exact (BitVec.getLsbD_of_ge iss2 _ (by omega)).symm

/-- A field of a syndrome that lies within ISS. -/
theorem esrValue_extract_iss (iss2 : BitVec 24) (ec : BitVec 6) (il : Bool) (iss : BitVec 25) {lo n : Nat} (h : lo + n ≤ 25) :
    (esrValue iss2 ec il iss).extractLsb' lo n = iss.extractLsb' lo n := by
  refine BitVec.eq_of_getLsbD_eq fun i hi => ?_
  rw [BitVec.getLsbD_extractLsb', BitVec.getLsbD_extractLsb', esrValue_getLsbD, if_pos (by omega)]

/-- A field of a syndrome that lies within ISS2. -/
theorem esrValue_extract_iss2 (iss2 : BitVec 24) (ec : BitVec 6) (il : Bool) (iss : BitVec 25) (lo n : Nat) :
    (esrValue iss2 ec il iss).extractLsb' (32 + lo) n = iss2.extractLsb' lo n := by
  refine BitVec.eq_of_getLsbD_eq fun i hi => ?_
  rw [BitVec.getLsbD_extractLsb', BitVec.getLsbD_extractLsb', esrValue_getLsbD, if_neg (by omega), if_neg (by omega),
    if_neg (by omega), Nat.add_assoc, Nat.add_sub_cancel_left]

@[simp] theorem esrEC_esrValue (iss2 : BitVec 24) (ec : BitVec 6) (il : Bool) (iss : BitVec 25) :
    esrEC (esrValue iss2 ec il iss) = ec := by
  refine BitVec.eq_of_getLsbD_eq fun i hi => ?_
  rw [esrEC, BitVec.getLsbD_extractLsb', esrValue_getLsbD, if_neg (by omega), if_neg (by omega), if_pos (by omega),
    Nat.add_sub_cancel_left, decide_eq_true hi, Bool.true_and]

@[simp] theorem esrIL_esrValue (iss2 : BitVec 24) (ec : BitVec 6) (il : Bool) (iss : BitVec 25) :
    esrIL (esrValue iss2 ec il iss) = il := esrValue_getLsbD iss2 ec il iss 25

@[simp] theorem esrISS_esrValue (iss2 : BitVec 24) (ec : BitVec 6) (il : Bool) (iss : BitVec 25) :
    esrISS (esrValue iss2 ec il iss) = iss :=
  (esrValue_extract_iss iss2 ec il iss (Nat.le_refl _)).trans (BitVec.extractLsb'_eq_self ..)

@[simp] theorem esrISS2_esrValue (iss2 : BitVec 24) (ec : BitVec 6) (il : Bool) (iss : BitVec 25) :
    esrISS2 (esrValue iss2 ec il iss) = iss2 :=
  (esrValue_extract_iss2 iss2 ec il iss 0 24).trans (BitVec.extractLsb'_eq_self ..)

theorem esrValue_top (iss2 : BitVec 24) (ec : BitVec 6) (il : Bool) (iss : BitVec 25) :
    (esrValue iss2 ec il iss).extractLsb' 56 8 = 0 := by
  rw [esrValue_extract_iss2 iss2 ec il iss 24 8]
  refine BitVec.eq_of_getLsbD_eq fun i hi => ?_
  rw [BitVec.getLsbD_extractLsb', BitVec.getLsbD_of_ge iss2 _ (by omega)]
  simp

/-- A syndrome as the sum of its fields at their places (R88). -/
theorem esrValue_eq_or (iss2 : BitVec 24) (ec : BitVec 6) (il : Bool) (iss : BitVec 25) :
    esrValue iss2 ec il iss
      = iss2.setWidth 64 <<< 32 ||| ec.setWidth 64 <<< 26 ||| (bit il).setWidth 64 <<< 25 ||| iss.setWidth 64 := by
  refine BitVec.eq_of_getLsbD_eq fun i hi => ?_
  simp only [esrValue_getLsbD, BitVec.getLsbD_or, BitVec.getLsbD_shiftLeft, BitVec.getLsbD_setWidth, BitVec.getLsbD_ofBool,
    decide_eq_true hi, Bool.true_and]
  by_cases h25 : i < 25
  · simp [h25, show i < 26 by omega, show i < 32 by omega]
  have hiss : iss.getLsbD i = false := BitVec.getLsbD_of_ge iss i (by omega)
  by_cases h26 : i < 26
  · obtain rfl : i = 25 := by omega
    simp
  by_cases h32 : i < 32
  · simp [h25, h26, h32, hiss, show i - 25 ≠ 0 by omega, show i - 26 < 64 by omega]
  have hec : ec.getLsbD (i - 26) = false := BitVec.getLsbD_of_ge ec _ (by omega)
  simp [h25, h26, h32, hiss, hec, show i - 25 ≠ 0 by omega, show i - 32 < 64 by omega]

/-! ### The Exception class of a cause (R80, R81) -/

/-- A cause that keeps its constraints has an allocated class: what allocates the class is among the constraints. -/
theorem ecAllocated_of_allowed {c : Config} {e : Env} {p : PState} {el1 a32 : Bool} {i : ExcInfo} (ha : a32 = true → c.haveAArch32 = true)
    (h : i.allowed c e p el1 a32 = true) : ecAllocated c (i.ec el1 a32) = true := by
  cases i with
  | mcr coproc15 | mcrr coproc15 =>
    simp only [ExcInfo.allowed, Bool.and_eq_true] at h
    cases coproc15 <;> simp [ExcInfo.ec, ecAllocated, ha, h]
  | ldcStc =>
    simp only [ExcInfo.allowed, Bool.and_eq_true] at h
    simp [ExcInfo.ec, ecAllocated, ha, h]
  | svc | breakpointInstr => cases a32 <;> simp [ExcInfo.ec, ecAllocated, ha]
  | fpTrap =>
    simp only [ExcInfo.allowed, Bool.and_eq_true] at h
    cases a32 <;> simp [ExcInfo.ec, ecAllocated, ha, h]
  | ls64 | branchTarget | sveAccess | tstart | pacFail | smeAccess | memoryOperation | gcs | pmu =>
    simp only [ExcInfo.allowed, Bool.and_eq_true] at h
    simp [ExcInfo.ec, ecAllocated, h]
  | sysAccess128 => exact ((Bool.and_eq_true _ _).mp h).2
  | instrAbort | dataAbort | breakpoint | softwareStep | watchpoint => cases el1 <;> rfl
  | _ => rfl

theorem ExcCause.esrEC_syndrome (c : Config) (m : BitVec 4) (x : ExcCause) :
    esrEC (x.syndrome c m) = x.info.ec x.fromEL1 x.fromAArch32 := esrEC_esrValue _ _ _ _

theorem ExcCause.ecAllocated_of_check {c : Config} {e : Env} {p : PState} {x : ExcCause} (h : x.check c e p = true) (m : BitVec 4) :
    ecAllocated c (esrEC (x.syndrome c m)) = true := by
  simp only [ExcCause.check, ExcCause.originOk, Bool.and_eq_true, Bool.or_eq_true, Bool.not_eq_true'] at h
  obtain ⟨⟨⟨-, horigin⟩, -⟩, hallowed⟩ := h
  rw [ExcCause.esrEC_syndrome]
  exact ecAllocated_of_allowed (fun ha => (horigin.resolve_left (by simp [ha])).2) hallowed

theorem ecAllocated_reserved (c : Config) (ec : BitVec 6)
    (h : ec ∈ [0x02#6, 0x08, 0x09, 0x0B, 0x0F, 0x10, 0x12, 0x13, 0x16, 0x17, 0x1A, 0x1E, 0x1F, 0x23, 0x29, 0x2A, 0x2B, 0x2E, 0x36,
      0x37, 0x39, 0x3A, 0x3B, 0x3E, 0x3F]) : ecAllocated c ec = false := by
  simp only [List.mem_cons, List.not_mem_nil, or_false] at h
  rcases h with rfl | rfl | rfl | rfl | rfl | rfl | rfl | rfl | rfl | rfl | rfl | rfl | rfl | rfl | rfl | rfl | rfl | rfl | rfl | rfl |
    rfl | rfl | rfl | rfl | rfl <;> rfl

/-- The classes that need no feature. -/
theorem ecAllocated_always (c : Config) {ec : BitVec 6}
    (h : ec ∈ [0x00#6, 0x0E, 0x2F, 0x30, 0x31, 0x32, 0x33, 0x34, 0x35]) : ecAllocated c ec = true := by
  simp only [List.mem_cons, List.not_mem_nil, or_false] at h
  rcases h with rfl | rfl | rfl | rfl | rfl | rfl | rfl | rfl | rfl <;> rfl

end Sys2Proof.Machine
end

