-- ==== Sys2Proof/Proofs/Invariant.lean ====
section
/-! PROOFS. What a step can do to the memory's form, to MDSCR_EL1, to ESR_EL1 and to the pending entry, said once, and the two statements
that follow: the invariant (20_memory R400; 15_debug_regs R355; 14_spsr_el1 R260, R273) and the Exception classes (11_esr_el1 R81). -/

namespace Sys2Proof.Machine

open Sys2Proof

/-! ### What leaves all of that alone -/

/-- From `s` to `t` nothing that the invariant or the Exception classes speak of has changed. -/
structure Quiet (s t : State) : Prop where
  cfg : t.cfg = s.cfg
  mem : t.mem = s.mem
  mdscr : t.mdscr = s.mdscr
  entry : t.pendingEntry = s.pendingEntry
  esr : t.esrEL1 = s.esrEL1
  unknown : t.esrUnknown = s.esrUnknown
  level : t.pstate.EL = s.pstate.EL
  nRW : t.pstate.nRW = s.pstate.nRW
  mode : t.pstate.M = s.pstate.M

theorem Quiet.refl (s : State) : Quiet s s := ⟨rfl, rfl, rfl, rfl, rfl, rfl, rfl, rfl, rfl⟩

theorem Quiet.trans {s r t : State} (h : Quiet s r) (g : Quiet r t) : Quiet s t :=
  ⟨g.cfg.trans h.cfg, g.mem.trans h.mem, g.mdscr.trans h.mdscr, g.entry.trans h.entry, g.esr.trans h.esr,
    g.unknown.trans h.unknown, g.level.trans h.level, g.nRW.trans h.nRW, g.mode.trans h.mode⟩

theorem Quiet.inv {s t : State} (h : Quiet s t) (hs : s.Inv) : t.Inv :=
  hs.of_same h.mem h.mdscr h.cfg (Or.inr h.entry) (Or.inr ⟨h.nRW, h.level, h.mode⟩)

theorem Quiet.settle (s : State) : Quiet s s.settle := by
  rw [State.settle_frame]; exact ⟨rfl, rfl, rfl, rfl, rfl, rfl, rfl, rfl, rfl⟩

theorem Quiet.skip (s : State) (n : Nat) : Quiet s (s.skip n) := ⟨rfl, rfl, rfl, rfl, rfl, rfl, rfl, rfl, rfl⟩

theorem Quiet.clearSS (s : State) : Quiet s s.clearSS := ⟨rfl, rfl, rfl, rfl, rfl, rfl, rfl, rfl, rfl⟩

theorem Quiet.halt (s : State) : Quiet s s.enterDebugState := ⟨rfl, rfl, rfl, rfl, rfl, rfl, rfl, rfl, rfl⟩

theorem Quiet.answer (s : State) (r : ExtResponse) : Quiet s (s.answer r) := ⟨rfl, rfl, rfl, rfl, rfl, rfl, rfl, rfl, rfl⟩

theorem Quiet.afterRead (s : State) (r : Reading) : Quiet s (s.afterRead r) := by
  obtain ⟨k, hk⟩ := s.afterRead_eq_skip r
  rw [hk]; exact .skip s k

theorem Quiet.afterInstruction (s t : State) : Quiet t (s.afterInstruction t) := by
  rw [State.afterInstruction_frame]; exact ⟨rfl, rfl, rfl, rfl, rfl, rfl, rfl, rfl, rfl⟩

theorem Quiet.writeBvr (s : State) (n : Nat) (v : Word) : Quiet s (s.writeBvr n v) := by
  unfold State.writeBvr
  split
  · exact ⟨rfl, rfl, rfl, rfl, rfl, rfl, rfl, rfl, rfl⟩
  · exact .refl s

theorem Quiet.writeWcr (s : State) (n : Nat) (v : Word) : Quiet s (s.writeWcr n v) := by
  unfold State.writeWcr
  split
  · exact ⟨rfl, rfl, rfl, rfl, rfl, rfl, rfl, rfl, rfl⟩
  · exact .refl s

theorem Quiet.holdAsync (s : State) (k : AsyncException) : Quiet s (s.holdAsync k) := by
  cases k with
  | pmu =>
    simp only [State.holdAsync]
    split <;> exact ⟨rfl, rfl, rfl, rfl, rfl, rfl, rfl, rfl, rfl⟩
  | _ => exact ⟨rfl, rfl, rfl, rfl, rfl, rfl, rfl, rfl, rfl⟩

theorem Quiet.releaseAsync (s : State) (k : AsyncException) : Quiet s (s.releaseAsync k) := by
  cases k <;> exact ⟨rfl, rfl, rfl, rfl, rfl, rfl, rfl, rfl, rfl⟩

/-- A log that may or may not grow. -/
theorem Quiet.ite {s t : State} {p : Prop} [Decidable p] (h : Quiet s t) : Quiet s (if p then t else s) := by
  split
  · exact h
  · exact .refl s

theorem Quiet.extRead (s : State) (n : Nat) : Quiet s (s.extRead n) := by
  unfold State.extRead
  split <;> split
  · exact (Quiet.afterRead s _).trans (.answer _ _)
  · exact .answer s _
  · exact .answer s _
  · exact (Quiet.skip s 1).trans (.answer _ _)

theorem Quiet.extWrite (s : State) (n : Nat) (v : Word) : Quiet s (s.extWrite n v) := by
  unfold State.extWrite
  repeat' split
  · exact (Quiet.writeBvr s n v).trans (.answer _ _)
  · exact .answer s _
  · exact .answer s _
  · exact .answer s _
  · exact (Quiet.skip s 1).trans (.answer _ _)

theorem Quiet.extReadWcr (s : State) (n : Nat) : Quiet s (s.extReadWcr n) := by
  unfold State.extReadWcr
  split
  · exact (Quiet.afterRead s _).trans (.answer _ _)
  · exact (Quiet.skip s 1).trans (.answer _ _)

theorem Quiet.extWriteWcr (s : State) (n : Nat) (v : Word) : Quiet s (s.extWriteWcr n v) := by
  unfold State.extWriteWcr
  split
  · exact (Quiet.writeWcr s n v).trans (.answer _ _)
  · exact (Quiet.skip s 1).trans (.answer _ _)

/-! ### Exceptions -/

/-- An exception has been taken from a state that differs from `s` in nothing of that, to EL1 with no syndrome or one of an allocated
class, or upward; or nothing of that has changed. -/
inductive Ends (s t : State) : Prop
  | quiet (h : Quiet s t)
  | entry (q : State) (y : Option Word) (hq : Quiet s q) (h : EntryEL1 q t y)
      (hy : ∀ v, y = some v → ecAllocated s.cfg (esrEC v) = true)
  | higher (q : State) (el : EL) (y : Option Word) (hq : Quiet s q) (hel : el = .el2 ∨ el = .el3) (h : HigherTaken q t el y)

theorem Ends.of_quiet {s r t : State} (h : Quiet s r) (g : Ends r t) : Ends s t := by
  cases g with
  | quiet g => exact .quiet (h.trans g)
  | entry q y hq g hy => exact .entry q y (h.trans hq) g (h.cfg ▸ hy)
  | higher q el y hq hel g => exact .higher q el y (h.trans hq) hel g

theorem Ends.routed {s t : State} {p : Prop} {y : Option Word} (h : RoutedTaken s t p y)
    (hy : ∀ v, y = some v → ecAllocated s.cfg (esrEC v) = true) : Ends s t :=
  (Classical.em p).elim (fun hp => .higher s .el2 none (.refl s) (Or.inl rfl) (h.1 hp))
    (fun hp => .entry s y (.refl s) (h.2 hp) hy)

theorem Ends.taken {s t : State} {el : EL} {y : Word} (h : TakenTo s t el y) (h0 : el ≠ .el0)
    (hy : ecAllocated s.cfg (esrEC y) = true) : Ends s t := by
  unfold TakenTo at h
  split at h
  · exact .entry s _ (.refl s) h fun v hv => by cases hv; exact hy
  · refine .higher s el _ (.refl s) ?_ h
    cases el <;> simp_all

theorem Ends.inv {s t : State} (h : Ends s t) (hs : s.Inv) : t.Inv := by
  cases h with
  | quiet h => exact h.inv hs
  | entry q y hq h _ => exact (hq.inv hs).of_entry h
  | higher q el y hq hel h => exact (hq.inv hs).of_higher h hel

theorem Ends.cfg {s t : State} (h : Ends s t) : t.cfg = s.cfg := by
  cases h with
  | quiet h => exact h.cfg
  | entry q y hq h _ => rw [h.frame]; exact hq.cfg
  | higher q el y hq _ h => rw [h.frame]; exact hq.cfg

/-- No exception writes a reserved class. -/
theorem Ends.esr {s t : State} (h : Ends s t) : t.esrEL1 = s.esrEL1 ∨ ecAllocated s.cfg (esrEC t.esrEL1) = true := by
  cases h with
  | quiet h => exact Or.inl h.esr
  | higher q el y hq _ h => rw [h.frame]; exact Or.inl hq.esr
  | entry q y hq h hy =>
    cases y with
    | none => exact Or.inl ((h.esrKept rfl).1.trans hq.esr)
    | some v => rw [(h.esr v rfl).1]; exact Or.inr (hy v rfl)

theorem State.takeIllegalState_ends (s : State) : Ends s s.takeIllegalState :=
  .taken (s.takeSynchronous_taken s.illegalTarget _) s.illegalTarget_ne_el0 (by
    rw [illegalStateSyndrome, esrEC_esrValue]; rfl)

/-- A debug exception has a class that needs no feature. -/
theorem State.takeDebugException_ends (s : State) {i : ExcInfo} (h : ∀ el1 a32, ecAllocated s.cfg (i.ec el1 a32) = true) :
    Ends s (s.takeDebugException i) :=
  .routed (s.takeRouted_taken _ _) fun v hv => by
    cases hv
    rw [State.debugSyndrome, ExcCause.esrEC_syndrome]
    exact h _ _

theorem State.debugMatch_ends (s : State) {i : ExcInfo} (h : ∀ el1 a32, ecAllocated s.cfg (i.ec el1 a32) = true) :
    Ends s (s.debugMatch i) := by
  unfold State.debugMatch
  split
  · exact .quiet (.halt s)
  · split
    · exact s.takeDebugException_ends h
    · exact .quiet (.refl s)

theorem breakpoint_allocated (c : Config) (el1 a32 : Bool) : ecAllocated c (ExcInfo.breakpoint.ec el1 a32) = true := by
  cases el1 <;> rfl

theorem softwareStep_allocated (c : Config) (isv ex el1 a32 : Bool) :
    ecAllocated c ((ExcInfo.softwareStep isv ex).ec el1 a32) = true := by
  cases el1 <;> rfl

theorem watchpoint_allocated (c : Config) (w : WatchpointInfo) (el1 a32 : Bool) :
    ecAllocated c ((ExcInfo.watchpoint w).ec el1 a32) = true := by
  cases el1 <;> rfl

/-- A cause that keeps its constraints is taken with an allocated class. -/
theorem State.takeRouted_cause_ends {s : State} {c : Config} {e : Env} {p : PState} {x : ExcCause} (b : Bool) (m : BitVec 4)
    (hc : c = s.cfg) (h : x.check c e p = true) : Ends s (s.takeRouted b (some (x.syndrome c m))) :=
  .routed (s.takeRouted_taken _ _) fun v hv => by
    cases hv
    subst hc
    exact ExcCause.ecAllocated_of_check h m

theorem State.takeAsync_ends {s : State} {k : AsyncException} (h : k = .pmu → s.cfg.synd.ebep = true) : Ends s (s.takeAsync k) :=
  .routed (s.takeRouted_taken _ _) fun v hv => by
    cases k with
    | irq | fiq => cases hv
    | serror e => cases hv; exact congrArg (ecAllocated s.cfg) (ExcCause.esrEC_syndrome _ _ _)
    | pmu => cases hv; exact (congrArg (ecAllocated s.cfg) (ExcCause.esrEC_syndrome _ _ _)).trans (h rfl)

/-! ### Inputs -/

theorem takeCause_ends {x : ExcCause} {s t : State} (h : takeCause x s = .next t) : Ends s t := by
  unfold takeCause at h
  split at h
  · rename_i hc
    cases h
    exact State.takeRouted_cause_ends _ _ rfl ((Bool.and_eq_true _ _).mp hc).1
  · cases h

theorem Ends.of_unlessIllegal {s t : State} {r : Result} (h : s.unlessIllegal r = .next t) (hr : r = .next t → Ends s t) : Ends s t := by
  rcases State.unlessIllegal_next h with rfl | h
  · exact s.takeIllegalState_ends
  · exact hr h

theorem handleException_ends {x : ExcCause} {s t : State} (h : handleException x s = .next t) : Ends s t := by
  unfold handleException at h
  split at h
  · exact takeCause_ends h
  · exact .of_unlessIllegal h takeCause_ends

theorem handleUnpredictable_ends {x : ExcCause} {p : PState} {e : Env} {s t : State} (h : handleUnpredictable x p e s = .next t) :
    Ends s t := by
  unfold handleUnpredictable at h
  split at h
  · rename_i hc
    cases h
    exact State.takeRouted_cause_ends _ _ rfl ((Bool.and_eq_true _ _).mp hc).2
  · cases h

theorem handleArrival_ends {k : AsyncException} {s t : State} (h : handleArrival k s = .next t) : Ends s t := by
  unfold handleArrival at h
  split at h
  · rename_i hk
    cases h
    split
    · exact State.takeAsync_ends fun he => by subst he; exact hk
    · exact .quiet (.holdAsync s k)
  · cases h

theorem handleAccess_ends {a : DataAccess} {s t : State} (h : handleAccess a s = .next t) : Ends s t := by
  unfold handleAccess at h
  split at h <;> cases h
  · exact .quiet (.skip s 65)
  · exact .of_quiet (.skip s 65) ((s.skip 65).debugMatch_ends (watchpoint_allocated _ _))

theorem handleBreakpoint_ends {n : Nat} {a : Word} {s t : State} (h : handleBreakpoint n a s = .next t) : Ends s t := by
  unfold handleBreakpoint at h
  split at h <;> cases h
  exact s.debugMatch_ends (breakpoint_allocated _)

theorem handleVectorCatch_ends {s t : State} (h : handleVectorCatch s = .next t) : Ends s t := by
  unfold handleVectorCatch at h
  split at h <;> cases h
  split
  · exact s.takeDebugException_ends (breakpoint_allocated _)
  · exact .quiet (.refl s)

theorem handleStepped_ends {isv ex : Bool} {s t : State} (h : handleStepped isv ex s = .next t) : Ends s t := by
  unfold handleStepped at h
  split at h <;> cases h
  split
  · exact .of_quiet (.clearSS s) (s.clearSS.takeDebugException_ends (softwareStep_allocated _ _ _))
  · exact .quiet (.refl s)

theorem handleDCC_ends {x : ExcCause} {s t : State} (h : handleDCC x s = .next t) : Ends s t := by
  unfold handleDCC at h
  split at h
  · rename_i hc
    cases h
    split
    · exact State.takeRouted_cause_ends _ _ rfl ((Bool.and_eq_true _ _).mp hc).2
    · exact .quiet (.refl s)
  · cases h

/-- An instruction of the program runs: what the decoder answers is executed in AArch64 state outside the Illegal Execution state. -/
def Runs (s t : State) : Prop :=
  s.pstate.IL = false ∧ s.pstate.nRW = false ∧
    ∃ w i u, s.fetch = some w ∧ decode w = .ok i ∧ exec i s = .next u ∧ t = s.afterInstruction u

theorem State.runInstruction_cases {s t : State} (h : s.runInstruction = .next t) : Ends s t ∨ Runs s t := by
  unfold State.runInstruction at h
  split at h
  · cases h; exact Or.inl s.takeIllegalState_ends
  · rename_i hil
    split at h
    · cases h
    · rename_i hrw
      split at h
      · cases h
      · rename_i w hw
        split at h
        · cases h
        · rename_i i hi
          split at h
          · rename_i u hu
            cases h
            exact Or.inr ⟨Bool.eq_false_iff.mpr hil, Bool.eq_false_iff.mpr hrw, w, i, u, hw, hi, hu, rfl⟩
          · cases h
          · cases h

/-- What is no exception and no instruction: an exception return, a reset, a power-up and a step outside this spec. -/
inductive Special (s t : State) : Input → Prop
  | exceptionReturn (hn : s.pstate.nRW = false) (h : t = s.exceptionReturnFromEL1) : Special s t .exceptionReturn
  | warmReset (h : t = s.warmReset) : Special s t .warmReset
  | coldReset (h : t = s.coldReset) : Special s t .coldReset
  | powerUp (e : Env) (hs : s.env.ext.corePowered = false) (he : e.ext.corePowered = true)
      (h : t = ({ s with env := e } : State).coldReset) : Special s t (.env e)
  | outside (o : OutsideStep) (ho : o.pstate.stateOk s.cfg = true) (h : t = s.outsideStep o) : Special s t (.outside o)

theorem Special.of_handleOutside {o : OutsideStep} {s t : State} (h : handleOutside o s = .next t) : Special s t (.outside o) := by
  obtain ⟨ht, ho, -⟩ := handleOutside_next h
  exact .outside o ho ht

theorem changeEnv_cases (s : State) (e : Env) : Quiet s (s.changeEnv e) ∨ Special s (s.changeEnv e) (.env e) := by
  unfold State.changeEnv
  split
  · rename_i h
    simp only [Bool.and_eq_true, Bool.not_eq_true'] at h
    exact Or.inr (.powerUp e h.2 h.1 rfl)
  · exact Or.inl ⟨rfl, rfl, rfl, rfl, rfl, rfl, rfl, rfl, rfl⟩

/-- Everything an input can do. -/
theorem handleInput_cases {i : Input} {s t : State} (h : handleInput i s = .next t) :
    Ends s t ∨ (i = .instruction ∧ Runs s t) ∨ Special s t i := by
  cases i with
  | instruction => exact (State.runInstruction_cases h).imp_right fun h => Or.inl ⟨rfl, h⟩
  | env e =>
    cases h
    rcases changeEnv_cases s e with h | h
    · exact Or.inl (.quiet h)
    · exact Or.inr (Or.inr h)
  | program start words => cases h; exact Or.inl (.quiet ⟨rfl, rfl, rfl, rfl, rfl, rfl, rfl, rfl, rfl⟩)
  | exception x => exact Or.inl (handleException_ends h)
  | unpredictable x p e => exact Or.inl (.of_unlessIllegal h handleUnpredictable_ends)
  | arrives k => exact Or.inl (handleArrival_ends h)
  | exceptionReturn =>
    rcases State.unlessIllegal_next h with rfl | h
    · exact Or.inl s.takeIllegalState_ends
    · unfold handleReturn at h
      split at h
      · rename_i hc
        cases h
        simp only [Bool.and_eq_true, Bool.not_eq_true'] at hc
        exact Or.inr (Or.inr (.exceptionReturn hc.2 rfl))
      · cases h
  | contextSync => cases h; exact Or.inl (.quiet ⟨rfl, rfl, rfl, rfl, rfl, rfl, rfl, rfl, rfl⟩)
  | extRead a =>
    simp only [handleInput, handleExtRead] at h
    split at h <;> cases h
    exact Or.inl (.quiet (.extRead s _))
  | extWrite a v =>
    simp only [handleInput, handleExtWrite] at h
    split at h <;> cases h
    exact Or.inl (.quiet (.extWrite s _ v))
  | extReadWCR n => cases h; exact Or.inl (.quiet (.extReadWcr s n))
  | extWriteWCR n v => cases h; exact Or.inl (.quiet (.extWriteWcr s n v))
  | coldReset => cases h; exact Or.inr (Or.inr (.coldReset rfl))
  | warmReset => cases h; exact Or.inr (Or.inr (.warmReset rfl))
  | access a => exact Or.inl (.of_unlessIllegal h handleAccess_ends)
  | breakpoint n a => exact Or.inl (handleBreakpoint_ends h)
  | vectorCatch => exact Or.inl (handleVectorCatch_ends h)
  | stepped isv ex => exact Or.inl (handleStepped_ends h)
  | dccAccess x => exact Or.inl (.of_unlessIllegal h handleDCC_ends)
  | branch =>
    refine Or.inl (.of_unlessIllegal h fun h => ?_)
    cases h
    exact .quiet (.ite ⟨rfl, rfl, rfl, rfl, rfl, rfl, rfl, rfl, rfl⟩)
  | pmuCapture => cases h; exact Or.inl (.quiet (.ite ⟨rfl, rfl, rfl, rfl, rfl, rfl, rfl, rfl, rfl⟩))
  | pmuOverflow => cases h; exact Or.inl (.quiet (.ite ⟨rfl, rfl, rfl, rfl, rfl, rfl, rfl, rfl, rfl⟩))
  | sample o =>
    simp only [handleInput, handleSample] at h
    split at h <;> cases h
    exact Or.inl (.quiet ⟨rfl, rfl, rfl, rfl, rfl, rfl, rfl, rfl, rfl⟩)
  | outside o =>
    simp only [handleInput] at h
    split at h
    · exact Or.inr (Or.inr (.of_handleOutside h))
    · rcases State.unlessIllegal_next h with rfl | h
      · exact Or.inl s.takeIllegalState_ends
      · exact Or.inr (Or.inr (.of_handleOutside h))

/-! ### A step -/

/-- What is due is an exception that the implementation has. -/
theorem State.ebep_of_due {s : State} (h : .pmu ∈ s.dueAsync) : s.cfg.synd.ebep = true := by
  have hp := (List.mem_filter.mp h).1
  unfold State.pendingAsync at hp
  cases he : s.cfg.synd.ebep with
  | true => rfl
  | false => simp [he] at hp; grind

theorem State.takeDue_ends {s : State} {k : AsyncException} {rest : List AsyncException} (h : s.dueAsync = k :: rest) :
    Ends s (s.takeDue k rest) := by
  have hm := h ▸ s.chooseFrom_mem k rest
  refine .of_quiet ((Quiet.skip s 1).trans (.releaseAsync _ _)) (State.takeAsync_ends fun hk => ?_)
  rw [hk] at hm
  simpa using State.ebep_of_due hm

/-- Everything a step can do: an entry that was final for the step before is made, an exception is taken or nothing of interest happens,
an instruction of the program runs, or the environment does one of the rest. -/
theorem step_cases {s t : State} (h : step s = .next t) :
    (∃ e, s.pendingEntry = some e ∧ t = s.settle.completeHigherEntry e) ∨ Ends s t ∨
    (s.instructionNext ∧ Runs { s.settle with inputs := s.inputs.tail } t) ∨
    ∃ i u, s.offers i u ∧ Special u t i := by
  unfold step State.cycle at h
  split at h
  · rename_i e he
    cases h
    exact Or.inl ⟨e, by rw [State.settle_frame] at he; exact he, rfl⟩
  · rename_i k rest _ hd
    cases h
    exact Or.inr (Or.inl (.of_quiet (.settle s) (State.takeDue_ends hd)))
  · rename_i i rest he hd hi
    have hp : s.pendingEntry = none := by rw [State.settle_frame] at he; exact he
    have hn : NothingDue s := by rw [State.settle_dueAsync] at hd; exact s.dueAsync_nil.mp hd
    have hs : s.inputs = i :: rest := by rw [State.settle_frame] at hi; exact hi
    have hq : Quiet s { s.settle with inputs := rest } :=
      (Quiet.settle s).trans ⟨rfl, rfl, rfl, rfl, rfl, rfl, rfl, rfl, rfl⟩
    rcases handleInput_cases h with hends | ⟨rfl, hruns⟩ | hspecial
    · exact Or.inr (Or.inl (.of_quiet hq hends))
    · exact Or.inr (Or.inr (Or.inl ⟨⟨hp, hn, Or.inr ⟨rest, hs⟩⟩, by rw [hs]; exact hruns⟩))
    · exact Or.inr (Or.inr (Or.inr ⟨i, _, ⟨hp, hn, rest, hs, rfl⟩, hspecial⟩))
  · rename_i he hd hi
    have hp : s.pendingEntry = none := by rw [State.settle_frame] at he; exact he
    have hn : NothingDue s := by rw [State.settle_dueAsync] at hd; exact s.dueAsync_nil.mp hd
    have hs : s.inputs = [] := by rw [State.settle_frame] at hi; exact hi
    rcases State.runInstruction_cases h with h | h
    · exact Or.inr (Or.inl (.of_quiet (.settle s) h))
    · have hq : ({ s.settle with inputs := s.inputs.tail } : State) = s.settle := by
        rw [hs]; generalize s.settle = q at hi; cases q; simp only at hi; subst hi; rfl
      exact Or.inr (Or.inr (Or.inl ⟨⟨hp, hn, Or.inl hs⟩, by rw [hq]; exact h⟩))

end Sys2Proof.Machine
end

