-- ==== Sys2Proof/Proofs/StepKeeps.lean ====
section
/-! PROOFS. Every step keeps the invariant, and no exception entry writes a reserved Exception class (20_memory R400; 15_debug_regs R355;
14_spsr_el1 R260, R273; 11_esr_el1 R81). -/

namespace Sys2Proof.Machine

open Sys2Proof

/-! ### The invariant -/

/-- A completed instruction that leaves memory canonical and nothing behind the windows keeps the invariant. -/
theorem State.Inv.of_completed {s t : State} (h : s.Inv) (hc : Completed s t) (hm : t.mem.wf = true)
    (hd : t.mdscr &&& (mdscrWindowMask s.cfg ||| mdscrRaz) = 0) : t.Inv where
  mem := hm
  mdscr := by rw [hc.frame]; exact hd
  entry := by rw [hc.frame]; exact h.entry
  aarch32 := by rw [hc.frame]; exact h.aarch32

theorem State.Inv.writeStorage_mdscr {s : State} (h : s.Inv) (v : Word) (r : Storage) :
    (s.writeStorage v r).advance.mdscr &&& (mdscrWindowMask s.cfg ||| mdscrRaz) = 0 := by
  cases r with
  | mdscr => exact mdscr_kept_and s.cfg v
  | dbgwcr k => simpa [State.writeStorage] using h.mdscr
  | _ => exact h.mdscr

theorem ExecEnd.inv {s t : State} {i : Instr} (he : ExecEnd s i t) (h : s.Inv) : t.Inv := by
  cases he with
  | undefined ht =>
    rcases ht.cases with ht | ⟨el, hel, ht⟩
    · exact h.of_entry ht
    · exact h.of_higher ht hel
  | higher el y hel ht => exact h.of_higher ht hel
  | exlock _ ht => exact h.of_entry ht
  | halt ht => exact ht ▸ (Quiet.halt s).inv h
  | read v _ ht => rw [ht.frame]; exact h.of_same rfl rfl rfl (Or.inr rfl) (Or.inr ⟨rfl, rfl, rfl⟩)
  | write r _ _ ht =>
    subst ht
    refine h.of_completed (s.writeStorage_completed _ r) ?_ (h.writeStorage_mdscr _ r)
    rw [State.advance_mem, (s.writeStorage_x_mem _ r).2]
    exact h.mem
  | writePair p n w k r _ _ _ ht =>
    subst ht
    refine h.of_completed (withPair_completed s w k r p) ?_ ?_
    · rw [State.advance_mem, (withPair_x_mem s w k r p).2]; exact h.mem
    · cases p <;> exact h.mdscr
  | writeCell off _ _ ht =>
    exact ht ▸ h.of_completed (s.nvMemWrite_completed off _) (Memory.wf_write8 s.mem _ _ _ h.mem) h.mdscr

theorem ExecEnd.cfg {s t : State} {i : Instr} (he : ExecEnd s i t) : t.cfg = s.cfg := by
  cases he with
  | undefined ht => rcases ht.cases with ht | ⟨el, _, ht⟩ <;> rw [ht.frame]
  | higher el y _ ht => rw [ht.frame]
  | exlock _ ht => rw [ht.frame]
  | halt ht => exact ht ▸ rfl
  | read v _ ht => rw [ht.frame]
  | write r _ _ ht => rw [ht, (s.writeStorage_completed _ r).frame]
  | writePair p n w k r _ _ _ ht => rw [ht, (withPair_completed s w k r p).frame]
  | writeCell off _ _ ht => rw [ht]; rfl

theorem Runs.inv {s t : State} (hr : Runs s t) (h : s.Inv) : t.Inv := by
  obtain ⟨-, -, w, i, u, -, -, he, rfl⟩ := hr
  exact (Quiet.afterInstruction s u).inv ((execEnd_of_exec he).inv h)

theorem Runs.cfg {s t : State} (hr : Runs s t) : t.cfg = s.cfg := by
  obtain ⟨-, -, w, i, u, -, -, he, rfl⟩ := hr
  exact (Quiet.afterInstruction s u).cfg.trans (execEnd_of_exec he).cfg

theorem State.Inv.exceptionReturn {s : State} (h : s.Inv) (hn : s.pstate.nRW = false) : s.exceptionReturnFromEL1.Inv := by
  rw [State.exceptionReturnFromEL1_frame]
  exact ⟨h.mem, h.mdscr, h.entry, returnPState_aarch32 s.cfg s.env.step s.returnSource s.pstate hn⟩

theorem State.Inv.warmReset {s : State} (h : s.Inv) : s.warmReset.Inv where
  mem := by rw [State.warmReset_mem]; exact h.mem
  mdscr := by rw [State.warmReset_mdscr, State.warmReset_cfg]; exact mdscr_own_and _ _
  entry := by rw [State.warmReset_pendingEntry]; intro e he; cases he
  aarch32 hn := by cases hn

theorem State.Inv.coldReset {s : State} (h : s.Inv) : s.coldReset.Inv where
  mem := by rw [State.coldReset_mem]; exact h.mem
  mdscr := by rw [State.coldReset_mdscr, State.coldReset_cfg]; exact mdscr_own_and _ _
  entry := by rw [State.coldReset_pendingEntry]; intro e he; cases he
  aarch32 hn := by cases hn

theorem PState.aarch32_of_stateOk {c : Config} {p : PState} (h : p.stateOk c = true) (hn : p.nRW = true) :
    c.haveAArch32 = true ∧ p.EL = .el0 ∧ p.M = 0 := by
  simpa [PState.stateOk, hn, and_assoc] using h

theorem State.Inv.outsideStep {s : State} {o : OutsideStep} (h : s.Inv) (ho : o.pstate.stateOk s.cfg = true) :
    (s.outsideStep o).Inv := by
  rw [State.outsideStep_frame]
  exact ⟨Memory.wf_foldl (fun e : Word × Byte => e.1) (fun e => e.2) o.mem s.mem h.mem, h.mdscr, h.entry,
    PState.aarch32_of_stateOk ho⟩

theorem Special.inv {s t : State} {i : Input} (hi : Special s t i) (h : s.Inv) : t.Inv := by
  cases hi with
  | exceptionReturn hn ht => exact ht ▸ h.exceptionReturn hn
  | warmReset ht => exact ht ▸ h.warmReset
  | coldReset ht => exact ht ▸ h.coldReset
  | powerUp e _ _ ht => exact ht ▸ State.Inv.coldReset (s := { s with env := e }) ⟨h.mem, h.mdscr, h.entry, h.aarch32⟩
  | outside o ho ht => exact ht ▸ h.outsideStep ho

theorem Special.cfg {s t : State} {i : Input} (hi : Special s t i) : t.cfg = s.cfg := by
  cases hi with
  | exceptionReturn _ ht => rw [ht, State.exceptionReturnFromEL1_frame]
  | warmReset ht => rw [ht, State.warmReset_cfg]
  | coldReset ht => rw [ht, State.coldReset_cfg]
  | powerUp e _ _ ht => rw [ht, State.coldReset_cfg]
  | outside o _ ht => rw [ht, State.outsideStep_frame]

theorem State.Inv.completeHigherEntry {s : State} (h : s.Inv) (e : HigherEntry) : (s.completeHigherEntry e).Inv :=
  h.of_same rfl rfl rfl (Or.inl rfl) (Or.inl rfl)

theorem Quiet.of_offers {s u : State} {i : Input} (h : s.offers i u) : Quiet s u := by
  rw [State.offers_frame h]; exact ⟨rfl, rfl, rfl, rfl, rfl, rfl, rfl, rfl, rfl⟩

/-- The state an instruction runs in differs by what came first only. -/
theorem Quiet.next_instruction (s : State) : Quiet s { s.settle with inputs := s.inputs.tail } :=
  (Quiet.settle s).trans ⟨rfl, rfl, rfl, rfl, rfl, rfl, rfl, rfl, rfl⟩

/-- Settles O59: whatever `step_cases` leaves a step to do keeps the invariant and the parameters. -/
theorem invStep : Obligations.InvStep := by
  intro s t h hstep
  rcases step_cases hstep with ⟨e, -, rfl⟩ | hends | ⟨-, hruns⟩ | ⟨i, u, hoffers, hspecial⟩
  · exact ⟨((Quiet.settle s).inv h).completeHigherEntry e, (Quiet.settle s).cfg⟩
  · exact ⟨hends.inv h, hends.cfg⟩
  · exact ⟨hruns.inv ((Quiet.next_instruction s).inv h), hruns.cfg.trans (Quiet.next_instruction s).cfg⟩
  · exact ⟨hspecial.inv ((Quiet.of_offers hoffers).inv h), hspecial.cfg.trans (Quiet.of_offers hoffers).cfg⟩

/-- Settles O58: reset's memory is empty, its registers are 0 and it is in AArch64 state. -/
theorem invReset : Obligations.InvReset where
  mem := reset_mem_wf
  mdscr := BitVec.zero_and
  entry := by intro e he; cases he
  aarch32 := by intro hn; cases hn

/-! ### The Exception class of ESR_EL1 -/

/-- What an instruction leaves in ESR_EL1: what was there, an allocated class, or by an MSR of an ESR name that completes the value of
x[t] or, at EL3, the one a pending record says was written. -/
theorem ExecEnd.esr {s t : State} {i : Instr} (he : ExecEnd s i t) :
    t.esrEL1 = s.esrEL1 ∨ ecAllocated s.cfg (esrEC t.esrEL1) = true ∨
      (Completed s t ∧ (i = .msrEsrEl1 (transferOf i) ∨ i = .msrEsrEl12 (transferOf i) ∨ i = .msrEsrEl2 (transferOf i)) ∧
        (t.esrEL1 = s.readX (transferOf i) ∨ (s.pstate.EL = .el3 ∧ ∃ r, s.esrPair = some r ∧ t.esrEL1 = r.written))) := by
  cases he with
  | undefined ht =>
    rcases ht.cases with ht | ⟨el, _, ht⟩
    · exact Or.inr (Or.inl (by rw [(ht.esr _ rfl).1]; exact ecAllocated_always s.cfg (by decide)))
    · exact Or.inl (by rw [ht.frame])
  | higher el y _ ht => exact Or.inl (by rw [ht.frame])
  | exlock hg ht => exact Or.inr (Or.inl (by rw [(ht.esr _ rfl).1]; exact hg))
  | halt ht => exact Or.inl (by rw [ht]; rfl)
  | read v _ ht => exact Or.inl (by rw [ht.frame])
  | write r hr ha ht =>
    subst ht
    cases r with
    | esrEL1 => exact Or.inr (Or.inr ⟨s.writeStorage_completed _ _, esr_name_of_accessOf hr (Or.inl ha), Or.inl rfl⟩)
    | mdscr | dbgwcr k => exact Or.inl (by simp [State.writeStorage])
    | _ => exact Or.inl rfl
  | writePair p n w k r hr ha hw ht =>
    subst ht
    cases p with
    | esr =>
      refine Or.inr (Or.inr ⟨withPair_completed s w k r .esr, esr_name_of_accessOf hr (Or.inr ⟨n, ha⟩), ?_⟩)
      rcases hw with rfl | ⟨q, hq, rfl⟩
      · exact Or.inl rfl
      · exact Or.inr ⟨(accessOf_answers s i).2 _ _ ha, q, hq, rfl⟩
    | spsr | brbcr => exact Or.inl rfl
  | writeCell off _ _ ht => exact Or.inl (by rw [ht]; rfl)

theorem esrPair_of_settle {s : State} {l : List Input} {r : PairRecord} (h : ({ s.settle with inputs := l } : State).esrPair = some r)
    (hl : ({ s.settle with inputs := l } : State).pstate.EL = .el3) : s.pstate.EL = .el3 ∧ s.esrPair = some r := by
  have hel : s.pstate.EL = .el3 := by rw [State.settle_frame] at hl; exact hl
  have hs : s.settle = s := if_pos hel
  rw [hs] at h
  exact ⟨hel, h⟩

/-- Settles O45: exceptions write allocated classes, and of what remains only an MSR of an ESR name, a return and the resets write
ESR_EL1. -/
theorem noReservedClass : Obligations.NoReservedClass := by
  refine ⟨fun s t h => ?_, fun c e p x hx => ExcCause.ecAllocated_of_check hx p.M, ecAllocated_reserved⟩
  rcases step_cases h with ⟨e, -, rfl⟩ | hends | ⟨hn, hil, hrw, w, i, u, hf, hd, he, rfl⟩ | ⟨i, u, hoffers, hspecial⟩
  · exact Or.inl (Quiet.settle s).esr
  · exact hends.esr.imp_right fun h => Or.inr (Or.inl h)
  · have hq := Quiet.next_instruction s
    have hau := (Quiet.afterInstruction { s.settle with inputs := s.inputs.tail } u).esr
    rcases (execEnd_of_exec he).esr with hk | ha | ⟨hc, hi, hv⟩
    · exact Or.inl (hau.trans (hk.trans hq.esr))
    · exact Or.inr (Or.inr (Or.inl (by rw [hau, ← hq.cfg]; exact ha)))
    · refine Or.inr (Or.inr (Or.inr (Or.inl ⟨w, i, transferOf i, u, ⟨hn, ?_, ?_⟩, ?_, hd, hi, he, hc, hau, ?_⟩)))
      · rw [State.settle_frame] at hil; exact hil
      · rw [State.settle_frame] at hrw; exact hrw
      · rw [State.settle_frame] at hf; exact hf
      · rw [hau]
        rcases hv with hv | ⟨hel, r, hr, hv⟩
        · exact Or.inl (hv.trans (by rw [State.settle_frame]; rfl))
        · obtain ⟨hel, hr⟩ := esrPair_of_settle hr hel
          exact Or.inr ⟨hel, r, hr, hv⟩
  · cases hspecial with
    | exceptionReturn _ ht => exact Or.inr (Or.inl (by rw [ht, State.exceptionReturnFromEL1_frame]))
    | warmReset _ => exact Or.inr (Or.inr (Or.inr (Or.inr (Or.inl ⟨_, u, Or.inl rfl, hoffers⟩))))
    | coldReset _ => exact Or.inr (Or.inr (Or.inr (Or.inr (Or.inl ⟨_, u, Or.inr rfl, hoffers⟩))))
    | powerUp e hs he _ =>
      refine Or.inr (Or.inr (Or.inr (Or.inr (Or.inr ⟨e, u, hoffers, ?_, he⟩))))
      rw [State.offers_frame hoffers] at hs
      exact hs
    | outside o _ ht => exact Or.inl (by rw [ht, State.outsideStep_frame]; exact (Quiet.of_offers hoffers).esr)

end Sys2Proof.Machine
end

