-- ==== Sys2Proof/Proofs/Registers.lean ====
section
/-! PROOFS. The accesses that reach a register: what an MRS reads and what an MSR stores (40_sysreg_access_common R465, R466; 41_esr_access;
42_spsr_access; 43_debug_access; 44_profiling_access). -/

namespace Sys2Proof.Machine

open Sys2Proof

/-! ### From the answer of the chain to the statement -/

/-- An MRS of a register without UNKNOWN bits reads as the register. -/
theorem mrsReads_of_storage {s : State} {i : Instr} {r : Storage} {known : Prop} {h r0 r1 : Word} (hr : i.fields.read = true)
    (ha : accessOf s i = .storage r) (hk : known → s.reading r = { held := h, unknown := 0, res0 := r0, res1 := r1 }) :
    MrsReads s i (transferOf i) known h r0 r1 := by
  obtain ⟨t, he, hd⟩ := exec_mrs_storage hr ha
  refine ⟨_, t, he, hd, fun k => ?_⟩
  rw [hk k]
  exact Reading.value_readsAs _ _ rfl

theorem mrsGives_of_storage {s : State} {i : Instr} {r : Storage} {v : Word} (hr : i.fields.read = true)
    (ha : accessOf s i = .storage r) (hv : s.reading r = .plain v) : MrsGives s i (transferOf i) v := by
  obtain ⟨t, he, hd⟩ := exec_mrs_storage hr ha
  rw [hv, State.valueOf, Reading.plain_value] at hd
  exact ⟨t, he, hd⟩

/-- What a register of a pair reads as, in the words of the statements. -/
theorem pairReading_eq (c : Config) (p : RegPair) (h : Word) :
    pairReading c p h = { held := h, unknown := 0, res0 := pairRes0 c p h, res1 := pairRes1 c p h } := by
  cases p with
  | spsr =>
    simp only [pairRes0, pairRes1, pairReading, spsrReading]
    split <;> rfl
  | esr | brbcr => rfl

theorem State.reading_pairStorage {s : State} {p : RegPair} {h : Word} (hp : PairHolds s p h) :
    s.reading (pairStorage p) = pairReading s.cfg p h := by
  cases p with
  | esr | spsr => obtain ⟨hu, rfl⟩ := hp; simp [State.reading, pairStorage, hu]
  | brbcr => obtain rfl := hp; rfl

/-- An MRS that reaches the EL1 register of a pair reads it, unless it is UNKNOWN. -/
theorem mrsReads_of_pair {s : State} {i : Instr} {p : RegPair} (h : Word) (hr : i.fields.read = true)
    (ha : accessOf s i = .storage (pairStorage p)) :
    MrsReads s i (transferOf i) (PairHolds s p h) h (pairRes0 s.cfg p h) (pairRes1 s.cfg p h) :=
  mrsReads_of_storage hr ha fun hp => (State.reading_pairStorage hp).trans (pairReading_eq s.cfg p h)

/-- An MSR that reaches the EL1 register of a pair writes it. -/
theorem exec_msr_pair {s : State} {i : Instr} {p : RegPair} (hr : i.fields.read = false)
    (ha : accessOf s i = .storage (pairStorage p)) :
    exec i s = .next { s.withPair (s.readX (transferOf i)) p with pc := s.pc + 4 } := by
  rw [exec_msr_storage hr ha]
  cases p <;> rfl

/-! ### ESR_EL1 and SPSR_EL1 (R470, R471, R480, R481) -/

/-- Settles O8: past the traps and the redirection the chain reaches ESR_EL1. -/
theorem esrEl1Read : Obligations.EsrEl1Read := by
  intro s n h
  have ha : accessOf s (.mrsEsrEl1 n) = .storage .esrEL1 := by
    grind [accessOf, chainMrsEsrEl1, State.nvxIs, s.fgTrap_iff]
  exact mrsReads_of_storage rfl ha fun hu => by simp [State.reading, pairReading, hu]

/-- Settles O9: past the traps and the redirection the chain reaches ESR_EL1. -/
theorem esrEl1Write : Obligations.EsrEl1Write := by
  intro s n h
  have ha : accessOf s (.msrEsrEl1 n) = .storage .esrEL1 := by
    grind [accessOf, chainMsrEsrEl1, State.nvxIs, s.fgTrap_iff]
  exact exec_msr_storage rfl ha

/-- Settles O10: past the trap and the redirection the chain reaches SPSR_EL1, whose bit 4 selects the view. -/
theorem spsrEl1Read : Obligations.SpsrEl1Read := by
  intro s n h
  have ha : accessOf s (.mrsSpsrEl1 n) = .storage .spsrEL1 := by grind [accessOf, chainMrsSpsrEl1, State.nvxIs]
  refine mrsReads_of_storage rfl ha fun hu => (State.reading_pairStorage (p := .spsr) ⟨hu, rfl⟩).trans ?_
  simp only [pairReading, spsrReading]
  split <;> rfl

/-- Settles O11: with the lock free at EL1 the chain reaches SPSR_EL1. -/
theorem spsrEl1Write : Obligations.SpsrEl1Write := by
  intro s n h
  have ha : accessOf s (.msrSpsrEl1 n) = .storage .spsrEL1 := by
    grind [accessOf, chainMsrSpsrEl1, State.nvxIs, s.gcsLock_iff]
  exact exec_msr_storage rfl ha

/-! ### The _EL2 and _EL12 names, and host mode (R460, R472 to R475, R482 to R485, R510, R511) -/

theorem State.nv2_iff (s : State) : s.nv2 = true ↔ s.env.hyp.nvx.getLsbD 2 = true ∧ s.env.hyp.nvx.getLsbD 0 = true := by
  simp [State.nv2]

/-- Settles O12: NV2 with NV redirects the names to the EL1 registers, and at EL2 and EL3 they name the cells. -/
theorem el2NamesRead : Obligations.El2NamesRead := by
  intro s n
  refine ⟨fun hel h2 h0 => ⟨?_, fun hv => ?_⟩, fun hel => ⟨?_, ?_⟩⟩
  · exact mrsReads_of_pair (i := .mrsEsrEl2 n) (p := .esr) _ rfl (by
      simp only [accessOf, chainMrsEsrEl2, hel, s.nv2_iff.mpr ⟨h2, h0⟩]; rfl)
  · exact mrsReads_of_pair (i := .mrsSpsrEl2 n) (p := .spsr) _ rfl (by
      simp only [accessOf, chainMrsSpsrEl2, hel, hv, s.nv2_iff.mpr ⟨h2, h0⟩]; rfl)
  · exact mrsGives_of_storage (i := .mrsEsrEl2 n) (r := .esrEL2) rfl (by
      rcases hel with hel | hel <;> simp only [accessOf, chainMrsEsrEl2, hel]) rfl
  · exact mrsGives_of_storage (i := .mrsSpsrEl2 n) (r := .spsrEL2) rfl (by
      rcases hel with hel | hel <;> simp only [accessOf, chainMrsSpsrEl2, hel]) rfl

/-- Settles O13: as O12, where the lock is tested for SPSR_EL2 at EL1 and EL2. -/
theorem el2NamesWrite : Obligations.El2NamesWrite := by
  intro s n
  refine ⟨fun hel h2 h0 => ⟨?_, fun hv hl => ?_⟩, fun hel => ?_, fun hel => ?_⟩
  · have ha : accessOf s (.msrEsrEl2 n) = .storage .esrEL1 := by grind [accessOf, chainMsrEsrEl2, s.nv2_iff]
    exact exec_msr_storage rfl ha
  · have ha : accessOf s (.msrSpsrEl2 n) = .storage .spsrEL1 := by
      grind [accessOf, chainMsrSpsrEl2, s.nv2_iff, s.gcsLock_iff]
    exact exec_msr_storage rfl ha
  · have ha : accessOf s (.msrEsrEl2 n) = .storage .esrEL2 := by grind [accessOf, chainMsrEsrEl2]
    exact exec_msr_storage rfl ha
  · have ha : accessOf s (.msrSpsrEl2 n) = .storage .spsrEL2 := by grind [accessOf, chainMsrSpsrEl2, s.gcsLock_iff]
    exact exec_msr_storage rfl ha

/-- At EL2 in host mode the _EL12 names reach the EL1 registers of the pairs. -/
theorem accessOf_el12 {s : State} (p : RegPair) (n : Nat) (hel : s.pstate.EL = .el2) (hh : s.env.hyp.elIsInHost = true)
    (hb : p = .brbcr → BranchAccess s) :
    accessOf s (pairMrs p .el12Name n) = .storage (pairStorage p) ∧ accessOf s (pairMsr p .el12Name n) = .storage (pairStorage p) := by
  cases p with
  | esr => simp [accessOf, pairMrs, pairMsr, pairStorage, chainMrsEsrEl12, chainMsrEsrEl12, hel, hh]
  | spsr => simp [accessOf, pairMrs, pairMsr, pairStorage, chainMrsSpsrEl12, chainMsrSpsrEl12, hel, hh]
  | brbcr =>
    obtain ⟨hf, ht⟩ := hb rfl
    change chainMrsBrbcrEl12 s = .storage .brbcrEL1 ∧ chainMsrBrbcrEl12 s = .storage .brbcrEL1
    grind [chainMrsBrbcrEl12, chainMsrBrbcrEl12, s.el3Test_sbrbe_iff, s.sddPriority_iff]

theorem pairMrs_read (p : RegPair) (nm : PairName) (n : Nat) :
    (pairMrs p nm n).fields.read = true ∧ transferOf (pairMrs p nm n) = n := by
  cases p <;> cases nm <;> exact ⟨rfl, rfl⟩

theorem pairMsr_read (p : RegPair) (nm : PairName) (n : Nat) :
    (pairMsr p nm n).fields.read = false ∧ transferOf (pairMsr p nm n) = n := by
  cases p <;> cases nm <;> exact ⟨rfl, rfl⟩

/-- Settles O14. -/
theorem el12NamesRead : Obligations.El12NamesRead := by
  intro s p n h hel hh hb
  obtain ⟨hr, ht⟩ := pairMrs_read p .el12Name n
  have := mrsReads_of_pair h hr (accessOf_el12 p n hel hh hb).1
  rwa [ht] at this

/-- Settles O15. -/
theorem el12NamesWrite : Obligations.El12NamesWrite := by
  intro s p n hel hh hb
  obtain ⟨hr, ht⟩ := pairMsr_read p .el12Name n
  have := exec_msr_pair hr (accessOf_el12 p n hel hh hb).2
  rwa [ht] at this

/-- Settles O16: in host mode the EL1 names reach the cells of EL2, SPSR_EL1 when the lock is free. -/
theorem hostModeNames : Obligations.HostModeNames := by
  intro s n hel hh
  refine ⟨?_, ?_, fun hb => ?_, ?_, fun hl => ?_, fun hb => ?_⟩
  · exact mrsGives_of_storage (i := .mrsEsrEl1 n) (r := .esrEL2) rfl (by simp [accessOf, chainMrsEsrEl1, hel, hh]) rfl
  · exact mrsGives_of_storage (i := .mrsSpsrEl1 n) (r := .spsrEL2) rfl (by simp [accessOf, chainMrsSpsrEl1, hel, hh]) rfl
  · have ha : accessOf s (.mrsBrbcrEl1 n) = .storage .brbcrEL2 := by
      obtain ⟨hf, ht⟩ := hb
      grind [accessOf, chainMrsBrbcrEl1, s.el3Test_sbrbe_iff, s.sddPriority_iff]
    exact mrsGives_of_storage rfl ha rfl
  · have ha : accessOf s (.msrEsrEl1 n) = .storage .esrEL2 := by simp [accessOf, chainMsrEsrEl1, hel, hh]
    exact exec_msr_storage rfl ha
  · have ha : accessOf s (.msrSpsrEl1 n) = .storage .spsrEL2 := by
      grind [accessOf, chainMsrSpsrEl1, s.gcsLock_iff]
    exact exec_msr_storage rfl ha
  · have ha : accessOf s (.msrBrbcrEl1 n) = .storage .brbcrEL2 := by
      obtain ⟨hf, ht⟩ := hb
      grind [accessOf, chainMsrBrbcrEl1, s.el3Test_sbrbe_iff, s.sddPriority_iff]
    exact exec_msr_storage rfl ha

/-! ### The profiling registers (R505, R506, R508, R509) -/

/-- Settles O21: past their tests the chains reach PMSFCR_EL1 and BRBCR_EL1. -/
theorem profilingRead : Obligations.ProfilingRead := by
  intro s n
  refine ⟨fun h => ?_, fun hb h => ?_⟩
  · have ha : accessOf s (.mrsPmsfcr n) = .storage .pmsfcr := by
      obtain ⟨hf, h⟩ := h
      grind [accessOf, chainMrsPmsfcr, s.fgTrap_iff, s.el3Test_nspbMismatch_iff, s.sddPriority_iff]
    exact mrsReads_of_storage rfl ha fun _ => rfl
  · have ha : accessOf s (.mrsBrbcrEl1 n) = .storage .brbcrEL1 := by
      obtain ⟨hf, ht⟩ := hb
      grind [accessOf, chainMrsBrbcrEl1, State.nvxIs, s.fgTrap_iff, s.el3Test_sbrbe_iff, s.sddPriority_iff]
    exact mrsReads_of_storage rfl ha fun _ => rfl

/-- Settles O22: past their tests the chains reach PMSFCR_EL1 and BRBCR_EL1. -/
theorem profilingWrite : Obligations.ProfilingWrite := by
  intro s n
  refine ⟨fun h => ?_, fun hb h => ?_⟩
  · have ha : accessOf s (.msrPmsfcr n) = .storage .pmsfcr := by
      obtain ⟨hf, h⟩ := h
      grind [accessOf, chainMsrPmsfcr, s.fgTrap_iff, s.el3Test_nspbMismatch_iff, s.sddPriority_iff]
    exact exec_msr_storage rfl ha
  · have ha : accessOf s (.msrBrbcrEl1 n) = .storage .brbcrEL1 := by
      obtain ⟨hf, ht⟩ := hb
      grind [accessOf, chainMsrBrbcrEl1, State.nvxIs, s.fgTrap_iff, s.el3Test_sbrbe_iff, s.sddPriority_iff]
    exact exec_msr_storage rfl ha

end Sys2Proof.Machine
end

