-- ==== Sys2Proof/Proofs/DebugRegisters.lean ====
section
/-! PROOFS. MRS and MSR of DBGWCR<m>_EL1 and MDSCR_EL1 (43_debug_access R490 to R497; 15_debug_regs R321 to R326, R339 to R355). -/

namespace Sys2Proof.Machine

open Sys2Proof

/-! ### DBGWCR<m>_EL1 -/

/-- Past every test the chains reach the watchpoint of the banked index. -/
theorem accessOf_mrsDbgwcr {s : State} {m : Nat} (n : Nat) (h : WatchpointAccess s m s.env.fgt.rdDBGWCR) :
    accessOf s (.mrsDbgwcr m n) = .storage (.dbgwcr (watchpointOf s m)) := by
  obtain ⟨hb, hh, h⟩ := h
  have hidx := s.watchpointIndex_eq m
  grind [accessOf, chainMrsDbgwcr, s.watchpointAbsent_iff, s.haltCheck_iff, s.fgTrap_iff, s.debugTrapEL2_iff, s.el3Test_mdcr3TDA_iff,
    s.sddPriority_iff]

theorem accessOf_msrDbgwcr {s : State} {m : Nat} (n : Nat) (h : WatchpointAccess s m s.env.fgt.wrDBGWCR) :
    accessOf s (.msrDbgwcr m n) = .storage (.dbgwcr (watchpointOf s m)) := by
  obtain ⟨hb, hh, h⟩ := h
  have hidx := s.watchpointIndex_eq m
  grind [accessOf, chainMsrDbgwcr, s.watchpointAbsent_iff, s.haltCheck_iff, s.fgTrap_iff, s.debugTrapEL2_iff, s.el3Test_mdcr3TDA_iff,
    s.sddPriority_iff]

/-- What a watchpoint reads as, whatever the free value. -/
theorem wcrReads_value (s : State) (k : Nat) (d : Word) : WcrReads s k ((s.reading (.dbgwcr k)).value d) := by
  intro b hlink hres
  refine Reading.value_getLsbD _ d b ?_ hres (Or.inl (by simp [State.reading, wcrReading]))
  simp only [State.reading, wcrReading]
  split
  · simp
  · rename_i hwt
    exact hlink.resolve_left hwt

/-- Settles O17: the chain reaches the watchpoint of the banked index, and the transfer is what it reads as. -/
theorem watchpointControlRead : Obligations.WatchpointControlRead := by
  intro s m n h
  obtain ⟨t, he, hd⟩ := exec_mrs_storage rfl (accessOf_mrsDbgwcr n h)
  exact ⟨_, t, he, hd, wcrReads_value s _ _⟩

/-- A write of a watchpoint is seen at its index and at no other. -/
theorem State.wcr_writeWcr (s : State) (i : Nat) (v : Word) (hi : i < 64) (k : Nat) :
    (s.writeWcr i v).wcr k = if k = i then v else s.wcr k := by
  unfold State.wcr State.writeWcr
  rw [dif_pos hi]
  by_cases hk : k < 64
  · simp only [dif_pos hk, Vector.getElem_set, eq_comm (a := i)]
  · rw [dif_neg hk, dif_neg hk, if_neg (by omega)]

theorem State.writeWcr_frame (s : State) (i : Nat) (v : Word) : s.writeWcr i v = { s with dbgwcr := (s.writeWcr i v).dbgwcr } := by
  unfold State.writeWcr; split <;> rfl

/-- Settles O18: the chain reaches the watchpoint of the banked index, and the write is the register's. -/
theorem watchpointControlWrite : Obligations.WatchpointControlWrite := by
  intro s m n h64 h
  refine ⟨_, exec_msr_storage rfl (accessOf_msrDbgwcr n h), ?_, fun k => s.wcr_writeWcr _ _ (Nat.lt_of_lt_of_le h.1 h64) k⟩
  change (s.writeWcr (watchpointOf s m) _).advance = _
  rw [State.writeWcr_frame]
  rfl

/-! ### MDSCR_EL1 -/

theorem accessOf_mrsMdscr {s : State} (n : Nat) (h : MdscrAccess s s.env.fgt.rdMDSCR) : accessOf s (.mrsMdscr n) = .storage .mdscr := by
  unfold MdscrAccess at h
  grind [accessOf, chainMrsMdscr, State.nv2, s.fgTrap_iff, s.debugTrapEL2_iff, s.el3Test_mdcr3TDA_iff, s.sddPriority_iff]

theorem accessOf_msrMdscr {s : State} (n : Nat) (h : MdscrAccess s s.env.fgt.wrMDSCR) : accessOf s (.msrMdscr n) = .storage .mdscr := by
  unfold MdscrAccess at h
  grind [accessOf, chainMsrMdscr, State.nv2, s.fgTrap_iff, s.debugTrapEL2_iff, s.el3Test_mdcr3TDA_iff, s.sddPriority_iff]

/-- A bit that is storage and no RES0 position reads as stored. -/
theorem mdscrReading_own (c : Config) (oslk : Bool) (e : EDSCR) (v d : Word) {k : Nat} (hk : k ∈ [15, 13, 12, 0]) :
    ((mdscrReading c oslk e v).value d).getLsbD k = v.getLsbD k := by
  obtain ⟨hkept, hmask, hres⟩ := mdscr_own c k hk
  have hw : (mdscrWindows c e).getLsbD k = false := by
    simp only [List.mem_cons, List.not_mem_nil, or_false] at hk
    rcases hk with rfl | rfl | rfl | rfl
    · exact mdscrWindows_bit15 c e
    · exact mdscrWindows_bit13 c e
    · exact mdscrWindows_bit12 c e
    · exact mdscrWindows_bit0 c e
  rw [Reading.value_getLsbD _ d k (by cases oslk <;> simp [mdscrReading, hmask]) (Or.inl hres)
    (Or.inl (by simp [mdscrReading]))]
  cases oslk <;> simp [mdscrReading, hkept, hw]

/-- A window, which is no storage, reads as EDSCR holds it while the OS Lock is set. -/
theorem mdscrReading_window (c : Config) (e : EDSCR) (v d : Word) {k : Nat} (hk : (mdscrKept c).getLsbD k = false) :
    ((mdscrReading c true e v).value d).getLsbD k = (mdscrWindows c e).getLsbD k := by
  rw [Reading.value_getLsbD _ d k (by simp [mdscrReading]) (Or.inl (by simp [mdscrReading, hk])) (Or.inl (by simp [mdscrReading]))]
  simp [mdscrReading, hk]

/-- Bits [18:16] read 0. -/
theorem mdscrReading_raz (c : Config) (oslk : Bool) (e : EDSCR) (v d : Word) :
    ((mdscrReading c oslk e v).value d).extractLsb' 16 3 = 0 := by
  refine BitVec.eq_of_getLsbD_eq fun i hi => ?_
  have hk : 16 + i ∈ [16, 17, 18] := by
    simp only [List.mem_cons, List.not_mem_nil, or_false]; omega
  obtain ⟨hkept, hmask⟩ := mdscr_raz c _ hk
  have hw : (mdscrWindows c e).getLsbD (16 + i) = false := by
    simp only [List.mem_cons, List.not_mem_nil, or_false] at hk
    rcases hk with h | h | h <;> rw [h]
    · exact mdscrWindows_bit16 c e
    · exact mdscrWindows_bit17 c e
    · exact mdscrWindows_bit18 c e
  rw [BitVec.getLsbD_extractLsb', Reading.value_getLsbD _ d _ (by cases oslk <;> simp [mdscrReading, hmask])
    (Or.inl (by simp [mdscrReading, hkept])) (Or.inl (by simp [mdscrReading]))]
  cases oslk <;> simp [mdscrReading, hkept, hw]

/-- Settles O19: the own bits are storage, bits [18:16] are none, and under the OS Lock the windows show EDSCR. -/
theorem mdscrRead : Obligations.MdscrRead := by
  intro s n h
  obtain ⟨t, he, hd⟩ := exec_mrs_storage rfl (accessOf_mrsMdscr n h)
  have hown : ∀ k ∈ [15, 13, 12, 0], ((s.reading .mdscr).value s.freeValue).getLsbD k = s.mdscr.getLsbD k :=
    fun k hk => mdscrReading_own s.cfg _ s.env.edscr s.mdscr _ hk
  refine ⟨_, t, he, hd, hown 15 (by decide), hown 13 (by decide), hown 12 (by decide), hown 0 (by decide),
    mdscrReading_raz s.cfg _ s.env.edscr s.mdscr _, fun hlock => ?_⟩
  have hwin : ∀ k, (mdscrKept s.cfg).getLsbD k = false →
      ((s.reading .mdscr).value s.freeValue).getLsbD k = (mdscrWindows s.cfg s.env.edscr).getLsbD k := fun k hk => by
    rw [State.reading, hlock]; exact mdscrReading_window s.cfg s.env.edscr s.mdscr _ hk
  have hall := mdscr_window s.cfg
  refine ⟨(hwin 30 (hall _ (by decide))).trans (mdscrWindows_bit30 _ _), (hwin 29 (hall _ (by decide))).trans (mdscrWindows_bit29 _ _),
    (hwin 27 (hall _ (by decide))).trans (mdscrWindows_bit27 _ _), (hwin 26 (hall _ (by decide))).trans (mdscrWindows_bit26 _ _), ?_,
    (hwin 21 (hall _ (by decide))).trans (mdscrWindows_bit21 _ _), (hwin 14 (hall _ (by decide))).trans (mdscrWindows_bit14 _ _),
    (hwin 6 (hall _ (by decide))).trans (mdscrWindows_bit6 _ _), fun ht => ?_, fun hp => ?_⟩
  · refine BitVec.eq_of_getLsbD_eq fun i hi => ?_
    rw [BitVec.getLsbD_extractLsb', State.valueOf]
    obtain rfl | rfl : i = 0 ∨ i = 1 := by omega
    · exact (hwin 22 (hall _ (by decide))).trans (mdscrWindows_bit22 _ _)
    · exact (hwin 23 (hall _ (by decide))).trans (mdscrWindows_bit23 _ _)
  · exact (hwin 31 (mdscr_window31 _ ht)).trans (by rw [mdscrWindows_bit31, ht, Bool.true_and])
  · exact (hwin 19 (mdscr_window19 _ hp)).trans (by rw [mdscrWindows_bit19, hp, Bool.true_and])

/-- Settles O20: what is stored is what is no window and no RAZ/WI bit, and the windows are written under the OS Lock. -/
theorem mdscrWrite : Obligations.MdscrWrite := by
  intro s n h
  have hown : ∀ k ∈ [15, 13, 12, 0], (s.readX n &&& mdscrKept s.cfg).getLsbD k = (s.readX n).getLsbD k := fun k hk => by
    rw [BitVec.getLsbD_and, (mdscr_own s.cfg k hk).1, Bool.and_true]
  refine ⟨_, exec_msr_storage rfl (accessOf_msrMdscr n h), rfl, hown 15 (by decide), hown 13 (by decide), hown 12 (by decide),
    hown 0 (by decide), ?_, fun hlock => ?_, fun hlock => ?_⟩
  · refine BitVec.eq_of_getLsbD_eq fun i hi => ?_
    have hk : 16 + i ∈ [16, 17, 18] := by
      simp only [List.mem_cons, List.not_mem_nil, or_false]; omega
    rw [BitVec.getLsbD_extractLsb']
    change (decide (i < 3) && (s.readX n &&& mdscrKept s.cfg).getLsbD (16 + i)) = _
    rw [BitVec.getLsbD_and, (mdscr_raz s.cfg _ hk).1]
    simp
  · exact if_neg (by rw [hlock]; decide)
  · exact if_pos hlock

end Sys2Proof.Machine
end

