-- ==== Sys2Proof/Proofs/Pairs.lean ====
section
/-! PROOFS. The name pairs at EL3 (70_reset R590; 41_esr_access R476, 42_spsr_access R486, 44_profiling_access R512). -/

namespace Sys2Proof.Machine

open Sys2Proof

/-- At EL3 a name of a pair reaches its EL1 register; the _EL12 name needs host mode. -/
theorem accessOf_el3 {s : State} {p : RegPair} {nm : PairName} (n : Nat) (hel : s.pstate.EL = .el3)
    (hb : p = .brbcr → s.cfg.prof.brbe = true) (hh : nm = .el12Name → s.env.hyp.elIsInHost = true) :
    accessOf s (pairMrs p nm n) = .paired p nm ∧ accessOf s (pairMsr p nm n) = .paired p nm := by
  cases p with
  | esr =>
    cases nm with
    | el1Name => simp [accessOf, pairMrs, pairMsr, chainMrsEsrEl1, chainMsrEsrEl1, hel]
    | el12Name => simp [accessOf, pairMrs, pairMsr, chainMrsEsrEl12, chainMsrEsrEl12, hel, hh]
  | spsr =>
    cases nm with
    | el1Name => simp [accessOf, pairMrs, pairMsr, chainMrsSpsrEl1, chainMsrSpsrEl1, hel]
    | el12Name => simp [accessOf, pairMrs, pairMsr, chainMrsSpsrEl12, chainMsrSpsrEl12, hel, hh]
  | brbcr =>
    cases nm with
    | el1Name => simp [accessOf, pairMrs, pairMsr, chainMrsBrbcrEl1, chainMsrBrbcrEl1, hel, hb]
    | el12Name => simp [accessOf, pairMrs, pairMsr, chainMrsBrbcrEl12, chainMsrBrbcrEl12, hel, hb, hh]

theorem accessOf_of_pairAtEL3 {s : State} {p : RegPair} (nm : PairName) (n : Nat) (h : PairAtEL3 s p) :
    accessOf s (pairMrs p nm n) = .paired p nm ∧ accessOf s (pairMsr p nm n) = .paired p nm :=
  accessOf_el3 n h.1 h.2.2 fun _ => h.2.1

/-! ### Hazards -/

/-- The other name has left no record: there is no hazard. -/
theorem State.hazard_none {s : State} {p : RegPair} {nm : PairName} (h : ∀ r, s.pairRecord p = some r → r.name = nm) :
    s.hazard p nm = none := by
  unfold State.hazard
  cases hr : s.pairRecord p with
  | none => rfl
  | some r => simp [Option.filter, h r hr]

/-- A record of the other name is a hazard. -/
theorem State.hazard_some {s : State} {p : RegPair} {nm : PairName} {r : PairRecord} (hr : s.pairRecord p = some r) (h : r.name ≠ nm) :
    s.hazard p nm = some r := by
  simp [State.hazard, hr, Option.filter, h]

/-- An MRS through a name of a pair, where no free choice comes before the transfer or its own draw is counted. -/
theorem exec_pairMrs {s : State} {p : RegPair} {nm : PairName} {n : Nat} (ha : accessOf s (pairMrs p nm n) = .paired p nm) :
    ∃ t d, exec (pairMrs p nm n) s = .next t ∧ MrsDone s t n ((s.pairedReading p nm).value d) := by
  obtain ⟨hr, ht⟩ := pairMrs_read p nm n
  have := exec_mrs_paired_done hr ha
  rwa [ht] at this

theorem exec_pairMsr {s : State} {p : RegPair} {nm : PairName} {n : Nat} (ha : accessOf s (pairMsr p nm n) = .paired p nm) :
    exec (pairMsr p nm n) s = .next (s.writePaired p nm (s.readX n)).advance := by
  obtain ⟨hr, ht⟩ := pairMsr_read p nm n
  rw [exec_msr_paired hr ha, ht]

/-- What a register of a pair reads as agrees with what it holds outside its reserved positions. -/
theorem pairReading_readsAs (c : Config) (p : RegPair) (h d : Word) :
    ReadsAs ((pairReading c p h).value d) h (pairRes0 c p h) (pairRes1 c p h) := by
  rw [pairReading_eq]
  exact Reading.value_readsAs _ d rfl

theorem State.reading_pair_readsAs {s : State} {p : RegPair} {h : Word} (hp : PairHolds s p h) (d : Word) :
    ReadsAs ((s.reading (pairStorage p)).value d) h (pairRes0 s.cfg p h) (pairRes1 s.cfg p h) := by
  rw [State.reading_pairStorage hp]
  exact pairReading_readsAs s.cfg p h d

/-! ### The statements -/

/-- Settles O23: without a hazard the paired reading is that of the register. -/
theorem pairRead : Obligations.PairRead := by
  intro s p nm n h hel hb hh hrec
  obtain ⟨t, d, he, hd⟩ := exec_pairMrs (accessOf_el3 n hel hb hh).1
  refine ⟨_, t, he, hd, fun hp => ?_⟩
  rw [State.pairedReading, State.hazard_none hrec]
  exact State.reading_pair_readsAs hp d

/-- Settles O24: with a hazard the paired reading is the old value's or the register's. -/
theorem pairHazardRead : Obligations.PairHazardRead := by
  intro s p nm n r h hat hr hne
  obtain ⟨t, d, he, hd⟩ := exec_pairMrs (accessOf_of_pairAtEL3 nm n hat).1
  refine ⟨_, t, he, hd, fun hp => ?_⟩
  simp only [State.pairedReading, State.hazard_some hr hne, State.choose]
  split
  · exact Or.inr (pairReading_readsAs s.cfg p r.old d)
  · exact Or.inl (State.reading_pair_readsAs hp d)

/-- A record keeps its place whatever the free values and pc. -/
theorem State.withPair_setPairRecord_advance (s : State) (k : Nat) (v : Word) (r : Option PairRecord) (p : RegPair) :
    (((s.skip k).withPair v p).setPairRecord r p).advance
      = { (s.withPair v p).setPairRecord r p with pc := s.pc + 4, draws := s.draws + k } := by
  cases p <;> rfl

/-- Settles O25: without a hazard the register holds the value written; the record is this write's in host mode, and outside it the one
that was there, if any. -/
theorem pairWrite : Obligations.PairWrite := by
  intro s p nm n hel hb hrec
  have hz := State.hazard_none hrec
  refine ⟨fun hh => ?_, fun hh hnm hnone => ?_, fun hh hnm r hr => ?_⟩
  · obtain ⟨k, hk⟩ := s.afterRead_eq_skip (s.reading (pairStorage p))
    refine ⟨{ name := nm, old := s.pairBefore p, written := s.readX n }, s.draws + k, ?_, rfl, rfl,
      fun h hp => State.reading_pair_readsAs hp _⟩
    rw [exec_pairMsr (accessOf_el3 n hel hb fun _ => hh).2]
    simp only [State.writePaired, hz, hh, if_true]
    rw [hk, pairStorage_write, State.withPair_setPairRecord_advance]
  · rw [exec_pairMsr (accessOf_el3 n hel hb (by rw [hnm]; intro h; cases h)).2]
    simp only [State.writePaired, hz, hh, pairStorage_write, hnone]
    cases p <;> exact congrArg Host.Outcome.next (by cases s; simp only [State.pairRecord] at hnone; subst hnone; rfl)
  · rw [exec_pairMsr (accessOf_el3 n hel hb (by rw [hnm]; intro h; cases h)).2]
    simp only [State.writePaired, hz, hh, pairStorage_write, hr]
    cases p <;> rfl

/-- Settles O26: with a hazard the register holds the value the record says was written, or the one written now. -/
theorem pairHazardWrite : Obligations.PairHazardWrite := by
  intro s p nm n r hat hr hne
  refine ⟨s.choose r.written (s.readX n), s.draws + 1, ?_, ?_⟩
  · unfold State.choose
    split
    · exact Or.inl rfl
    · exact Or.inr rfl
  · rw [exec_pairMsr (accessOf_of_pairAtEL3 nm n hat).2]
    simp only [State.writePaired, State.hazard_some hr hne]
    rw [pairStorage_write, State.withPair_setPairRecord_advance]

end Sys2Proof.Machine
end

