-- ==== Sys2Proof/Proofs/NVMem.lean ====
section
/-! PROOFS. The accesses that are redirected to an NVMem cell (20_memory R401 to R406). -/

namespace Sys2Proof.Machine

open Sys2Proof

theorem State.nvMemFaults_iff (s : State) (off : Word) (w : Bool) : s.nvMemFaults off w = true ↔ CellFaults s off w := by
  simp [State.nvMemFaults, CellFaults, State.nvMemAddr]

/-- Byte `k` of the value an 8-byte read gives. -/
theorem Memory.byteOf_read8 (m : Memory) (big : Bool) (a : Word) {k : Nat} (h : k < 8) :
    byteOf (m.read8 big a) k = m.byteAt a (if big then 7 - k else k) := by
  refine BitVec.eq_of_getLsbD_eq fun i hi => ?_
  rw [byteOf, BitVec.getLsbD_extractLsb', Memory.read8]
  cases big <;> simp only [Bool.false_eq_true, if_true, if_false, BitVec.getLsbD_append] <;>
    interval_cases k <;> grind

/-- Settles O27: the transfer is the 8-byte read of the cell. -/
theorem nvMemRead : Obligations.NVMemRead := by
  intro s i off hwf hr hred hf
  have hf : s.nvMemFaults off false = false := eq_false_of_iff (s.nvMemFaults_iff off false) hf
  have he := exec_mrs_nvMem hr ((accessOf_nvMem_iff s i off).mpr hred)
  rw [hf, ← registerOf_eq hwf] at he
  refine ⟨s.nvMemRead off, ⟨_, he, ?_⟩, fun k hk => Memory.byteOf_read8 s.mem _ _ hk⟩
  have hd := s.completeRead_done (registerOf i) (.plain (s.nvMemRead off))
  rwa [State.valueOf, Reading.plain_value] at hd

/-- Settles O28: what is stored is the 8-byte write of the cell. -/
theorem nvMemWrite : Obligations.NVMemWrite := by
  intro s i off hwf hr hred hf
  have hf : s.nvMemFaults off true = false := eq_false_of_iff (s.nvMemFaults_iff off true) hf
  have he := exec_msr_nvMem hr ((accessOf_nvMem_iff s i off).mpr hred)
  rw [hf, ← registerOf_eq hwf] at he
  refine ⟨_, he, rfl, fun k hk => ?_, fun a ha => State.nvMemWrite_read_other _ ha⟩
  have hb := Memory.byteAt_write8 s.mem s.cfg.nvMemBigEndian (s.nvMemAddr off) (s.readX (registerOf i))
    (if s.cfg.nvMemBigEndian then 7 - k else k) (by split <;> omega)
  refine hb.trans (congrArg (byteOf _) ?_)
  split <;> omega

/-- Settles O29: the fault is tested before the transfer, and its outcome goes to EL2. -/
theorem nvMemAbort : Obligations.NVMemAbort := by
  intro s i off hred hf
  have ha := (accessOf_nvMem_iff s i off).mpr hred
  refine ⟨s.takeNVMemAbort, ?_, s.takeExceptionHigher_taken .el2 none⟩
  cases hr : i.fields.read with
  | true =>
    rw [hr] at hf
    rw [exec_mrs_nvMem hr ha, if_pos ((s.nvMemFaults_iff off false).mpr hf)]
  | false =>
    rw [hr] at hf
    rw [exec_msr_nvMem hr ha, if_pos ((s.nvMemFaults_iff off true).mpr hf)]

end Sys2Proof.Machine
end

