-- ==== Sys2Proof/Proofs/Traps.lean ====
section
/-! PROOFS. The outcomes that complete no access: Undefined, the traps to EL2 and EL3, the entry to Debug state and the exception lock
(40_sysreg_access_common R453 to R464). -/

namespace Sys2Proof.Machine

open Sys2Proof

/-! ### From the answer of the chain to the statement -/

section
variable {s : State} {i : Instr}

theorem undefined_of_accessOf (h : accessOf s i = .undefined) : ∃ t, exec i s = .next t ∧ SynchronousTaken s t 0x02000000 :=
  ⟨_, exec_of_accessOf_undefined h, s.takeUndefined_taken⟩

theorem trapped_of_accessOf {el : EL} (h : accessOf s i = .trap el) :
    ∃ t, exec i s = .next t ∧ HigherTaken s t el (some (trapSyndrome i.fields)) :=
  ⟨_, exec_of_accessOf_trap h, s.takeTrap_taken el _⟩

end

/-! ### Undefined (R453, R490) -/

/-- The _EL12 names are names at EL2 and EL3 in host mode, and at EL1 under nested virtualization only. -/
theorem accessOf_el12_undefined {s : State} (p : RegPair) (n : Nat)
    (h : ((s.pstate.EL = .el2 ∨ s.pstate.EL = .el3) ∧ s.env.hyp.elIsInHost = false) ∨
      (s.pstate.EL = .el1 ∧ s.env.hyp.nvx.getLsbD 0 = false)) :
    accessOf s (pairMrs p .el12Name n) = .undefined ∧ accessOf s (pairMsr p .el12Name n) = .undefined := by
  have h5 : s.env.hyp.nvx = 5 → s.env.hyp.nvx.getLsbD 0 = true := fun h => by rw [h]; rfl
  cases p with
  | esr =>
    change chainMrsEsrEl12 s = .undefined ∧ chainMsrEsrEl12 s = .undefined
    grind [chainMrsEsrEl12, chainMsrEsrEl12, State.nvxIs, State.nv]
  | spsr =>
    change chainMrsSpsrEl12 s = .undefined ∧ chainMsrSpsrEl12 s = .undefined
    grind [chainMrsSpsrEl12, chainMsrSpsrEl12, State.nvxIs, State.nv]
  | brbcr =>
    change chainMrsBrbcrEl12 s = .undefined ∧ chainMsrBrbcrEl12 s = .undefined
    grind [chainMrsBrbcrEl12, chainMsrBrbcrEl12, State.nvxIs, State.nv]

/-- The _EL2 names are names at EL1 under nested virtualization only. -/
theorem accessOf_el2_undefined {s : State} {i : Instr} {n : Nat}
    (hi : i = .mrsEsrEl2 n ∨ i = .msrEsrEl2 n ∨ i = .mrsSpsrEl2 n ∨ i = .msrSpsrEl2 n) (hel : s.pstate.EL = .el1)
    (hnv : s.env.hyp.nvx.getLsbD 0 = false) : accessOf s i = .undefined := by
  rcases hi with rfl | rfl | rfl | rfl
  · grind [accessOf, chainMrsEsrEl2, State.nv2, State.nv]
  · grind [accessOf, chainMsrEsrEl2, State.nv2, State.nv]
  · grind [accessOf, chainMrsSpsrEl2, State.nv2, State.nv]
  · grind [accessOf, chainMsrSpsrEl2, State.nv2, State.nv]

/-- Settles O32: the outcome itself, and the two families of names. -/
theorem undefinedNames : Obligations.UndefinedNames := by
  refine fun s n => ⟨s.takeUndefined_taken, ?_, fun i hi hel hnv => undefined_of_accessOf (accessOf_el2_undefined hi hel hnv)⟩
  rintro p i (rfl | rfl) h
  · exact undefined_of_accessOf (accessOf_el12_undefined p n h).1
  · exact undefined_of_accessOf (accessOf_el12_undefined p n h).2

/-- Settles O33: the bound is the first test of both chains. -/
theorem watchpointBound : Obligations.WatchpointBound := fun s m _ h =>
  have ha := (s.watchpointAbsent_iff m).mpr h
  ⟨undefined_of_accessOf (accessOf_of_registerAbsent ha), undefined_of_accessOf (accessOf_of_registerAbsent ha)⟩

/-! ### Traps (R455) -/

/-- The ISS of a trapped access is its encoding fields at their places. -/
theorem sysAccessISS_setWidth (f : SysFields) : (sysAccessISS f).setWidth 64 =
    f.op0.setWidth 64 <<< 20 ||| f.op2.setWidth 64 <<< 17 ||| f.op1.setWidth 64 <<< 14 |||
      f.crn.setWidth 64 <<< 10 ||| f.rt.setWidth 64 <<< 5 ||| f.crm.setWidth 64 <<< 1 ||| (bit f.read).setWidth 64 := by
  refine BitVec.eq_of_getLsbD_eq fun i hi => ?_
  simp only [sysAccessISS, BitVec.getLsbD_setWidth, BitVec.getLsbD_or, BitVec.getLsbD_shiftLeft, BitVec.getLsbD_append]
  interval_cases i <;> simp

theorem trapSyndrome_eq (f : SysFields) : trapSyndrome f = 0x62000000 ||| (sysAccessISS f).setWidth 64 :=
  esrValue_eq_or 0 0x18 true (sysAccessISS f)

/-- An instruction leaves an entry on its way to EL2 or EL3 only. -/
theorem target_of_exec {s t : State} {i : Instr} {h : HigherEntry} (hn : s.pendingEntry = none) (he : exec i s = .next t)
    (ht : t.pendingEntry = some h) : h.target = .el2 ∨ h.target = .el3 := by
  obtain ⟨t', he', hk⟩ := oneOutcome s i
  obtain rfl : t' = t := Host.Outcome.next.inj (he'.symm.trans he)
  have hkeep : t'.pendingEntry = s.pendingEntry → h.target = .el2 ∨ h.target = .el3 := fun hs => by
    rw [hs, hn] at ht; cases ht
  rcases hk with hk | hk | hk | ⟨el, y, hel, hk⟩ | hk
  · exact hkeep (by rw [hk.frame])
  · exact hkeep (by rw [hk.frame])
  · exact hkeep (by rw [hk.frame])
  · rw [hk.entry] at ht
    obtain rfl := Option.some.inj ht
    exact hel
  · exact hkeep (by rw [hk])

/-- Settles O34: the fields of the syndrome, the levels an instruction can name, and that the entry step refuses these accesses. -/
theorem trapSyndromeFields : Obligations.TrapSyndrome := by
  refine fun s i => ⟨fun el => ?_, fun hn t h he ht => target_of_exec hn he ht, fun c e p x hx => ?_⟩
  · have ht := s.takeTrap_taken el i.fields
    rwa [trapSyndrome_eq, sysAccessISS_setWidth] at ht
  · refine Bool.eq_false_iff.mpr fun hc => ?_
    have hf := ExcCause.not_isAccessor_of_check hc hx
    rw [isAccessor_fields] at hf
    cases hf

/-- Settles O35: at EL1 the control named is the first test of the chain that holds. -/
theorem esrSpsrTraps : Obligations.EsrSpsrTraps := by
  intro s n i hel h
  refine trapped_of_accessOf ?_
  have h7 : s.env.hyp.nvx = 3 → s.nv1 = true ∧ s.nv = true := fun h => by simp [State.nv1, State.nv, h]
  rcases h with ⟨rfl, h⟩ | ⟨rfl, h⟩ | ⟨rfl | rfl, h⟩ | ⟨rfl | rfl | rfl | rfl, h⟩ | ⟨rfl | rfl | rfl | ⟨rfl, hl⟩, h⟩
  · grind [accessOf, chainMrsEsrEl1, s.fgTrap_iff]
  · grind [accessOf, chainMsrEsrEl1, s.fgTrap_iff]
  · grind [accessOf, chainMrsSpsrEl1, State.nvxIs]
  · grind [accessOf, chainMsrSpsrEl1, State.nvxIs]
  · grind [accessOf, chainMrsEsrEl12, State.nvxIs, State.nv]
  · grind [accessOf, chainMsrEsrEl12, State.nvxIs, State.nv]
  · grind [accessOf, chainMrsSpsrEl12, State.nvxIs, State.nv]
  · grind [accessOf, chainMsrSpsrEl12, State.nvxIs, State.nv]
  · grind [accessOf, chainMrsEsrEl2, State.nv2, State.nv]
  · grind [accessOf, chainMsrEsrEl2, State.nv2, State.nv]
  · grind [accessOf, chainMrsSpsrEl2, State.nv2, State.nv]
  · grind [accessOf, chainMsrSpsrEl2, State.nv2, State.nv, s.gcsLock_iff]

/-- Settles O36: the tests for EL2 precede the one for EL3 where Secure debug does not put it first. -/
theorem debugTraps : Obligations.DebugTraps := by
  intro s m n i hel hp h
  refine trapped_of_accessOf ?_
  rcases h with ⟨rfl, hw, h⟩ | ⟨rfl, hw, h⟩ | ⟨rfl, h⟩ | ⟨rfl, h⟩
  · grind [accessOf, chainMrsDbgwcr, s.watchpointAbsent_iff, s.fgTrap_iff, s.debugTrapEL2_iff, s.sddPriority_iff, s.el3Test_mdcr3TDA_iff]
  · grind [accessOf, chainMsrDbgwcr, s.watchpointAbsent_iff, s.fgTrap_iff, s.debugTrapEL2_iff, s.sddPriority_iff, s.el3Test_mdcr3TDA_iff]
  · grind [accessOf, chainMrsMdscr, s.fgTrap_iff, s.debugTrapEL2_iff, s.sddPriority_iff, s.el3Test_mdcr3TDA_iff]
  · grind [accessOf, chainMsrMdscr, s.fgTrap_iff, s.debugTrapEL2_iff, s.sddPriority_iff, s.el3Test_mdcr3TDA_iff]

/-- Settles O37: as O36, and the _EL12 name traps where nested virtualization does not redirect it. -/
theorem profilingTraps : Obligations.ProfilingTraps := by
  intro s n i hel h
  refine trapped_of_accessOf ?_
  rcases h with ⟨hf, hp, ⟨rfl, h⟩ | ⟨rfl, h⟩⟩ | ⟨hf, hp, ⟨rfl, h⟩ | ⟨rfl, h⟩⟩ | ⟨hf, rfl | rfl, h⟩
  · grind [accessOf, chainMrsPmsfcr, s.fgTrap_iff, s.sddPriority_iff, s.el3Test_nspbMismatch_iff]
  · grind [accessOf, chainMsrPmsfcr, s.fgTrap_iff, s.sddPriority_iff, s.el3Test_nspbMismatch_iff]
  · grind [accessOf, chainMrsBrbcrEl1, s.fgTrap_iff, s.sddPriority_iff, s.el3Test_sbrbe_iff]
  · grind [accessOf, chainMsrBrbcrEl1, s.fgTrap_iff, s.sddPriority_iff, s.el3Test_sbrbe_iff]
  · grind [accessOf, chainMrsBrbcrEl12, State.nvxIs, State.nv]
  · grind [accessOf, chainMsrBrbcrEl12, State.nvxIs, State.nv]

/-- The test for EL3 decides the answer where no test for EL2 precedes it (R462): with the priority it is Undefined, which is also what
Secure debug disabled makes of the test in its place. -/
theorem accessOf_of_el3Test {s : State} {i : Instr} (h3 : El3TestHolds s i)
    (hel : s.pstate.EL = .el2 ∨ (s.pstate.EL = .el1 ∧ (¬ El2TestHolds s i ∨ El3TestsFirst s))) :
    accessOf s i = if s.sddUndef then .undefined else .trap .el3 := by
  have hs := s.sddUndef_iff
  cases i with
  | mrsDbgwcr m t =>
    grind [accessOf, chainMrsDbgwcr, El3TestHolds, El2TestHolds, El3TestsFirst, State.el3Outcome, s.watchpointAbsent_iff, s.fgTrap_iff,
      s.debugTrapEL2_iff, s.sddPriority_iff, s.el3Test_mdcr3TDA_iff]
  | msrDbgwcr m t =>
    grind [accessOf, chainMsrDbgwcr, El3TestHolds, El2TestHolds, El3TestsFirst, State.el3Outcome, s.watchpointAbsent_iff, s.fgTrap_iff,
      s.debugTrapEL2_iff, s.sddPriority_iff, s.el3Test_mdcr3TDA_iff]
  | mrsMdscr t =>
    grind [accessOf, chainMrsMdscr, El3TestHolds, El2TestHolds, El3TestsFirst, State.el3Outcome, s.fgTrap_iff, s.debugTrapEL2_iff,
      s.sddPriority_iff, s.el3Test_mdcr3TDA_iff]
  | msrMdscr t =>
    grind [accessOf, chainMsrMdscr, El3TestHolds, El2TestHolds, El3TestsFirst, State.el3Outcome, s.fgTrap_iff, s.debugTrapEL2_iff,
      s.sddPriority_iff, s.el3Test_mdcr3TDA_iff]
  | mrsPmsfcr t =>
    grind [accessOf, chainMrsPmsfcr, El3TestHolds, El2TestHolds, El3TestsFirst, State.el3Outcome, s.fgTrap_iff, s.sddPriority_iff,
      s.el3Test_nspbMismatch_iff]
  | msrPmsfcr t =>
    grind [accessOf, chainMsrPmsfcr, El3TestHolds, El2TestHolds, El3TestsFirst, State.el3Outcome, s.fgTrap_iff, s.sddPriority_iff,
      s.el3Test_nspbMismatch_iff]
  | mrsBrbcrEl1 t =>
    grind [accessOf, chainMrsBrbcrEl1, El3TestHolds, El2TestHolds, El3TestsFirst, State.el3Outcome, s.fgTrap_iff, s.sddPriority_iff,
      s.el3Test_sbrbe_iff]
  | msrBrbcrEl1 t =>
    grind [accessOf, chainMsrBrbcrEl1, El3TestHolds, El2TestHolds, El3TestsFirst, State.el3Outcome, s.fgTrap_iff, s.sddPriority_iff,
      s.el3Test_sbrbe_iff]
  | mrsBrbcrEl12 t | msrBrbcrEl12 t =>
    grind [accessOf, chainMrsBrbcrEl12, chainMsrBrbcrEl12, El3TestHolds, State.el3Outcome, s.sddPriority_iff, s.el3Test_sbrbe_iff]
  | _ => exact h3.elim

/-- Settles O38: both ends of the test, told apart by whether Secure debug is disabled. -/
theorem el3Traps : Obligations.El3Traps := by
  intro s i h3 hel
  have ha := accessOf_of_el3Test h3 hel
  by_cases hs : SecureDebugDisabled s
  · rw [if_pos (s.sddUndef_iff.mpr hs)] at ha
    obtain ⟨t, he, ht⟩ := undefined_of_accessOf ha
    exact ⟨t, he, fun _ => ht, fun hn => absurd hs hn⟩
  · rw [if_neg (mt s.sddUndef_iff.mp hs)] at ha
    obtain ⟨t, he, ht⟩ := trapped_of_accessOf ha
    exact ⟨t, he, fun hp => absurd hp hs, fun _ => ht⟩

/-! ### Debug state and the exception lock (R456, R457, R491) -/

/-- Settles O39: the Halt check is the last test of the chain. -/
theorem softwareAccessHalt : Obligations.SoftwareAccessHalt := by
  intro s m n hw hh hel
  refine ⟨fun hf => ?_, fun hf => ?_⟩
  · have ha : accessOf s (.mrsDbgwcr m n) = .halt := by
      grind [accessOf, chainMrsDbgwcr, s.watchpointAbsent_iff, s.haltCheck_iff, s.fgTrap_iff, s.debugTrapEL2_iff, s.sddPriority_iff,
        s.el3Test_mdcr3TDA_iff]
    exact exec_of_accessOf_halt ha
  · have ha : accessOf s (.msrDbgwcr m n) = .halt := by
      grind [accessOf, chainMsrDbgwcr, s.watchpointAbsent_iff, s.haltCheck_iff, s.fgTrap_iff, s.debugTrapEL2_iff, s.sddPriority_iff,
        s.el3Test_mdcr3TDA_iff]
    exact exec_of_accessOf_halt ha

/-- Settles O40: the lock precedes the other tests, but for the traps of NVx with NV1 and NV. -/
theorem exceptionLock : Obligations.ExceptionLock := by
  intro s n hl
  have hl := s.gcsLock_iff.mpr hl
  refine ⟨fun hel hnv => ?_, fun hel hnv => ?_, fun hel hh => ?_, fun hel => ?_⟩
  · have ha : accessOf s (.msrSpsrEl1 n) = .exlock := by grind [accessOf, chainMsrSpsrEl1, State.nv1, State.nv]
    exact ⟨_, exec_of_accessOf_exlock ha, State.takeExlock_taken_el1 hel⟩
  · have ha : accessOf s (.msrSpsrEl2 n) = .exlock := by grind [accessOf, chainMsrSpsrEl2, State.nv]
    exact ⟨_, exec_of_accessOf_exlock ha, State.takeExlock_taken_el1 hel⟩
  · have ha : accessOf s (.msrSpsrEl1 n) = .exlock := by grind [accessOf, chainMsrSpsrEl1]
    exact ⟨_, exec_of_accessOf_exlock ha, State.takeExlock_taken_higher (by rw [hel]; decide)⟩
  · have ha : accessOf s (.msrSpsrEl2 n) = .exlock := by grind [accessOf, chainMsrSpsrEl2]
    exact ⟨_, exec_of_accessOf_exlock ha, State.takeExlock_taken_higher (by rw [hel]; decide)⟩

end Sys2Proof.Machine
end

