-- ==== Sys2Proof/Proofs/Steps.lean ====
section
/-! PROOFS. What a step does when nothing comes before an instruction, and when an entry to EL2 or EL3 is on its way (20_memory R418;
30_encoding R436; 14_spsr_el1 R280; logs 11, 12, 28). -/

namespace Sys2Proof.Machine

open Sys2Proof

/-! ### The instruction at pc -/

section
variable {s : State} {w : Word32}

theorem State.runInstruction_illegal (h : s.pstate.IL = true) : s.runInstruction = .next s.takeIllegalState := by
  rw [State.runInstruction, if_pos h]

theorem State.runInstruction_error {why : DecodeReject} (hil : s.pstate.IL = false) (hn : s.pstate.nRW = false)
    (hf : s.fetch = some w) (hd : decode w = .error why) : s.runInstruction = .fault (.outOfScope why w) := by
  simp [State.runInstruction, hil, hn, hf, hd]

theorem State.runInstruction_ok {i : Instr} {t : State} (hil : s.pstate.IL = false) (hn : s.pstate.nRW = false)
    (hf : s.fetch = some w) (hd : decode w = .ok i) (he : exec i s = .next t) :
    s.runInstruction = .next (s.afterInstruction t) := by
  simp [State.runInstruction, hil, hn, hf, hd, he]

end

/-- The state the instruction of a step runs in differs by the inputs and by the records of the name pairs only. -/
theorem State.settled_frame (s : State) (l : List Input) : ({ s.settle with inputs := l } : State) = { s with
    inputs := l, esrPair := s.settle.esrPair, spsrPair := s.settle.spsrPair, brbcrPair := s.settle.brbcrPair } := by
  rw [State.settle_frame]

/-- Settles O4: the decoder rejects the word, or it would be the word of the instruction it decodes to. -/
theorem outOfScopeStops : Obligations.OutOfScopeStops := by
  intro s w hr hf hne
  obtain ⟨hnext, hil, hn⟩ := hr
  cases hd : decode w with
  | ok i =>
    obtain ⟨hw, he⟩ := encode_of_decode hd
    exact absurd he (hne i hw)
  | error why =>
    refine ⟨why, ?_⟩
    rw [State.step_of_instructionNext hnext, State.settled_frame]
    exact State.runInstruction_error hil hn hf hd

/-- Settles O5: the step is the instruction's meaning, and its completion may clear PSTATE.SS. -/
theorem stepRunsDecoded : Obligations.StepRunsDecoded := by
  intro s w i hr hf hd
  obtain ⟨hnext, hil, hn⟩ := hr
  obtain ⟨t, he, -⟩ := exec_end { s.settle with inputs := s.inputs.tail } i
  have hstep : step s = .next (({ s.settle with inputs := s.inputs.tail } : State).afterInstruction t) := by
    rw [State.step_of_instructionNext hnext]
    rw [State.settled_frame] at he ⊢
    exact State.runInstruction_ok hil hn hf hd he
  have hactive : ({ s.settle with inputs := s.inputs.tail } : State).stepActive = true ↔ StepActive s := by
    rw [State.settled_frame, State.stepActive_iff]; rfl
  have hpc : ({ s.settle with inputs := s.inputs.tail } : State).pc = s.pc := by rw [State.settled_frame]
  refine ⟨fun h3 => if_pos h3, fun h3 => if_neg h3, t, he, fun hs => ?_, fun hs => ?_⟩
  · rw [hstep, State.afterInstruction, eq_false_of_iff hactive hs]; rfl
  · rw [hstep, State.afterInstruction, hactive.mpr hs, hpc]
    simp [State.clearSS]

/-- Settles O6: both the step and an outside instruction that would raise another exception take this one. -/
theorem illegalStateException : Obligations.IllegalStateException := by
  refine ⟨fun s hnext hil => ?_, fun s u x ho hil hb => ?_⟩
  · refine ⟨_, ?_, State.takeIllegalState_taken _⟩
    rw [State.step_of_instructionNext hnext]
    exact State.runInstruction_illegal (by rw [State.settled_frame]; exact hil)
  · refine ⟨_, ?_, u.takeIllegalState_taken⟩
    have hu : u.pstate.IL = true := by rw [State.offers_frame ho]; exact hil
    rw [State.step_of_offers ho]
    simp [handleInput, handleException, hb, State.unlessIllegal, hu]

/-! ### The general registers (R26) -/

/-- Settles O7: the file has 31 registers, and number 31 reaches none. -/
theorem zeroRegister : Obligations.ZeroRegister := by
  refine fun s v => ⟨s.readX_high (Nat.le_refl 31), ?_, fun t ht => ⟨?_, fun k hk => s.readX_writeX_other v hk⟩⟩
  · simp [State.writeX]
  · rw [State.readX_writeX_same, if_pos ht]

/-! ### The entry that was left final (log 11) -/

/-- Settles O60: the step makes the entry before anything else. -/
theorem higherEntryCompletes : Obligations.HigherEntryCompletes := by
  intro s h hp
  have hstep : step s = .next (s.settle.completeHigherEntry h) := by
    have hs : s.settle.pendingEntry = some h := by rw [State.settle_frame]; exact hp
    unfold step
    generalize s.settle = q at *
    simp only [State.cycle, hs]
  refine ⟨_, hstep, ?_⟩
  rw [State.settle_frame]
  exact ⟨rfl, rfl, rfl, rfl, rfl, rfl, rfl, rfl⟩

end Sys2Proof.Machine
end

