-- ==== Sys2Proof/Proofs/SavedPState.lean ====
section
/-! PROOFS. The saved process state and the return from it, Branch records, and resets (14_spsr_el1 R260 to R276; 60_exceptions R541,
R545 to R550; 70_reset R580 to R588). -/

namespace Sys2Proof.Machine

open Sys2Proof

/-! ### The two views of SPSR_EL1 (14_spsr_el1 R261, R262) -/

/-- M[3:0] of an exception from EL0 or EL1 (R274). -/
theorem modeBits_el0 (sp : Bool) : modeBits .el0 sp = 0b0000 := rfl

theorem modeBits_el1 (sp : Bool) : modeBits .el1 sp = if sp then 0b0101 else 0b0100 := by cases sp <;> rfl

theorem savedPState_aarch64 {c : Config} {p : PState} (h : p.nRW = false) : savedPState c p = savedAArch64 c p := by
  simp [savedPState, h]

theorem savedPState_aarch32 {c : Config} {p : PState} (h : p.nRW = true) : savedPState c p = savedAArch32 c p := by
  simp [savedPState, h]

/-- Settles O47: each view is a concatenation, in which every field is found at its place. -/
theorem savedState : Obligations.SavedState := by
  intro c p
  cases hn : p.nRW with
  | false =>
    rw [savedPState_aarch64 hn]
    simp only [savedAArch64]
    simp (disch := decide) only [BitVec.extractLsb'_append_eq_of_add_le, BitVec.extractLsb'_append_eq_of_le]
    simp only [BitVec.getLsbD_append]
    simp only [tcoPresent]
    simp +contextual [modeBits_el0, modeBits_el1]
  | true =>
    rw [savedPState_aarch32 hn]
    simp only [savedAArch32]
    simp (disch := decide) only [BitVec.extractLsb'_append_eq_of_add_le, BitVec.extractLsb'_append_eq_of_le]
    simp only [BitVec.getLsbD_append]
    simp +contextual [endianBit]

/-! ### Branch records (16_profiling_regs R389, R390, R394) -/

theorem State.branchEnabled_iff (s : State) : s.branchEnabled s.pstate.EL = true ↔ RecordingEnabled s := by
  unfold State.branchEnabled RecordingEnabled
  rw [← s.tgeToEL2_iff]
  cases s.pstate.EL <;> cases s.tgeToEL2 <;> simp

/-- A record is one entry more, with what MPRED and CC allow. -/
theorem State.emitRecord_brbeLog (s : State) (k : BranchKind) : ∃ ts,
    (s.emitRecord k).brbeLog = .record k ts (s.brbcrEL1.getLsbD 4) (s.brbcrEL1.getLsbD 3) :: s.brbeLog := ⟨_, rfl⟩

theorem State.entryRecord_emits {s : State} (h : s.cfg.prof.brbe = true ∧ s.brbcrEL1.getLsbD 23 = true ∧ RecordingEnabled s) :
    s.entryRecord = s.emitRecord .exceptionEntry := by
  obtain ⟨hb, hx, he⟩ := h
  rw [State.entryRecord, hb, hx, s.branchEnabled_iff.mpr he]; rfl

theorem State.entryRecord_none {s : State} (h : ¬ (s.cfg.prof.brbe = true ∧ s.brbcrEL1.getLsbD 23 = true ∧ RecordingEnabled s)) :
    s.entryRecord = s := by
  rw [← s.branchEnabled_iff] at h
  exact if_neg (by simpa [and_assoc] using h)

theorem State.takeExceptionToEL1_brbeLog (s : State) (y : Option Word) : (s.takeExceptionToEL1 y).brbeLog = s.entryRecord.brbeLog := by
  cases y <;> rfl

/-- The record of a return is that of the state after the free value SPSR_EL1 may have been. -/
theorem State.exceptionReturnFromEL1_brbeLog (s : State) : s.exceptionReturnFromEL1.brbeLog = (s.skip 1).returnRecord.brbeLog := rfl

/-- Settles O55: both logs are those of the record operations. -/
theorem branchRecords : Obligations.BranchRecords := by
  intro s y
  rw [s.takeExceptionToEL1_brbeLog, s.exceptionReturnFromEL1_brbeLog]
  refine ⟨fun h => ?_, fun h => ?_, fun h => ?_, fun h => ?_⟩
  · rw [State.entryRecord_emits h]
    exact s.emitRecord_brbeLog _
  · rw [State.entryRecord_none h]
  · obtain ⟨hb, hx, he⟩ := h
    have hr : (s.skip 1).returnRecord = (s.skip 1).emitRecord .exceptionReturn := if_pos (by simp [hb, hx, he])
    rw [hr]
    exact (s.skip 1).emitRecord_brbeLog _
  · have hr : (s.skip 1).returnRecord = s.skip 1 := if_neg (by simpa [and_assoc] using h)
    rw [hr]; rfl

/-! ### Resets (70_reset R580 to R588) -/

/-- Bits [18:16] of MDSCR_EL1 are none of its own. -/
theorem mdscrOwn_extract (v : Word) : (v &&& mdscrOwn).extractLsb' 16 3 = 0 := by
  have h : mdscrOwn.extractLsb' 16 3 = 0 := by decide
  rw [BitVec.extractLsb'_and, h]
  exact BitVec.and_zero

/-- Settles O57: what both resets set, a Cold reset being a Warm reset that also draws the debug registers. -/
theorem resets : Obligations.Resets := by
  refine ⟨?_, fun s u e ho h0 h1 => ?_, rfl, rfl, rfl, rfl, rfl, rfl, rfl, rfl, rfl⟩
  · rintro s u i hi ho
    rw [State.step_of_offers ho, State.offers_frame ho]
    rcases hi with rfl | rfl
    · exact ⟨_, rfl, fun _ => ⟨rfl, rfl⟩, rfl, rfl, rfl, rfl, mdscrOwn_extract _, rfl, rfl, rfl, rfl, rfl, rfl, rfl, rfl⟩
    · exact ⟨_, rfl, nofun, rfl, rfl, rfl, rfl, mdscrOwn_extract _, rfl, rfl, rfl, rfl, rfl, rfl, rfl, rfl⟩
  · have hu : u.env = s.env := by rw [State.offers_frame ho]
    rw [State.step_of_offers ho]
    change Host.Outcome.next (u.changeEnv e) = _
    rw [State.changeEnv, if_pos (by simp [hu, h0, h1])]

end Sys2Proof.Machine
end

