-- ==== Sys2Proof/Proofs/Returns.lean ====
section
/-! PROOFS. Exception returns from EL1 (60_exceptions R545 to R548, R553). -/

namespace Sys2Proof.Machine

open Sys2Proof

/-! ### Which values of SPSR_EL1 can be returned to (R547) -/

section
variable {c : Config} {v : Word}

/-- Bit 4 and the mode bits are the low five bits. -/
theorem mode_of_low5 (v : Word) : v.extractLsb' 0 5 = bit (v.getLsbD 4) ++ v.extractLsb' 0 4 := by
  refine BitVec.eq_of_getLsbD_eq fun i hi => ?_
  rw [BitVec.getLsbD_append]
  interval_cases i <;> simp

theorem mode_of_low5_eq {b : Bool} {m : BitVec 4} (h : v.extractLsb' 0 5 = bit b ++ m) : v.getLsbD 4 = b ∧ v.extractLsb' 0 4 = m := by
  rw [mode_of_low5] at h
  have hb := congrArg (BitVec.extractLsb' 4 1) h
  have hm := congrArg (BitVec.extractLsb' 0 4) h
  simp (disch := decide) only [BitVec.extractLsb'_append_eq_of_add_le, BitVec.extractLsb'_append_eq_of_le] at hb hm
  exact ⟨by simpa using congrArg (BitVec.getLsbD · 0) hb, by simpa using hm⟩

theorem illegalReturn_aarch64 (h : v.getLsbD 4 = false) : illegalReturn c false v = true ↔
    v.extractLsb' 0 4 ≠ 0b0000 ∧ v.extractLsb' 0 4 ≠ 0b0100 ∧ v.extractLsb' 0 4 ≠ 0b0101 := by
  rw [illegalReturn, h]
  simp [aarch64ModeListed, and_assoc]

theorem illegalReturn_aarch32 (h : v.getLsbD 4 = true) : illegalReturn c false v = true ↔
    c.haveAArch32 = false ∨ v.extractLsb' 0 4 ≠ 0b0000 := by
  rw [illegalReturn, h]
  cases hc : c.haveAArch32 <;> simp [aarch32ModeAvailable, hc]

theorem illegalReturn_of_false {other : Bool} (h : illegalReturn c false v = true) : illegalReturn c other v = true := by
  cases other
  · exact h
  · rfl

end

/-! ### The step that returns -/

/-- Everything the step of a return does, with the PSTATE that SPSR_EL1 gives. -/
theorem step_of_return {s u : State} (ho : s.offers .exceptionReturn u) (hel : s.pstate.EL = .el1) (hn : s.pstate.nRW = false)
    (hil : s.pstate.IL = false) (hu : s.spsrUnknown = false) :
    ∃ t, step s = .next t ∧ t.pc = s.env.step.returnTarget ∧ t.spsrUnknown = true ∧ t.esrUnknown = true ∧
      t = { u with
        pc := t.pc, pstate := t.pstate, spsrEL1 := t.spsrEL1, spsrUnknown := true, esrEL1 := t.esrEL1, esrUnknown := true
        esrPair := none, spsrPair := none, brbcrPair := none, draws := t.draws, brbeLog := t.brbeLog } ∧
      t.pstate = returnPState s.cfg s.env.step s.spsrEL1 s.pstate := by
  have hstep : step s = .next u.exceptionReturnFromEL1 := by
    rw [State.step_of_offers ho]
    have hp : u.pstate = s.pstate := by rw [State.offers_frame ho]
    simp [handleInput, State.unlessIllegal, handleReturn, hp, hil, hel, hn]
  have hf := u.exceptionReturnFromEL1_frame
  refine ⟨_, hstep, ?_, ?_, ?_, ?_, ?_⟩
  · rw [hf, State.offers_frame ho]
  · rw [hf]
  · rw [hf]
  · rw [hf]
  · have hr : u.returnSource = s.spsrEL1 := by
      rw [State.offers_frame ho]; simp [State.returnSource, hu]
    rw [hf, hr, State.offers_frame ho]

theorem resetEL_ne_el0 (c : Config) : c.resetEL ≠ .el0 := by
  rw [Config.resetEL]
  cases c.haveEL3 <;> cases c.haveEL2 <;> decide

/-- A step from EL1 that leaves EL0 has executed an exception return (R553): no entry, no reset and no step outside this spec goes
there. -/
theorem return_of_step {s t : State} (hinv : s.Inv) (h : step s = .next t) (h1 : s.pstate.EL = .el1) (h0 : t.pstate.EL = .el0) :
    ∃ u, s.offers .exceptionReturn u ∧ t = u.exceptionReturnFromEL1 := by
  have hend {q : State} (hq : q.pstate = s.pstate) : ¬ LevelEnd q t := by
    rintro (hl | ⟨r, y, -, -, he⟩)
    · rw [h0, hq, h1] at hl; cases hl
    · rw [he.level.1] at h0; cases h0
  rcases step_level h with ⟨e, he, hl⟩ | hl | ⟨i, u, ho, hi⟩
  · rw [h0] at hl
    rcases hinv.entry e he with he | he <;> rw [he] at hl <;> cases hl
  · exact absurd hl (hend rfl)
  · have hp : u.pstate = s.pstate := by rw [State.offers_frame ho]
    rcases handleInput_level hi with hl | rfl | rfl | ⟨e, rfl, hc, hp1⟩ | ⟨rfl, ht⟩ | ⟨o, rfl, hol, hto⟩
    · exact absurd hl (hend hp)
    · cases hi
      exact absurd h0 (resetEL_ne_el0 u.cfg)
    · cases hi
      exact absurd h0 (resetEL_ne_el0 u.cfg)
    · cases hi
      rw [State.changeEnv, if_pos (by simp [hc, hp1])] at h0
      exact absurd h0 (resetEL_ne_el0 u.cfg)
    · exact ⟨u, ho, ht⟩
    · rw [hto] at h0
      rcases OutsideStep.levelOk_cases hol with hl | ⟨hl | hl, -⟩ | ⟨hl | hl, -⟩
      · rw [h0, hp, h1] at hl; cases hl
      · rw [h0] at hl; cases hl
      · rw [h0] at hl; cases hl
      · rw [hp, h1] at hl; cases hl
      · rw [hp, h1] at hl; cases hl

/-! ### PSTATE after a return (R545, R546, R548) -/

theorem levelOfBits_eq {v : Word} {m : BitVec 4} (h : v.extractLsb' 0 4 = m) (hm : m = 0b0000 ∨ m = 0b0100 ∨ m = 0b0101) :
    levelOfBits v = if v.getLsbD 2 then .el1 else .el0 := by
  have h2 : v.extractLsb' 2 2 = m.extractLsb' 2 2 := by
    rw [← h]
    refine BitVec.eq_of_getLsbD_eq fun i hi => ?_
    interval_cases i <;> simp
  have hb : v.getLsbD 2 = m.getLsbD 2 := by rw [← h]; simp
  rw [levelOfBits, h2, hb]
  rcases hm with rfl | rfl | rfl <;> rfl

/-- Settles O48: the step is the return, whose PSTATE is the legal one of the view; no other step goes from EL1 to EL0. -/
theorem returnRestores : Obligations.ReturnRestores := by
  refine ⟨fun s u ho hel hn hil hu hother hm => ?_, fun s t hinv h h1 h0 => ?_, fun s u ho hel hn hil hu hother h32 hm => ?_⟩
  · obtain ⟨t, hstep, hpc, hsu, heu, hframe, hp⟩ := step_of_return ho hel hn hil hu
    refine ⟨t, hstep, hpc, hsu, heu, hframe, hp.trans ?_⟩
    have hv : ∃ m : BitVec 4, s.spsrEL1.extractLsb' 0 5 = bit false ++ m ∧ (m = 0b0000 ∨ m = 0b0100 ∨ m = 0b0101) := by
      rcases hm with hm | hm | hm
      · exact ⟨0b0000, hm, by simp⟩
      · exact ⟨0b0100, hm, by simp⟩
      · exact ⟨0b0101, hm, by simp⟩
    obtain ⟨m, hv, hm⟩ := hv
    obtain ⟨h4, hm4⟩ := mode_of_low5_eq hv
    have hlegal : illegalReturn s.cfg false s.spsrEL1 = false := eq_false_of_iff (illegalReturn_aarch64 h4) (by
      rw [hm4]; rcases hm with rfl | rfl | rfl <;> decide)
    rw [returnPState, hother, hlegal, h4, if_neg Bool.false_ne_true, if_neg Bool.false_ne_true, returnAArch64, levelOfBits_eq hm4 hm]
    rfl
  · obtain ⟨u, ho, rfl⟩ := return_of_step hinv h h1 h0
    exact ⟨⟨u, ho⟩, rfl, rfl⟩
  · obtain ⟨t, hstep, hpc, hsu, heu, hframe, hp⟩ := step_of_return ho hel hn hil hu
    refine ⟨t, hstep, hpc, hsu, heu, hframe, hp.trans ?_⟩
    obtain ⟨h4, hm4⟩ := mode_of_low5_eq (b := true) (m := 0b0000) hm
    have hlegal : illegalReturn s.cfg false s.spsrEL1 = false := eq_false_of_iff (illegalReturn_aarch32 h4) (by simp [h32, hm4])
    rw [returnPState, hother, hlegal, h4, if_neg Bool.false_ne_true, if_pos rfl, returnAArch32, hm4]
    simp [copyConditional, copyBackAArch32, endianBit]

/-- An illegal return sets IL and keeps the level, the stack pointer and the Execution state, in either view (R547). -/
theorem returnIllegal_keeps (c : Config) (v : Word) (p : PState) : (returnIllegal c v p).IL = true ∧
    (returnIllegal c v p).EL = p.EL ∧ (returnIllegal c v p).SP = p.SP ∧ (returnIllegal c v p).nRW = p.nRW := by
  unfold returnIllegal
  split <;> exact ⟨rfl, rfl, rfl, rfl⟩

/-- Settling changes nothing where no record is pending. -/
theorem State.settle_of_no_pairs {s : State} (he : s.esrPair = none) (hs : s.spsrPair = none) (hb : s.brbcrPair = none) :
    s.settle = s := by
  have hc : s.clearPairs = s := by
    cases s
    simp_all [State.clearPairs]
  rw [State.settle, hc, ite_self]

/-- Settles O49: the return is illegal whatever the environment adds, and PSTATE.IL, which it sets, decides the step after. -/
theorem illegalReturnSetsIL : Obligations.IllegalReturn := by
  intro s u ho hel hn hil hu hm
  have hill : illegalReturn s.cfg s.env.step.illegalReturnOther s.spsrEL1 = true := by
    refine illegalReturn_of_false ?_
    rcases hm with ⟨h4, hm⟩ | ⟨h4, hm⟩
    · exact (illegalReturn_aarch64 h4).mpr hm
    · exact (illegalReturn_aarch32 h4).mpr hm
  obtain ⟨t, hstep, hpc, hsu, heu, hframe, hp⟩ := step_of_return ho hel hn hil hu
  rw [returnPState, if_pos hill] at hp
  obtain ⟨hkil, hkel, hksp, hkn⟩ := returnIllegal_keeps s.cfg s.spsrEL1 s.pstate
  have htil : t.pstate.IL = true := by rw [hp]; exact hkil
  refine ⟨t, hstep, hpc, hsu, heu, hframe, htil, ?_, ?_, ?_, fun h4 => hp.trans ?_, fun h4 => hp.trans ?_,
    fun hnext => ?_⟩
  · rw [hp]; exact hkel.trans hel
  · rw [hp]; exact hksp
  · rw [hp]; exact hkn.trans hn
  · rw [returnIllegal, h4, if_neg Bool.false_ne_true]
    rfl
  · rw [returnIllegal, h4, if_pos rfl]
    simp [copyConditional, copyBackAArch32, endianBit]
  · have hr := illegalStateException.1 t hnext htil
    rwa [State.settle_of_no_pairs (by rw [hframe]) (by rw [hframe]) (by rw [hframe])] at hr

end Sys2Proof.Machine
end

