-- ==== Sys2Proof/Proofs/Entries.lean ====
section
/-! PROOFS. Exceptions the environment reports: causes and asynchronous exceptions, where they go and what they report (60_exceptions R520
to R528, R552, R553). -/

namespace Sys2Proof.Machine

open Sys2Proof

/-! ### Routing in the words of the statements (R552, R559) -/

theorem State.svcTrapped_iff (s : State) : s.svcTrapped = true ↔ SvcTrapped s := by
  rw [State.svcTrapped, State.fgTrap_iff, FineGrainedTrap, SvcTrapped]
  cases s.pstate.EL <;> simp

theorem State.routedToEL2_iff (s : State) (i : ExcInfo) : s.routedToEL2 i = true ↔ CauseRoutes s i := by
  cases i with
  | svc imm => rw [State.routedToEL2, CauseRoutes, Bool.or_eq_true, s.tgeToEL2_iff, s.svcTrapped_iff]
  | breakpointInstr comment => exact s.debugToEL2_iff
  | _ => exact s.tgeToEL2_iff

theorem State.asyncMasked_iff (s : State) (k : AsyncException) : s.asyncMasked k = true ↔ Masked s k := by
  cases k <;> simp [State.asyncMasked, Masked, AllMasked]

theorem State.asyncTakeable_iff (s : State) (k : AsyncException) :
    s.asyncTakeable k = true ↔ (s.pstate.EL = .el0 ∨ s.pstate.EL = .el1) ∧ ¬ Masked s k := by
  simp [State.asyncTakeable, State.belowEL2, ← s.asyncMasked_iff]

/-- The routing may be worded in another way. -/
theorem RoutedTaken.congr {s t : State} {p q : Prop} {y : Option Word} (h : RoutedTaken s t p y) (hpq : p ↔ q) :
    RoutedTaken s t q y := ⟨fun hq => h.1 (hpq.mpr hq), fun hq => h.2 (mt hpq.mp hq)⟩

/-- Free values used up before an exception are part of its count. -/
theorem HigherTaken.of_skip {s t : State} {k : Nat} {el : EL} {y : Option Word} (h : HigherTaken (s.skip k) t el y) :
    HigherTaken s t el y := ⟨h.entry, h.pairs, h.cells, h.frame⟩

theorem EntryEL1.of_skip {s t : State} {k : Nat} {y : Option Word} (h : EntryEL1 (s.skip k) t y) : EntryEL1 s t y :=
  ⟨h.saved, h.esr, h.esrKept, h.level, h.masks, h.cleared, h.flags, h.vector, h.pairs, h.frame⟩

theorem RoutedTaken.of_skip {s t : State} {k : Nat} {p : Prop} {y : Option Word} (h : RoutedTaken (s.skip k) t p y) :
    RoutedTaken s t p y := ⟨fun hp => (h.1 hp).of_skip, fun hp => (h.2 hp).of_skip⟩

/-! ### The state an input is taken in -/

section
variable {s u : State} {i : Input}

theorem State.offers_cfg (h : s.offers i u) : u.cfg = s.cfg := by rw [State.offers_frame h]
theorem State.offers_env (h : s.offers i u) : u.env = s.env := by rw [State.offers_frame h]
theorem State.offers_pstate (h : s.offers i u) : u.pstate = s.pstate := by rw [State.offers_frame h]
theorem State.offers_mdscr (h : s.offers i u) : u.mdscr = s.mdscr := by rw [State.offers_frame h]

theorem State.offers_tgeRoutes (h : s.offers i u) : TGERoutes u ↔ TGERoutes s := by rw [State.offers_frame h]; rfl
theorem State.offers_debugRoutes (h : s.offers i u) : DebugRoutes u ↔ DebugRoutes s := by rw [State.offers_frame h]; rfl
theorem State.offers_causeRoutes (h : s.offers i u) (x : ExcInfo) : CauseRoutes u x ↔ CauseRoutes s x := by
  rw [State.offers_frame h]; rfl

theorem State.offers_asyncTakeable (h : s.offers i u) (k : AsyncException) : u.asyncTakeable k = s.asyncTakeable k := by
  rw [State.offers_frame h]; cases k <;> rfl

end

/-! ### Causes (R520 to R522) -/

/-- A cause that keeps every constraint is taken. -/
theorem takeCause_taken {s : State} {x : ExcCause} (hc : x.check s.cfg s.env s.pstate = true) (ho : x.info.hasOwnInput = false) :
    ∃ t, takeCause x s = .next t ∧ RoutedTaken s t (CauseRoutes s x.info) (some (x.syndrome s.cfg s.pstate.M)) := by
  refine ⟨_, ?_, (s.takeRouted_taken (s.routedToEL2 x.info) _).congr (s.routedToEL2_iff x.info)⟩
  rw [takeCause, hc, ho]; rfl

theorem handleException_eq {s : State} {x : ExcCause} (h : x.info.beforeInstruction = true ∨ s.pstate.IL = false) :
    handleException x s = takeCause x s := by
  unfold handleException State.unlessIllegal
  rcases h with h | h <;> simp [h]

/-! ### Asynchronous exceptions (R525 to R528) -/

theorem State.takeAsync_taken (s : State) (k : AsyncException) : RoutedTaken s (s.takeAsync k) (TGERoutes s) (s.asyncSyndrome k) :=
  (s.takeRouted_taken s.tgeToEL2 _).congr s.tgeToEL2_iff

theorem State.asyncSyndrome_serror (s : State) (e : SErrorInfo) :
    s.asyncSyndrome (.serror e) = some (esrValue 0 0x2F true ((ExcInfo.serror e).iss s.cfg s.pstate.M)) := rfl

theorem State.asyncSyndrome_pmu (s : State) : s.asyncSyndrome .pmu = some 0xF6000000 := by
  have h : esrValue 0 0x3D true (0#24 ++ bit false) = 0xF6000000 := by decide
  exact congrArg some h

/-- One that can be taken is taken when it arrives. -/
theorem handleArrival_taken {s : State} {k : AsyncException} (ha : k.allowed s.cfg.synd = true) (ht : s.asyncTakeable k = true) :
    handleArrival k s = .next (s.takeAsync k) := by
  rw [handleArrival, if_pos ha, if_pos ht]

/-- One that cannot be taken is held. -/
theorem handleArrival_held {s : State} {k : AsyncException} (ha : k.allowed s.cfg.synd = true) (ht : s.asyncTakeable k = false) :
    handleArrival k s = .next (s.holdAsync k) := by
  rw [handleArrival, if_pos ha, ht]; rfl

/-- The step takes what is due before anything else. -/
theorem step_of_due {s : State} {k : AsyncException} {rest : List AsyncException} (hp : s.pendingEntry = none)
    (hd : s.dueAsync = k :: rest) : step s = .next (s.settle.takeDue k rest) := by
  have hp' : s.settle.pendingEntry = none := by rw [State.settle_frame]; exact hp
  have hd' : s.settle.dueAsync = k :: rest := by rw [State.settle_dueAsync]; exact hd
  unfold step
  generalize s.settle = q at *
  simp only [State.cycle, hp', hd']

/-- The one exception that is due is taken, and is pending no longer. -/
theorem step_of_due_alone {s : State} {k : AsyncException} (hp : s.pendingEntry = none) (hd : s.dueAsync = [k]) :
    ∃ t, step s = .next t ∧ RoutedTaken ((s.settle.skip 1).releaseAsync k) t (TGERoutes s) (s.asyncSyndrome k) := by
  obtain ⟨j, hj, ht⟩ := s.settle.takeDue_taken k []
  obtain rfl := List.mem_singleton.mp hj
  refine ⟨_, step_of_due hp hd, ?_⟩
  have hy : s.settle.asyncSyndrome j = s.asyncSyndrome j := by rw [State.settle_frame]; rfl
  have hr : s.settle.tgeToEL2 = true ↔ TGERoutes s := by rw [State.settle_frame, State.tgeToEL2_iff]; rfl
  rw [hy] at ht
  exact ht.congr hr

/-- A step from EL0 to EL1 has taken an exception to EL1, but for a reset or a power-up (R553, R588). -/
theorem entry_of_step {s t : State} (hinv : s.Inv) (h : step s = .next t) (h0 : s.pstate.EL = .el0) (h1 : t.pstate.EL = .el1) :
    (∃ (q : State) (y : Option Word), q.cfg = s.cfg ∧ q.pstate = { s.pstate with SS := q.pstate.SS } ∧ EntryEL1 q t y) ∨
    (∃ (i : Input) (u : State), (i = .warmReset ∨ i = .coldReset) ∧ s.offers i u) ∨
    (∃ (e : Env) (u : State), s.offers (.env e) u ∧ s.env.ext.corePowered = false ∧ e.ext.corePowered = true) := by
  have hend (hl : LevelEnd s t) :
      ∃ (q : State) (y : Option Word), q.cfg = s.cfg ∧ q.pstate = { s.pstate with SS := q.pstate.SS } ∧ EntryEL1 q t y := by
    refine hl.resolve_left fun he => ?_
    rw [h0, h1] at he; cases he
  rcases step_level h with ⟨e, he, hl⟩ | hl | ⟨i, u, ho, hi⟩
  · rw [h1] at hl
    rcases hinv.entry e he with he | he <;> rw [he] at hl <;> cases hl
  · exact Or.inl (hend hl)
  · have hp : u.pstate = s.pstate := by rw [State.offers_frame ho]
    have hu {t : State} (hl : LevelEnd u t) : LevelEnd s t := by
      obtain ⟨-, -, rest, -, rfl⟩ := ho
      exact hl.of_settle
    rcases handleInput_level hi with hl | rfl | rfl | ⟨e, rfl, hc, hp1⟩ | ⟨rfl, -⟩ | ⟨o, rfl, hol, hto⟩
    · exact Or.inl (hend (hu hl))
    · exact Or.inr (Or.inl ⟨_, u, Or.inl rfl, ho⟩)
    · exact Or.inr (Or.inl ⟨_, u, Or.inr rfl, ho⟩)
    · refine Or.inr (Or.inr ⟨e, u, ho, ?_, hp1⟩)
      rw [State.offers_frame ho] at hc
      exact hc
    · rcases State.unlessIllegal_next hi with rfl | hr
      · exact Or.inl (hend (hu u.takeIllegalState_level))
      · simp [handleReturn, hp, h0] at hr
    · rw [hto] at h1
      rcases OutsideStep.levelOk_cases hol with hl | ⟨hl | hl, -⟩ | ⟨hl | hl, -⟩
      · rw [h1, hp, h0] at hl; cases hl
      · rw [h1] at hl; cases hl
      · rw [h1] at hl; cases hl
      · rw [hp, h0] at hl; cases hl
      · rw [hp, h0] at hl; cases hl

/-- Settles O43: the four parts, each the lemma above in the state the input is taken in. -/
theorem exceptionEntry : Obligations.ExceptionEntry := by
  refine ⟨fun s u x ho hc hown hb => ?_, fun s u k ho ha hel hm => ?_, fun s t hinv h h0 h1 => entry_of_step hinv h h0 h1,
    fun s e rest hp hi hf hs hpmu hel hm => ?_⟩
  · have hcu : x.check u.cfg u.env u.pstate = true := by
      rw [State.offers_cfg ho, State.offers_env ho, State.offers_pstate ho]; exact hc
    obtain ⟨t, ht, hr⟩ := takeCause_taken hcu hown
    refine ⟨t, ?_, ?_⟩
    · rw [State.step_of_offers ho]
      exact (handleException_eq (by rw [State.offers_pstate ho]; exact hb)).trans ht
    · rw [State.offers_cfg ho, State.offers_pstate ho] at hr
      exact hr.congr (State.offers_causeRoutes ho _)
  · have ht : u.asyncTakeable k = true := by
      rw [State.offers_asyncTakeable ho]; exact (s.asyncTakeable_iff k).mpr ⟨hel, hm⟩
    refine ⟨u.takeAsync k, ?_, ?_⟩
    · rw [State.step_of_offers ho]
      exact handleArrival_taken (by rw [State.offers_cfg ho]; exact ha) ht
    · have hu := (u.takeAsync_taken k).congr (State.offers_tgeRoutes ho)
      cases k with
      | irq | fiq => exact hu
      | serror e =>
        rw [State.asyncSyndrome_serror, State.offers_cfg ho, State.offers_pstate ho] at hu
        exact hu
      | pmu =>
        rw [State.asyncSyndrome_pmu] at hu
        exact hu
  · have hd : s.dueAsync = [.serror e.delayed] := by
      have ht : s.asyncTakeable (.serror e.delayed) = true := (s.asyncTakeable_iff _).mpr ⟨hel, hm⟩
      simp [State.dueAsync, State.pendingAsync, hi, hf, hs, hpmu, ht]
    obtain ⟨t, hstep, ht⟩ := step_of_due_alone hp hd
    refine ⟨t, hstep, ?_⟩
    have hb : (s.settle.skip 1).releaseAsync (.serror e.delayed) = ({ s.settle with pendingSErrors := rest } : State).skip 1 := by
      simp [State.releaseAsync, hs, State.skip]
    rw [hb, State.asyncSyndrome_serror] at ht
    cases e <;> exact ht.of_skip

/-! ### IRQ and FIQ (R525, R526) -/

/-- Settles O46: arrivals without a syndrome are taken or held, and the one pending alone is due. -/
theorem interruptKeepsSyndrome : Obligations.InterruptKeepsSyndrome := by
  refine ⟨fun s u k hk ho hel => ⟨fun hm hr => ?_, fun hm hi => ?_, fun hm hf => ?_⟩, fun s hp hi hf hs hpmu hel hm => ?_⟩
  · have hy : u.asyncSyndrome k = none := by rcases hk with rfl | rfl <;> rfl
    have ha : k.allowed u.cfg.synd = true := by rcases hk with rfl | rfl <;> rfl
    have ht : u.asyncTakeable k = true := by
      rw [State.offers_asyncTakeable ho]; exact (s.asyncTakeable_iff k).mpr ⟨hel, hm⟩
    have he := (u.takeAsync_taken k).2 (mt (State.offers_tgeRoutes ho).mp hr)
    refine ⟨_, (State.step_of_offers ho).trans (handleArrival_taken ha ht), ?_⟩
    obtain ⟨hesr, hunk⟩ := he.esrKept hy
    obtain ⟨hspsr, hsunk⟩ := he.saved
    rw [State.offers_frame ho] at hesr hunk hspsr hsunk ⊢
    exact ⟨hesr, hunk, hspsr, hsunk⟩
  · subst hi
    have ht : u.asyncTakeable .irq = false := by
      rw [State.offers_asyncTakeable ho]; exact eq_false_of_iff (s.asyncTakeable_iff _) fun h => h.2 hm
    exact (State.step_of_offers ho).trans (handleArrival_held rfl ht)
  · subst hf
    have ht : u.asyncTakeable .fiq = false := by
      rw [State.offers_asyncTakeable ho]; exact eq_false_of_iff (s.asyncTakeable_iff _) fun h => h.2 hm
    exact (State.step_of_offers ho).trans (handleArrival_held rfl ht)
  · have hd : s.dueAsync = [.irq] := by
      have ht : s.asyncTakeable .irq = true := (s.asyncTakeable_iff _).mpr ⟨hel, hm⟩
      simp [State.dueAsync, State.pendingAsync, hi, hf, hs, hpmu, ht]
    obtain ⟨t, hstep, ht⟩ := step_of_due_alone hp hd
    exact ⟨t, hstep, ht.of_skip (s := { s.settle with pendingIRQ := false }) (k := 1)⟩

end Sys2Proof.Machine
end

