-- ==== Sys2Proof/Proofs/Syndromes.lean ====
section
/-! PROOFS. The syndromes of the 27 encodings: each field at its place, and 0 and 1 in the reserved bits (11_esr_el1 R60 to R80;
12_esr_iss_a; 13_esr_iss_b; 00_scope R14). -/

namespace Sys2Proof.Machine

open Sys2Proof

/-! ### The fields of each encoding -/

/-- A bit of a syndrome that lies within ISS. -/
theorem esrValue_getLsbD_iss (iss2 : BitVec 24) (ec : BitVec 6) (il : Bool) (iss : BitVec 25) {i : Nat} (h : i < 25) :
    (esrValue iss2 ec il iss).getLsbD i = iss.getLsbD i := by
  rw [esrValue_getLsbD, if_pos h]

/-- A bit of a syndrome that lies within ISS2. -/
theorem esrValue_getLsbD_iss2 (iss2 : BitVec 24) (ec : BitVec 6) (il : Bool) (iss : BitVec 25) {i : Nat} (h : 32 ≤ i) :
    (esrValue iss2 ec il iss).getLsbD i = iss2.getLsbD (i - 32) := by
  rw [esrValue_getLsbD, if_neg (by omega), if_neg (by omega), if_neg (by omega)]

/-- A field of a syndrome that lies above bit 31. -/
theorem esrValue_extract_high (iss2 : BitVec 24) (ec : BitVec 6) (il : Bool) (iss : BitVec 25) {lo n : Nat} (h : 32 ≤ lo) :
    (esrValue iss2 ec il iss).extractLsb' lo n = iss2.extractLsb' (lo - 32) n := by
  rw [← esrValue_extract_iss2 iss2 ec il iss, Nat.add_sub_cancel' h]

/-- The Exception class and the fields of ISS are at their places: EC is a field of the syndrome, and each field of ISS is one part of
the concatenation that ISS is. -/
theorem fieldsAt_esrValue (c : Config) (mode : BitVec 4) (el1 a32 : Bool) (iss2 : BitVec 24) (il : Bool) (i : ExcInfo) :
    FieldsAt c mode el1 a32 (esrValue iss2 (i.ec el1 a32) il (i.iss c mode)) i := by
  cases i with
  | unknownReason | sveAccess | illegalState | pcAlignment | spAlignment | svc | smeAccess | breakpointInstr | tstart | branchTarget =>
    simp (disch := decide) only [FieldsAt, esrEC_esrValue, esrValue_extract_iss, ExcInfo.ec, ExcInfo.iss,
      BitVec.extractLsb'_append_eq_of_add_le, BitVec.extractLsb'_append_eq_of_le]
    simp
  | breakpoint =>
    simp (disch := decide) only [FieldsAt, esrEC_esrValue, esrValue_extract_iss, ExcInfo.ec, ExcInfo.iss]
    exact ⟨trivial, rfl⟩
  | ls64 k =>
    simp (disch := decide) only [FieldsAt, esrEC_esrValue, esrValue_extract_iss, ExcInfo.ec]
    cases k <;> exact ⟨trivial, rfl⟩
  | wfx | mcr | mcrr | ldcStc | fpAccess | pmu | memoryOperation | sysAccess | sysAccess128 | instrAbort | fpTrap | softwareStep
  | watchpoint | pacFail =>
    simp (disch := decide) only [FieldsAt, CondAt, esrEC_esrValue, esrValue_getLsbD_iss, esrValue_extract_iss, ExcInfo.ec, ExcInfo.iss,
      sysAccessISS, BitVec.extractLsb'_append_eq_of_add_le, BitVec.extractLsb'_append_eq_of_le]
    simp only [BitVec.getLsbD_append]
    simp [debugStatus]
  | gcs g =>
    cases g <;>
      simp (disch := decide) only [FieldsAt, esrEC_esrValue, esrValue_getLsbD_iss, esrValue_extract_iss, ExcInfo.ec, ExcInfo.iss,
        BitVec.extractLsb'_append_eq_of_add_le, BitVec.extractLsb'_append_eq_of_le] <;>
      simp only [BitVec.getLsbD_append] <;> simp
  | serror e =>
    cases e <;>
      simp (disch := decide) only [FieldsAt, esrEC_esrValue, esrValue_getLsbD_iss, esrValue_extract_iss, ExcInfo.ec, ExcInfo.iss,
        BitVec.extractLsb'_append_eq_of_add_le, BitVec.extractLsb'_append_eq_of_le] <;>
      simp only [BitVec.getLsbD_append] <;> simp
  | dataAbort a =>
    obtain ⟨g⟩ := a
    cases g <;>
      simp (disch := decide) only [FieldsAt, DataAbortGroupAt, esrEC_esrValue, esrValue_getLsbD_iss, esrValue_extract_iss, ExcInfo.ec,
        ExcInfo.iss, DataAbortGroup.bits, BitVec.extractLsb'_append_eq_of_add_le, BitVec.extractLsb'_append_eq_of_le] <;>
      simp only [BitVec.getLsbD_append] <;> simp

theorem iss2FieldsAt_esrValue (ec : BitVec 6) (il : Bool) (iss : BitVec 25) (i : ExcInfo) :
    Iss2FieldsAt (esrValue i.iss2 ec il iss) i := by
  cases i with
  | dataAbort | instrAbort | watchpoint =>
    simp (disch := decide) only [Iss2FieldsAt, esrValue_getLsbD_iss2, esrValue_extract_high, ExcInfo.iss2,
      BitVec.extractLsb'_append_eq_of_add_le, BitVec.extractLsb'_append_eq_of_le]
    simp only [BitVec.getLsbD_append]
    simp
  | _ => exact (esrValue_extract_high _ _ _ _ (Nat.le_refl 32)).trans rfl

/-! ### Cells that hold 0 -/

/-- `v` holds 0 in every bit of the mask `m` laid over it from bit `lo` on. -/
def ClearAt {n : Nat} (v : Word) (lo : Nat) (m : BitVec n) : Prop := v.extractLsb' lo n &&& m = 0

theorem clearAt_iff {n : Nat} {v : Word} {lo : Nat} {m : BitVec n} :
    ClearAt v lo m ↔ ∀ i < n, m.getLsbD i = true → v.getLsbD (lo + i) = false := by
  unfold ClearAt
  constructor
  · intro h i hi hm
    have hb : (v.extractLsb' lo n &&& m).getLsbD i = (0 : BitVec n).getLsbD i := by rw [h]
    rw [BitVec.getLsbD_and, hm, Bool.and_true, BitVec.getLsbD_extractLsb', decide_eq_true hi, Bool.true_and] at hb
    simpa using hb
  · intro h
    refine BitVec.eq_of_getLsbD_eq fun i hi => ?_
    simp only [BitVec.getLsbD_and, BitVec.getLsbD_extractLsb', hi, decide_true, Bool.true_and]
    cases hm : m.getLsbD i <;> simp [h i hi, hm]

/-- A mask is clear when each of its parts is. -/
theorem clearAt_append {a b : Nat} (v : Word) (lo : Nat) (x : BitVec a) (y : BitVec b) :
    ClearAt v lo (x ++ y) ↔ ClearAt v (lo + b) x ∧ ClearAt v lo y := by
  simp only [clearAt_iff, BitVec.getLsbD_append]
  refine ⟨fun h => ⟨fun i hi hm => ?_, fun i hi hm => ?_⟩, fun ⟨hx, hy⟩ i hi hm => ?_⟩
  · have hb := h (b + i) (by omega)
    rw [if_neg (by omega), Nat.add_sub_cancel_left, ← Nat.add_assoc] at hb
    exact hb hm
  · have hb := h i (by omega)
    rw [if_pos hi] at hb
    exact hb hm
  · split at hm
    · exact hy i ‹_› hm
    · have hb := hx (i - b) (by omega) hm
      rwa [show lo + b + (i - b) = lo + i by omega] at hb

theorem clearAt_zero {n : Nat} (v : Word) (lo : Nat) : ClearAt v lo 0#n := BitVec.and_zero

theorem clearAt_of_field {n : Nat} {v : Word} {lo : Nat} (m : BitVec n) (h : v.extractLsb' lo n = 0) : ClearAt v lo m := by
  rw [ClearAt, h]; exact BitVec.zero_and

theorem clearAt_bit {v : Word} {lo : Nat} (m : BitVec 1) (h : v.getLsbD lo = false) : ClearAt v lo m := by
  rw [clearAt_iff]
  intro i hi _
  obtain rfl : i = 0 := by omega
  exact h

/-- The upper part of a register is RES0. -/
theorem clearAt_upper {a b : Nat} {v : Word} (m : BitVec a) (h : v.extractLsb' b a = 0) : ClearAt v 0 (m ++ 0#b) :=
  (clearAt_append ..).mpr ⟨clearAt_of_field m (by rwa [Nat.zero_add]), clearAt_zero v 0⟩

/-- A field that is RES0 unless its feature is present. -/
theorem clearAt_res0Unless {n : Nat} {v : Word} {lo : Nat} {p : Bool} (h : p = false → v.extractLsb' lo n = 0) :
    ClearAt v lo (res0Unless n p) := by
  cases p
  · exact clearAt_of_field _ (h rfl)
  · exact clearAt_zero v lo

theorem clearAt_res0Unless_bit {v : Word} {lo : Nat} {p : Bool} (h : p = false → v.getLsbD lo = false) :
    ClearAt v lo (res0Unless 1 p) := by
  cases p
  · exact clearAt_bit _ (h rfl)
  · exact clearAt_zero v lo

/-- Bits within a field that holds 0 hold 0. -/
theorem clearAt_within {n k : Nat} {v : Word} {lo hi : Nat} (m : BitVec n) (h : v.extractLsb' lo k = 0) (hlo : lo ≤ hi)
    (hhi : hi + n ≤ lo + k) : ClearAt v hi m := by
  rw [clearAt_iff]
  intro i hn _
  have hb : (v.extractLsb' lo k).getLsbD (hi - lo + i) = (0 : BitVec k).getLsbD (hi - lo + i) := by rw [h]
  rw [BitVec.getLsbD_extractLsb', decide_eq_true (by omega), show lo + (hi - lo + i) = hi + i by omega] at hb
  simpa using hb

/-! ### The RES0 bits of ISS (R63, R84) -/

/-- A field of a field. -/
theorem extract_of_extract {w lo n k m : Nat} (v : BitVec w) (h : k + m ≤ n) :
    (v.extractLsb' lo n).extractLsb' k m = v.extractLsb' (lo + k) m := by
  refine BitVec.eq_of_getLsbD_eq fun i hi => ?_
  rw [BitVec.getLsbD_extractLsb', BitVec.getLsbD_extractLsb', BitVec.getLsbD_extractLsb', decide_eq_true (by omega : k + i < n),
    Bool.true_and, Nat.add_assoc]

theorem esrISS_getLsbD (v : Word) {i : Nat} (h : i < 25) : (esrISS v).getLsbD i = v.getLsbD i := by
  simp [esrISS, h]

theorem esrISS_extract (v : Word) {lo n : Nat} (h : lo + n ≤ 25) : (esrISS v).extractLsb' lo n = v.extractLsb' lo n := by
  refine BitVec.eq_of_getLsbD_eq fun i hi => ?_
  rw [BitVec.getLsbD_extractLsb', BitVec.getLsbD_extractLsb', esrISS_getLsbD v (by omega)]

section
variable {c : Config} {e : Env} {p : PState} {el1 a32 : Bool} {v : Word}

/-- The mask of an SError whose ISS is not IMPLEMENTATION DEFINED (R220 to R231). -/
theorem issRes0_serror {iss : BitVec 25} (h : iss.getLsbD 24 = false) : issRes0 c 0x2F iss = if c.synd.ras then
    0#1 ++ 0x1F#5 ++ res0Unless 1 c.synd.serrELS ++ res0Unless 2 c.synd.serrWU ++ res0Unless 1 c.synd.serrVFV ++
      res0Unless 1 c.synd.pfar ++ res0Unless 1 c.synd.serrIESB ++ 0#4 ++ 1#1 ++ res0Unless 1 c.synd.serrWnRV ++ 0#7
    else 0#1 ++ 0x1F#5 ++ 1#1 ++ 3#2 ++ 1#1 ++ 1#1 ++ 1#1 ++ 7#3 ++ 1#1 ++ 1#1 ++ 1#1 ++ 1#1 ++ 0x3F#6 := by
  change (if iss.getLsbD 24 then _ else _) = _
  rw [h]
  rfl

theorem clearAt_issRes0_serror {i : SErrorInfo} (h : (ExcInfo.serror i).allowed c e p el1 a32 = true)
    (hv : FieldsAt c p.M el1 a32 v (.serror i)) : ClearAt v 0 (issRes0 c (esrEC v) (esrISS v)) := by
  obtain ⟨hec, hv⟩ := hv
  cases i with
  | implDefined payload =>
    obtain ⟨h24, -⟩ := hv
    have hm : issRes0 c (esrEC v) (esrISS v) = 0 := by
      rw [hec]; exact if_pos ((esrISS_getLsbD v (by decide)).trans h24)
    rw [hm]
    exact clearAt_zero v _
  | fields els wu vfv pfv iesb aet ea wnrv wnr dfsc =>
    obtain ⟨h24, hz, hels, hwu, hvfv, hpfv, hiesb, haet, hea, h8, hwnrv, hwnr, hdfsc⟩ := hv
    rw [ExcInfo.allowed, SErrorInfo.allowed] at h
    rw [hec, issRes0_serror ((esrISS_getLsbD v (by decide)).trans h24)]
    cases hr : c.synd.ras with
    | true =>
      rw [if_pos rfl]
      simp only [clearAt_append]
      refine ⟨⟨⟨⟨⟨⟨⟨⟨⟨⟨clearAt_zero v _, clearAt_of_field _ hz⟩, clearAt_res0Unless_bit fun hf => hels.trans ?_⟩,
        clearAt_res0Unless fun hf => hwu.trans ?_⟩, clearAt_res0Unless_bit fun hf => hvfv.trans ?_⟩,
        clearAt_res0Unless_bit fun hf => hpfv.trans ?_⟩, clearAt_res0Unless_bit fun hf => hiesb.trans ?_⟩, clearAt_zero v _⟩,
        clearAt_bit _ h8⟩, clearAt_res0Unless_bit fun hf => hwnrv.trans ?_⟩, clearAt_zero v _⟩ <;> grind
    | false =>
      have hzero : els = false ∧ wu = 0 ∧ vfv = false ∧ pfv = false ∧ iesb = false ∧ aet = 0 ∧ ea = false ∧ wnrv = false ∧
          wnr = false ∧ dfsc = 0 := by grind
      obtain ⟨rfl, rfl, rfl, rfl, rfl, rfl, rfl, rfl, rfl, rfl⟩ := hzero
      rw [if_neg Bool.false_ne_true]
      simp only [clearAt_append]
      exact ⟨⟨⟨⟨⟨⟨⟨⟨⟨⟨⟨⟨clearAt_zero v _, clearAt_of_field _ hz⟩, clearAt_bit _ hels⟩, clearAt_of_field _ hwu⟩, clearAt_bit _ hvfv⟩,
        clearAt_bit _ hpfv⟩, clearAt_bit _ hiesb⟩, clearAt_of_field _ haet⟩, clearAt_bit _ hea⟩, clearAt_bit _ h8⟩, clearAt_bit _ hwnrv⟩,
        clearAt_bit _ hwnr⟩, clearAt_of_field _ hdfsc⟩

theorem clearAt_issRes0_dataAbort {a : DataAbort} (h : (ExcInfo.dataAbort a).allowed c e p el1 a32 = true)
    (hv : FieldsAt c p.M el1 a32 v (.dataAbort a)) : ClearAt v 0 (issRes0 c (esrEC v) (esrISS v)) := by
  obtain ⟨hec, hgroup, h13, hlst, hfnv, -, -, -, -, hfsc⟩ := hv
  rw [ExcInfo.allowed, DataAbort.allowed] at h
  have hm : issRes0 c (esrEC v) (esrISS v) = 0#1 ++ res0Unless 6 (v.getLsbD 24) ++
      (if v.getLsbD 24 then 0#4 else res0Unless 2 c.synd.wu ++ res0Unless 1 (c.synd.sve || c.synd.sme) ++ res0Unless 1 c.synd.pfar) ++
      1#1 ++ res0Unless 2 (usesLST a.dfsc || (c.synd.ras && a.dfsc == 0b010000)) ++ res0Unless 1 (a.dfsc == 0b010000) ++ 0#10 := by
    rw [hec, ← hfsc, ← esrISS_extract v (by decide), ← esrISS_getLsbD v (by decide)]; cases el1 <;> rfl
  rw [hm]
  simp only [clearAt_append]
  have hlst0 : (usesLST a.dfsc || (c.synd.ras && a.dfsc == 0b010000)) = false → a.lstSet = 0 := by grind [setAllowed]
  have hfnv0 : (a.dfsc == 0b010000) = false → a.fnv = false := by grind
  refine ⟨⟨⟨⟨⟨⟨clearAt_zero v _, clearAt_res0Unless fun hi => ?_⟩, ?_⟩, clearAt_bit _ h13⟩,
    clearAt_res0Unless fun hs => hlst.trans (hlst0 hs)⟩, clearAt_res0Unless_bit fun hf => hfnv.trans (hfnv0 hf)⟩, clearAt_zero v _⟩
  · cases hg : a.group with
    | isv1 =>
      rw [hg] at hgroup
      exact absurd (hi.symm.trans hgroup.1) (by decide)
    | isv0 =>
      rw [hg] at hgroup
      exact hgroup.2.1
  · cases hg : a.group with
    | isv1 =>
      rw [hg] at hgroup
      rw [if_pos hgroup.1]
      exact clearAt_zero v _
    | isv0 wu fnp pfv =>
      rw [hg] at hgroup h
      obtain ⟨h24, -, hwu, hfnp, hpfv⟩ := hgroup
      rw [if_neg (by rw [h24]; decide)]
      simp only [clearAt_append]
      refine ⟨⟨clearAt_res0Unless fun hf => hwu.trans ?_, clearAt_res0Unless_bit fun hf => hfnp.trans ?_⟩,
        clearAt_res0Unless_bit fun hf => hpfv.trans ?_⟩ <;> grind

/-- A syndrome leaves 0 in the RES0 bits of ISS. -/
theorem clearAt_issRes0 {i : ExcInfo} (h : i.allowed c e p el1 a32 = true) (hv : FieldsAt c p.M el1 a32 v i) :
    ClearAt v 0 (issRes0 c (esrEC v) (esrISS v)) := by
  cases i with
  | unknownReason | illegalState | sveAccess | pcAlignment | spAlignment =>
    obtain ⟨hec, hz⟩ := hv
    rw [hec]
    exact clearAt_of_field _ hz
  | ls64 k =>
    obtain ⟨hec, -⟩ := hv
    rw [hec]
    exact clearAt_zero v 0
  | mcr coproc15 =>
    obtain ⟨hec, -⟩ := hv
    rw [hec]
    cases coproc15 <;> exact clearAt_zero v 0
  | mcrr coproc15 =>
    obtain ⟨hec, -, -, hz, -⟩ := hv
    have hm : issRes0 c (esrEC v) (esrISS v) = 0#9 ++ 1#1 ++ 0#15 := by rw [hec]; cases coproc15 <;> rfl
    rw [hm]
    simp only [clearAt_append]
    exact ⟨⟨clearAt_zero v _, clearAt_bit _ hz⟩, clearAt_zero v _⟩
  | svc | breakpointInstr =>
    obtain ⟨hec, hz, -⟩ := hv
    rw [hec]
    cases a32 <;> exact clearAt_upper 0x1FF#9 hz
  | fpAccess =>
    obtain ⟨hec, -, hz⟩ := hv
    have hm : issRes0 c (esrEC v) (esrISS v) = 0#5 ++ 0xFFFFF#20 := by rw [hec]; rfl
    rw [hm]
    simp only [clearAt_append]
    exact ⟨clearAt_zero v _, clearAt_of_field _ hz⟩
  | ldcStc =>
    obtain ⟨hec, -, -, hz, -⟩ := hv
    have hm : issRes0 c (esrEC v) (esrISS v) = 0#13 ++ 3#2 ++ 0#10 := by rw [hec]; rfl
    rw [hm]
    simp only [clearAt_append]
    exact ⟨⟨clearAt_zero v _, clearAt_of_field _ hz⟩, clearAt_zero v _⟩
  | branchTarget | pacFail =>
    obtain ⟨hec, hz, -⟩ := hv
    rw [hec]
    exact clearAt_upper 0x7FFFFF#23 hz
  | pmu =>
    obtain ⟨hec, hz, -⟩ := hv
    rw [hec]
    exact clearAt_upper 0xFFFFFF#24 hz
  | smeAccess =>
    obtain ⟨hec, hz, -⟩ := hv
    rw [hec]
    exact clearAt_upper 0x3FFFFF#22 hz
  | sysAccess =>
    obtain ⟨hec, hz, -⟩ := hv
    rw [hec]
    exact clearAt_upper 7#3 hz
  | sysAccess128 =>
    obtain ⟨hec, hz, -, -, -, -, -, hz5, -⟩ := hv
    have hm : issRes0 c (esrEC v) (esrISS v) = 7#3 ++ 0#16 ++ 1#1 ++ 0#5 := by rw [hec]; rfl
    rw [hm]
    simp only [clearAt_append]
    exact ⟨⟨⟨clearAt_of_field _ hz, clearAt_zero v _⟩, clearAt_bit _ hz5⟩, clearAt_zero v _⟩
  | tstart =>
    obtain ⟨hec, hz, -, hz0⟩ := hv
    have hm : issRes0 c (esrEC v) (esrISS v) = 0x7FFF#15 ++ 0#5 ++ 0x1F#5 := by rw [hec]; rfl
    rw [hm]
    simp only [clearAt_append]
    exact ⟨⟨clearAt_of_field _ hz, clearAt_zero v _⟩, clearAt_of_field _ hz0⟩
  | breakpoint =>
    obtain ⟨hec, hz⟩ := hv
    have hu := congrArg (BitVec.extractLsb' 6 19) hz
    rw [extract_of_extract _ (by decide)] at hu
    rw [hec]
    cases el1 <;> exact clearAt_upper 0x7FFFF#19 hu
  | fpTrap =>
    obtain ⟨hec, h24, -, hz, -, -, hz5, -⟩ := hv
    have hm : issRes0 c (esrEC v) (esrISS v) = 1#1 ++ 0#1 ++ 0xFFF#12 ++ 0#4 ++ 3#2 ++ 0#5 := by rw [hec]; cases a32 <;> rfl
    rw [hm]
    simp only [clearAt_append]
    exact ⟨⟨⟨⟨⟨clearAt_bit _ h24, clearAt_zero v _⟩, clearAt_of_field _ hz⟩, clearAt_zero v _⟩, clearAt_of_field _ hz5⟩,
      clearAt_zero v _⟩
  | softwareStep isv ex =>
    obtain ⟨hec, h24, hz, h6, -⟩ := hv
    have hm : issRes0 c (esrEC v) (esrISS v) = 0#1 ++ 0x1FFFF#17 ++ res0Unless 1 (v.getLsbD 24) ++ 0#6 := by
      rw [hec, ← esrISS_getLsbD v (by decide)]; cases el1 <;> rfl
    rw [hm]
    simp only [clearAt_append]
    refine ⟨⟨⟨clearAt_zero v _, clearAt_of_field _ hz⟩, clearAt_res0Unless_bit fun hi => ?_⟩, clearAt_zero v _⟩
    rw [h24] at hi
    rw [ExcInfo.allowed, hi] at h
    exact h6.trans (by simpa using h)
  | wfx cv cond rn rv ti =>
    obtain ⟨hec, -, hz, hrn, hz3, hrv, hti⟩ := hv
    have h1 : v.getLsbD 1 = ti.getLsbD 1 := by rw [← hti]; simp
    have hm : issRes0 c (esrEC v) (esrISS v) = 0#5 ++ 0x3FF#10 ++ res0Unless 5 c.synd.wfxt ++ 3#2 ++
        res0Unless 1 (c.synd.wfxt && v.getLsbD 1) ++ res0Unless 1 c.synd.wfxt ++ 0#1 := by
      rw [hec, ← esrISS_getLsbD v (by decide)]; rfl
    rw [hm]
    simp only [clearAt_append]
    rw [ExcInfo.allowed] at h
    refine ⟨⟨⟨⟨⟨⟨clearAt_zero v _, clearAt_of_field _ hz⟩, clearAt_res0Unless fun hw => hrn.trans ?_⟩, clearAt_of_field _ hz3⟩,
      clearAt_res0Unless_bit fun hw => hrv.trans ?_⟩, clearAt_res0Unless_bit fun hw => h1.trans ?_⟩, clearAt_zero v _⟩
    · rw [hw] at h; simp at h; grind
    · rw [h1] at hw; grind
    · rw [hw] at h; simp at h; grind
  | memoryOperation memInst isSETG options =>
    obtain ⟨hec, h24, -, ho, -, -, -, h15, -⟩ := hv
    have hm : issRes0 c (esrEC v) (esrISS v) = 0#2 ++ res0Unless 2 (!v.getLsbD 24) ++ 0#5 ++ 1#1 ++ 0#15 := by
      rw [hec, ← esrISS_getLsbD v (by decide)]; rfl
    have ho2 : v.extractLsb' 21 2 = options.extractLsb' 2 2 := by rw [← ho, extract_of_extract _ (by decide)]
    rw [hm]
    simp only [clearAt_append]
    refine ⟨⟨⟨⟨clearAt_zero v _, clearAt_res0Unless fun hi => ho2.trans ?_⟩, clearAt_zero v _⟩, clearAt_bit _ h15⟩, clearAt_zero v _⟩
    rw [h24] at hi
    rw [ExcInfo.allowed] at h
    grind
  | gcs g =>
    obtain ⟨hec, h24, hz, hg⟩ := hv
    have hm : issRes0 c (esrEC v) (esrISS v) = 1#1 ++ 0#4 ++ 0x1F#5 ++ res0Unless 5 (v.extractLsb' 20 4 == 2) ++
        res0Unless 5 (v.extractLsb' 20 4 == 0 || v.extractLsb' 20 4 == 2) ++ res0Unless 5 (v.extractLsb' 20 4 == 0) := by
      rw [hec, ← esrISS_extract v (by decide)]; rfl
    rw [hm]
    simp only [clearAt_append]
    have htop : ClearAt v (15 + 5 + 4) 1#1 := clearAt_bit _ h24
    cases g with
    | dataCheck rn it =>
      obtain ⟨hx, hz10, -⟩ := hg
      rw [hx]
      exact ⟨⟨⟨⟨⟨htop, clearAt_zero v _⟩, clearAt_of_field _ hz⟩, clearAt_of_field _ hz10⟩, clearAt_zero v _⟩, clearAt_zero v _⟩
    | exlock =>
      obtain ⟨hx, hz0⟩ := hg
      exact ⟨⟨⟨⟨⟨htop, clearAt_zero v _⟩, clearAt_of_field _ hz⟩, clearAt_within _ hz0 (by decide) (by decide)⟩,
        clearAt_within _ hz0 (by decide) (by decide)⟩, clearAt_within _ hz0 (by decide) (by decide)⟩
    | strTrap raddr rvalue =>
      obtain ⟨hx, -, -, hz0⟩ := hg
      rw [hx]
      exact ⟨⟨⟨⟨⟨htop, clearAt_zero v _⟩, clearAt_of_field _ hz⟩, clearAt_zero v _⟩, clearAt_zero v _⟩, clearAt_of_field _ hz0⟩
  | instrAbort a =>
    obtain ⟨hec, hz, hpfv, h13, hset, hfnv, -, h8, -, h6, hfsc⟩ := hv
    have hm : issRes0 c (esrEC v) (esrISS v) = 0x3FF#10 ++ res0Unless 1 c.synd.pfar ++ 1#1 ++
        res0Unless 2 (c.synd.ras && a.ifsc == 0b010000) ++ res0Unless 1 (a.ifsc == 0b010000) ++ 0#1 ++ 1#1 ++ 0#1 ++ 1#1 ++ 0#6 := by
      rw [hec, ← hfsc, ← esrISS_extract v (by decide)]; cases el1 <;> rfl
    rw [hm]
    simp only [clearAt_append]
    rw [ExcInfo.allowed, InstrAbort.allowed] at h
    refine ⟨⟨⟨⟨⟨⟨⟨⟨⟨clearAt_of_field _ hz, clearAt_res0Unless_bit fun hp => hpfv.trans ?_⟩, clearAt_bit _ h13⟩,
      clearAt_res0Unless fun hs => hset.trans ?_⟩, clearAt_res0Unless_bit fun hf => hfnv.trans ?_⟩, clearAt_zero v _⟩, clearAt_bit _ h8⟩,
      clearAt_zero v _⟩, clearAt_bit _ h6⟩, clearAt_zero v _⟩
    · grind
    · grind [setAllowed]
    · grind
  | watchpoint w =>
    obtain ⟨hec, h24, hwpt, hwptv, -, -, hz, -, h9, -, h7, -⟩ := hv
    have hm : issRes0 c (esrEC v) (esrISS v) = 1#1 ++ res0Unless 6 (wptPresent c || v.getLsbD 17) ++ 0#3 ++ 0xF#4 ++ 0#1 ++ 1#1 ++ 0#1 ++
        1#1 ++ 0#7 := by
      rw [hec, ← esrISS_getLsbD v (by decide)]; cases el1 <;> rfl
    rw [hm]
    simp only [clearAt_append]
    refine ⟨⟨⟨⟨⟨⟨⟨⟨clearAt_bit _ h24, clearAt_res0Unless fun hw => hwpt.trans ?_⟩, clearAt_zero v _⟩, clearAt_of_field _ hz⟩,
      clearAt_zero v _⟩, clearAt_bit _ h9⟩, clearAt_zero v _⟩, clearAt_bit _ h7⟩, clearAt_zero v _⟩
    rw [hwptv] at hw
    rw [ExcInfo.allowed, WatchpointInfo.allowed] at h
    grind
  | serror e => exact clearAt_issRes0_serror h hv
  | dataAbort a => exact clearAt_issRes0_dataAbort h hv

/-! ### The RES0 bits of ISS2 (11_esr_el1 R65 to R79) -/

/-- A syndrome leaves 0 in the RES0 bits of ISS2. -/
theorem clearAt_iss2Res0 {i : ExcInfo} (h : i.allowed c e p el1 a32 = true) (hv : FieldsAt c p.M el1 a32 v i) (hv2 : Iss2FieldsAt v i) :
    ClearAt v 32 (iss2Res0 c (esrEC v) (esrISS v)) := by
  cases i with
  | instrAbort a =>
    obtain ⟨hz, ha, ho, hz0⟩ := hv2
    obtain ⟨hec, -, -, -, -, -, -, -, -, -, hfsc⟩ := hv
    have hm : iss2Res0 c (esrEC v) (esrISS v) = 0xFFFF#16 ++ res0Unless 1 c.synd.assuredOnly ++
        res0Unless 1 (c.synd.s1poe && isPermissionFault a.ifsc) ++ 0x3F#6 := by
      rw [hec, ← hfsc, ← esrISS_extract v (by decide)]; cases el1 <;> rfl
    rw [hm]
    simp only [clearAt_append]
    rw [ExcInfo.allowed, InstrAbort.allowed] at h
    refine ⟨⟨⟨clearAt_of_field _ hz, clearAt_res0Unless_bit fun hf => ha.trans ?_⟩, clearAt_res0Unless_bit fun hf => ho.trans ?_⟩,
      clearAt_of_field _ hz0⟩ <;> grind
  | watchpoint w =>
    obtain ⟨hz, hg, hz0⟩ := hv2
    obtain ⟨hec, -⟩ := hv
    have hm : iss2Res0 c (esrEC v) (esrISS v) = 0x7FFF#15 ++ res0Unless 1 c.synd.gcs ++ 0xFF#8 := by
      rw [hec]; cases el1 <;> rfl
    rw [hm]
    simp only [clearAt_append]
    rw [ExcInfo.allowed, WatchpointInfo.allowed] at h
    refine ⟨⟨clearAt_of_field _ hz, clearAt_res0Unless_bit fun hf => hg.trans ?_⟩, clearAt_of_field _ hz0⟩
    grind
  | dataAbort a =>
    obtain ⟨hz, htnd, htag, hgcs, hao, hov, hdb, hxs⟩ := hv2
    obtain ⟨hec, -, -, hlst, -, -, -, -, hwnr, hfsc⟩ := hv
    have hm : iss2Res0 c (esrEC v) (esrISS v) = 0x1FFF#13 ++ res0Unless 1 (c.synd.mteCanonicalTags && isPermissionFault a.dfsc) ++
        res0Unless 1 c.synd.tagAccess ++ res0Unless 1 c.synd.gcs ++ res0Unless 1 c.synd.assuredOnly ++
        res0Unless 1 (c.synd.s1poe && isPermissionFault a.dfsc) ++
        res0Unless 1 (c.synd.s1pie && isPermissionFault a.dfsc && a.wnr) ++
        res0Unless 5 (usesLST a.dfsc && ((a.lstSet == 0b01 && c.synd.ls64v) || (a.lstSet == 0b11 && c.synd.ls64accdata))) := by
      rw [hec, ← hfsc, ← hlst, ← hwnr, ← esrISS_extract v (by decide), ← esrISS_extract v (by decide), ← esrISS_getLsbD v (by decide)]
      cases el1 <;> rfl
    rw [hm]
    simp only [clearAt_append]
    rw [ExcInfo.allowed, DataAbort.allowed] at h
    refine ⟨⟨⟨⟨⟨⟨⟨clearAt_of_field _ hz, clearAt_res0Unless_bit fun hf => htnd.trans ?_⟩, clearAt_res0Unless_bit fun hf => htag.trans ?_⟩,
      clearAt_res0Unless_bit fun hf => hgcs.trans ?_⟩, clearAt_res0Unless_bit fun hf => hao.trans ?_⟩,
      clearAt_res0Unless_bit fun hf => hov.trans ?_⟩, clearAt_res0Unless_bit fun hf => hdb.trans ?_⟩,
      clearAt_res0Unless fun hf => hxs.trans ?_⟩ <;> grind
  | _ => exact clearAt_of_field _ hv2

/-! ### The whole register (R63, R207) -/

/-- A syndrome leaves 0 in every RES0 bit of ESR_EL1. -/
theorem clearAt_esrRes0 {i : ExcInfo} (h : i.allowed c e p el1 a32 = true) (hv : FieldsAt c p.M el1 a32 v i) (hv2 : Iss2FieldsAt v i)
    (htop : v.extractLsb' 56 8 = 0) : ClearAt v 0 (esrRes0 c v) := by
  unfold esrRes0
  simp only [clearAt_append]
  refine ⟨⟨⟨clearAt_of_field _ htop, clearAt_iss2Res0 h hv hv2⟩, clearAt_zero v _⟩, ?_⟩
  split
  · exact clearAt_issRes0 h hv
  · exact clearAt_zero v 0

/-- Class 0x28 is that of a floating-point exception from AArch32 state, whose VECITR is all ones (R207). -/
theorem vecitr_of_class {i : ExcInfo} (h : i.allowed c e p el1 a32 = true) (hec : i.ec el1 a32 = 0x28)
    (hv : FieldsAt c p.M el1 a32 v i) : v.extractLsb' 8 3 = 0b111 := by
  cases i with
  | fpTrap tfv vecitr =>
    obtain ⟨-, -, -, -, hvec, -⟩ := hv
    cases a32 with
    | true =>
      rw [ExcInfo.allowed] at h
      exact hvec.trans (by grind)
    | false => exact absurd hec (by simp [ExcInfo.ec])
  | mcr coproc15 | mcrr coproc15 => cases coproc15 <;> exact absurd hec (by simp [ExcInfo.ec])
  | svc | breakpointInstr => cases a32 <;> exact absurd hec (by simp [ExcInfo.ec])
  | instrAbort | dataAbort | breakpoint | softwareStep | watchpoint => cases el1 <;> exact absurd hec (by simp [ExcInfo.ec])
  | _ => exact absurd hec (by simp [ExcInfo.ec])

/-- A value with VECITR all ones holds 1 in the RES1 bits of that class. -/
theorem and_vecitr {v : Word} (h : v.extractLsb' 8 3 = 0b111) : v &&& 0x700 = 0x700 := by
  refine BitVec.eq_of_getLsbD_eq fun i hi => ?_
  have hb (k : Nat) (hk : k < 3) : v.getLsbD (8 + k) = true := by
    have hx : (v.extractLsb' 8 3).getLsbD k = (0b111#3).getLsbD k := by rw [h]; rfl
    rw [BitVec.getLsbD_extractLsb', decide_eq_true hk, Bool.true_and] at hx
    rw [hx]
    interval_cases k <;> rfl
  have hm : (0x700#64).getLsbD i = true → ∃ k < 3, i = 8 + k := by interval_cases i <;> decide
  rw [BitVec.getLsbD_and]
  cases hm1 : (0x700#64).getLsbD i
  · exact Bool.and_false _
  · obtain ⟨k, hk, rfl⟩ := hm hm1
    rw [hb k hk]; rfl

end

/-- Settles O44: the layout of the four fields, the places of the fields of each encoding, and what follows for the reserved bits. -/
theorem syndromeLayout : Obligations.SyndromeLayout := by
  refine ⟨fun iss2 ec il iss => ⟨esrValue_eq_or iss2 ec il iss, esrValue_top iss2 ec il iss, esrISS2_esrValue iss2 ec il iss,
    esrEC_esrValue iss2 ec il iss, esrIL_esrValue iss2 ec il iss, esrISS_esrValue iss2 ec il iss⟩,
    fun c mode x => ⟨fieldsAt_esrValue .., iss2FieldsAt_esrValue .., esrIL_esrValue .., esrValue_top ..⟩, fun c e p x hc => ?_⟩
  obtain ⟨-, ha⟩ := (Bool.and_eq_true ..).mp hc
  have hv : FieldsAt c p.M x.fromEL1 x.fromAArch32 (x.syndrome c p.M) x.info := fieldsAt_esrValue ..
  have hv2 : Iss2FieldsAt (x.syndrome c p.M) x.info := iss2FieldsAt_esrValue ..
  constructor
  · have h0 := clearAt_esrRes0 ha hv hv2 (esrValue_top ..)
    rwa [ClearAt, BitVec.extractLsb'_eq_self] at h0
  · unfold esrRes1
    split
    · rename_i hec
      rw [Bool.and_eq_true, beq_iff_eq, ExcCause.syndrome, esrEC_esrValue] at hec
      exact and_vecitr (vecitr_of_class ha hec.1 hv)
    · exact BitVec.and_zero

end Sys2Proof.Machine
end

