-- ==== Sys2Proof/Proofs/DebugExceptions.lean ====
section
/-! PROOFS. Software Step, breakpoints and watchpoints (60_exceptions R555 to R559; 15_debug_regs R321 to R335). -/

namespace Sys2Proof.Machine

open Sys2Proof

/-! ### Where debug exceptions are enabled (R559) -/

section
variable {s u : State} {i : Input}

theorem State.offers_stepActive (h : s.offers i u) : u.stepActive = s.stepActive := by rw [State.offers_frame h]; rfl

end

/-- Within EL0, and within EL1 by KDE with PSTATE.D clear, they are enabled whatever the routing. -/
theorem State.debugLocal_of_within {s : State} (h : DebugWithin s) : s.debugLocal = true := by
  rcases h with h | ⟨h, hk, hd⟩
  · simp [State.debugLocal, h]
  · simp [State.debugLocal, h, hk, hd]

theorem State.debugEnabled_of_within {s : State} (hh : s.env.dbg.haltOnBpWp = false) (hm : s.mdscr.getLsbD 15 = true)
    (h : DebugWithin s) : s.debugEnabled = true := by
  rw [State.debugEnabled, hh, hm, State.debugLocal_of_within h]; rfl

theorem State.takeDebugException_taken (s : State) (i : ExcInfo) :
    RoutedTaken s (s.takeDebugException i) (DebugRoutes s) (some (s.debugSyndrome i)) :=
  (s.takeRouted_taken s.debugToEL2 _).congr s.debugToEL2_iff

/-- What a match does while halting on it is off: the exception where it is enabled, and nothing where MDE is 0. -/
theorem State.debugMatch_taken {s : State} (hh : s.env.dbg.haltOnBpWp = false) (hm : s.mdscr.getLsbD 15 = true) (h : DebugWithin s)
    (i : ExcInfo) : RoutedTaken s (s.debugMatch i) (DebugRoutes s) (some (s.debugSyndrome i)) := by
  rw [State.debugMatch, hh, State.debugEnabled_of_within hh hm h]
  exact s.takeDebugException_taken i

theorem State.debugMatch_disabled {s : State} (hh : s.env.dbg.haltOnBpWp = false) (hm : s.mdscr.getLsbD 15 = false) (i : ExcInfo) :
    s.debugMatch i = s := by
  rw [State.debugMatch, State.debugEnabled, hh, hm]
  rfl

/-! ### Software Step (R557) -/

theorem handleStepped_eq {isv ex : Bool} {s : State} (h : isv = true ∨ ex = false) :
    handleStepped isv ex s = .next (if s.stepActive then s.clearSS.takeDebugException (.softwareStep isv ex) else s) := by
  rw [handleStepped, if_pos (by rcases h with rfl | rfl <;> simp)]

theorem State.debugSyndrome_softwareStep (s : State) (isv ex : Bool) : s.debugSyndrome (.softwareStep isv ex)
    = esrValue 0 (if s.pstate.EL = .el1 then 0x33 else 0x32) true (bit isv ++ 0#17 ++ bit ex ++ 0b100010#6) := by
  simp only [State.debugSyndrome, ExcCause.syndrome, ExcInfo.ec, ExcInfo.iss, ExcInfo.iss2, beq_iff_eq]
  rfl

/-- Settles O50: the exception is taken from the state whose PSTATE.SS is clear. -/
theorem softwareStep : Obligations.SoftwareStep := by
  refine fun s u isv ex ho h => ⟨fun hs => ?_, fun hs hw => ?_⟩
  · have ha : u.stepActive = false := by rw [State.offers_stepActive ho, State.stepActive, hs]; rfl
    refine (State.step_of_offers ho).trans ((handleStepped_eq h).trans ?_)
    rw [ha]; rfl
  · have ha : u.stepActive = true := by
      rw [State.offers_stepActive ho, State.stepActive, hs, State.debugLocal_of_within hw]; rfl
    refine ⟨u.clearSS.takeDebugException (.softwareStep isv ex), ?_, ?_⟩
    · refine (State.step_of_offers ho).trans ((handleStepped_eq h).trans ?_)
      rw [ha]; rfl
    · have ht := u.clearSS.takeDebugException_taken (.softwareStep isv ex)
      rw [State.debugSyndrome_softwareStep] at ht
      have hel : u.clearSS.pstate.EL = s.pstate.EL := by
        rw [← State.offers_pstate ho]; rfl
      rw [hel] at ht
      exact ht.congr (State.offers_debugRoutes (u := u) ho)

/-! ### Breakpoints (R556) -/

theorem State.debugSyndrome_breakpoint (s : State) :
    s.debugSyndrome .breakpoint = if s.pstate.EL = .el1 then 0xC6000022 else 0xC2000022 := by
  have h1 : esrValue 0 0x31 true (0#19 ++ debugStatus) = 0xC6000022 := by decide
  have h0 : esrValue 0 0x30 true (0#19 ++ debugStatus) = 0xC2000022 := by decide
  simp only [State.debugSyndrome, ExcCause.syndrome, ExcInfo.ec, ExcInfo.iss, ExcInfo.iss2, beq_iff_eq]
  split
  · exact h1
  · exact h0

/-- Settles O51: the comparand holds, so the match is what MDE and the level make of it. -/
theorem breakpointException : Obligations.BreakpointException := by
  intro s u n a ho hn hc hh
  have hstep : step s = .next (u.debugMatch .breakpoint) := by
    rw [State.step_of_offers ho]
    refine if_pos ?_
    rw [State.offers_frame ho]
    exact (Bool.and_eq_true ..).mpr ⟨decide_eq_true hn, hc⟩
  have hhu : u.env.dbg.haltOnBpWp = false := by rw [State.offers_env ho]; exact hh
  refine ⟨fun hm => ?_, fun hm hw => ⟨_, hstep, ?_⟩⟩
  · rw [hstep, State.debugMatch_disabled hhu (by rw [State.offers_mdscr ho]; exact hm)]
  · have hwu : DebugWithin u := by rw [State.offers_frame ho]; exact hw
    have ht := State.debugMatch_taken hhu (by rw [State.offers_mdscr ho]; exact hm) hwu .breakpoint
    rw [State.debugSyndrome_breakpoint, State.offers_pstate ho] at ht
    exact ht.congr (State.offers_debugRoutes ho)

/-! ### Which accesses a watchpoint matches (R322 to R335) -/

theorem lscAdmits_iff (lsc : BitVec 2) (a : DataAccess) : lscAdmits lsc a = true ↔
    if a.isAtomic then lsc ≠ 0 else if a.isWrite then lsc.getLsbD 1 = true else lsc.getLsbD 0 = true := by
  unfold lscAdmits
  cases a.isAtomic <;> cases a.isWrite <;> simp

/-- A doubleword is watched byte by byte: a byte of the access is one of the doubleword where their difference is within the access. -/
theorem bytesWatched_all {wvr : Word} (h : wvr.getLsbD 2 = false) (a : DataAccess) : bytesWatched wvr 0xFF a = true ↔
    ∃ j < a.size, ∃ k < 8, a.addr + BitVec.ofNat 64 j = wvr + BitVec.ofNat 64 k := by
  have hall : ∀ k < 8, (0xFF#8).getLsbD k = true := by decide
  unfold bytesWatched
  rw [List.any_eq_true]
  constructor
  · rintro ⟨k, hk, hd⟩
    simp only [Bool.and_eq_true, decide_eq_true_eq] at hd
    refine ⟨_, hd.2, k, List.mem_range.mp hk, ?_⟩
    rw [BitVec.ofNat_toNat, BitVec.setWidth_eq, BitVec.add_comm, BitVec.sub_add_cancel]
  · rintro ⟨j, hj, k, hk, he⟩
    refine ⟨k, List.mem_range.mpr hk, ?_⟩
    have hdiff : wvr + BitVec.ofNat 64 k - a.addr = BitVec.ofNat 64 j := by rw [← he]; bv_omega
    have hlt : (BitVec.ofNat 64 j).toNat < a.size := Nat.lt_of_le_of_lt (by rw [BitVec.toNat_ofNat]; exact Nat.mod_le _ _) hj
    simp only [Bool.and_eq_true, decide_eq_true_eq]
    exact ⟨⟨hall k hk, by rw [h]; simp⟩, by rw [hdiff]; exact hlt⟩

theorem addressMatch_all {wvr wcr : Word} (hb : wcr.extractLsb' 5 8 = 0xFF) (hm : wcr.extractLsb' 24 5 = 0) (a : DataAccess)
    (c d : Word) : addressMatch wvr wcr a c d = bytesWatched wvr 0xFF a := by
  have hv : basValid 255#8 = true := by decide
  simp [addressMatch, effectiveMask, hb, hm, hv]

theorem State.watchpointEnabled_iff (s : State) (n : Nat) : s.watchpointEnabled n = true ↔ (s.wcr n).getLsbD 0 = true ∧
    ¬ (s.cfg.dbg.debugv8p9 = true ∧ 16 ≤ n ∧ ((s.env.dbg.haltOnBpWp = false ∧ s.env.dbg.ebwe = false) ∨
      (s.env.dbg.haltOnBpWp = true ∧ s.env.dbg.edscr2EBWE = false))) := by
  simp only [State.watchpointEnabled, Bool.and_eq_true, Bool.not_eq_true', Bool.and_eq_false_iff, Bool.or_eq_false_iff]
  grind

theorem State.linkedBreakpoint_eq (s : State) (n : Nat) : s.linkedBreakpoint n =
    (if s.cfg.dbg.debugv8p9 then 16 * ((s.wcr n).extractLsb' 30 2).toNat else 0) + ((s.wcr n).extractLsb' 16 4).toNat := by
  unfold State.linkedBreakpoint
  rw [BitVec.toNat_append, ← Nat.shiftLeft_add_eq_or_of_lt (BitVec.isLt _), Nat.shiftLeft_eq]
  split
  · omega
  · simp

/-- Settles O52: the conditions in the order they are tested in. -/
theorem watchpointMatch : Obligations.WatchpointMatch := by
  intro s a n h hb hm hv
  have hw : s.env.dbg.dbgwvr.toArray[n]?.getD 0 = s.env.dbg.dbgwvr[n] := by simp [h]
  have hv2 : s.env.dbg.dbgwvr[n].getLsbD 2 = false := by
    have h2 := congrArg (BitVec.getLsbD · 2) hv
    simpa using h2
  have h3 : ((s.wcr n).extractLsb' 3 2).getLsbD 0 = (s.wcr n).getLsbD 3 := by simp
  have h4 : ((s.wcr n).extractLsb' 3 2).getLsbD 1 = (s.wcr n).getLsbD 4 := by simp
  rw [State.watchpointMatch, hw, addressMatch_all hb hm]
  simp only [Bool.and_eq_true, decide_eq_true_eq, s.watchpointEnabled_iff, lscAdmits_iff, bytesWatched_all hv2, h3, h4,
    State.watchpointStateMatch, Bool.or_eq_true, Bool.not_eq_true', s.linkedBreakpoint_eq]
  grind

/-! ### Watchpoint exceptions (R555) -/

theorem State.watchpointsMatching_eq_nil (s : State) (a : DataAccess) :
    s.watchpointsMatching a = [] ↔ ∀ n < 64, s.watchpointMatch a n = false := by
  simp [State.watchpointsMatching]

theorem State.mem_watchpointsMatching (s : State) (a : DataAccess) (n : Nat) :
    n ∈ s.watchpointsMatching a ↔ n < 64 ∧ s.watchpointMatch a n = true := by
  simp [State.watchpointsMatching]

theorem handleAccess_of_nil {s : State} {a : DataAccess} (h : s.watchpointsMatching a = []) : handleAccess a s = .next (s.skip 65) := by
  simp only [handleAccess, h]

theorem handleAccess_of_cons {s : State} {a : DataAccess} {n : Nat} {rest : List Nat} (h : s.watchpointsMatching a = n :: rest) :
    handleAccess a s = .next ((s.skip 65).debugMatch (.watchpoint (s.watchpointInfo a n rest))) := by
  simp only [handleAccess, h]

/-- With FEAT_Debugv8p9 the exception reports one of the watchpoints that match (R259). -/
theorem State.watchpointInfo_wpt (s : State) (a : DataAccess) (n : Nat) (rest : List Nat) (h : s.cfg.dbg.debugv8p9 = true) :
    (s.watchpointInfo a n rest).wptv = true ∧ ∃ k ∈ n :: rest, (s.watchpointInfo a n rest).wpt = BitVec.ofNat 6 k := by
  have hv (r : Bool) : wptValid s.cfg r = true := by simp [wptValid, h]
  exact ⟨hv _, _, (s.skip 64).chooseFrom_mem n rest, if_pos (hv _)⟩

/-- An access of an instruction that executes is handled. -/
theorem step_of_access {s u : State} {a : DataAccess} (ho : s.offers (.access a) u) (hil : s.pstate.IL = false) :
    step s = handleAccess a u := by
  rw [State.step_of_offers ho]
  exact if_neg (by rw [State.offers_pstate ho, hil]; decide)

/-- Settles O53: the syndrome is that of a Watchpoint exception whose fields report one of the watchpoints that match. -/
theorem watchpointException : Obligations.WatchpointException := by
  intro s u a ho hil hh
  have hhu : (u.skip 65).env.dbg.haltOnBpWp = false := by
    change u.env.dbg.haltOnBpWp = false; rw [State.offers_env ho]; exact hh
  have hmu : (u.skip 65).mdscr = s.mdscr := State.offers_mdscr (u := u) ho
  rw [step_of_access ho hil]
  refine ⟨fun h => ⟨u.draws + 65, ?_⟩, fun ⟨n, hn, hmatch⟩ hm hw => ?_⟩
  · cases hl : u.watchpointsMatching a with
    | nil => exact handleAccess_of_nil hl
    | cons n rest =>
      have hne : ¬ ∀ n < 64, u.watchpointMatch a n = false := fun hn => by
        rw [(u.watchpointsMatching_eq_nil a).mpr hn] at hl; cases hl
      rw [handleAccess_of_cons hl, State.debugMatch_disabled hhu (by rw [hmu]; exact h.resolve_left hne)]
      rfl
  · have hmem := (u.mem_watchpointsMatching a n).mpr ⟨hn, hmatch⟩
    cases hl : u.watchpointsMatching a with
    | nil => rw [hl] at hmem; cases hmem
    | cons k rest =>
      have hwu : DebugWithin (u.skip 65) := by rw [State.offers_frame ho]; exact hw
      have ht := State.debugMatch_taken hhu (by rw [hmu]; exact hm) hwu (.watchpoint (u.watchpointInfo a k rest))
      have hel : ((u.skip 65).pstate.EL == .el1) = (s.pstate.EL == .el1) := by
        change (u.pstate.EL == .el1) = _; rw [State.offers_pstate ho]
      refine ⟨_, _, handleAccess_of_cons hl, ht.of_skip.congr (State.offers_debugRoutes (u := u) ho), ?_⟩
      obtain ⟨hec, -, hwpt, hwptv, -, -, -, -, -, hcm, -, hwnr, hdfsc⟩ :=
        fieldsAt_esrValue (u.skip 65).cfg (u.skip 65).pstate.M ((u.skip 65).pstate.EL == .el1) (u.skip 65).pstate.nRW
          (ExcInfo.watchpoint (u.watchpointInfo a k rest)).iss2 true (.watchpoint (u.watchpointInfo a k rest))
      refine ⟨hec.trans ?_, esrIL_esrValue .., hdfsc, hcm, fun hat => hwnr.trans ?_, fun hd => ?_⟩
      · rw [hel]; simp only [beq_iff_eq]
      · simp [State.watchpointInfo, hat]
      · obtain ⟨hv, j, hj, hw⟩ := u.watchpointInfo_wpt a k rest (by rw [State.offers_cfg ho]; exact hd)
        obtain ⟨hj64, hjm⟩ := (u.mem_watchpointsMatching a j).mp (hl ▸ hj)
        exact ⟨hwptv.trans hv, j, hj64, hjm, hwpt.trans hw⟩

end Sys2Proof.Machine
end

