-- ==== Sys2Proof/Proofs/External.lean ====
section
/-! PROOFS. The external debug interface: the accesses to DBGBVR<n>_EL1 in the view that BT selects, and to DBGWCR<n>_EL1 (20_memory R410 to
R412; 15_debug_regs R301 to R315). -/

namespace Sys2Proof.Machine

open Sys2Proof

/-! ### DBGBVR<n>_EL1 as read -/

theorem contextID2Views_iff (c : Config) : contextID2Views c = true ↔ ContextID2 c := by
  simp [contextID2Views, ContextID2]

theorem State.vmid16_iff (s : State) : s.vmid16 = true ↔ Vmid16InUse s := by
  simp [State.vmid16, Vmid16InUse, and_assoc]

/-- Copying the top bit of the address upward is extending its sign (R305). -/
theorem signExtend_of_top (v : Word) {top : Nat}
    (hb : ∀ i < 64, (highBits (top + 1)).getLsbD i = decide (top + 1 ≤ i)) :
    (if v.getLsbD top then v ||| highBits (top + 1) else v &&& ~~~highBits (top + 1))
      = (v.extractLsb' 0 (top + 1)).signExtend 64 := by
  refine BitVec.eq_of_getLsbD_eq fun i hi => ?_
  rw [BitVec.getLsbD_signExtend, BitVec.msb_eq_getLsbD_last]
  simp only [Nat.add_sub_cancel, BitVec.getLsbD_extractLsb', Nat.zero_add, hi, decide_true, Bool.true_and, Nat.lt_succ_self]
  have hnot : (~~~highBits (top + 1)).getLsbD i = !decide (top + 1 ≤ i) := by rw [BitVec.getLsbD_not, hb i hi]; simp [hi]
  by_cases ht : i < top + 1
  · have hn : decide (top + 1 ≤ i) = false := decide_eq_false (by omega)
    rw [if_pos ht, decide_eq_true ht]
    split
    · rw [BitVec.getLsbD_or, hb i hi, hn, Bool.or_false, Bool.true_and]
    · rw [BitVec.getLsbD_and, hnot, hn, Bool.not_false, Bool.and_true, Bool.true_and]
  · have hn : decide (top + 1 ≤ i) = true := decide_eq_true (by omega)
    rw [if_neg ht]
    split
    · rw [BitVec.getLsbD_or, hb i hi, hn, Bool.or_true]
      simp [*]
    · rw [BitVec.getLsbD_and, hnot, hn, Bool.not_true, Bool.and_false]
      simp [*]

theorem bvrAddress_eq (c : Config) (v : Word) : bvrAddress c v =
    if c.ressHardwired = false then v
    else if c.dbg.lva = true then (v.extractLsb' 0 53).signExtend 64 else (v.extractLsb' 0 49).signExtend 64 := by
  unfold bvrAddress topOfVA
  cases c.ressHardwired with
  | false => rfl
  | true =>
    cases c.dbg.lva with
    | false => exact signExtend_of_top v (by decide)
    | true => exact signExtend_of_top v (by decide)

theorem State.bvrAddressRes0_eq (s : State) : s.bvrAddressRes0 = if s.pstate.nRW = true then 0xFFFFFFFF00000003 else 0x3 := by
  unfold State.bvrAddressRes0
  cases s.pstate.nRW
  · rfl
  · decide

/-- What a breakpoint value register reads as, whatever the free value. -/
theorem bvrReads_value (s : State) (n : Nat) (d : Word) : BvrReads s n ((s.bvrReading n).value d) := by
  have h3 : (s.bt n).getLsbD 3 = ((s.bt n).extractLsb' 1 3).getLsbD 2 := by simp
  have h1 : (s.bt n).getLsbD 1 = ((s.bt n).extractLsb' 1 3).getLsbD 0 := by simp
  have hk : highBits 32 = 0xFFFFFFFF00000000 := by decide
  have hview (r : Word) := Reading.value_readsAs { held := s.bvr n, unknown := 0, res0 := r, res1 := 0 } d rfl
  unfold BvrReads State.bvrReading
  simp only [h3, h1]
  generalize (s.bt n).extractLsb' 1 3 = g
  have hg : g = 0 ∨ g = 1 ∨ g = 2 ∨ g = 3 ∨ g = 4 ∨ g = 5 ∨ g = 6 ∨ g = 7 := by revert g; decide
  rcases hg with rfl | rfl | rfl | rfl | rfl | rfl | rfl | rfl
  · rw [← bvrAddress_eq, ← s.bvrAddressRes0_eq]
    exact Reading.value_readsAs _ d rfl
  · exact hk ▸ hview _
  · rw [← bvrAddress_eq, ← s.bvrAddressRes0_eq]
    exact Reading.value_readsAs _ d rfl
  · intro hc
    rw [(contextID2Views_iff s.cfg).mpr hc]
    exact hk ▸ hview _
  · intro h2
    rw [h2]
    refine ⟨fun hv => ?_, fun hv => ?_⟩
    · have hm : highBits 48 ||| s.bvrVmidHigh ||| 0xFFFFFFFF = 0xFFFF0000FFFFFFFF := by
        rw [State.bvrVmidHigh, s.vmid16_iff.mpr hv]; decide
      exact hm ▸ hview _
    · have hm : highBits 48 ||| s.bvrVmidHigh ||| 0xFFFFFFFF = 0xFFFFFF00FFFFFFFF := by
        rw [State.bvrVmidHigh, eq_false_of_iff s.vmid16_iff hv]; decide
      exact hm ▸ hview _
  · intro h2
    rw [h2]
    refine ⟨fun hv => ?_, fun hv => ?_⟩
    · have hm : highBits 48 ||| s.bvrVmidHigh = 0xFFFF000000000000 := by
        rw [State.bvrVmidHigh, s.vmid16_iff.mpr hv]; decide
      exact hm ▸ hview _
    · have hm : highBits 48 ||| s.bvrVmidHigh = 0xFFFFFF0000000000 := by
        rw [State.bvrVmidHigh, eq_false_of_iff s.vmid16_iff hv]; decide
      exact hm ▸ hview _
  · intro hc
    rw [(contextID2Views_iff s.cfg).mpr hc]
    exact hview _
  · intro hc
    rw [(contextID2Views_iff s.cfg).mpr hc]
    exact Reading.plain_value (s.bvr n) d

/-! ### The accesses (R410 to R412) -/

/-- The value register of breakpoint `n` is at its address. -/
theorem State.breakpointAt_eq (s : State) {n : Nat} (h : n < 16) :
    s.breakpointAt (s.cfg.debugBase + BitVec.ofNat 64 (0x400 + 16 * n)) = some n := by
  have ho : s.debugOffset (s.cfg.debugBase + BitVec.ofNat 64 (0x400 + 16 * n)) = 0x400 + 16 * n := by
    rw [State.debugOffset, BitVec.add_comm, BitVec.add_sub_cancel, BitVec.toNat_ofNat, Nat.mod_eq_of_lt (by omega)]
  rw [State.breakpointAt, ho]
  simp only [show (0x400 + 16 * n - 0x400) / 16 = n by omega]
  exact if_pos (by simp; omega)

/-- A write of a breakpoint value register is seen at its index and at no other. -/
theorem State.bvr_writeBvr (s : State) {n : Nat} (v : Word) (hn : n < 16) (k : Nat) :
    (s.writeBvr n v).bvr k = if k = n then v else s.bvr k := by
  unfold State.bvr State.writeBvr
  rw [dif_pos hn]
  by_cases hk : k < 16
  · simp only [dif_pos hk, Vector.getElem_set, eq_comm (a := n)]
  · rw [dif_neg hk, dif_neg hk, if_neg (by omega)]

theorem State.writeBvr_frame (s : State) (n : Nat) (v : Word) : s.writeBvr n v = { s with dbgbvr := (s.writeBvr n v).dbgbvr } := by
  unfold State.writeBvr; split <;> rfl

section
variable {s u : State} {i : Input}

theorem State.offers_extOk (h : s.offers i u) : u.extOk = s.extOk := by rw [State.offers_frame h]; rfl
theorem State.offers_bvr (h : s.offers i u) : u.bvr = s.bvr := by rw [State.offers_frame h]; rfl
theorem State.offers_wcr (h : s.offers i u) : u.wcr = s.wcr := by rw [State.offers_frame h]; rfl
theorem State.offers_bvrReading (h : s.offers i u) (n : Nat) : u.bvrReading n = s.bvrReading n := by rw [State.offers_frame h]; rfl
theorem State.offers_wcrReading (h : s.offers i u) (n : Nat) : u.reading (.dbgwcr n) = s.reading (.dbgwcr n) := by
  rw [State.offers_frame h]; rfl

end

/-- A read of DBGBVR<n>_EL1. -/
theorem step_of_extRead {s u : State} {n : Nat} (h16 : n < 16)
    (ho : s.offers (.extRead (s.cfg.debugBase + BitVec.ofNat 64 (0x400 + 16 * n))) u) : step s = .next (u.extRead n) := by
  rw [State.step_of_offers ho, ← State.offers_cfg ho]
  simp only [handleInput, handleExtRead, u.breakpointAt_eq h16]

theorem step_of_extWrite {s u : State} {n : Nat} {v : Word} (h16 : n < 16)
    (ho : s.offers (.extWrite (s.cfg.debugBase + BitVec.ofNat 64 (0x400 + 16 * n)) v) u) : step s = .next (u.extWrite n v) := by
  rw [State.step_of_offers ho, ← State.offers_cfg ho]
  simp only [handleInput, handleExtWrite, u.breakpointAt_eq h16]

/-- Settles O54: each access is what its operation does for an implemented breakpoint or watchpoint. -/
theorem externalAccess : Obligations.ExternalAccess := by
  intro s u n v h16 hn
  refine ⟨fun ho => ?_, fun ho => ?_, fun k hk hw => ⟨fun ho => ?_, fun ho => ?_⟩⟩
  · have hnu : n < u.cfg.numBreakpoints := by rw [State.offers_cfg ho]; exact hn
    rw [step_of_extRead h16 ho, State.extRead, if_pos hnu, State.offers_extOk ho]
    refine ⟨fun hok => ?_, fun hok => ?_⟩
    · rw [hok, if_pos rfl, State.afterRead_frame]
      refine ⟨_, _, rfl, ?_⟩
      rw [State.valueOf, State.offers_bvrReading ho]
      exact bvrReads_value s n _
    · rw [hok]; rfl
  · have hnu : n < u.cfg.numBreakpoints := by rw [State.offers_cfg ho]; exact hn
    have hlu : u.env.ext.softwareLock = s.env.ext.softwareLock := by rw [State.offers_env ho]
    rw [step_of_extWrite h16 ho, State.extWrite, if_pos hnu, State.offers_extOk ho, hlu]
    refine ⟨fun hok hl => ⟨(u.writeBvr n v).answer .written, ?_, ?_, fun j => ?_⟩, fun hok hl => ?_, fun hok => ?_⟩
    · rw [hok, hl]; rfl
    · rw [State.writeBvr_frame]; rfl
    · rw [← State.offers_bvr ho]
      exact u.bvr_writeBvr v h16 j
    · rw [hok, hl]; rfl
    · rw [hok]; rfl
  · have he : u.watchpointExists k = true := by rw [State.watchpointExists, State.offers_cfg ho]; simp [hk, hw]
    rw [State.step_of_offers ho]
    change ∃ r d, Host.Outcome.next (u.extReadWcr k) = _ ∧ _
    rw [State.extReadWcr, if_pos he, State.afterRead_frame]
    refine ⟨_, _, rfl, ?_⟩
    rw [State.valueOf, State.offers_wcrReading ho]
    exact wcrReads_value s k _
  · have he : u.watchpointExists k = true := by rw [State.watchpointExists, State.offers_cfg ho]; simp [hk, hw]
    refine ⟨(u.writeWcr k v).answer .written, ?_, ?_, fun j => ?_⟩
    · rw [State.step_of_offers ho]
      change Host.Outcome.next (u.extWriteWcr k v) = _
      rw [State.extWriteWcr, if_pos he]
    · rw [State.writeWcr_frame]; rfl
    · rw [← State.offers_wcr ho]
      exact u.wcr_writeWcr k v hk j

end Sys2Proof.Machine
end

