-- ==== Sys2Proof/Proofs/Samples.lean ====
section
/-! PROOFS. Which sampled operations are recorded (16_profiling_regs R360 to R375; 93 P6). -/

namespace Sys2Proof.Machine

open Sys2Proof

/-! ### The filter by type (R369, R375) -/

/-- Without mask bits, and with a type bit, the type of the operation is one of those selected. -/
theorem typeMatch_unmasked (c : Config) {v : Word} {o : Sample} (hm : ∀ t ∈ typeControls v o, t.2.2 = false)
    (hs : noTypeSelected v o = false) : typeMatch c v o = (typeControls v o).any fun t => t.2.1 && t.1 := by
  have hmasked : (typeControls v o).filter (fun t => t.2.2) = [] :=
    List.filter_eq_nil_iff.mpr fun t ht => by rw [hm t ht]; decide
  have hselected : (typeControls v o).filter (fun t => !t.2.2 && t.2.1) = (typeControls v o).filter (fun t => t.2.1) :=
    List.filter_congr fun t ht => by rw [hm t ht]; rfl
  have hne : ((typeControls v o).filter (fun t => t.2.1)).isEmpty = false := by
    rw [noTypeSelected, List.all_eq_false] at hs
    obtain ⟨t, ht, h⟩ := hs
    rw [List.isEmpty_eq_false_iff]
    exact List.ne_nil_of_mem (List.mem_filter.mpr ⟨ht, by simpa using h⟩)
  simp only [typeMatch, hmasked, hselected, hne]
  simp [List.any_filter]

/-! ### A CONSTRAINED UNPREDICTABLE case of a control bit (R371 to R374) -/

/-- The bit of the choice that decides the case of a control bit. -/
def choiceBit : Nat → Nat
  | 0 => 2
  | 1 => 1
  | 2 => 0
  | k => k

/-- Clearing a control bit clears it in what the register reads as, and no other bit. -/
theorem getLsbD_clear (v m : Word) (k : Nat) {j : Nat} (hj : j < 64) :
    (v &&& ~~~(1#64 <<< k) &&& ~~~m).getLsbD j = ((v &&& ~~~m).getLsbD j && !decide (j = k)) := by
  have h1 : (1#64 <<< k).getLsbD j = decide (j = k) := by
    rw [BitVec.getLsbD_shiftLeft, BitVec.getLsbD_one]
    by_cases hjk : j = k
    · simp [hjk, hjk ▸ hj]
    · simp [hjk]; omega
  simp only [BitVec.getLsbD_and, BitVec.getLsbD_not, hj, decide_true, Bool.true_and, h1]
  cases v.getLsbD j <;> cases m.getLsbD j <;> cases decide (j = k) <;> rfl

section
variable {c : Config} {v w : Word} {o : Sample}

theorem noTypeSelected_congr (h : typeControls v o = typeControls w o) : noTypeSelected v o = noTypeSelected w o := by
  rw [noTypeSelected, h, noTypeSelected]

theorem typeMatch_congr (h : typeControls v o = typeControls w o) : typeMatch c v o = typeMatch c w o := by
  unfold typeMatch
  rw [h]

theorem extract_eq_zero_iff {lo n : Nat} : v.extractLsb' lo n = 0 ↔ ∀ j < n, v.getLsbD (lo + j) = false := by
  constructor
  · intro h j hj
    have hx : (v.extractLsb' lo n).getLsbD j = (0 : BitVec n).getLsbD j := by rw [h]
    rw [BitVec.getLsbD_extractLsb', decide_eq_true hj, Bool.true_and] at hx
    simpa using hx
  · intro h
    refine BitVec.eq_of_getLsbD_eq fun j hj => ?_
    rw [BitVec.getLsbD_extractLsb', h j hj, Bool.and_false]
    simp

/-- No type bit is set exactly where the field of the type bits is 0. -/
theorem noTypeSelected_iff : noTypeSelected v o = true ↔ v.extractLsb' 16 5 = 0 := by
  rw [extract_eq_zero_iff]
  simp only [noTypeSelected, typeControls, List.all_cons, List.all_nil, Bool.and_true, Bool.and_eq_true, Bool.not_eq_true']
  constructor
  · rintro ⟨h20, h19, h18, h17, h16⟩ j hj
    interval_cases j <;> assumption
  · intro h
    exact ⟨h 4 (by decide), h 3 (by decide), h 2 (by decide), h 1 (by decide), h 0 (by decide)⟩

theorem mask_of_extract (h : v.extractLsb' 48 5 = 0) : ∀ t ∈ typeControls v o, t.2.2 = false := by
  rw [extract_eq_zero_iff] at h
  simp only [typeControls, List.forall_mem_cons, List.not_mem_nil, false_imp_iff, implies_true, and_true]
  exact ⟨h 4 (by decide), h 3 (by decide), h 2 (by decide), h 1 (by decide), h 0 (by decide)⟩

end

/-- In such a case the choice decides between no record and what is recorded with the control bit 0. -/
theorem recordSample_unpredictable {s : State} {k : Nat} (hk : k < 4) (hu : SamplingUnpredictable s k) (o : Sample) (d : Word) :
    recordSample s.cfg s.env.prof s.pmsfcr o d =
      (d.getLsbD (choiceBit k) && recordSample s.cfg s.env.prof (s.pmsfcr &&& ~~~(1#64 <<< k)) o d) := by
  obtain ⟨hv, hu⟩ := hu
  have hb (j : Nat) (hj : j < 64) := getLsbD_clear s.pmsfcr (pmsfcrRes0 s.cfg) k hj
  simp only [recordSample]
  generalize s.pmsfcr &&& ~~~pmsfcrRes0 s.cfg = v at hv hu hb
  generalize s.pmsfcr &&& ~~~(1#64 <<< k) &&& ~~~pmsfcrRes0 s.cfg = w at hb
  have htc : typeControls w o = typeControls v o := by
    have hne (j : Nat) (hj : j < 64) (h16 : 16 ≤ j) : w.getLsbD j = v.getLsbD j := by
      rw [hb j hj, decide_eq_false (by omega)]; simp
    simp only [typeControls, hne 20, hne 52, hne 19, hne 51, hne 18, hne 50, hne 17, hne 49, hne 16, hne 48, Nat.reduceLeDiff,
      Nat.reduceLT]
  have h0 := hb 0 (by decide)
  have h1 := hb 1 (by decide)
  have h2 := hb 2 (by decide)
  have h3 := hb 3 (by decide)
  have h4 := hb 4 (by decide)
  simp only [passFL, passFT, passFE, passFnE, passFDS, noTypeSelected_congr htc, typeMatch_congr htc, h0, h1, h2, h3, h4]
  interval_cases k
  · have hu : s.env.prof.pmsevfr = 0 := hu
    simp only [hv, hu, choiceBit]
    cases d.getLsbD 2 <;> simp
  · simp only [hv, noTypeSelected_iff.mpr hu, choiceBit]
    cases d.getLsbD 1 <;> simp
  · have hu : s.env.prof.minlat = 0 := hu
    simp only [hv, hu, choiceBit]
    cases d.getLsbD 0 <;> simp
  · have hu : s.env.prof.pmsnevfr = 0 := hu
    simp only [hv, hu, choiceBit]
    cases d.getLsbD 3 <;> simp

/-! ### The statement -/

/-- The step of a sample records it or leaves the log. -/
theorem step_of_sample {s u : State} {o : Sample} (ho : s.offers (.sample o) u) (hs : s.cfg.prof.spe = true) :
    step s = .next { u with
      speLog := if recordSample s.cfg s.env.prof s.pmsfcr o samplingChoice then o :: s.speLog else s.speLog } := by
  have hp : u.pmsfcr = s.pmsfcr ∧ u.speLog = s.speLog := by rw [State.offers_frame ho]; exact ⟨rfl, rfl⟩
  rw [State.step_of_offers ho, ← State.offers_cfg ho, ← State.offers_env ho, ← hp.1, ← hp.2]
  exact if_pos (by rw [State.offers_cfg ho]; exact hs)

/-- The input is offered whatever PMSFCR_EL1 holds. -/
theorem State.offers_withPmsfcr {s u : State} {i : Input} (ho : s.offers i u) (v : Word) :
    ({ s with pmsfcr := v } : State).offers i { u with pmsfcr := v } := by
  obtain ⟨hp, hd, rest, hi, rfl⟩ := ho
  refine ⟨hp, hd, rest, hi, ?_⟩
  unfold State.settle
  split <;> rfl

section
variable {c : Config} {e : ProfilingInputs} {v : Word} {o : Sample} {d : Bool}

theorem passFL_iff (h : e.minlat ≠ 0) : passFL e v o d = true ↔ (v.getLsbD 2 = true → e.minlat ≤ o.latency) := by
  rw [passFL, if_neg h]
  cases v.getLsbD 2 <;> simp

theorem passFT_iff (hm : v.extractLsb' 48 5 = 0) (ht : v.extractLsb' 16 5 ≠ 0) : passFT c v o d = true ↔
    (v.getLsbD 1 = true → (v.getLsbD 20 = true ∧ o.simd = true) ∨ (v.getLsbD 19 = true ∧ o.fp = true) ∨
      (v.getLsbD 18 = true ∧ o.st = true) ∨ (v.getLsbD 17 = true ∧ o.ld = true) ∨ (v.getLsbD 16 = true ∧ o.br = true)) := by
  have hn : noTypeSelected v o = false := eq_false_of_iff noTypeSelected_iff ht
  rw [passFT, hn, if_neg Bool.false_ne_true, typeMatch_unmasked c (mask_of_extract hm) hn]
  simp only [typeControls, List.any_cons, List.any_nil, Bool.or_false, Bool.or_eq_true, Bool.and_eq_true]
  cases v.getLsbD 1 <;> simp only [Bool.not_true, Bool.not_false, Bool.false_eq_true, false_or, true_or, false_imp_iff, forall_const]

theorem passFE_iff (h : e.pmsevfr ≠ 0) : passFE e v o d = true ↔ (v.getLsbD 0 = true → o.hasSelectedEvents = true) := by
  rw [passFE, if_neg h]
  cases v.getLsbD 0 <;> simp

theorem passFnE_iff (h : e.pmsnevfr ≠ 0) : passFnE e v o d = true ↔ (v.getLsbD 3 = true → o.hasInvertedEvents = false) := by
  rw [passFnE, if_neg h]
  cases v.getLsbD 3 <;> simp

theorem passFDS_iff : passFDS e v o = true ↔
    (v.getLsbD 4 = true → o.ld = true → o.dataSource = .absent ∨ (o.dataSource = .selected ∧ e.pmsdsfr ≠ 0)) := by
  unfold passFDS
  cases v.getLsbD 4 <;> cases o.ld <;> cases o.dataSource <;> simp

end

/-- The filters that are enabled, outside the CONSTRAINED UNPREDICTABLE cases and without mask bits. -/
theorem recordSample_iff {c : Config} {e : ProfilingInputs} {r v d : Word} {o : Sample} (hv : v = r &&& ~~~pmsfcrRes0 c)
    (hl : e.minlat ≠ 0) (hse : e.pmsevfr ≠ 0) (hne : e.pmsnevfr ≠ 0) (hm : v.extractLsb' 48 5 = 0) (ht : v.extractLsb' 16 5 ≠ 0) :
    recordSample c e r o d = true ↔ (v.getLsbD 2 = true → e.minlat ≤ o.latency) ∧
      (v.getLsbD 1 = true → (v.getLsbD 20 = true ∧ o.simd = true) ∨ (v.getLsbD 19 = true ∧ o.fp = true) ∨
        (v.getLsbD 18 = true ∧ o.st = true) ∨ (v.getLsbD 17 = true ∧ o.ld = true) ∨ (v.getLsbD 16 = true ∧ o.br = true)) ∧
      (v.getLsbD 0 = true → o.hasSelectedEvents = true) ∧ (v.getLsbD 3 = true → o.hasInvertedEvents = false) ∧
      (v.getLsbD 4 = true → o.ld = true → o.dataSource = .absent ∨ (o.dataSource = .selected ∧ e.pmsdsfr ≠ 0)) := by
  subst hv
  unfold recordSample
  generalize r &&& ~~~pmsfcrRes0 c = v at hm ht
  simp only [Bool.and_eq_true, passFL_iff hl, passFT_iff hm ht, passFE_iff hse, passFnE_iff hne, passFDS_iff, and_assoc]

/-- Settles O56: the record is that of the enabled filters, and the choice of the run decides each CONSTRAINED UNPREDICTABLE case. -/
theorem sampleFilter : Obligations.SampleFilter := by
  refine ⟨fun s u o ho hs hl hse hne v hv hm ht => ⟨_, step_of_sample ho hs, rfl, ?_⟩, fun k hk => ?_⟩
  · exact if_congr (recordSample_iff hv hl hse hne hm ht) rfl rfl
  · cases hd : samplingChoice.getLsbD (choiceBit k) with
    | false =>
      refine Or.inl fun s u o ho hs hu => ?_
      rw [step_of_sample ho hs, recordSample_unpredictable hk hu, hd]
      rw [State.offers_frame ho]; rfl
    | true =>
      refine Or.inr fun s u o ho hs hu => ⟨_, _, step_of_sample ho hs, step_of_sample (State.offers_withPmsfcr ho _) hs, rfl, ?_⟩
      rw [recordSample_unpredictable hk hu, hd]; rfl

end Sys2Proof.Machine
end
